-- ==== Sys2Proof/Word.lean ====
section
/-! DEFINITION. Sys2Proof/Word.lean: the plain words of the hub's manual: bytes, the numbers of ports, slots,
resources, windows, semaphores and links, sets of ports and of notice kinds, saturating counts, and tables of a
fixed number of like records. -/

namespace Sys2Proof

/-- One byte of a frame, of the profile flash or of a setup-link reply (spec 13). -/
abbrev Byte := BitVec 8

/-- An agent port P0 to P3 (R175). -/
abbrev PortId := Fin 4

/-- A slot 0 to 15 of the fixture (0.5). -/
abbrev SlotId := Fin 16

/-- A resource number: GEN s is s, CHK s is 16 + s (R35). -/
abbrev ResId := Fin 32

/-- A window W0 to W7 (R63). -/
abbrev WinId := Fin 8

/-- A semaphore S0 to S7 (R99). -/
abbrev SemId := Fin 8

/-- A link id L0 to L127 (R1). -/
abbrev LinkId := Fin 128

/-- A set of agent ports, one bit for each, P0 at bit 0: as the sets are sent (R198). -/
abbrev PortSet := BitVec 4

/-- A set of the eleven notice kinds, one bit for each, numbered as in 13.2 (R184, R198). -/
abbrev NoticeSet := BitVec 11

/-- The port is in the set. -/
def PortSet.has (s : PortSet) (p : PortId) : Bool := s.getLsbD p.val

/-- The set with the port added. -/
def PortSet.add (s : PortSet) (p : PortId) : PortSet := s ||| BitVec.twoPow 4 p.val

/-- The set with the port removed. -/
def PortSet.drop (s : PortSet) (p : PortId) : PortSet := s &&& ~~~(BitVec.twoPow 4 p.val)

/-- A count raised by `n`, staying at `max` once there: every counter of the hub saturates (0.5, Counters). -/
def satAdd (max a n : Nat) : Nat := min max (a + n)

/-- The largest one-byte, two-byte and four-byte numbers. -/
def max8 : Nat := 255
def max16 : Nat := 65535
def max32 : Nat := 4294967295

/-- A table of `n` like records, addressed by number. -/
abbrev Table (n : Nat) (α : Type) := Vector α n

namespace Table

variable {n : Nat} {α β : Type}

/-- The record at a number. -/
def rd (t : Table n α) (i : Fin n) : α := Vector.get t i

/-- The table with the record at a number replaced. -/
def put (t : Table n α) (i : Fin n) (a : α) : Table n α := Vector.set t i.val a i.isLt

/-- The table with the record at a number changed. -/
def upd (t : Table n α) (i : Fin n) (f : α → α) : Table n α := Table.put t i (f (Table.rd t i))

/-- Every record changed in the same way. -/
def each (f : α → β) (t : Table n α) : Table n β :=
  ⟨⟨t.toList.map f⟩, by simp⟩

/-- The table whose record at every number is given by a function of the number. -/
def build (f : Fin n → α) : Table n α :=
  ⟨⟨(List.finRange n).map f⟩, by simp⟩

/-- The same record at every number. -/
def fill (n : Nat) (a : α) : Table n α := Vector.replicate n a

end Table

end Sys2Proof
end

