-- ==== Sys2Proof/Syntax.lean ====
section
/-! DEFINITION. Sys2Proof/Syntax.lean: the commands of the hub, one constructor for each row of
spec/opcode_table.json, in the table's order. -/

namespace Sys2Proof

/-- The two rates at which a lamp blinks, each with its blink clock (R191, R195). -/
inductive BlinkRate where
  | slow
  | fast
  deriving DecidableEq, Repr

/-- A command: an edge of RST_N, the end of a flash read with the bytes read, an agent port transaction, a timer
of the hub that expires, an edge on a slot sideband, or the end of an exchange. A request is the transaction
that carries its frame: `p` is the agent port, `rest` the whole bytes received after the request's code byte
(tag, length, parameters, CRC-8, filler), `cut` whether the transaction ended inside a further byte (R177). -/
inductive Instr where
  /-- RST_N is asserted (R20, R17, R190). -/
  | reset
  /-- RST_N is released (R6). -/
  | resetRelease
  /-- The read of the profile header ends; the seven bytes read (R7, R199). -/
  | headerRead (bytes : List Byte)
  /-- The read of an area ends; the bytes of the area from its kind byte on (R9, R199). -/
  | areaVisit (bytes : List Byte)
  /-- A noted LINKS area has been read again; its bytes from its kind byte on (R12, R199). -/
  | linksAreaRead (bytes : List Byte)
  /-- The deselect of a transaction; every whole byte received (R176 to R181). -/
  | transactionEnd (p : PortId) (rx : List Byte) (cut : Bool)
  /-- READ_RUN (R34). -/
  | readRun (p : PortId) (rest : List Byte) (cut : Bool)
  /-- RUN_START (R23). -/
  | runStart (p : PortId) (rest : List Byte) (cut : Bool)
  /-- RUN_CLOSE (R24). -/
  | runClose (p : PortId) (rest : List Byte) (cut : Bool)
  /-- RUN_ABORT (R25). -/
  | runAbort (p : PortId) (rest : List Byte) (cut : Bool)
  /-- RELOAD (R30). -/
  | reload (p : PortId) (rest : List Byte) (cut : Bool)
  /-- READ_LINK (R18). -/
  | readLink (p : PortId) (rest : List Byte) (cut : Bool)
  /-- WITHDRAW (R162, R163). -/
  | withdraw (p : PortId) (rest : List Byte) (cut : Bool)
  /-- RESTORE (R174). -/
  | restore (p : PortId) (rest : List Byte) (cut : Bool)
  /-- ACK_WITHDRAW (R165). -/
  | ackWithdraw (p : PortId) (rest : List Byte) (cut : Bool)
  /-- SYNC (R171). -/
  | sync (p : PortId) (rest : List Byte) (cut : Bool)
  /-- READ_WITHDRAWS (R173). -/
  | readWithdraws (p : PortId) (rest : List Byte) (cut : Bool)
  /-- LEASE (R38 to R43). -/
  | lease (p : PortId) (rest : List Byte) (cut : Bool)
  /-- RELEASE (R48, R49). -/
  | release (p : PortId) (rest : List Byte) (cut : Bool)
  /-- POST (R50). -/
  | post (p : PortId) (rest : List Byte) (cut : Bool)
  /-- DISCARD (R51). -/
  | discard (p : PortId) (rest : List Byte) (cut : Bool)
  /-- RECALL (R53). -/
  | recallResource (p : PortId) (rest : List Byte) (cut : Bool)
  /-- CANCEL_WAIT (R47). -/
  | cancelWait (p : PortId) (rest : List Byte) (cut : Bool)
  /-- READ_LEASES (R58). -/
  | readLeases (p : PortId) (rest : List Byte) (cut : Bool)
  /-- OPEN_WINDOW (R67 to R69). -/
  | openWindow (p : PortId) (rest : List Byte) (cut : Bool)
  /-- START (R70). -/
  | start (p : PortId) (rest : List Byte) (cut : Bool)
  /-- STOP (R85). -/
  | stop (p : PortId) (rest : List Byte) (cut : Bool)
  /-- RETIME (R80). -/
  | retime (p : PortId) (rest : List Byte) (cut : Bool)
  /-- CLOSE_WINDOW (R96). -/
  | closeWindow (p : PortId) (rest : List Byte) (cut : Bool)
  /-- READ_WINDOW (R97). -/
  | readWindow (p : PortId) (rest : List Byte) (cut : Bool)
  /-- SEM_SET (R104). -/
  | semSet (p : PortId) (rest : List Byte) (cut : Bool)
  /-- SEM_CLEAR (R105). -/
  | semClear (p : PortId) (rest : List Byte) (cut : Bool)
  /-- SEM_READ (R106). -/
  | semRead (p : PortId) (rest : List Byte) (cut : Bool)
  /-- READ_CAPTURE (R116). -/
  | readCapture (p : PortId) (rest : List Byte) (cut : Bool)
  /-- SET_CAPTURE (R117). -/
  | setCapture (p : PortId) (rest : List Byte) (cut : Bool)
  /-- READ_VERDICT (R153, R154). -/
  | readVerdict (p : PortId) (rest : List Byte) (cut : Bool)
  /-- READ_FAULTS (R135). -/
  | readFaults (p : PortId) (rest : List Byte) (cut : Bool)
  /-- CLEAR_FAULT (R134). -/
  | clearFault (p : PortId) (rest : List Byte) (cut : Bool)
  /-- SET_LAMP (R196). -/
  | setLamp (p : PortId) (rest : List Byte) (cut : Bool)
  /-- SET_BLINK (R197). -/
  | setBlink (p : PortId) (rest : List Byte) (cut : Bool)
  /-- READ_NOTICES (R186). -/
  | readNotices (p : PortId) (rest : List Byte) (cut : Bool)
  /-- CLEAR_NOTICES (R186). -/
  | clearNotices (p : PortId) (rest : List Byte) (cut : Bool)
  /-- SET_NOTICES (R187). -/
  | setNotices (p : PortId) (rest : List Byte) (cut : Bool)
  /-- SET_NOTICE_ENABLE (R187). -/
  | setNoticeEnable (p : PortId) (rest : List Byte) (cut : Bool)
  /-- DETACH (R188). -/
  | detach (p : PortId) (rest : List Byte) (cut : Bool)
  /-- EVICT (R189). -/
  | evict (p : PortId) (rest : List Byte) (cut : Bool)
  /-- The lease age of a held resource comes to exceed its holder's lease limit (R45). -/
  | leaseLimitCrossed (r : ResId)
  /-- The deadline of a recall is reached (R55). -/
  | recallDeadline (r : ResId)
  /-- The reply timeout of the exchange in flight runs out (R121). -/
  | setupReplyTimeout
  /-- The last bit of a reply has been clocked in; the reply's bytes (R122, R123). -/
  | setupExchangeEnd (reply : List Byte)
  /-- A time that a SETTLE window waits for is reached (R73). -/
  | settleTimeReached (w : WinId)
  /-- The lead timer of a window expires (R74, R75). -/
  | leadExpiry (w : WinId)
  /-- The dwell timer of a window expires (R76). -/
  | dwellExpiry (w : WinId)
  /-- The FLT input of a slot asserts (R130). -/
  | fltAssert (slot : SlotId)
  /-- The FLT input of a slot deasserts (R130). -/
  | fltDeassert (slot : SlotId)
  /-- The qualify deadline of a slot is reached (R130). -/
  | faultQualifyExpiry (slot : SlotId)
  /-- An ERR pulse of a slot has been asserted for `width` ns (R111). -/
  | errPulseAccept (slot : SlotId) (width : Nat)
  /-- An ERR pulse of a slot ends after `width` ns (R111). -/
  | errPulseReject (slot : SlotId) (width : Nat)
  /-- The LNK input of a slot falls (R114). -/
  | lnkFall (slot : SlotId)
  /-- The LNK input of a slot rises (R114, R193). -/
  | lnkRise (slot : SlotId)
  /-- The commit in flight completes (R142). -/
  | commitComplete
  /-- The deadline of a port's WAITING sync slot is reached (R172). -/
  | syncTimeout (p : PortId)
  /-- A blink clock changes its half-period (R195). -/
  | blinkClockToggle (clock : BlinkRate)
  /-- PSEL_N of an agent port is asserted (R176). -/
  | pselNAssertion (p : PortId)
  /-- The paddle drives the start bit of its reply (R121). -/
  | replyStartBit
  deriving DecidableEq, Repr

end Sys2Proof
end

