-- ==== Sys2Proof/Config.lean ====
section
/-! DEFINITION. Sys2Proof/Config.lean: the free values of the model: what the manual leaves open. None has a
body, so no proof can see which value it is. -/

namespace Sys2Proof

/-- Which of several timer events that are due together is taken first; the manual gives no order (R55: in
whichever order their deadlines are taken). Applied to the counter of free values (log 4). -/
opaque Config.tieBreak : Nat → Nat

/-- The time of a commit, in whole µs from its taking; R141 bounds it by 2 µs and leaves it open within the
bound. Applied to the counter of free values (log 5). -/
opaque Config.commitDelay : Nat → Nat

/-- The byte that the hub samples from a line at a place for which the command that ends the read carries no
byte. Applied to the place (log 6). -/
opaque Config.undrivenByte : Nat → Byte

/-- What a lane rate field of a READ_VERDICT answer holds for a rate that its four bytes cannot hold (R146,
R198 give the rate no bound and the field four bytes). Applied to the rate (log 11). -/
opaque Config.oversizeRate : Nat → BitVec 32

end Sys2Proof
end

