-- ==== Sys2Proof/Machine/State.lean ====
section
/-! DEFINITION. Sys2Proof/Machine/State.lean: every piece of state the manual gives the hub, block by block, as
plain data; the values at power-on; the reasons a step can stop. -/

namespace Sys2Proof.Machine

/-- Reasons to stop with a fault. The manual describes no event that stops the hub (a refused request is answered,
a paddle fault latches, a bad profile ends a load), so there is none and nothing raises one. Safe. -/
inductive Fault where
  deriving DecidableEq, Repr

/-- Reasons to refuse a command. -/
inductive Refusal where
  /-- The command has no meaning in the model yet; raised by an arm of `exec` alone. No arm raises it. Safe. -/
  | notModelled (mnemonic : String)
  deriving DecidableEq, Repr

/-! ## Link Map and Profile Loader (spec 01) -/

/-- The direction in which a link is tested: FWD drives from end A, REV from end B (0.5, R19). -/
inductive Dir where
  | fwd
  | rev
  deriving DecidableEq, Repr

/-- One of the two ends of a link. -/
inductive End where
  | a
  | b
  deriving DecidableEq, Repr

/-- The state of a link (R2). -/
inductive LinkState where
  | fitted
  | withdrawing
  | withdrawn
  deriving DecidableEq, Repr

/-- A backplane port of a slot: slot 0 to 15, port 0 to 14 (R1). -/
structure EndPoint where
  slot : SlotId
  port : Fin 15
  deriving DecidableEq, Repr

/-- A link record (R1). Its id is its place in the map. A neighbour is a Nat because the bytes of the written list
reach 255 until R13 has resolved it. -/
structure Link where
  endA : EndPoint
  endB : EndPoint
  lanes : Nat
  reversed : Bool
  limitSet : Fin 4
  neighbours : List Nat
  state : LinkState
  deriving DecidableEq, Repr

/-- The eight lamp modes, in the manual's order (R3, R193). -/
inductive LampMode where
  | off
  | on
  | link
  | activity
  | linkAct
  | verdict
  | fault
  | held
  deriving DecidableEq, Repr

/-- A slot's entry in the slot settings (R3). -/
structure SlotEntry where
  quiet : Nat
  filter : Nat
  prescale : Nat
  qualify : Nat
  lampMode : LampMode
  lampBlink : Bool
  lampInvert : Bool
  deriving DecidableEq, Repr

/-- The defaults of a slot entry (R3). -/
def SlotEntry.default : SlotEntry :=
  { quiet := 0, filter := 0, prescale := 0, qualify := 100, lampMode := .off, lampBlink := false,
    lampInvert := false }

/-- The permission class of a port (R4, R183). -/
inductive Role where
  | supervisor
  | tester
  | observer
  deriving DecidableEq, Repr

/-- The settings of one agent port in the profile (R4). -/
structure PortSettings where
  role : Role
  enableDefault : NoticeSet
  leaseLimit : Nat
  deriving DecidableEq, Repr

/-- The default role of a port: SUPERVISOR for P0, TESTER for the others (R4). -/
def Role.default (p : PortId) : Role := if p.val = 0 then .supervisor else .tester

/-- The defaults of a port's settings (R4). -/
def PortSettings.default (p : PortId) : PortSettings :=
  { role := Role.default p, enableDefault := BitVec.allOnes 11, leaseLimit := 0 }

/-- A limit set (R5). -/
structure LimitSet where
  minDwell : Nat
  passLimit : Nat
  failLimit : Nat
  lockLimit : Nat
  deriving DecidableEq, Repr

/-- The default set (R5). -/
def LimitSet.default : LimitSet :=
  { minDwell := 1000000, passLimit := 0, failLimit := 10, lockLimit := 0 }

/-- The Link Map: the link records by id, the slot settings, the port settings and the limit sets (R1 to R5). -/
structure LinkMap where
  links : Table 128 (Option Link)
  fitted : Nat
  blink : BlinkRate
  replyTimeout : Nat
  slots : Table 16 SlotEntry
  ports : Table 4 PortSettings
  recallTimeout : Nat
  syncTimeout : Nat
  limits : Table 4 LimitSet
  deriving DecidableEq, Repr

/-- The emptied map: no link, no fitted slot, every setting at its default (R6). -/
def LinkMap.empty : LinkMap :=
  { links := Table.fill 128 none, fitted := 0, blink := .slow, replyTimeout := 100,
    slots := Table.fill 16 SlotEntry.default, ports := Table.build PortSettings.default,
    recallTimeout := 500, syncTimeout := 2000, limits := Table.fill 4 LimitSet.default }

/-- The error kinds of a load, in the order in which R16 lists them. -/
inductive LoadError where
  | noSignature
  | chainBackward
  | chainTooLong
  | areaLength
  | areaChecksum
  | areaContent
  | areaRepeated
  | fieldRange
  | linkRejected
  | neighbourDropped
  | noSlots
  | noLinks
  deriving DecidableEq, Repr

/-- The causes of a fatal load (R15). -/
inductive FatalCause where
  | noSignature
  | noSlots
  | noLinks
  deriving DecidableEq, Repr

/-- The reasons for which a link record is rejected, in the order of R12, TRUNCATED last (R12, R198). -/
inductive RejectReason where
  | idRange
  | duplicateId
  | slotNotFitted
  | portRange
  | sameEndpoint
  | endpointUsed
  | lanesRange
  | limitSetRange
  | neighbourCount
  | truncated
  deriving DecidableEq, Repr

/-- The load report (R16); fatal is yes when a fatal cause is present. `rejects` holds the ten counts by reason, in
the order of `RejectReason`. -/
structure LoadReport where
  revision : Byte
  visited : Nat
  skipped : Nat
  bad : Nat
  slotsTaken : Bool
  portsTaken : Bool
  limitsTaken : Bool
  defaulted : Nat
  accepted : Nat
  rejected : Nat
  rejects : Table 10 Nat
  dropped : Nat
  firstError : Option (LoadError × Nat)
  fatal : Option FatalCause
  deriving DecidableEq, Repr

/-- The cleared report (R6). -/
def LoadReport.cleared : LoadReport :=
  { revision := 0, visited := 0, skipped := 0, bad := 0, slotsTaken := false, portsTaken := false,
    limitsTaken := false, defaulted := 0, accepted := 0, rejected := 0, rejects := Table.fill 10 0,
    dropped := 0, firstError := none, fatal := none }

/-- Where the Profile Loader stands in a load: not loading; reading the header; reading the area at an address
(its index is the report's areas visited); or reading the noted LINKS areas again, the next one first (R6 to R12). -/
inductive LoaderStage where
  | idle
  | header
  | area (addr : Nat)
  | links
  deriving DecidableEq, Repr

/-- A LINKS area noted for the link pass: its address and its area index (R10, R12). -/
structure NotedArea where
  addr : Nat
  index : Nat
  deriving DecidableEq, Repr

/-- The Profile Loader: its stage, the LINKS areas noted so far or still to be read again, and its report. -/
structure Loader where
  stage : LoaderStage
  noted : List NotedArea
  report : LoadReport
  deriving DecidableEq, Repr

/-! ## The run (spec 02) -/

/-- The run states, in the order of R20. -/
inductive RunState where
  | unloaded
  | loading
  | ready
  | running
  | closing
  | closed
  deriving DecidableEq, Repr

/-- The run time: stopped at a number of ms, or counting from a time of the ms timebase (R20, R31). -/
inductive RunTime where
  | stopped (ms : Nat)
  | counting (since : Nat)
  deriving DecidableEq, Repr

/-- The seven run counters (R31). -/
structure RunCounters where
  resultsLost : Nat
  resultsDiscarded : Nat
  postsSuperseded : Nat
  postsDropped : Nat
  windowsDone : Nat
  windowsStopped : Nat
  faultLatchings : Nat
  deriving DecidableEq, Repr

/-- Every run counter at 0. -/
def RunCounters.zero : RunCounters :=
  { resultsLost := 0, resultsDiscarded := 0, postsSuperseded := 0, postsDropped := 0, windowsDone := 0,
    windowsStopped := 0, faultLatchings := 0 }

/-- The run record (R20). -/
structure RunRecord where
  state : RunState
  number : Nat
  aborted : Bool
  time : RunTime
  counters : RunCounters
  complete : Bool
  deriving DecidableEq, Repr

/-! ## Results (R81, R137) -/

/-- The five result flags (R81, R145). -/
structure ResultFlags where
  aggressed : Bool
  mismatch : Bool
  interrupted : Bool
  faulted : Bool
  recalled : Bool
  deriving DecidableEq, Repr

/-- No flag set. -/
def ResultFlags.none : ResultFlags :=
  { aggressed := false, mismatch := false, interrupted := false, faulted := false, recalled := false }

/-- The first error of an accumulator: the repeat number and the dwell-clock time (R81). -/
structure FirstError where
  repeatNo : Nat
  time : Nat
  deriving DecidableEq, Repr

/-- An accumulator, which is also the result record of a holding and of a posted result (R81, R37, R137). -/
structure Accumulator where
  link : LinkId
  dir : Dir
  lanes : List Nat
  pulses : Nat
  dwell : Nat
  lockLosses : Nat
  repeats : Nat
  firstError : Option FirstError
  flags : ResultFlags
  retest : Bool
  deriving DecidableEq, Repr

/-! ## Lease Directory (spec 03) -/

/-- The state of a resource record with what the state brings: watchers, or holder, grant time and holding
(R35, R36). The holding is there exactly in HELD_UNPOSTED (R37). -/
inductive Lease where
  | free
  | watched (watchers : PortSet)
  | held (holder : PortId) (since : Nat)
  | heldUnposted (holder : PortId) (since : Nat) (holding : Accumulator)
  deriving DecidableEq, Repr

/-- The recall of a resource (R35, R54, R55). -/
inductive Recall where
  | none
  | recalling (deadline : Nat)
  | expiredWaiting
  deriving DecidableEq, Repr

/-- A resource record (R35). Kind and slot are fixed by its number. `crossed` is the model's own mark that the
crossing of the lease limit (R45) has been taken for the present lease (log 21). -/
structure Resource where
  lease : Lease
  recallState : Recall
  naming : Option WinId
  crossed : Bool
  deriving DecidableEq, Repr

/-- A FREE resource record (R35). -/
def Resource.free : Resource := { lease := .free, recallState := .none, naming := none, crossed := false }

/-- The mode of a LEASE (R38). -/
inductive LeaseMode where
  | hold
  | watch
  deriving DecidableEq, Repr

/-- An entry of the Lease Wait List (R43). -/
structure WaitEntry where
  port : PortId
  tag : Byte
  mode : LeaseMode
  resources : List ResId
  queuedAt : Nat
  deriving DecidableEq, Repr

/-- The Lease Directory: the resource records, the Lease Wait List with the oldest entry first, and the expired
order (R35, R43, R55). -/
structure LeaseDirectory where
  res : Table 32 Resource
  waits : List WaitEntry
  expired : List ResId
  deriving DecidableEq, Repr

/-! ## Test windows (spec 04) -/

/-- The states of a window other than IDLE (R64). -/
inductive WinState where
  | opened
  | armed
  | setup
  | settle
  | lead
  | dwell
  | harvest
  | paused
  | done
  | stopped
  deriving DecidableEq, Repr

/-- The mode of a window (R63). -/
inductive WinMode where
  | fwd
  | rev
  | paired
  deriving DecidableEq, Repr

/-- An aggressor entry: a link and its driving end (R63). -/
structure Aggressor where
  link : LinkId
  drive : End
  deriving DecidableEq, Repr

/-- How a window started by a semaphore takes it (R63, R101). -/
inductive TakeMode where
  | consume
  | leave
  deriving DecidableEq, Repr

/-- The start source of a window (R63). -/
inductive StartSource where
  | immediate
  | semaphore (sem : SemId) (take : TakeMode)
  deriving DecidableEq, Repr

/-- The events at which a window may signal (R86). -/
inductive SignalEvent where
  | firstDwell
  | eachDwellEnd
  | done
  deriving DecidableEq, Repr

/-- A window's signal: an event and the semaphore set at it (R63). -/
structure Signal where
  event : SignalEvent
  sem : SemId
  deriving DecidableEq, Repr

/-- The fault mode of a window (R63). -/
inductive FaultMode where
  | halt
  | pause
  deriving DecidableEq, Repr

/-- The end causes: those of R79, then those of R84, in their tables' order. -/
inductive EndCause where
  | complete
  | boundaryStop
  | runClosing
  | linkWithdrawn
  | stopNow
  | recalled
  | fault
  | paddle
  | lockLoss
  | aborted
  | evicted
  | runClosed
  deriving DecidableEq, Repr

/-- The three times that RETIME carries (R80). -/
structure Timing where
  lead : Nat
  dwell : Nat
  dead : Nat
  deriving DecidableEq, Repr

/-- A window record that is not IDLE (R63). `timerEnd` is the time at which the lead or dwell timer expires
(R74, R75), `aggressedMark` the mark recorded at the end of the last DWELL (R76), `firstDwelt` whether the
first entry into DWELL after START has been made (R75). -/
structure Window where
  state : WinState
  owner : PortId
  victim : LinkId
  mode : WinMode
  aggressors : List Aggressor
  pattern : Nat
  timing : Timing
  repeats : Nat
  source : StartSource
  signal : Option Signal
  retest : Bool
  stopOnLockLoss : Bool
  faultMode : FaultMode
  named : List ResId
  dir : Dir
  repeatsDone : Nat
  dwelt : Bool
  dwellLeft : Nat
  ownFall : Option Nat
  retime : Option Timing
  boundaryStop : Bool
  armedAt : Option Nat
  endCause : Option EndCause
  accFwd : Option Accumulator
  accRev : Option Accumulator
  timerEnd : Option Nat
  aggressedMark : Bool
  firstDwelt : Bool
  deriving DecidableEq, Repr

/-- The Window Engine: the windows (none stands for IDLE), the TXEN and CKEN requests and the time of the last TXEN
fall of every slot (R63, R65). -/
structure WindowEngine where
  wins : Table 8 (Option Window)
  txen : Table 16 Bool
  cken : Table 16 Bool
  fall : Table 16 (Option Nat)
  deriving DecidableEq, Repr

/-! ## Semaphores (spec 05) -/

/-- An entry of an armed list (R99). -/
structure ArmedEntry where
  win : WinId
  take : TakeMode
  deriving DecidableEq, Repr

/-- A semaphore record, its armed list in arming order (R99). -/
structure Semaphore where
  set : Bool
  overrun : Bool
  armed : List ArmedEntry
  deriving DecidableEq, Repr

/-- A clear semaphore with nothing armed (R99). -/
def Semaphore.clear : Semaphore := { set := false, overrun := false, armed := [] }

/-! ## Error capture and the setup link (spec 06) -/

/-- The live values of a capture record (R108). -/
structure Live where
  accepted : Nat
  residue : Nat
  strobes : Nat
  first : Option Nat
  last : Option Nat
  rejected : Nat
  sinceRead : Bool
  overcapture : Bool
  lockLosses : Nat
  deriving DecidableEq, Repr

/-- The cleared live values (R115). -/
def Live.cleared : Live :=
  { accepted := 0, residue := 0, strobes := 0, first := none, last := none, rejected := 0,
    sinceRead := false, overcapture := false, lockLosses := 0 }

/-- A capture record (R108). -/
structure Capture where
  filter : Nat
  prescale : Nat
  counting : Bool
  receiving : Option WinId
  live : Live
  deriving DecidableEq, Repr

/-- A capture record at power-on (R108). -/
def Capture.powerOn : Capture :=
  { filter := 0, prescale := 0, counting := false, receiving := none, live := Live.cleared }

/-- The kinds of setup transaction (R118, R119). -/
inductive TxnKind where
  | configureGen
  | configureChk
  | harvest
  deriving DecidableEq, Repr

/-- A transaction of the Setup Queue (R118); `inFlight` is its condition. -/
structure Txn where
  kind : TxnKind
  slot : SlotId
  port : Fin 15
  lanes : Nat
  pattern : Nat
  win : WinId
  inFlight : Bool
  discard : Bool
  deriving DecidableEq, Repr

/-- A window that waits for room in the Setup Queue, with its group (R120). -/
structure WaitingGroup where
  win : WinId
  group : List Txn
  deriving DecidableEq, Repr

/-- The setup link: idle; the request word sent and the reply awaited until a time; the reply being clocked in
(R121). -/
inductive Exchange where
  | idle
  | awaiting (word : BitVec 16) (timeoutAt : Nat)
  | receiving (word : BitVec 16)
  deriving DecidableEq, Repr

/-- The Setup Link Controller: the Setup Queue with the oldest transaction first, the setup-wait order with the
oldest window first, and the exchange on the link (R118, R120, R121). -/
structure SetupLink where
  queue : List Txn
  order : List WaitingGroup
  exchange : Exchange
  deriving DecidableEq, Repr

/-! ## Slot faults (spec 07) -/

/-- A fault record (R129): `qualifying` is the deadline in µs, `latchedAt` a time of the ms timebase. -/
structure FaultRecord where
  level : Bool
  qualifying : Option Nat
  latch : Bool
  count : Nat
  latchedAt : Option Nat
  deriving DecidableEq, Repr

/-- A fault record at power-on over a given input level (R129). -/
def FaultRecord.powerOn (level : Bool) : FaultRecord :=
  { level := level, qualifying := none, latch := false, count := 0, latchedAt := none }

/-! ## Posting and the Verdict Table (spec 08) -/

/-- A posted result (R137). `serial` is the model's own name for it, by which flush sets hold it (log 21). -/
structure Posted where
  result : Accumulator
  port : PortId
  promoted : Bool
  inFlight : Bool
  serial : Nat
  deriving DecidableEq, Repr

/-- A commit in flight: when its result was taken, and after how many µs, at most 2, the hub completes it of
itself (R141; a free value, log 5). -/
structure CommitClock where
  takenAt : Nat
  delay : Nat
  deriving DecidableEq, Repr

/-- The Post Queue and the Commit Engine: the ordinary buffers in post order, the recall buffer, the commit in
flight if the engine is committing (R138, R141). -/
structure PostQueue where
  ordinary : List Posted
  recallBuf : Option Posted
  commit : Option CommitClock
  nextSerial : Nat
  deriving DecidableEq, Repr

/-- The verdicts, in the order of R145. -/
inductive Verdict where
  | untested
  | incomplete
  | marginal
  | pass
  | fail
  | withdrawn
  deriving DecidableEq, Repr

/-- The first error of a verdict record (R145). -/
structure MergedError where
  merge : Nat
  repeatNo : Nat
  time : Nat
  deriving DecidableEq, Repr

/-- A verdict record of a link in the map (R145). Link id and direction are its place. -/
structure VerdictRecord where
  verdict : Verdict
  lanes : List Nat
  pulses : Nat
  dwell : Nat
  lockLosses : Nat
  merged : Nat
  firstError : Option MergedError
  flags : ResultFlags
  lastPort : Option PortId
  deriving DecidableEq, Repr

/-- An UNTESTED record of a link of `n` lanes (R145). -/
def VerdictRecord.untested (n : Nat) : VerdictRecord :=
  { verdict := .untested, lanes := List.replicate n 0, pulses := 0, dwell := 0, lockLosses := 0, merged := 0,
    firstError := none, flags := ResultFlags.none, lastPort := none }

/-- The Verdict Table: a record for each link id and direction, vacant (none) where the id names no link, and the
coverage count (R145, R152). -/
structure VerdictTable where
  fwd : Table 128 (Option VerdictRecord)
  rev : Table 128 (Option VerdictRecord)
  coverage : Nat
  deriving DecidableEq, Repr

/-- The table of an emptied map: every record vacant, the coverage count 0 (R145, R152, R156). -/
def VerdictTable.vacant : VerdictTable :=
  { fwd := Table.fill 128 none, rev := Table.fill 128 none, coverage := 0 }

/-! ## Withdrawing links (spec 09) -/

/-- An entry of the Withdraw List (R161). -/
structure WithdrawEntry where
  link : LinkId
  issuer : PortId
  issuedAt : Nat
  interest : PortSet
  deriving DecidableEq, Repr

/-- A sync slot (R170): in COMPLETE, `ok` is the result, OK or TIMEOUT. -/
inductive SyncSlot where
  | none
  | waiting (awaited : List LinkId) (deadline : Nat)
  | complete (awaited : List LinkId) (ok : Bool)
  deriving DecidableEq, Repr

/-- The Withdraw Unit: the Withdraw List with the oldest entry first, and the sync slots (R161, R170). -/
structure WithdrawUnit where
  list : List WithdrawEntry
  sync : Table 4 SyncSlot
  deriving DecidableEq, Repr

/-! ## Agent ports (spec 10) -/

/-- The direction choice of a READ_VERDICT (R153). -/
inductive DirChoice where
  | fwd
  | rev
  | both
  deriving DecidableEq, Repr

/-- What a flushing READ_VERDICT waits for: its records, and the flush set by the serials of its results
(R154). -/
structure FlushWait where
  link : LinkId
  dirs : DirChoice
  members : List Nat
  deriving DecidableEq, Repr

/-- The response slot: READY, WORKING with the code and tag of the request in progress and its flush, or ANSWERED
with the response frame (R175, R178 to R180). -/
inductive ResponseSlot where
  | ready
  | working (code tag : Byte) (flush : Option FlushWait)
  | answered (frame : List Byte)
  deriving DecidableEq, Repr

/-- The three states of a response slot (R176). -/
inductive SlotKind where
  | ready
  | working
  | answered
  deriving DecidableEq, Repr

/-- The transaction of a port: none while PSEL_N is deasserted; begun, with the state at select; or ignored until
its deselect because RST_N was asserted in it (R176, R190). -/
inductive Transaction where
  | none
  | selected (atSelect : SlotKind)
  | ignored
  deriving DecidableEq, Repr

/-- The eleven notice kinds, in the order of their bits (10.6, 13.2). -/
inductive Notice where
  | leaseGranted
  | waitCancelled
  | recalled
  | leaseLost
  | windowEnd
  | fault
  | withdraw
  | syncDone
  | runState
  | requestLost
  | evicted
  deriving DecidableEq, Repr

/-- A port record (R175), with the transaction in progress. -/
structure AgentPort where
  role : Role
  slot : ResponseSlot
  notices : NoticeSet
  enables : NoticeSet
  attention : Bool
  transaction : Transaction
  deriving DecidableEq, Repr

/-- A port record at power-on (R175). -/
def AgentPort.powerOn (p : PortId) : AgentPort :=
  { role := Role.default p, slot := .ready, notices := 0, enables := 0, attention := false,
    transaction := .none }

/-! ## Slot lamps (spec 11) -/

/-- A lamp record (R191). -/
structure LampRecord where
  mode : LampMode
  blink : Bool
  invert : Bool
  deriving DecidableEq, Repr

/-- The Lamp Controller: the working copy of the lamp settings, and the two blink clocks, true in the on-half
(R191, R195). -/
structure LampUnit where
  recs : Table 16 LampRecord
  rate : BlinkRate
  slowOn : Bool
  fastOn : Bool
  deriving DecidableEq, Repr

/-! ## The hub -/

/-- The state of the hub. `rst` is true while RST_N is asserted; `now` is the µs timebase (R65); `lnk` holds the
LNK input levels; `freeIndex` is the model's own counter of free values; `pending` the commands that wait, first
in, first out. -/
structure State where
  rst : Bool
  now : Nat
  run : RunRecord
  map : LinkMap
  loader : Loader
  dir : LeaseDirectory
  eng : WindowEngine
  sems : Table 8 Semaphore
  caps : Table 16 Capture
  setup : SetupLink
  faults : Table 16 FaultRecord
  post : PostQueue
  table : VerdictTable
  wd : WithdrawUnit
  ports : Table 4 AgentPort
  lamps : LampUnit
  lnk : Table 16 Bool
  freeIndex : Nat
  pending : List Instr
  deriving DecidableEq, Repr

/-- The hub at power-on, RST_N asserted: every block at the values its chapter gives (R6, R20, R35, R62, R63, R98,
R99, R108, R118, R129, R156, R161, R170, R175, R191, R195). The levels of the inputs are the model's choice
(log 8, 9). -/
def State.reset : State :=
  { rst := true
    now := 0
    run := { state := .loading, number := 0, aborted := false, time := .stopped 0,
             counters := RunCounters.zero, complete := false }
    map := LinkMap.empty
    loader := { stage := .idle, noted := [], report := LoadReport.cleared }
    dir := { res := Table.fill 32 Resource.free, waits := [], expired := [] }
    eng := { wins := Table.fill 8 none, txen := Table.fill 16 false, cken := Table.fill 16 false,
             fall := Table.fill 16 none }
    sems := Table.fill 8 Semaphore.clear
    caps := Table.fill 16 Capture.powerOn
    setup := { queue := [], order := [], exchange := .idle }
    faults := Table.fill 16 (FaultRecord.powerOn false)
    post := { ordinary := [], recallBuf := none, commit := none, nextSerial := 0 }
    table := VerdictTable.vacant
    wd := { list := [], sync := Table.fill 4 .none }
    ports := Table.build AgentPort.powerOn
    lamps := { recs := Table.fill 16 { mode := .off, blink := false, invert := false }, rate := .slow,
               slowOn := true, fastOn := true }
    lnk := Table.fill 16 false
    freeIndex := 0
    pending := [] }

end Sys2Proof.Machine
end

