-- ==== Sys2Proof/Machine/Ops.lean ====
section
/-! DEFINITION. Sys2Proof/Machine/Ops.lean: the named reads and changes of the hub's records, the timebases, the
notices and the run state. Every other file of the machine goes through these. -/

namespace Sys2Proof.Machine

/-! ## Every number of a kind, in ascending order -/

def allPorts : List PortId := List.finRange 4
def allSlots : List SlotId := List.finRange 16
def allResources : List ResId := List.finRange 32
def allWindows : List WinId := List.finRange 8
def allLinks : List LinkId := List.finRange 128

/-! ## Resource numbers (R35) -/

/-- The resource is a generator: numbers 0 to 15. -/
def isGen (r : ResId) : Bool := decide (r.val < 16)

/-- The slot of a resource. -/
def resSlot (r : ResId) : SlotId := ⟨r.val % 16, Nat.mod_lt _ (by decide)⟩

/-- GEN s has number s. -/
def genOf (s : SlotId) : ResId := ⟨s.val, by omega⟩

/-- CHK s has number 16 + s. -/
def chkOf (s : SlotId) : ResId := ⟨16 + s.val, by omega⟩

/-- The resources of a list, each once, in resource-number order (R35). -/
def inNumberOrder (rs : List ResId) : List ResId := allResources.filter (fun r => rs.contains r)

/-! ## Reading the records -/

def State.port (s : State) (p : PortId) : AgentPort := Table.rd s.ports p
def State.res (s : State) (r : ResId) : Resource := Table.rd s.dir.res r
def State.win (s : State) (w : WinId) : Option Window := Table.rd s.eng.wins w
def State.sem (s : State) (k : SemId) : Semaphore := Table.rd s.sems k
def State.cap (s : State) (i : SlotId) : Capture := Table.rd s.caps i
def State.fault (s : State) (i : SlotId) : FaultRecord := Table.rd s.faults i
def State.link (s : State) (l : LinkId) : Option Link := Table.rd s.map.links l
def State.syncSlot (s : State) (p : PortId) : SyncSlot := Table.rd s.wd.sync p
def State.lamp (s : State) (i : SlotId) : LampRecord := Table.rd s.lamps.recs i
def State.slotEntry (s : State) (i : SlotId) : SlotEntry := Table.rd s.map.slots i
def State.lnkUp (s : State) (i : SlotId) : Bool := Table.rd s.lnk i

/-- Is slot s fitted? Its number is below the fitted slot count (R3, R19). -/
def State.isFitted (s : State) (i : SlotId) : Bool := decide (i.val < s.map.fitted)

/-- The fault latch of a slot (R129). -/
def State.latched (s : State) (i : SlotId) : Bool := (s.fault i).latch

/-- The link of an id that may lie outside the map (R19). -/
def State.linkNat (s : State) (n : Nat) : Option Link :=
  if h : n < 128 then s.link ⟨n, h⟩ else none

/-- The state of a link is the given one; false for an id that names no link. -/
def State.linkIs (s : State) (l : LinkId) (st : LinkState) : Bool :=
  match s.link l with
  | some k => decide (k.state = st)
  | none => false

/-- The holder of a resource in HELD or HELD_UNPOSTED (R36). -/
def Lease.holder : Lease → Option PortId
  | .free => none
  | .watched _ => none
  | .held p _ => some p
  | .heldUnposted p _ _ => some p

/-- The watcher set of a resource, empty unless WATCHED (R36). -/
def Lease.watchers : Lease → PortSet
  | .watched ws => ws
  | .free => 0
  | .held _ _ => 0
  | .heldUnposted _ _ _ => 0

/-- The grant time of a held resource (R35). -/
def Lease.since : Lease → Option Nat
  | .held _ t => some t
  | .heldUnposted _ t _ => some t
  | .free => none
  | .watched _ => none

/-- The holding of a HELD_UNPOSTED resource (R37). -/
def Lease.holding : Lease → Option Accumulator
  | .heldUnposted _ _ a => some a
  | .free => none
  | .watched _ => none
  | .held _ _ => none

/-- The port holds the resource, HELD or HELD_UNPOSTED. -/
def State.holds (s : State) (p : PortId) (r : ResId) : Bool := decide ((s.res r).lease.holder = some p)

/-- The port watches the resource. -/
def State.watches (s : State) (p : PortId) (r : ResId) : Bool := PortSet.has (s.res r).lease.watchers p

/-! ## Changing the records -/

def State.modPort (s : State) (p : PortId) (f : AgentPort → AgentPort) : State :=
  { s with ports := Table.upd s.ports p f }

def State.modRes (s : State) (r : ResId) (f : Resource → Resource) : State :=
  { s with dir := { s.dir with res := Table.upd s.dir.res r f } }

def State.setLease (s : State) (r : ResId) (l : Lease) : State :=
  s.modRes r (fun x => { x with lease := l })

def State.setNaming (s : State) (r : ResId) (w : Option WinId) : State :=
  s.modRes r (fun x => { x with naming := w })

def State.setWaits (s : State) (ws : List WaitEntry) : State := { s with dir := { s.dir with waits := ws } }

def State.setExpired (s : State) (rs : List ResId) : State := { s with dir := { s.dir with expired := rs } }

def State.setWin (s : State) (w : WinId) (x : Option Window) : State :=
  { s with eng := { s.eng with wins := Table.put s.eng.wins w x } }

/-- A window that is not IDLE changed; an IDLE one stays IDLE. -/
def State.modWin (s : State) (w : WinId) (f : Window → Window) : State :=
  { s with eng := { s.eng with wins := Table.upd s.eng.wins w (Option.map f) } }

def State.setTxen (s : State) (i : SlotId) (up : Bool) : State :=
  { s with eng := { s.eng with txen := Table.put s.eng.txen i up } }

def State.setCken (s : State) (i : SlotId) (up : Bool) : State :=
  { s with eng := { s.eng with cken := Table.put s.eng.cken i up } }

def State.setFall (s : State) (i : SlotId) (t : Nat) : State :=
  { s with eng := { s.eng with fall := Table.put s.eng.fall i (some t) } }

def State.modSem (s : State) (k : SemId) (f : Semaphore → Semaphore) : State :=
  { s with sems := Table.upd s.sems k f }

def State.modCap (s : State) (i : SlotId) (f : Capture → Capture) : State :=
  { s with caps := Table.upd s.caps i f }

def State.modLive (s : State) (i : SlotId) (f : Live → Live) : State :=
  s.modCap i (fun c => { c with live := f c.live })

def State.modFault (s : State) (i : SlotId) (f : FaultRecord → FaultRecord) : State :=
  { s with faults := Table.upd s.faults i f }

def State.setLinkState (s : State) (l : LinkId) (st : LinkState) : State :=
  { s with map := { s.map with
      links := Table.upd s.map.links l (Option.map (fun k => { k with state := st })) } }

def State.setSync (s : State) (p : PortId) (x : SyncSlot) : State :=
  { s with wd := { s.wd with sync := Table.put s.wd.sync p x } }

def State.setWithdrawList (s : State) (ws : List WithdrawEntry) : State := { s with wd := { s.wd with list := ws } }

def State.setSetup (s : State) (x : SetupLink) : State := { s with setup := x }

def State.setPost (s : State) (x : PostQueue) : State := { s with post := x }

def State.setRun (s : State) (x : RunRecord) : State := { s with run := x }

def State.setMap (s : State) (x : LinkMap) : State := { s with map := x }

def State.setLoader (s : State) (x : Loader) : State := { s with loader := x }

def State.setTable (s : State) (x : VerdictTable) : State := { s with table := x }

def State.setLamps (s : State) (x : LampUnit) : State := { s with lamps := x }

def State.setLnk (s : State) (i : SlotId) (up : Bool) : State := { s with lnk := Table.put s.lnk i up }

/-- A run counter raised (R31). -/
def State.count (s : State) (f : RunCounters → RunCounters) : State :=
  s.setRun { s.run with counters := f s.run.counters }

/-! ## The timebases -/

/-- The ms timebase: whole milliseconds from the release of RST_N, derived from the µs timebase (R35). -/
def State.nowMs (s : State) : Nat := s.now / 1000

/-- The timebase moved on to a time that an event brings with it, never back (log 2). -/
def State.advanceTo (s : State) (t : Nat) : State := { s with now := max s.now t }

/-- The run time as it reads: it counts ms in RUNNING and CLOSING and saturates (R31). -/
def State.runTimeMs (s : State) : Nat :=
  match s.run.time with
  | .stopped ms => min max32 ms
  | .counting since => min max32 (s.nowMs - since)

/-! ## Notices (R184, R185) -/

/-- The bit of a notice kind (13.2). -/
def Notice.bit : Notice → Nat
  | .leaseGranted => 0
  | .waitCancelled => 1
  | .recalled => 2
  | .leaseLost => 3
  | .windowEnd => 4
  | .fault => 5
  | .withdraw => 6
  | .syncDone => 7
  | .runState => 8
  | .requestLost => 9
  | .evicted => 10

/-- The set that holds one kind. -/
def Notice.one (k : Notice) : NoticeSet := BitVec.twoPow 11 k.bit

/-- The masked set: the kinds in both the notice set and the enable set (R185). -/
def AgentPort.masked (x : AgentPort) : NoticeSet := x.notices &&& x.enables

/-- PATN_N follows the masked set in every event that changes either set (R185). -/
def AgentPort.setSets (x : AgentPort) (notices enables : NoticeSet) : AgentPort :=
  { x with notices := notices, enables := enables, attention := decide (notices &&& enables ≠ 0) }

/-- The kinds of a set raised on a port: each flag set, whatever the slot and the enable set (R184). -/
def State.raiseKinds (s : State) (p : PortId) (ks : NoticeSet) : State :=
  s.modPort p (fun x => x.setSets (x.notices ||| ks) x.enables)

/-- A notice kind raised on a port (R184). -/
def State.raise (s : State) (p : PortId) (k : Notice) : State := s.raiseKinds p k.one

/-- A notice kind raised on every port of a set. -/
def State.raiseOn (s : State) (ps : PortSet) (k : Notice) : State :=
  allPorts.foldl (fun t p => if PortSet.has ps p then t.raise p k else t) s

/-- A notice kind raised on all four ports. -/
def State.raiseAll (s : State) (k : Notice) : State := s.raiseOn (BitVec.allOnes 4) k

/-! ## The run state (R21) -/

/-- A change of run state; it raises RUN_STATE on all four ports (R21). -/
def State.enterRunState (s : State) (r : RunState) : State :=
  (s.setRun { s.run with state := r }).raiseAll .runState

/-! ## Free values -/

/-- The counter of free values moved on. -/
def State.nextFree (s : State) : State := { s with freeIndex := s.freeIndex + 1 }

/-! ## A meaning while RST_N is asserted -/

/-- A hub held in reset does nothing (R20, R190; log 22). -/
def State.live (s : State) (f : State → State) : State := if s.rst then s else f s

end Sys2Proof.Machine
end

