-- ==== Sys2Proof/Machine/Flags.lean ====
section
/-! DEFINITION. Sys2Proof/Machine/Flags.lean: every flag and mark the hub computes: lane rates and the grading
ladder, the coverage count and the coverage-complete flag, AGGRESSED, MISMATCH, and the pin levels TXEN, CKEN. -/

namespace Sys2Proof.Machine

/-! ## The Verdict Table's records -/

/-- The verdict record of a link-direction, none where it is vacant (R145). -/
def State.record (s : State) (l : LinkId) (d : Dir) : Option VerdictRecord :=
  match d with
  | .fwd => Table.rd s.table.fwd l
  | .rev => Table.rd s.table.rev l

/-- A verdict record that is not vacant changed. -/
def State.modRecord (s : State) (l : LinkId) (d : Dir) (f : VerdictRecord → VerdictRecord) : State :=
  match d with
  | .fwd => s.setTable { s.table with fwd := Table.upd s.table.fwd l (Option.map f) }
  | .rev => s.setTable { s.table with rev := Table.upd s.table.rev l (Option.map f) }

/-! ## Grading (R146, R148) -/

/-- The lane rate in errors per lane-second, rounded down (R146). -/
def laneRate (errors dwell : Nat) : Nat := errors * 1000000 / dwell

/-- Some neighbour of the link's resolved list is FITTED (R148 step 8, R82). -/
def State.hasFittedNeighbour (s : State) (k : Link) : Bool :=
  k.neighbours.any (fun n => match s.linkNat n with
    | some m => decide (m.state = .fitted)
    | none => false)

/-- The grading ladder: the first case that holds (R148). -/
def State.grade (s : State) (k : Link) (v : VerdictRecord) : Verdict :=
  let lim := Table.rd s.map.limits k.limitSet
  if k.state = .withdrawn then .withdrawn
  else if v.merged = 0 then .untested
  else if v.flags.faulted then .fail
  else if lim.lockLimit < v.lockLosses then .fail
  else if 0 < v.dwell ∧ v.lanes.any (fun e => decide (lim.failLimit < laneRate e v.dwell)) then .fail
  else if v.dwell < lim.minDwell then .incomplete
  else if v.lanes.any (fun e => decide (lim.passLimit < laneRate e v.dwell))
      ∨ v.flags.mismatch ∨ v.flags.interrupted then .marginal
  else if s.hasFittedNeighbour k ∧ ¬ v.flags.aggressed then .incomplete
  else .pass

/-- A record regraded: its verdict from the ladder, its other fields as they are (R148). -/
def State.regrade (s : State) (l : LinkId) (d : Dir) : State :=
  match s.link l with
  | some k => s.modRecord l d (fun v => { v with verdict := s.grade k v })
  | none => s

/-- Both records of every link that lists `l` as a neighbour regraded, in link id order, FWD before REV (R149). -/
def State.regradeListing (s : State) (l : LinkId) : State :=
  allLinks.foldl (fun t m =>
    match t.link m with
    | some k => if k.neighbours.contains l.val then (t.regrade m .fwd).regrade m .rev else t
    | none => t) s

/-! ## Coverage (R32, R152) -/

/-- A graded verdict: PASS, MARGINAL or FAIL. -/
def Verdict.graded : Verdict → Bool
  | .pass => true
  | .marginal => true
  | .fail => true
  | .untested => false
  | .incomplete => false
  | .withdrawn => false

/-- 1 where the record of a link not WITHDRAWN is graded, else 0. -/
def State.coverageOf (s : State) (l : LinkId) (d : Dir) : Nat :=
  match s.link l, s.record l d with
  | some k, some v => if k.state ≠ .withdrawn ∧ v.verdict.graded then 1 else 0
  | _, _ => 0

/-- The number of records of links not WITHDRAWN whose verdict is PASS, MARGINAL or FAIL (R152). -/
def State.gradedCount (s : State) : Nat :=
  allLinks.foldl (fun n l => n + s.coverageOf l .fwd + s.coverageOf l .rev) 0

/-- The coverage count adjusted to the table (R152). -/
def State.recount (s : State) : State := s.setTable { s.table with coverage := s.gradedCount }

/-- The number of links in a state (R19, R33). -/
def State.linkCount (s : State) (st : LinkState) : Nat :=
  allLinks.foldl (fun n l => n + (if s.linkIs l st then 1 else 0)) 0

/-- The number of links that are not WITHDRAWN (R32). -/
def State.targetLinks (s : State) : Nat := s.linkCount .fitted + s.linkCount .withdrawing

/-- The coverage-complete flag evaluated; its setting raises RUN_STATE on all four ports (R32). -/
def State.evalCoverage (s : State) : State :=
  let full : Bool := decide (0 < s.targetLinks ∧ s.table.coverage = 2 * s.targetLinks)
  let t := s.setRun { s.run with complete := full }
  if full && !s.run.complete then t.raiseAll .runState else t

/-! ## Results -/

/-- The flags of two results together (R81, R143). -/
def ResultFlags.union (a b : ResultFlags) : ResultFlags :=
  { aggressed := a.aggressed || b.aggressed, mismatch := a.mismatch || b.mismatch,
    interrupted := a.interrupted || b.interrupted, faulted := a.faulted || b.faulted,
    recalled := a.recalled || b.recalled }

/-- A repeat is AGGRESSED when the victim has a FITTED neighbour and every FITTED neighbour is the link of an
aggressor entry (R82). -/
def State.isAggressed (s : State) (x : Window) : Bool :=
  match s.link x.victim with
  | some k => s.hasFittedNeighbour k && k.neighbours.all (fun n =>
      match s.linkNat n with
      | some m => decide (m.state ≠ .fitted) || x.aggressors.any (fun a => decide (a.link.val = n))
      | none => true)
  | none => false

/-- The sum and the largest of a list of counts. -/
def sumOf (xs : List Nat) : Nat := xs.foldl (· + ·) 0
def maxOf (xs : List Nat) : Nat := xs.foldl max 0

/-- MISMATCH: the paddle's counts and the hub's strobes cannot both be right (R128). -/
def isMismatch (pulses p : Nat) (lanes : List Nat) : Bool :=
  decide (sumOf lanes < pulses) || decide (pulses + (p - 1) < maxOf lanes)

/-! ## Pins (R65, R132) -/

/-- The pin TXEN(s): the request through the Fault Unit's gate (R132). -/
def State.txenPin (s : State) (i : SlotId) : Bool := Table.rd s.eng.txen i && !s.latched i

/-- The pin CKEN(s): the request directly (R65). -/
def State.ckenPin (s : State) (i : SlotId) : Bool := Table.rd s.eng.cken i

/-- PATN_N of a port, true while it is asserted (R185). -/
def State.patn (s : State) (p : PortId) : Bool := (s.port p).attention

end Sys2Proof.Machine
end

