-- ==== Sys2Proof/Machine/Operands.lean ====
section
/-! DEFINITION. Sys2Proof/Machine/Operands.lean: the byte layouts of 13: the CRC-8, request frames as received,
the request catalogue with its codes, run states and roles, the decoding of parameters, and the encoding of
answers and response frames. -/

namespace Sys2Proof.Machine

/-! ## The CRC-8 (R200) -/

/-- One shift of the register: where the bit shifted out of the top is 1, XOR with 0x07. -/
def crcShift (r : Byte) : Byte := if r.msb then (r <<< 1) ^^^ 0x07#8 else r <<< 1

/-- One byte taken: XORed into the register, then eight shifts. -/
def crcByte (r b : Byte) : Byte := Nat.iterate crcShift 8 (r ^^^ b)

/-- The CRC-8 of a block of bytes: the register starts at 0x00 (R200). -/
def crc8 (bs : List Byte) : Byte := bs.foldl crcByte 0#8

/-! ## The request catalogue (10.5, 13.2) -/

/-- The forty requests. -/
inductive Req where
  | readRun
  | runStart
  | runClose
  | runAbort
  | reload
  | readLink
  | withdraw
  | restore
  | ackWithdraw
  | sync
  | readWithdraws
  | lease
  | release
  | post
  | discard
  | recallResource
  | cancelWait
  | readLeases
  | openWindow
  | start
  | stop
  | retime
  | closeWindow
  | readWindow
  | semSet
  | semClear
  | semRead
  | readCapture
  | setCapture
  | readVerdict
  | readFaults
  | clearFault
  | setLamp
  | setBlink
  | readNotices
  | clearNotices
  | setNotices
  | setNoticeEnable
  | detach
  | evict
  deriving DecidableEq, Repr

/-- The code of a request (13.2). -/
def Req.code : Req → Byte
  | .readRun => 0x01#8
  | .runStart => 0x02#8
  | .runClose => 0x03#8
  | .runAbort => 0x04#8
  | .reload => 0x05#8
  | .readLink => 0x10#8
  | .withdraw => 0x11#8
  | .restore => 0x12#8
  | .ackWithdraw => 0x13#8
  | .sync => 0x14#8
  | .readWithdraws => 0x15#8
  | .lease => 0x20#8
  | .release => 0x21#8
  | .post => 0x22#8
  | .discard => 0x23#8
  | .recallResource => 0x24#8
  | .cancelWait => 0x25#8
  | .readLeases => 0x26#8
  | .openWindow => 0x30#8
  | .start => 0x31#8
  | .stop => 0x32#8
  | .retime => 0x33#8
  | .closeWindow => 0x34#8
  | .readWindow => 0x35#8
  | .semSet => 0x40#8
  | .semClear => 0x41#8
  | .semRead => 0x42#8
  | .readCapture => 0x50#8
  | .setCapture => 0x51#8
  | .readVerdict => 0x60#8
  | .readFaults => 0x70#8
  | .clearFault => 0x71#8
  | .setLamp => 0x78#8
  | .setBlink => 0x79#8
  | .readNotices => 0x80#8
  | .clearNotices => 0x81#8
  | .setNotices => 0x82#8
  | .setNoticeEnable => 0x83#8
  | .detach => 0x84#8
  | .evict => 0x85#8

/-- Every request of the catalogue. -/
def allReqs : List Req :=
  [.readRun, .runStart, .runClose, .runAbort, .reload, .readLink, .withdraw, .restore,
   .ackWithdraw, .sync, .readWithdraws, .lease, .release, .post, .discard, .recallResource,
   .cancelWait, .readLeases, .openWindow, .start, .stop, .retime, .closeWindow, .readWindow,
   .semSet, .semClear, .semRead, .readCapture, .setCapture, .readVerdict, .readFaults, .clearFault,
   .setLamp, .setBlink, .readNotices, .clearNotices, .setNotices, .setNoticeEnable, .detach, .evict]

/-- The request that a code byte names; every other code is answered UNKNOWN (13.2). -/
def reqOf (c : Byte) : Option Req := allReqs.find? (fun r => decide (r.code = c))

/-- Which run states other than LOADING admit a request (R22). -/
def Req.admitsLoaded : Req → RunState → Bool
  | .readRun, _ => true
  | .reload, st => decide (st = .unloaded) || decide (st = .ready) || decide (st = .closed)
  | .runStart, st => decide (st = .ready) || decide (st = .closed)
  | .runClose, st => decide (st = .running)
  | .runAbort, st => decide (st = .running) || decide (st = .closing)
  | .lease, st => decide (st = .running)
  | .openWindow, st => decide (st = .running)
  | .start, st => decide (st = .running)
  | .release, st => decide (st = .running) || decide (st = .closing)
  | .post, st => decide (st = .running) || decide (st = .closing)
  | .discard, st => decide (st = .running) || decide (st = .closing)
  | .recallResource, st => decide (st = .running) || decide (st = .closing)
  | .cancelWait, st => decide (st = .running) || decide (st = .closing)
  | .stop, st => decide (st = .running) || decide (st = .closing)
  | .retime, st => decide (st = .running) || decide (st = .closing)
  | .readCapture, st => decide (st = .running) || decide (st = .closing)
  | .setCapture, st => decide (st = .running) || decide (st = .closing)
  | .withdraw, st => decide (st = .ready) || decide (st = .running) || decide (st = .closing) || decide (st = .closed)
  | .restore, st => decide (st = .ready) || decide (st = .running) || decide (st = .closing) || decide (st = .closed)
  | .readLink, _ => true
  | .readLeases, _ => true
  | .readWindow, _ => true
  | .closeWindow, _ => true
  | .semSet, _ => true
  | .semClear, _ => true
  | .semRead, _ => true
  | .readVerdict, _ => true
  | .readFaults, _ => true
  | .clearFault, _ => true
  | .ackWithdraw, _ => true
  | .sync, _ => true
  | .readWithdraws, _ => true
  | .setLamp, _ => true
  | .setBlink, _ => true
  | .readNotices, _ => true
  | .clearNotices, _ => true
  | .setNotices, _ => true
  | .setNoticeEnable, _ => true
  | .detach, _ => true
  | .evict, _ => true

/-- Which run states admit a request; LOADING admits READ_RUN alone (R22). -/
def Req.admits (r : Req) (st : RunState) : Bool :=
  decide (r = .readRun) || (decide (st ≠ .loading) && r.admitsLoaded st)

/-- Which roles may issue a request (R183). LEASE, and the requests whose condition is ownership, pass this check
and apply their condition in their own rules. -/
def Req.permits : Req → Role → Bool
  | .readRun, _ => true
  | .runStart, r => decide (r = .supervisor)
  | .runClose, r => decide (r = .supervisor)
  | .runAbort, r => decide (r = .supervisor)
  | .reload, r => decide (r = .supervisor)
  | .readLink, _ => true
  | .withdraw, r => decide (r = .supervisor)
  | .restore, r => decide (r = .supervisor)
  | .ackWithdraw, _ => true
  | .sync, _ => true
  | .readWithdraws, _ => true
  | .lease, _ => true
  | .release, _ => true
  | .post, r => decide (r ≠ .observer)
  | .discard, r => decide (r = .supervisor)
  | .recallResource, r => decide (r = .supervisor)
  | .cancelWait, _ => true
  | .readLeases, _ => true
  | .openWindow, r => decide (r ≠ .observer)
  | .start, r => decide (r ≠ .observer)
  | .stop, _ => true
  | .retime, r => decide (r ≠ .observer)
  | .closeWindow, _ => true
  | .readWindow, _ => true
  | .semSet, r => decide (r ≠ .observer)
  | .semClear, r => decide (r ≠ .observer)
  | .semRead, _ => true
  | .readCapture, _ => true
  | .setCapture, r => decide (r ≠ .observer)
  | .readVerdict, _ => true
  | .readFaults, _ => true
  | .clearFault, r => decide (r = .supervisor)
  | .setLamp, r => decide (r = .supervisor)
  | .setBlink, r => decide (r = .supervisor)
  | .readNotices, _ => true
  | .clearNotices, _ => true
  | .setNotices, _ => true
  | .setNoticeEnable, _ => true
  | .detach, _ => true
  | .evict, r => decide (r = .supervisor)

/-! ## Statuses (10.5, 13.2) -/

/-- The statuses a response may carry. -/
inductive Status where
  | ok
  | queued
  | badFrame
  | unknown
  | badParam
  | notPermitted
  | wrongState
  | conflict
  | waitFull
  | notHeld
  | alreadyHeld
  | postFull
  | recalling
  | busy
  | slotFault
  | faultActive
  | noWindow
  | withdrawn
  | notFound
  | listFull
  deriving DecidableEq, Repr

/-- The code of a status (13.2). -/
def Status.code : Status → Byte
  | .ok => 0x00#8
  | .queued => 0x01#8
  | .badFrame => 0x10#8
  | .unknown => 0x11#8
  | .badParam => 0x12#8
  | .notPermitted => 0x13#8
  | .wrongState => 0x14#8
  | .conflict => 0x20#8
  | .waitFull => 0x21#8
  | .notHeld => 0x22#8
  | .alreadyHeld => 0x23#8
  | .postFull => 0x24#8
  | .recalling => 0x25#8
  | .busy => 0x26#8
  | .slotFault => 0x30#8
  | .faultActive => 0x31#8
  | .noWindow => 0x32#8
  | .withdrawn => 0x33#8
  | .notFound => 0x34#8
  | .listFull => 0x35#8

/-- What a request's own rule hands back to the port: a status and the answer's data (R181). -/
structure Reply where
  status : Status
  data : List Byte
  deriving DecidableEq, Repr

/-- A refusal or an answer without data. -/
def Reply.bare (s : Status) : Reply := { status := s, data := [] }

/-- OK with data. -/
def Reply.ok (data : List Byte) : Reply := { status := .ok, data := data }

/-! ## Request frames as received (R177, R198) -/

/-- The judgement at the deselect of what a transaction carried (R177, R181): no request; a partial frame; a frame
with a bad length or a wrong CRC-8, of which only code and tag are kept; a good frame. -/
inductive Judgement where
  | noRequest
  | partialFrame
  | badFrame (code tag : Byte)
  | frame (code tag : Byte) (params : List Byte)
  deriving DecidableEq, Repr

/-- A complete frame of code, tag, length and the bytes after: good if its CRC-8 byte is that of the bytes before
it (R181 step 1). -/
def judgeFrame (code tag len : Byte) (more : List Byte) : Judgement :=
  let params := more.take len.toNat
  if more.drop len.toNat |>.head? |>.any (fun c => decide (c = crc8 (code :: tag :: len :: params))) then
    .frame code tag params
  else .badFrame code tag

/-- The judgement of R177 over the whole bytes received and whether a last byte was cut short. -/
def judge (rx : List Byte) (cut : Bool) : Judgement :=
  match rx with
  | [] => .noRequest
  | code :: rest =>
    if code = 0#8 then .noRequest
    else
      match rest with
      | tag :: len :: more =>
        if len.toNat + 1 ≤ more.length then judgeFrame code tag len more
        else if cut then .partialFrame else .badFrame code tag
      | [tag] => if cut then .partialFrame else .badFrame code tag
      | [] => if cut then .partialFrame else .badFrame code 0#8

/-- The judgement finds a complete frame, valid or not (R179). -/
def Judgement.complete : Judgement → Bool
  | .noRequest => false
  | .partialFrame => false
  | .badFrame _ _ => true
  | .frame _ _ _ => true

/-! ## Parameters (R198) -/

/-- A number below a bound, as an index. -/
def finOf (n x : Nat) : Option (Fin n) := if h : x < n then some ⟨x, h⟩ else none

/-- A one-byte number below a bound, as an index. -/
def idxOf (n : Nat) (b : Byte) : Option (Fin n) := finOf n b.toNat

/-- A yes/no or set/clear byte (R198). -/
def flagOf (b : Byte) : Option Bool := if b = 0#8 then some false else if b = 1#8 then some true else none

/-- Two and four bytes as a number, most significant byte first (13). -/
def num16 (a b : Byte) : Nat := a.toNat * 256 + b.toNat
def num32 (a b c d : Byte) : Nat := num16 a b * 65536 + num16 c d

/-- A kind set of notices; bits 11 to 15 name kinds beyond the 11 (R198). -/
def kindSetOf (a b : Byte) : Option NoticeSet :=
  if num16 a b < 2048 then some (BitVec.ofNat 11 (num16 a b)) else none

/-- A field read from the front of the bytes that remain. -/
def getByte : List Byte → Option (Byte × List Byte)
  | a :: rest => some (a, rest)
  | [] => none

def get32 : List Byte → Option (Nat × List Byte)
  | a :: b :: c :: d :: rest => some (num32 a b c d, rest)
  | _ => none

def getIdx (n : Nat) (bs : List Byte) : Option (Fin n × List Byte) :=
  match bs with
  | a :: rest => (idxOf n a).map (fun i => (i, rest))
  | [] => none

def getFlag (bs : List Byte) : Option (Bool × List Byte) :=
  match bs with
  | a :: rest => (flagOf a).map (fun f => (f, rest))
  | [] => none

/-- Named values of a fixed set, numbered from 0 in their listed order (R198). -/
def leaseModeOf (b : Byte) : Option LeaseMode :=
  if b = 0#8 then some .hold else if b = 1#8 then some .watch else none

def winModeOf (b : Byte) : Option WinMode :=
  if b = 0#8 then some .fwd else if b = 1#8 then some .rev else if b = 2#8 then some .paired else none

def endOf (b : Byte) : Option End := if b = 0#8 then some .a else if b = 1#8 then some .b else none

def takeOf (b : Byte) : Option TakeMode :=
  if b = 0#8 then some .consume else if b = 1#8 then some .leave else none

def faultModeOf (b : Byte) : Option FaultMode :=
  if b = 0#8 then some .halt else if b = 1#8 then some .pause else none

def dirChoiceOf (b : Byte) : Option DirChoice :=
  if b = 0#8 then some .fwd else if b = 1#8 then some .rev else if b = 2#8 then some .both else none

def rateOf (b : Byte) : Option BlinkRate :=
  if b = 0#8 then some .slow else if b = 1#8 then some .fast else none

def lampModeOf (b : Byte) : Option LampMode :=
  [LampMode.off, .on, .link, .activity, .linkAct, .verdict, .fault, .held][b.toNat]?

def roleOf (b : Byte) : Option Role := [Role.supervisor, .tester, .observer][b.toNat]?

/-- An aggressor list: that many entries of two bytes, the link id and the driving end (R198). -/
def getAggressors : Nat → List Byte → Option (List Aggressor × List Byte)
  | 0, bs => some ([], bs)
  | n + 1, a :: e :: rest =>
    match idxOf 128 a, endOf e, getAggressors n rest with
    | some l, some d, some (xs, more) => some ({ link := l, drive := d } :: xs, more)
    | _, _, _ => none
  | _ + 1, _ => none

/-- A start source: one byte, and for a semaphore its number and take mode (R198). -/
def getSource : List Byte → Option (StartSource × List Byte)
  | a :: rest =>
    if a = 0#8 then some (.immediate, rest)
    else if a = 1#8 then
      match rest with
      | k :: t :: more =>
        match idxOf 8 k, takeOf t with
        | some k, some t => some (.semaphore k t, more)
        | _, _ => none
      | _ => none
    else none
  | [] => none

/-- A signal: one byte, and where it is not 0 the semaphore number (R198). -/
def getSignal : List Byte → Option (Option Signal × List Byte)
  | a :: rest =>
    if a = 0#8 then some (none, rest)
    else
      match [SignalEvent.firstDwell, .eachDwellEnd, .done][a.toNat - 1]?, rest with
      | some e, k :: more => (idxOf 8 k).map (fun k => (some { event := e, sem := k }, more))
      | _, _ => none
  | [] => none

/-- The parameters of an OPEN_WINDOW (R67). -/
structure OpenParams where
  victim : LinkId
  mode : WinMode
  aggressors : List Aggressor
  pattern : Nat
  timing : Timing
  repeats : Nat
  source : StartSource
  signal : Option Signal
  retest : Bool
  stopOnLockLoss : Bool
  faultMode : FaultMode
  deriving DecidableEq, Repr

/-- The times of a window read from their bytes, four each, and checked against their ranges: a lead and a dead time are
0 to 65,535 µs, a dwell is 1 to 16,777,215 µs (R63, R80, R198; log 34). -/
def getTiming (bs : List Byte) : Option (Timing × List Byte) := do
  let (lead, bs) ← get32 bs
  let (dwell, bs) ← get32 bs
  let (dead, bs) ← get32 bs
  if lead ≤ 65535 ∧ (1 ≤ dwell ∧ dwell ≤ 16777215) ∧ dead ≤ 65535 then
    some ({ lead := lead, dwell := dwell, dead := dead }, bs)
  else none

/-- The parameter bytes of an OPEN_WINDOW in R67's order, each field within its range (R63, R67 condition 1), and
no byte left over. -/
def getOpenParams (bs : List Byte) : Option OpenParams := do
  let (victim, bs) ← getIdx 128 bs
  let (m, bs) ← getByte bs
  let mode ← winModeOf m
  let (n, bs) ← getIdx 5 bs
  let (aggressors, bs) ← getAggressors n.val bs
  let (pattern, bs) ← getIdx 16 bs
  let (timing, bs) ← getTiming bs
  let (repeats, bs) ← getByte bs
  let (source, bs) ← getSource bs
  let (signal, bs) ← getSignal bs
  let (retest, bs) ← getFlag bs
  let (lockLoss, bs) ← getFlag bs
  let (f, bs) ← getByte bs
  let faultMode ← faultModeOf f
  match bs with
  | [] => some { victim := victim, mode := mode, aggressors := aggressors, pattern := pattern.val,
                 timing := timing, repeats := repeats.toNat, source := source, signal := signal,
                 retest := retest, stopOnLockLoss := lockLoss, faultMode := faultMode }
  | _ :: _ => none

/-- A list of resource numbers (R35). -/
def resIdsOf : List Byte → Option (List ResId)
  | [] => some []
  | b :: rest =>
    match idxOf 32 b, resIdsOf rest with
    | some r, some rs => some (r :: rs)
    | _, _ => none

/-- No element stands twice. -/
def allDistinct {α : Type} [DecidableEq α] : List α → Bool
  | [] => true
  | a :: rest => !rest.contains a && allDistinct rest

/-- The resource numbers after a count of 1 to 8, each 0 to 31 on a fitted slot, none twice (R38, R48). -/
def State.resListOf (s : State) (count : Byte) (nums : List Byte) : Option (List ResId) :=
  match resIdsOf nums with
  | some rs =>
    if 1 ≤ count.toNat ∧ count.toNat ≤ 8 ∧ nums.length = count.toNat
        ∧ rs.all (fun r => s.isFitted (resSlot r)) ∧ allDistinct rs then some rs else none
  | none => none

/-! ## Answers (R198) -/

/-- One, two and four bytes, most significant byte first; a longer number gives its low bits, as a time does. -/
def u8 (n : Nat) : List Byte := [BitVec.ofNat 8 n]
def u16 (n : Nat) : List Byte := [BitVec.ofNat 8 (n / 256), BitVec.ofNat 8 n]
def u32 (n : Nat) : List Byte := u16 (n / 65536) ++ u16 n

/-- A yes/no or set/clear field. -/
def enFlag (b : Bool) : List Byte := u8 (if b then 1 else 0)

/-- An optional field: a presence byte, then the field when it is present. -/
def enOpt {α : Type} (f : α → List Byte) : Option α → List Byte
  | some a => u8 1 ++ f a
  | none => u8 0

/-- Elements one after another. -/
def enSeq {α : Type} (f : α → List Byte) : List α → List Byte
  | [] => []
  | a :: rest => f a ++ enSeq f rest

/-- A list: a count byte, then the elements. -/
def enList {α : Type} (f : α → List Byte) (xs : List α) : List Byte := u8 xs.length ++ enSeq f xs

def enPort (p : PortId) : List Byte := u8 p.val
def enPortSet (ps : PortSet) : List Byte := u8 ps.toNat
def enKinds (ks : NoticeSet) : List Byte := u16 ks.toNat

def LampMode.num : LampMode → Nat
  | .off => 0
  | .on => 1
  | .link => 2
  | .activity => 3
  | .linkAct => 4
  | .verdict => 5
  | .fault => 6
  | .held => 7

def BlinkRate.num : BlinkRate → Nat
  | .slow => 0
  | .fast => 1

def Role.num : Role → Nat
  | .supervisor => 0
  | .tester => 1
  | .observer => 2

def LinkState.num : LinkState → Nat
  | .fitted => 0
  | .withdrawing => 1
  | .withdrawn => 2

def RunState.num : RunState → Nat
  | .unloaded => 0
  | .loading => 1
  | .ready => 2
  | .running => 3
  | .closing => 4
  | .closed => 5

def LoadError.num : LoadError → Nat
  | .noSignature => 0
  | .chainBackward => 1
  | .chainTooLong => 2
  | .areaLength => 3
  | .areaChecksum => 4
  | .areaContent => 5
  | .areaRepeated => 6
  | .fieldRange => 7
  | .linkRejected => 8
  | .neighbourDropped => 9
  | .noSlots => 10
  | .noLinks => 11

/-- The first error kind as sent: NONE follows the twelve kinds (log 13). -/
def firstErrorNum : Option (LoadError × Nat) → Nat
  | some (e, _) => e.num
  | none => 12

def FatalCause.num : FatalCause → Nat
  | .noSignature => 0
  | .noSlots => 1
  | .noLinks => 2

def RejectReason.num : RejectReason → Fin 10
  | .idRange => 0
  | .duplicateId => 1
  | .slotNotFitted => 2
  | .portRange => 3
  | .sameEndpoint => 4
  | .endpointUsed => 5
  | .lanesRange => 6
  | .limitSetRange => 7
  | .neighbourCount => 8
  | .truncated => 9

def Lease.num : Lease → Nat
  | .free => 0
  | .watched _ => 1
  | .held _ _ => 2
  | .heldUnposted _ _ _ => 3

def Recall.num : Recall → Nat
  | .none => 0
  | .recalling _ => 1
  | .expiredWaiting => 2

def LeaseMode.num : LeaseMode → Nat
  | .hold => 0
  | .watch => 1

/-- The number of a window state; IDLE is 0 (R64). -/
def WinState.num : WinState → Nat
  | .opened => 1
  | .armed => 2
  | .setup => 3
  | .settle => 4
  | .lead => 5
  | .dwell => 6
  | .harvest => 7
  | .paused => 8
  | .done => 9
  | .stopped => 10

def WinMode.num : WinMode → Nat
  | .fwd => 0
  | .rev => 1
  | .paired => 2

def Dir.num : Dir → Nat
  | .fwd => 0
  | .rev => 1

def End.num : End → Nat
  | .a => 0
  | .b => 1

def TakeMode.num : TakeMode → Nat
  | .consume => 0
  | .leave => 1

def SignalEvent.num : SignalEvent → Nat
  | .firstDwell => 1
  | .eachDwellEnd => 2
  | .done => 3

def FaultMode.num : FaultMode → Nat
  | .halt => 0
  | .pause => 1

def EndCause.num : EndCause → Nat
  | .complete => 0
  | .boundaryStop => 1
  | .runClosing => 2
  | .linkWithdrawn => 3
  | .stopNow => 4
  | .recalled => 5
  | .fault => 6
  | .paddle => 7
  | .lockLoss => 8
  | .aborted => 9
  | .evicted => 10
  | .runClosed => 11

def Verdict.num : Verdict → Nat
  | .untested => 0
  | .incomplete => 1
  | .marginal => 2
  | .pass => 3
  | .fail => 4
  | .withdrawn => 5

def enSource : StartSource → List Byte
  | .immediate => u8 0
  | .semaphore k t => u8 1 ++ u8 k.val ++ u8 t.num

def enSignal : Option Signal → List Byte
  | none => u8 0
  | some g => u8 g.event.num ++ u8 g.sem.val

/-- A set of result flags: AGGRESSED at bit 0 through RECALLED at bit 4 (R198). -/
def enFlags (f : ResultFlags) : List Byte :=
  u8 ((if f.aggressed then 1 else 0) + (if f.mismatch then 2 else 0) + (if f.interrupted then 4 else 0)
    + (if f.faulted then 8 else 0) + (if f.recalled then 16 else 0))

/-- The times of a window as sent, four bytes each (R198; log 34). -/
def enTiming (t : Timing) : List Byte := u32 t.lead ++ u32 t.dwell ++ u32 t.dead

def enFirstError (e : FirstError) : List Byte := u16 e.repeatNo ++ u32 e.time

/-- Every field of an accumulator, in the order of R81 (R97). -/
def enAccumulator (a : Accumulator) : List Byte :=
  u8 a.link.val ++ u8 a.dir.num ++ enList u32 a.lanes ++ u32 a.pulses ++ u32 a.dwell ++ u16 a.lockLosses
    ++ u8 a.repeats ++ enOpt enFirstError a.firstError ++ enFlags a.flags ++ enFlag a.retest

/-! ## Response frames (R198) -/

/-- A response frame: status, tag, code, length, data and the CRC-8 over all the bytes before it. -/
def responseFrame (r : Reply) (code tag : Byte) : List Byte :=
  let body := [r.status.code, tag, code] ++ u16 r.data.length ++ r.data
  body ++ [crc8 body]

end Sys2Proof.Machine
end

