-- ==== Sys2Proof/Machine/Ports.lean ====
section
/-! DEFINITION. Sys2Proof/Machine/Ports.lean: the agent ports (spec 10): the serial transaction and the response
slot, the taking of a request, and the commands PSEL_N_ASSERTION, READ_NOTICES, CLEAR_NOTICES, SET_NOTICES and
SET_NOTICE_ENABLE. -/

namespace Sys2Proof.Machine

/-! ## The response slot -/

/-- READY, WORKING or ANSWERED (R176). -/
def ResponseSlot.kind : ResponseSlot → SlotKind
  | .ready => .ready
  | .working _ _ _ => .working
  | .answered _ => .answered

/-- The response slot of a port replaced. -/
def State.setSlot (s : State) (p : PortId) (x : ResponseSlot) : State :=
  s.modPort p (fun y => { y with slot := x })

/-- A response frame built from what the owning block hands back and placed in the slot, which becomes ANSWERED;
the request in progress becomes absent (R181, R182). -/
def State.answer (s : State) (p : PortId) (code tag : Byte) (r : Reply) : State :=
  s.setSlot p (.answered (responseFrame r code tag))

/-- The state at select of the transaction that ends now: the one noted at the select; where no select was
commanded, the transaction is taken whole and the slot's present state is the state at select (log 7); none for a
transaction that is ignored (R176, R190). -/
def AgentPort.atSelect (x : AgentPort) : Option SlotKind :=
  match x.transaction with
  | .none => some x.slot.kind
  | .selected k => some k
  | .ignored => none

/-- The byte that the hub shifts out at a place of the transaction in progress: EMPTY, PENDING, or the response
and then EMPTY, by the state at select (R176); none while PDO is released. That PDO stays released in a transaction
that R190 ignores, though PSEL_N is asserted (10.2), is the model's choice (log 36). -/
def State.shiftedOut (s : State) (p : PortId) (n : Nat) : Option Byte :=
  match (s.port p).transaction, (s.port p).slot with
  | .selected .ready, _ => some 0xE0#8
  | .selected .working, _ => some 0xE1#8
  | .selected .answered, .answered frame => some (frame.getD n 0xE0#8)
  | .selected .answered, _ => some 0xE0#8
  | .none, _ => none
  | .ignored, _ => none

/-- PSEL_N of the port is deasserted. -/
def State.deselect (s : State) (p : PortId) : State := s.modPort p (fun x => { x with transaction := .none })

/-- A complete frame that is not taken is dropped and REQUEST_LOST is raised; anything else changes nothing
(R179, R180). -/
def State.dropFrame (s : State) (p : PortId) (j : Judgement) : State :=
  if j.complete then s.raise p .requestLost else s

/-- What the transaction carried is taken into a READY or just cleared slot (R178, R180): nothing leaves it READY; a
bad frame is answered BAD_FRAME (R181 step 1); a good frame goes on to `run`. -/
def State.takeFrame (s : State) (p : PortId) (j : Judgement)
    (run : Byte → Byte → List Byte → State → State) : State :=
  match j with
  | .noRequest => s.setSlot p .ready
  | .partialFrame => s.setSlot p .ready
  | .badFrame code tag => s.answer p code tag (.bare .badFrame)
  | .frame code tag params => run code tag params (s.setSlot p (.working code tag none))

/-- The deselect of a transaction that received the whole bytes `rx`, by the state at select (R178 to R180). A
response has been read when at least as many whole bytes were moved as its frame has (R180). -/
def State.transact (s : State) (p : PortId) (rx : List Byte) (cut : Bool)
    (run : Byte → Byte → List Byte → State → State) : State :=
  let t := s.deselect p
  if s.rst then t
  else
    match (s.port p).atSelect, (s.port p).slot with
    | none, _ => t
    | some .ready, _ => t.takeFrame p (judge rx cut) run
    | some .working, _ => t.dropFrame p (judge rx cut)
    | some .answered, .answered frame =>
      if frame.length ≤ rx.length then t.takeFrame p (judge rx cut) run else t.dropFrame p (judge rx cut)
    | some .answered, _ => t.dropFrame p (judge rx cut)

/-! ## The taking of a request -/

/-- A request's own rule: from the port, the tag, the parameter bytes and the state, the state after it and its
answer; no answer for a READ_VERDICT that waits for its flush (R181 step 5, R182). -/
abbrev Body := PortId → Byte → List Byte → State → State × Option Reply

/-- Steps 3 to 5 of R181: run state, role, the request's own rule; then the answer, unless it comes later. -/
def State.serve (s : State) (r : Req) (body : Body) (p : PortId) (tag : Byte) (params : List Byte) : State :=
  if r.admits s.run.state then
    if r.permits (s.port p).role then
      match body p tag params s with
      | (t, some reply) => t.answer p r.code tag reply
      | (t, none) => t
    else s.answer p r.code tag (.bare .notPermitted)
  else s.answer p r.code tag (.bare .wrongState)

/-- The transaction that carries a request: `rest` are the bytes received after the request's code byte. -/
def State.request (s : State) (r : Req) (body : Body) (p : PortId) (rest : List Byte) (cut : Bool) : State :=
  s.transact p (r.code :: rest) cut (fun _ tag params t => t.serve r body p tag params)

/-- A request refused by its own rule: nothing changes. -/
def refuse (s : State) (st : Status) : State × Option Reply := (s, some (.bare st))

/-- A request carried out, with its answer's data. -/
def accept (s : State) (data : List Byte) : State × Option Reply := (s, some (.ok data))

/-! ## Requests on the notice set (R186, R187) -/

/-- READ_NOTICES (R186). -/
def bodyReadNotices : Body := fun p _ params s =>
  match params with
  | [] =>
    let x := s.port p
    accept s (enKinds x.notices ++ enKinds x.enables ++ enKinds x.masked)
  | _ :: _ => refuse s .badParam

/-- CLEAR_NOTICES (R186). -/
def bodyClearNotices : Body := fun p _ params s =>
  match params with
  | [a, b] =>
    match kindSetOf a b with
    | some ks =>
      let x := s.port p
      let t := s.modPort p (fun y => y.setSets (y.notices &&& ~~~ks) y.enables)
      accept t (enKinds x.notices ++ enKinds (t.port p).notices)
    | none => refuse s .badParam
  | _ => refuse s .badParam

/-- SET_NOTICES (R187). -/
def bodySetNotices : Body := fun p _ params s =>
  match params with
  | [a, b] =>
    match kindSetOf a b with
    | some ks =>
      let t := s.raiseKinds p ks
      accept t (enKinds (t.port p).notices ++ enKinds (t.port p).enables)
    | none => refuse s .badParam
  | _ => refuse s .badParam

/-- SET_NOTICE_ENABLE (R187). -/
def bodySetNoticeEnable : Body := fun p _ params s =>
  match params with
  | [a, b] =>
    match kindSetOf a b with
    | some ks =>
      let t := s.modPort p (fun y => y.setSets y.notices ks)
      accept t (enKinds (t.port p).notices ++ enKinds (t.port p).enables)
    | none => refuse s .badParam
  | _ => refuse s .badParam

/-! ## Commands -/

/-- READ_NOTICES (R186). -/
def execReadNotices (p : PortId) (rest : List Byte) (cut : Bool) (s : State) :
    Host.Outcome State Fault Refusal :=
  .next (s.request .readNotices bodyReadNotices p rest cut)

/-- CLEAR_NOTICES (R186). -/
def execClearNotices (p : PortId) (rest : List Byte) (cut : Bool) (s : State) :
    Host.Outcome State Fault Refusal :=
  .next (s.request .clearNotices bodyClearNotices p rest cut)

/-- SET_NOTICES (R187). -/
def execSetNotices (p : PortId) (rest : List Byte) (cut : Bool) (s : State) :
    Host.Outcome State Fault Refusal :=
  .next (s.request .setNotices bodySetNotices p rest cut)

/-- SET_NOTICE_ENABLE (R187). -/
def execSetNoticeEnable (p : PortId) (rest : List Byte) (cut : Bool) (s : State) :
    Host.Outcome State Fault Refusal :=
  .next (s.request .setNoticeEnable bodySetNoticeEnable p rest cut)

/-- PSEL_N_ASSERTION: the port notes the state of its response slot (R176). A select while RST_N is asserted is
ignored until its deselect (R190); while PSEL_N is asserted already there is no assertion (log 3). -/
def execPselNAssertion (p : PortId) (s : State) : Host.Outcome State Fault Refusal :=
  .next (s.modPort p (fun x =>
    match x.transaction with
    | .none => { x with transaction := if s.rst then .ignored else .selected x.slot.kind }
    | .selected k => { x with transaction := .selected k }
    | .ignored => { x with transaction := .ignored }))

end Sys2Proof.Machine
end

