-- ==== Sys2Proof/Machine/Posts.lean ====
section
/-! DEFINITION. Sys2Proof/Machine/Posts.lean: the Post Queue and the reading of verdicts (spec 08): arrivals,
supersession, the Commit Engine's choice, merging, flush sets, and the command READ_VERDICT. -/

namespace Sys2Proof.Machine

/-- Two results are for the same link-direction. -/
def sameDirection (a b : Accumulator) : Bool := decide (a.link = b.link) && decide (a.dir = b.dir)

/-- The number of free ordinary buffers: four less the occupied ones (R138). -/
def State.freeBuffers (s : State) : Nat := 4 - s.post.ordinary.length

/-- Every posted result in the queue: the recall buffer's, then the ordinary ones in post order. -/
def State.posted (s : State) : List Posted := s.post.recallBuf.toList ++ s.post.ordinary

/-! ## The answer of a READ_VERDICT (R153) -/

/-- A choice covers a direction. -/
def DirChoice.covers : DirChoice → Dir → Bool
  | .both, _ => true
  | .fwd, d => decide (d = .fwd)
  | .rev, d => decide (d = .rev)

/-- A lane rate in its four-byte field; the manual gives no value for a rate beyond it (log 11). -/
def enRate (r : Nat) : List Byte := if r ≤ max32 then u32 r else u32 (Config.oversizeRate r).toNat

def enMergedError (e : MergedError) : List Byte := u8 e.merge ++ u16 e.repeatNo ++ u32 e.time

/-- The number of results of a link-direction still in the queue, the one in flight included (R153). -/
def State.pendingFor (s : State) (l : LinkId) (d : Dir) : Nat :=
  (s.posted.filter (fun q => decide (q.result.link = l) && decide (q.result.dir = d))).length

/-- One record of the answer: its fields, the lane rates where the dwell total is above 0, the limit set, the link
state, the results pending (R153). That the lane rates are one optional list, and not an optional field for each lane, is
the model's choice (log 12). -/
def State.enRecord (s : State) (l : LinkId) (k : Link) (d : Dir) : List Byte :=
  match s.record l d with
  | some v =>
    u8 l.val ++ u8 d.num ++ u8 v.verdict.num ++ enList u32 v.lanes ++ u32 v.pulses ++ u32 v.dwell
      ++ u16 v.lockLosses ++ u8 v.merged ++ enOpt enMergedError v.firstError ++ enFlags v.flags
      ++ enOpt enPort v.lastPort
      ++ enOpt (enList enRate) (if 0 < v.dwell then some (v.lanes.map (fun e => laneRate e v.dwell)) else none)
      ++ u8 k.limitSet.val ++ u8 k.state.num ++ u8 (s.pendingFor l d)
  | none => []

/-- The answer of a READ_VERDICT as the table and the queue stand (R153, R155). -/
def State.verdictReply (s : State) (l : LinkId) (c : DirChoice) : Reply :=
  match s.link l with
  | some k =>
    .ok ((if c.covers .fwd then s.enRecord l k .fwd else []) ++ (if c.covers .rev then s.enRecord l k .rev else [])
      ++ u8 s.freeBuffers ++ enFlag s.post.recallBuf.isSome)
  | none => .bare .badParam

/-! ## Flush sets (R154, R155) -/

/-- Results leave the flush set of one port; a set that empties is answered in the same event (R155). -/
def State.flushPort (s : State) (gone : List Nat) (p : PortId) : State :=
  match (s.port p).slot with
  | .working code tag (some f) =>
    let left := f.members.filter (fun n => !gone.contains n)
    if left.isEmpty then s.answer p code tag (s.verdictReply f.link f.dirs)
    else s.setSlot p (.working code tag (some { f with members := left }))
  | .working _ _ none => s
  | .ready => s
  | .answered _ => s

/-- Results that leave the queue leave every flush set. -/
def State.flushGone (s : State) (gone : List Nat) : State :=
  allPorts.foldl (fun t p => t.flushPort gone p) s

/-! ## The Commit Engine's choice (R141) -/

/-- The result with a serial marked in flight. -/
def markInFlight (n : Nat) (q : Posted) : Posted := if q.serial = n then { q with inFlight := true } else q

/-- The serial of the result that an idle engine takes: the recall buffer's, else the oldest promoted, else the
oldest ordinary one (R141). -/
def State.nextCommit (s : State) : Option Nat :=
  match s.post.recallBuf with
  | some q => some q.serial
  | none =>
    match s.post.ordinary.find? (fun q => q.promoted) with
    | some q => some q.serial
    | none => s.post.ordinary.head?.map (fun q => q.serial)

/-- An idle engine takes a result if a buffer is occupied; it completes after at most 2 µs (R141; log 5). -/
def State.takeCommit (s : State) : State :=
  match s.post.commit, s.nextCommit with
  | none, some n =>
    (s.setPost { s.post with
      ordinary := s.post.ordinary.map (markInFlight n)
      recallBuf := s.post.recallBuf.map (markInFlight n)
      commit := some { takenAt := s.now, delay := min 2 (Config.commitDelay s.freeIndex) } }).nextFree
  | none, none => s
  | some _, _ => s

/-! ## Arrivals (R139, R140) -/

/-- An older ordinary result that an arriving result cancels: of the same link-direction, not in flight, and the
arriving one marked RETEST (R140). -/
def cancelledBy (a : Accumulator) (x : Posted) : Bool := a.retest && sameDirection a x.result && !x.inFlight

/-- A result arrives, with its supersession check: the older results that it cancels leave their buffers and the flush
sets, each counted in posts superseded; `put` gives the queue with the arriving one over the older ordinary results left;
an idle engine then takes a result (R139 to R141, R155). -/
def State.arrive (s : State) (a : Accumulator) (put : List Posted → PostQueue) : State :=
  let gone := s.post.ordinary.filter (cancelledBy a)
  let t := s.setPost (put (s.post.ordinary.filter (fun x => !cancelledBy a x)))
  let t := t.count (fun c => { c with postsSuperseded := satAdd max16 c.postsSuperseded gone.length })
  (if gone.isEmpty then t else t.flushGone (gone.map (fun x => x.serial))).takeCommit

/-- The posted result formed from a holding (R137). -/
def State.postedOf (s : State) (a : Accumulator) (p : PortId) : Posted :=
  { result := a, port := p, promoted := false, inFlight := false, serial := s.post.nextSerial }

/-- A result arrives in an ordinary buffer, at the young end of the post order (R139). -/
def State.arriveOrdinary (s : State) (a : Accumulator) (p : PortId) : State :=
  s.arrive a (fun older =>
    { s.post with ordinary := older ++ [s.postedOf a p], nextSerial := s.post.nextSerial + 1 })

/-- A holding as it goes to the recall buffer, with its RECALLED flag set (R56 step 2). -/
def Accumulator.recalled (a : Accumulator) : Accumulator := { a with flags := { a.flags with recalled := true } }

/-- A result arrives in the recall buffer (R56 step 2, R139). -/
def State.arriveRecall (s : State) (a : Accumulator) (p : PortId) : State :=
  s.arrive a (fun older => { s.post with
    ordinary := older
    recallBuf := some (s.postedOf a.recalled p)
    nextSerial := s.post.nextSerial + 1 })

/-- The holding of a resource, if it has one, posted to an ordinary buffer; the resource stays held (R50, R69). -/
def State.postHolding (s : State) (r : ResId) : State :=
  match (s.res r).lease with
  | .heldUnposted p since a => (s.setLease r (.held p since)).arriveOrdinary a p
  | .held _ _ => s
  | .free => s
  | .watched _ => s

/-! ## Merging (R143, R144) -/

/-- A result added to a record (R143). -/
def VerdictRecord.add (v : VerdictRecord) (a : Accumulator) : VerdictRecord :=
  let merged := satAdd max8 v.merged 1
  { v with
    lanes := List.zipWith (satAdd max32) v.lanes a.lanes
    pulses := satAdd max32 v.pulses a.pulses
    dwell := satAdd max32 v.dwell a.dwell
    lockLosses := satAdd max16 v.lockLosses a.lockLosses
    merged := merged
    flags := v.flags.union a.flags
    firstError := match v.firstError, a.firstError with
      | some e, _ => some e
      | none, some f => some { merge := merged, repeatNo := f.repeatNo, time := f.time }
      | none, none => none }

/-- A RETEST result replaces the contents of a record (R144). -/
def VerdictRecord.replace (v : VerdictRecord) (a : Accumulator) : VerdictRecord :=
  { v with
    lanes := a.lanes
    pulses := a.pulses
    dwell := a.dwell
    lockLosses := a.lockLosses
    merged := 1
    flags := a.flags
    firstError := a.firstError.map (fun f => { merge := 1, repeatNo := f.repeatNo, time := f.time }) }

/-- A posted result merged into a record by its RETEST mark; last port becomes its posting port (R142). -/
def VerdictRecord.merge (v : VerdictRecord) (q : Posted) : VerdictRecord :=
  { (if q.result.retest then v.replace q.result else v.add q.result) with lastPort := some q.port }

/-- What a completed commit does to the table, by the state of the link as it stands (R142): a result for a
WITHDRAWN link is dropped and counted; any other is merged and the record regraded. -/
def State.mergePosted (s : State) (q : Posted) : State :=
  if s.linkIs q.result.link .withdrawn then
    s.count (fun c => { c with postsDropped := satAdd max16 c.postsDropped 1 })
  else (s.modRecord q.result.link q.result.dir (fun v => v.merge q)).regrade q.result.link q.result.dir

/-! ## READ_VERDICT -/

/-- An ordinary result of a flush set becomes promoted (R154). -/
def promote (l : LinkId) (c : DirChoice) (q : Posted) : Posted :=
  if decide (q.result.link = l) && c.covers q.result.dir then { q with promoted := true } else q

/-- READ_VERDICT: answered at once, or with flush 1 once its flush set has emptied (R153 to R155). -/
def bodyReadVerdict : Body := fun p tag params s =>
  match params with
  | [lb, db, fb] =>
    match idxOf 128 lb, dirChoiceOf db, flagOf fb with
    | some l, some c, some flush =>
      if (s.link l).isSome then
        let members := s.posted.filter (fun q => decide (q.result.link = l) && c.covers q.result.dir)
        if flush && !members.isEmpty then
          let t := s.setPost { s.post with ordinary := s.post.ordinary.map (promote l c) }
          let wait : FlushWait := { link := l, dirs := c, members := members.map (fun q => q.serial) }
          (t.setSlot p (.working Req.readVerdict.code tag (some wait)), none)
        else (s, some (s.verdictReply l c))
      else refuse s .badParam
    | _, _, _ => refuse s .badParam
  | _ => refuse s .badParam

/-- READ_VERDICT (R153, R154). -/
def execReadVerdict (p : PortId) (rest : List Byte) (cut : Bool) (s : State) :
    Host.Outcome State Fault Refusal :=
  .next (s.request .readVerdict bodyReadVerdict p rest cut)

end Sys2Proof.Machine
end

