-- ==== Sys2Proof/Machine/Withdraws.lean ====
section
/-! DEFINITION. Sys2Proof/Machine/Withdraws.lean: withdrawing links (spec 09) and the entry to CLOSED that
completes withdrawals (R27, R28): the commands WITHDRAW, RESTORE, ACK_WITHDRAW, SYNC, READ_WITHDRAWS and
SYNC_TIMEOUT. -/

namespace Sys2Proof.Machine

/-! ## The states of windows (R64) -/

/-- A phase state: SETUP through PAUSED. -/
def WinState.phase : WinState → Bool
  | .setup => true
  | .settle => true
  | .lead => true
  | .dwell => true
  | .harvest => true
  | .paused => true
  | .opened => false
  | .armed => false
  | .done => false
  | .stopped => false

/-- An active window: OPEN through PAUSED. -/
def WinState.active (x : WinState) : Bool := x.phase || decide (x = .opened) || decide (x = .armed)

/-! ## Interest (R164) -/

/-- The window names the link as victim or as an aggressor. -/
def Window.namesLink (x : Window) (l : LinkId) : Bool :=
  decide (x.victim = l) || x.aggressors.any (fun a => decide (a.link = l))

/-- The port is blocked on the link: it owns an active window that names it, or holds a CHK whose holding is for it
(R164). -/
def State.blocked (s : State) (p : PortId) (l : LinkId) : Bool :=
  allWindows.any (fun w => match s.win w with
    | some x => decide (x.owner = p) && x.state.active && x.namesLink l
    | none => false)
  || allResources.any (fun r => match (s.res r).lease with
    | .heldUnposted q _ a => decide (q = p) && decide (a.link = l)
    | .held _ _ => false
    | .free => false
    | .watched _ => false)

/-- The ports blocked on a link (R164). -/
def State.interestOf (s : State) (l : LinkId) : PortSet :=
  allPorts.foldl (fun ps p => if s.blocked p l then PortSet.add ps p else ps) 0

/-! ## Sync slots and completion (R166, R172) -/

/-- A completed withdrawal leaves the awaited list of a port's WAITING slot; a slot whose list empties completes
OK and raises SYNC_DONE (R172). -/
def State.syncGone (s : State) (l : LinkId) (p : PortId) : State :=
  match s.syncSlot p with
  | .waiting awaited deadline =>
    if awaited.contains l then
      let left := awaited.filter (fun m => decide (m ≠ l))
      if left.isEmpty then (s.setSync p (.complete [] true)).raise p .syncDone
      else s.setSync p (.waiting left deadline)
    else s
  | .none => s
  | .complete _ _ => s

/-- The completion of the withdrawal of a link (R166): its entry leaves the list, the link and its records become
WITHDRAWN, its neighbours are regraded, the coverage-complete flag is evaluated (but for the entry to CLOSED, which
evaluates it once, R28), and the sync slots are updated. -/
def State.completeWithdraw (s : State) (evaluate : Bool) (l : LinkId) : State :=
  let t := s.setWithdrawList (s.wd.list.filter (fun e => decide (e.link ≠ l)))
  let t := t.setLinkState l .withdrawn
  let t := (t.modRecord l .fwd (fun v => { v with verdict := .withdrawn })).modRecord l .rev
    (fun v => { v with verdict := .withdrawn })
  let t := (t.regradeListing l).recount
  let t := if evaluate then t.evalCoverage else t
  allPorts.foldl (fun u p => u.syncGone l p) t

/-- Ports leave the interest sets, and every entry whose set is then empty completes, in list order (R166 to
R168). -/
def State.removeInterest (s : State) (keep : PortSet → PortSet) : State :=
  let t := s.setWithdrawList (s.wd.list.map (fun e => { e with interest := keep e.interest }))
  t.wd.list.foldl (fun u e => if e.interest = 0 then u.completeWithdraw true e.link else u) t

/-! ## The end of a run (R27, R28) -/

/-- The closing conditions: no window in a phase state, no resource held, the post buffers empty and no commit in
flight (R27). -/
def State.atRest (s : State) : Bool :=
  allWindows.all (fun w => match s.win w with
    | some x => !x.state.phase
    | none => true)
  && allResources.all (fun r => (s.res r).lease.holder.isNone)
  && s.post.ordinary.isEmpty && s.post.recallBuf.isNone && s.post.commit.isNone

/-- The entry to CLOSED: the run time stops, the run state changes, every pending withdrawal completes in list
order, the coverage-complete flag is evaluated (R28, R169). -/
def State.enterClosed (s : State) : State :=
  let t := s.setRun { s.run with time := .stopped s.runTimeMs }
  let t := t.enterRunState .closed
  (t.wd.list.foldl (fun u e => u.completeWithdraw false e.link) t).evalCoverage

/-- A CLOSING run whose closing conditions hold enters CLOSED (R27). -/
def State.checkClosing (s : State) : State :=
  if s.run.state = .closing ∧ s.atRest then s.enterClosed else s

/-! ## Requests -/

/-- A link id that names a link in the map. -/
def State.linkIdOf (s : State) (b : Byte) : Option LinkId :=
  match idxOf 128 b with
  | some l => if (s.link l).isSome then some l else none
  | none => none

/-- WITHDRAW (R162, R163). -/
def bodyWithdraw : Body := fun p _ params s =>
  match params with
  | [b] =>
    match s.linkIdOf b with
    | none => refuse s .badParam
    | some l =>
      if !s.linkIs l .fitted then refuse s .withdrawn
      else if 8 ≤ s.wd.list.length then refuse s .listFull
      else
        let t := s.setLinkState l .withdrawing
        let ps := t.interestOf l
        let t := t.setWithdrawList
          (t.wd.list ++ [{ link := l, issuer := p, issuedAt := t.nowMs, interest := ps }])
        let t := t.raiseOn ps .withdraw
        let t := ((t.regradeListing l).recount).evalCoverage
        let t := if ps = 0 then t.completeWithdraw true l else t
        accept t (enFlag (decide (ps = 0)) ++ enPortSet ps)
  | _ => refuse s .badParam

/-- RESTORE (R174, R151). -/
def bodyRestore : Body := fun _ _ params s =>
  match params with
  | [b] =>
    match s.linkIdOf b with
    | none => refuse s .badParam
    | some l =>
      match s.link l with
      | none => refuse s .badParam
      | some k =>
        match k.state with
        | .fitted => refuse s .badParam
        | .withdrawing => refuse s .busy
        | .withdrawn =>
          let t := s.setLinkState l .fitted
          let t := (t.modRecord l .fwd (fun _ => VerdictRecord.untested k.lanes)).modRecord l .rev
            (fun _ => VerdictRecord.untested k.lanes)
          let t := ((t.regradeListing l).recount).evalCoverage
          accept t []
  | _ => refuse s .badParam

/-- The number of ports in a set. -/
def PortSet.size (ps : PortSet) : Nat := (allPorts.filter (fun p => PortSet.has ps p)).length

/-- ACK_WITHDRAW (R165). -/
def bodyAckWithdraw : Body := fun p _ params s =>
  match params with
  | [b] =>
    match s.linkIdOf b with
    | none => refuse s .badParam
    | some l =>
      match s.wd.list.find? (fun e => decide (e.link = l)) with
      | none => refuse s .notFound
      | some e =>
        if !PortSet.has e.interest p then refuse s .notFound
        else if s.blocked p l then refuse s .busy
        else
          let left := PortSet.drop e.interest p
          let t := s.setWithdrawList
            (s.wd.list.map (fun x => if x.link = l then { x with interest := left } else x))
          let t := if left = 0 then t.completeWithdraw true l else t
          accept t (u8 (PortSet.size left))
  | _ => refuse s .badParam

/-- SYNC (R171). -/
def bodySync : Body := fun p _ params s =>
  match params with
  | [] =>
    match s.syncSlot p with
    | .waiting _ _ => refuse s .busy
    | .none => syncNow p s
    | .complete _ _ => syncNow p s
  | _ :: _ => refuse s .badParam
where
  /-- A SYNC of a slot that is not WAITING: complete at once, or WAITING for every entry of the list (R171). -/
  syncNow (p : PortId) (s : State) : State × Option Reply :=
    if s.wd.list.isEmpty then accept (s.setSync p (.complete [] true)) []
    else
      (s.setSync p (.waiting (s.wd.list.map (fun e => e.link)) (s.nowMs + s.map.syncTimeout)),
        some { status := .queued, data := u8 s.wd.list.length })

/-- An entry of the Withdraw List as READ_WITHDRAWS gives it (R173). That the ports of its interest set are listed from P0
to P3, each with its blocked flag, is the model's choice (log 12). -/
def State.enWithdrawEntry (s : State) (e : WithdrawEntry) : List Byte :=
  u8 e.link.val ++ enPort e.issuer ++ u32 (s.nowMs - e.issuedAt)
    ++ enList (fun p => enPort p ++ enFlag (s.blocked p e.link))
        (allPorts.filter (fun p => PortSet.has e.interest p))

/-- A sync slot: its state, its awaited list, the ms left when WAITING, its result when COMPLETE (R173). -/
def State.enSyncSlot (s : State) : SyncSlot → List Byte
  | .none => u8 0 ++ enOpt (enList (fun l : LinkId => u8 l.val)) none ++ enOpt u32 none ++ enOpt u8 none
  | .waiting awaited deadline =>
    u8 1 ++ enOpt (enList (fun l : LinkId => u8 l.val)) (some awaited) ++ enOpt u32 (some (deadline - s.nowMs))
      ++ enOpt u8 none
  | .complete awaited ok =>
    u8 2 ++ enOpt (enList (fun l : LinkId => u8 l.val)) (some awaited) ++ enOpt u32 none
      ++ enOpt u8 (some (if ok then 0 else 1))

/-- READ_WITHDRAWS (R173). -/
def bodyReadWithdraws : Body := fun p _ params s =>
  match params with
  | [] => accept s (enList s.enWithdrawEntry s.wd.list ++ s.enSyncSlot (s.syncSlot p))
  | _ :: _ => refuse s .badParam

/-! ## Commands -/

/-- WITHDRAW (R162, R163). -/
def execWithdraw (p : PortId) (rest : List Byte) (cut : Bool) (s : State) :
    Host.Outcome State Fault Refusal :=
  .next (s.request .withdraw bodyWithdraw p rest cut)

/-- RESTORE (R174). -/
def execRestore (p : PortId) (rest : List Byte) (cut : Bool) (s : State) :
    Host.Outcome State Fault Refusal :=
  .next (s.request .restore bodyRestore p rest cut)

/-- ACK_WITHDRAW (R165). -/
def execAckWithdraw (p : PortId) (rest : List Byte) (cut : Bool) (s : State) :
    Host.Outcome State Fault Refusal :=
  .next (s.request .ackWithdraw bodyAckWithdraw p rest cut)

/-- SYNC (R171). -/
def execSync (p : PortId) (rest : List Byte) (cut : Bool) (s : State) :
    Host.Outcome State Fault Refusal :=
  .next (s.request .sync bodySync p rest cut)

/-- READ_WITHDRAWS (R173). -/
def execReadWithdraws (p : PortId) (rest : List Byte) (cut : Bool) (s : State) :
    Host.Outcome State Fault Refusal :=
  .next (s.request .readWithdraws bodyReadWithdraws p rest cut)

/-- A WAITING sync slot whose deadline is reached completes with TIMEOUT, keeping what it still awaits (R172). -/
def State.syncTimeout (s : State) (p : PortId) : State :=
  match s.syncSlot p with
  | .waiting awaited deadline =>
    (((s.advanceTo (deadline * 1000)).setSync p (.complete awaited false))).raise p .syncDone
  | .none => s
  | .complete _ _ => s

/-- SYNC_TIMEOUT (R172). -/
def execSyncTimeout (p : PortId) (s : State) : Host.Outcome State Fault Refusal :=
  .next (s.live (fun t => t.syncTimeout p))

end Sys2Proof.Machine
end

