-- ==== Sys2Proof/Machine/SetupLink.lean ====
section
/-! DEFINITION. Sys2Proof/Machine/SetupLink.lean: the capture records and the setup link (spec 06): the Setup Queue,
exchanges and their outcomes, the repeat result, and the commands READ_CAPTURE, SET_CAPTURE, ERR_PULSE_ACCEPT,
ERR_PULSE_REJECT and REPLY_START_BIT. -/

namespace Sys2Proof.Machine

/-! ## The ends of a link in a direction (R68) -/

/-- The driving end: FWD drives from end A, REV from end B. -/
def Link.driveEnd (k : Link) : Dir → EndPoint
  | .fwd => k.endA
  | .rev => k.endB

/-- The receiving end: FWD receives at end B, REV at end A. -/
def Link.receiveEnd (k : Link) : Dir → EndPoint
  | .fwd => k.endB
  | .rev => k.endA

/-- An end by its name. -/
def Link.endPoint (k : Link) : End → EndPoint
  | .a => k.endA
  | .b => k.endB

/-- The slot at which a window receives in a direction, none where its victim names no link. -/
def State.receiveSlot (s : State) (x : Window) (d : Dir) : Option SlotId :=
  (s.link x.victim).map (fun k => (k.receiveEnd d).slot)

/-! ## The capture records (R110 to R115) -/

/-- The least accepted width of an ERR pulse in ns, by the filter code (R108). -/
def minWidth (filter : Nat) : Nat := [0, 20, 40, 80, 160].getD filter 160

/-- The divisor of the prescaler, by the prescale code (R108). -/
def prescaler (code : Nat) : Nat := 2 ^ code

/-- The capture request start: the live values cleared, the receiving window recorded, counting enabled (R110). -/
def Capture.start (c : Capture) (w : WinId) : Capture :=
  { c with counting := true, receiving := some w, live := Live.cleared }

/-- The capture request resume: the live values kept (R110). -/
def Capture.resume (c : Capture) (w : WinId) : Capture := { c with counting := true, receiving := some w }

/-- The capture request disable (R110). -/
def Capture.disable (c : Capture) : Capture := { c with counting := false }

/-- One lock loss counted (R114). -/
def Live.lockLoss (v : Live) : Live := { v with lockLosses := satAdd max16 v.lockLosses 1 }

/-- A counted strobe at a dwell-clock time (R112, R113). -/
def Live.strobe (v : Live) (t : Nat) : Live :=
  { v with
    residue := 0
    strobes := satAdd max32 v.strobes 1
    first := match v.first with
      | some u => some u
      | none => some t
    last := some t
    sinceRead := true
    overcapture := v.overcapture || v.sinceRead }

/-- An accepted pulse passed to a prescaler of divisor `p` (R111, R112). -/
def Live.accept (v : Live) (p t : Nat) : Live :=
  let u := { v with accepted := satAdd max32 v.accepted 1, residue := v.residue + 1 }
  if p ≤ u.residue then u.strobe t else u

/-- A rejected pulse (R111). -/
def Live.reject (v : Live) : Live := { v with rejected := satAdd max32 v.rejected 1 }

/-- The capture record cleared at RUN_START and RELOAD: live values, receiving window, counting (R115). -/
def Capture.clear (c : Capture) : Capture :=
  { c with counting := false, receiving := none, live := Live.cleared }

/-- µs left until a time. -/
def leftUntil (now : Nat) : Option Nat → Nat
  | some t => t - now
  | none => 0

/-- Dwell left as it stands: the DWELL time still to run in the present repeat and direction (R63). In DWELL the dwell
timer gives it; elsewhere the record keeps it. -/
def Window.dwellToRun (x : Window) (now : Nat) : Nat :=
  if x.state = .dwell then leftUntil now x.timerEnd else x.dwellLeft

/-- The dwell clock of a window: µs of DWELL run in the present repeat and direction (R75). -/
def Window.dwellClock (x : Window) (now : Nat) : Nat := x.timing.dwell - x.dwellToRun now

/-- The dwell-clock time at a slot, from the window that receives there. -/
def State.stampAt (s : State) (i : SlotId) : Nat :=
  match (s.cap i).receiving with
  | some w => match s.win w with
    | some x => x.dwellClock s.now
    | none => 0
  | none => 0

/-! ## The request word (R200) -/

/-- The op of a transaction kind. -/
def TxnKind.op : TxnKind → BitVec 2
  | .configureGen => 1
  | .configureChk => 2
  | .harvest => 3

/-- The 16-bit request word: op and lane count - 1, backplane port, pattern, check nibble. -/
def Txn.word (t : Txn) : BitVec 16 :=
  let n0 : BitVec 4 := t.kind.op ++ BitVec.ofNat 2 (t.lanes - 1)
  let n1 : BitVec 4 := BitVec.ofNat 4 t.port.val
  let n2 : BitVec 4 := BitVec.ofNat 4 t.pattern
  n0 ++ n1 ++ n2 ++ (n0 ^^^ n1 ^^^ n2)

/-! ## The Setup Queue (R118, R120, R124) -/

/-- The places of the Setup Queue. -/
def queuePlaces : Nat := 16

/-- Groups admitted whole from the head of an order while they fit; the queue and the order left (R120). -/
def admitGroups (queue : List Txn) : List WaitingGroup → List Txn × List WaitingGroup
  | [] => (queue, [])
  | g :: rest =>
    if queue.length + g.group.length ≤ queuePlaces then admitGroups (queue ++ g.group) rest
    else (queue, g :: rest)

/-- The controller admits from the head of the setup-wait order. -/
def State.admitWaiting (s : State) : State :=
  let (queue, order) := admitGroups s.setup.queue s.setup.order
  s.setSetup { s.setup with queue := queue, order := order }

/-- The oldest QUEUED transaction goes in flight when none is: its request word is clocked out, in 1.6 µs, counted
as 2, and the reply timeout of the Link Map runs from its last bit (R118, R121; log 10). -/
def State.kick (s : State) : State :=
  match s.setup.queue with
  | [] => s
  | t :: rest =>
    if t.inFlight then s
    else s.setSetup { s.setup with
      queue := { t with inFlight := true } :: rest
      exchange := .awaiting t.word (s.now + 2 + s.map.replyTimeout) }

/-- A window submits a group: admitted at once when no window waits and the free places suffice, else the window
joins the setup-wait order (R120). -/
def State.submit (s : State) (w : WinId) (group : List Txn) : State :=
  (if s.setup.order.isEmpty && decide (s.setup.queue.length + group.length ≤ queuePlaces) then
    s.setSetup { s.setup with queue := s.setup.queue ++ group }
  else s.setSetup { s.setup with order := s.setup.order ++ [{ win := w, group := group }] }).kick

/-- What a stop of window `w` leaves of a transaction: nothing of a QUEUED one, the discard mark on the one in
flight (R124). -/
def Txn.stopped (w : WinId) (t : Txn) : Option Txn :=
  if t.win = w then (if t.inFlight then some { t with discard := true } else none) else some t

/-- A stopped window's group leaves the setup-wait order, its QUEUED transactions leave the queue, the one in
flight is marked discard, and the freed places are filled (R124). -/
def State.dropOutstanding (s : State) (w : WinId) : State :=
  (s.setSetup { s.setup with
    queue := s.setup.queue.filterMap (Txn.stopped w)
    order := s.setup.order.filter (fun g => decide (g.win ≠ w)) }).admitWaiting.kick

/-- Some transaction of the window is in the queue and not discarded. -/
def State.hasOutstanding (s : State) (w : WinId) : Bool :=
  s.setup.queue.any (fun t => decide (t.win = w) && !t.discard)

/-! ## Outcomes (R122) -/

/-- The outcome of an exchange. -/
inductive ExchangeOutcome where
  | noReply
  | badReply
  | refused
  | ok
  deriving DecidableEq, Repr

/-- The number of bytes clocked in for a reply (R121). -/
def TxnKind.replyLength : TxnKind → Nat
  | .configureGen => 2
  | .configureChk => 2
  | .harvest => 18

/-- The bytes of a read from place `i` on, `n` of them; a place that the command leaves out is free (log 6). -/
def sampledFrom (i : Nat) : Nat → List Byte → List Byte
  | 0, _ => []
  | n + 1, b :: rest => b :: sampledFrom (i + 1) n rest
  | n + 1, [] => Config.undrivenByte i :: sampledFrom (i + 1) n []

/-- The `n` bytes that the hub samples in a read. -/
def sampled (n : Nat) (bytes : List Byte) : List Byte := sampledFrom 0 n bytes

/-- The four-byte number at a place. -/
def num32At (bytes : List Byte) (i : Nat) : Nat :=
  num32 (bytes.getD i 0) (bytes.getD (i + 1) 0) (bytes.getD (i + 2) 0) (bytes.getD (i + 3) 0)

/-- The lane counts of a HARVEST reply, paddle lanes 0 to 3 (R200). -/
def paddleCounts (reply : List Byte) : List Nat := [num32At reply 1, num32At reply 5, num32At reply 9, num32At reply 13]

/-- The outcome of an exchange whose reply bytes were clocked in: the first condition that holds (R122). -/
def judgeReply (t : Txn) (reply : List Byte) : ExchangeOutcome :=
  if reply.getLast? ≠ some (crc8 reply.dropLast) then .badReply
  else if reply.head? ≠ some 0 then .refused
  else if t.kind = .harvest ∧ ((paddleCounts reply).drop t.lanes).any (fun c => decide (c ≠ 0)) then .badReply
  else .ok

/-! ## The repeat result (R126 to R128) -/

/-- A repeat result. -/
structure RepeatResult where
  lanes : List Nat
  pulses : Nat
  lockLosses : Nat
  dwell : Nat
  first : Option Nat
  mismatch : Bool
  deriving DecidableEq, Repr

/-- The counts of a reply by link lane: at end B of a reversed link the paddle's numbering runs the other way
(R127). -/
def linkLanes (k : Link) (d : Dir) (counts : List Nat) : List Nat :=
  let xs := counts.take k.lanes
  if d = .fwd ∧ k.reversed then xs.reverse else xs

/-- The repeat result from the reply and the receiving slot's capture record (R126). -/
def repeatResult (k : Link) (x : Window) (c : Capture) (reply : List Byte) : RepeatResult :=
  let lanes := linkLanes k x.dir (paddleCounts reply)
  let p := prescaler c.prescale
  let pulses := min max32 (c.live.strobes * p)
  { lanes := lanes, pulses := pulses, lockLosses := c.live.lockLosses, dwell := x.timing.dwell,
    first := c.live.first, mismatch := isMismatch pulses p lanes }

/-! ## Requests -/

/-- A slot number that names a fitted slot. -/
def State.slotIdOf (s : State) (b : Byte) : Option SlotId :=
  match idxOf 16 b with
  | some i => if s.isFitted i then some i else none
  | none => none

def enCapture (c : Capture) : List Byte :=
  u8 c.filter ++ u8 c.prescale ++ enFlag c.counting ++ enOpt (fun w : WinId => u8 w.val) c.receiving
    ++ u32 c.live.accepted ++ u8 c.live.residue ++ u32 c.live.strobes ++ enOpt u32 c.live.first
    ++ enOpt u32 c.live.last ++ u32 c.live.rejected ++ enFlag c.live.sinceRead ++ enFlag c.live.overcapture
    ++ u16 c.live.lockLosses

/-- READ_CAPTURE (R116). -/
def bodyReadCapture : Body := fun p _ params s =>
  match params with
  | [b] =>
    match s.slotIdOf b with
    | none => refuse s .badParam
    | some i =>
      if s.holds p (chkOf i) || s.watches p (chkOf i) then
        accept (s.modLive i (fun v => { v with sinceRead := false })) (enCapture (s.cap i))
      else refuse s .notHeld
  | _ => refuse s .badParam

/-- SET_CAPTURE (R117). -/
def bodySetCapture : Body := fun p _ params s =>
  match params with
  | [b, f, g] =>
    match s.slotIdOf b, idxOf 5 f, idxOf 4 g with
    | some i, some filter, some prescale =>
      if !s.holds p (chkOf i) then refuse s .notHeld
      else if (s.res (chkOf i)).naming.isSome then refuse s .busy
      else
        accept (s.modCap i (fun c => { c with filter := filter.val, prescale := prescale.val }))
          (u8 (s.cap i).filter ++ u8 (s.cap i).prescale)
    | _, _, _ => refuse s .badParam
  | _ => refuse s .badParam

/-! ## Commands -/

/-- READ_CAPTURE (R116). -/
def execReadCapture (p : PortId) (rest : List Byte) (cut : Bool) (s : State) :
    Host.Outcome State Fault Refusal :=
  .next (s.request .readCapture bodyReadCapture p rest cut)

/-- SET_CAPTURE (R117). -/
def execSetCapture (p : PortId) (rest : List Byte) (cut : Bool) (s : State) :
    Host.Outcome State Fault Refusal :=
  .next (s.request .setCapture bodySetCapture p rest cut)

/-- A pulse whose asserted width has reached `width` ns is accepted if that is the minimum width at least and
counting is enabled (R111, R112). -/
def State.pulseAccept (s : State) (i : SlotId) (width : Nat) : State :=
  if (s.cap i).counting ∧ minWidth (s.cap i).filter ≤ width then
    s.modLive i (fun v => v.accept (prescaler (s.cap i).prescale) (s.stampAt i))
  else s

/-- ERR_PULSE_ACCEPT (R111, R112). -/
def execErrPulseAccept (i : SlotId) (width : Nat) (s : State) : Host.Outcome State Fault Refusal :=
  .next (s.live (fun t => t.pulseAccept i width))

/-- A pulse that ends after `width` ns is rejected if that is below the minimum width and counting is enabled
(R111). -/
def State.pulseReject (s : State) (i : SlotId) (width : Nat) : State :=
  if (s.cap i).counting ∧ width < minWidth (s.cap i).filter then s.modLive i Live.reject else s

/-- ERR_PULSE_REJECT (R111). -/
def execErrPulseReject (i : SlotId) (width : Nat) (s : State) : Host.Outcome State Fault Refusal :=
  .next (s.live (fun t => t.pulseReject i width))

/-- The start bit of the reply awaited: the reply is clocked in from the next bit (R121). -/
def State.replyStart (s : State) : State :=
  match s.setup.exchange with
  | .awaiting word _ => s.setSetup { s.setup with exchange := .receiving word }
  | .idle => s
  | .receiving _ => s

/-- REPLY_START_BIT (R121). -/
def execReplyStartBit (s : State) : Host.Outcome State Fault Refusal :=
  .next (s.live State.replyStart)

end Sys2Proof.Machine
end

