-- ==== Sys2Proof/Machine/Windows.lean ====
section
/-! DEFINITION. Sys2Proof/Machine/Windows.lean: the progress of test windows (spec 04), the sets and starts of
semaphores (spec 05), the completion of setup transactions (R123), and the event commands of windows:
SETUP_REPLY_TIMEOUT, SETUP_EXCHANGE_END, SETTLE_TIME_REACHED, LEAD_EXPIRY, DWELL_EXPIRY, LNK_FALL and LNK_RISE. -/

namespace Sys2Proof.Machine

/-! ## What a window names and drives (R65, R66, R68) -/

/-- The slot of an aggressor entry's driving end. -/
def State.aggressorSlot (s : State) (a : Aggressor) : Option SlotId :=
  (s.link a.link).map (fun k => (k.endPoint a.drive).slot)

/-- The directions a mode tests, in the order of a repeat (R78, R81). -/
def WinMode.dirs : WinMode → List Dir
  | .fwd => [.fwd]
  | .rev => [.rev]
  | .paired => [.fwd, .rev]

/-- The slots a window drives from: the GEN of the direction in progress and the driving slots of its aggressor
entries (R65). -/
def State.driveSlots (s : State) (x : Window) : List SlotId :=
  ((s.link x.victim).map (fun k => (k.driveEnd x.dir).slot)).toList ++ x.aggressors.filterMap s.aggressorSlot

/-- The window names a resource on the slot (R68). -/
def Window.namesSlot (x : Window) (i : SlotId) : Bool := x.named.any (fun r => decide (resSlot r = i))

/-- The fault latches of all named slots are clear. -/
def State.latchesClear (s : State) (x : Window) : Bool := x.named.all (fun r => !s.latched (resSlot r))

/-- The window is in LEAD or DWELL: its TXEN requests are up. -/
def WinState.driving (x : WinState) : Bool := decide (x = .lead) || decide (x = .dwell)

/-! ## The fall of the requests (R65, R132) -/

/-- The TXEN request of a slot falls; if the pin was asserted it falls with it and the fall is recorded. -/
def State.fallTxen (s : State) (i : SlotId) : State :=
  if s.txenPin i then (s.setTxen i false).setFall i s.now else s.setTxen i false

/-- The drive of a window in LEAD or DWELL falls: its TXEN requests and the CKEN request of its receiving slot,
with the times recorded (R76 step 1, R84 step 1, R88 step 1). -/
def State.dropDrive (s : State) (w : WinId) (x : Window) : State :=
  if x.state.driving then
    let t := (s.driveSlots x).foldl State.fallTxen s
    let t := match s.receiveSlot x x.dir with
      | some i => t.setCken i false
      | none => t
    t.modWin w (fun y => { y with ownFall := some s.now })
  else s

/-- The Capture Unit disables counting at the window's receiving slot (R110). -/
def State.disableCapture (s : State) (x : Window) : State :=
  match s.receiveSlot x x.dir with
  | some i => s.modCap i Capture.disable
  | none => s

/-! ## Accumulators (R81, R83) -/

/-- An empty accumulator of a link-direction of `n` lanes (R81). -/
def Accumulator.empty (l : LinkId) (d : Dir) (n : Nat) (retest : Bool) : Accumulator :=
  { link := l, dir := d, lanes := List.replicate n 0, pulses := 0, dwell := 0, lockLosses := 0, repeats := 0,
    firstError := none, flags := ResultFlags.none, retest := retest }

/-- A repeat result added, with the repeat's number and its AGGRESSED mark (R81). -/
def Accumulator.add (a : Accumulator) (r : RepeatResult) (number : Nat) (aggressed : Bool) : Accumulator :=
  { a with
    lanes := List.zipWith (satAdd max32) a.lanes r.lanes
    pulses := satAdd max32 a.pulses r.pulses
    dwell := satAdd max32 a.dwell r.dwell
    lockLosses := satAdd max16 a.lockLosses r.lockLosses
    repeats := satAdd max8 a.repeats 1
    firstError := match a.firstError, r.first with
      | some e, _ => some e
      | none, some t => some { repeatNo := number, time := t }
      | none, none => none
    flags := { a.flags with
      mismatch := a.flags.mismatch || r.mismatch
      aggressed := a.flags.aggressed || aggressed } }

/-- The accumulator of a direction, if the window's mode tests it. -/
def Window.acc (x : Window) : Dir → Option Accumulator
  | .fwd => x.accFwd
  | .rev => x.accRev

/-- The accumulator of one direction changed. -/
def Window.modAcc (x : Window) (d : Dir) (f : Accumulator → Accumulator) : Window :=
  match d with
  | .fwd => { x with accFwd := x.accFwd.map f }
  | .rev => { x with accRev := x.accRev.map f }

/-- Every accumulator changed. -/
def Window.modAccs (x : Window) (f : Accumulator → Accumulator) : Window := (x.modAcc .fwd f).modAcc .rev f

/-- The accumulator is placed when the window ends: it has a completed repeat or FAULTED is set (R83). -/
def Accumulator.placed (a : Accumulator) : Bool := decide (1 ≤ a.repeats) || a.flags.faulted

/-- An accumulator becomes the holding of a held resource, holder and grant time kept (R83, R37). -/
def Lease.place (l : Lease) (a : Accumulator) : Lease :=
  match l with
  | .held p since => .heldUnposted p since a
  | .heldUnposted p since _ => .heldUnposted p since a
  | .free => .free
  | .watched ws => .watched ws

/-- The result of one direction placed on its receiving CHK, if it qualifies (R83). -/
def State.placeDir (s : State) (x : Window) (d : Dir) : State :=
  match x.acc d, s.receiveSlot x d with
  | some a, some i => if a.placed then s.modRes (chkOf i) (fun r => { r with lease := r.lease.place a }) else s
  | _, _ => s

/-- The results of a window placed (R83). -/
def State.placeResults (s : State) (x : Window) : State := (s.placeDir x .fwd).placeDir x .rev

/-- The window stops naming every resource (R66, R83). -/
def State.unnameAll (s : State) (w : WinId) (x : Window) : State :=
  (x.named.foldl (fun t r => t.setNaming r none) s).modWin w (fun y => { y with named := [] })

/-! ## Stops (R84) -/

/-- The armed lists without the window (R103). -/
def State.disarm (s : State) (w : WinId) : State :=
  { s with sems := Table.each (fun k => { k with armed := k.armed.filter (fun e => decide (e.win ≠ w)) }) s.sems }

/-- Step 1 of a stop: the state and the cause, and what the record keeps of the phase: the armed-at time and the
running timer go, dwell left is what remained (R84; log 16). -/
def Window.halted (x : Window) (c : EndCause) (now : Nat) : Window :=
  { x with
    state := .stopped
    endCause := some c
    armedAt := none
    dwellLeft := x.dwellToRun now
    timerEnd := none }

/-- Step 3 of a stop: the lock losses of a repeat that has dwelt are kept (R84). -/
def Window.keepLockLosses (x : Window) (losses : Nat) : Window :=
  if x.dwelt then x.modAcc x.dir (fun a => { a with lockLosses := satAdd max16 a.lockLosses losses }) else x

/-- Step 4 of a stop: FAULTED or RECALLED on every accumulator, by the cause (R84). -/
def Window.markCause (x : Window) (c : EndCause) : Window :=
  match c with
  | .fault => x.modAccs (fun a => { a with flags := { a.flags with faulted := true } })
  | .recalled => x.modAccs (fun a => { a with flags := { a.flags with recalled := true } })
  | .complete | .boundaryStop | .runClosing | .linkWithdrawn | .stopNow | .paddle | .lockLoss | .aborted
  | .evicted | .runClosed => x

/-- The lock-loss count of the capture record of the window's receiving slot. -/
def State.lossesOf (s : State) (x : Window) : Nat :=
  match s.receiveSlot x x.dir with
  | some i => (s.cap i).live.lockLosses
  | none => 0

/-- An active window enters STOPPED with a cause (R84); a window that is not active does not. -/
def State.stopWindow (s : State) (w : WinId) (c : EndCause) : State :=
  match s.win w with
  | none => s
  | some x =>
    if x.state.active then
      let t := ((s.dropDrive w x).disableCapture x).modWin w (fun y => y.halted c s.now)
      let t := (t.dropOutstanding w).disarm w
      let t := t.modWin w (fun y => (y.keepLockLosses (s.lossesOf x)).markCause c)
      let t := match t.win w with
        | some y => (if c = EndCause.aborted then t else t.placeResults y).unnameAll w y
        | none => t
      let t := if c = EndCause.evicted then t else t.raise x.owner .windowEnd
      t.count (fun n => { n with windowsStopped := satAdd max16 n.windowsStopped 1 })
    else s

/-! ## The end in DONE (R83, R86) -/

/-- The semaphores that a window sets at an event, by its signal (R86). -/
def Window.setsAt (x : Window) (e : SignalEvent) : List SemId :=
  match x.signal with
  | some g => if g.event = e then [g.sem] else []
  | none => []

/-- A window ends DONE: the cause, the placement, the naming, WINDOW_END, the count; the set of its DONE signal is
handed back, to be taken by the Semaphore Unit (R86). -/
def State.endDone (s : State) (w : WinId) (c : EndCause) : State × List SemId :=
  match s.win w with
  | none => (s, [])
  | some x =>
    let t := s.modWin w (fun y => { y with state := .done, endCause := some c, armedAt := none, timerEnd := none })
    let t := ((t.placeResults x).unnameAll w x).raise x.owner .windowEnd
    (t.count (fun n => { n with windowsDone := satAdd max16 n.windowsDone 1 }), x.setsAt .done)

/-! ## The entry to SETUP (R71, R72) -/

/-- The CONFIGURE transaction of one named resource (R72): for a GEN, at the end it drives from; for a CHK, at the
victim's receiving end that lies on its slot. -/
def State.configure (s : State) (w : WinId) (x : Window) (r : ResId) : Option Txn :=
  let txn (kind : TxnKind) (e : EndPoint) (lanes : Nat) : Txn :=
    { kind := kind, slot := e.slot, port := e.port, lanes := lanes, pattern := x.pattern, win := w,
      inFlight := false, discard := false }
  match s.link x.victim with
  | none => none
  | some k =>
    if isGen r then
      match x.mode.dirs.find? (fun d => decide ((k.driveEnd d).slot = resSlot r)) with
      | some d => some (txn .configureGen (k.driveEnd d) k.lanes)
      | none =>
        match x.aggressors.find? (fun a => decide (s.aggressorSlot a = some (resSlot r))) with
        | some a => (s.link a.link).map (fun m => txn .configureGen (m.endPoint a.drive) m.lanes)
        | none => none
    else
      match x.mode.dirs.find? (fun d => decide ((k.receiveEnd d).slot = resSlot r)) with
      | some d => some (txn .configureChk (k.receiveEnd d) k.lanes)
      | none => none

/-- A window enters SETUP and submits its group, in resource-number order (R72). -/
def State.enterSetup (s : State) (w : WinId) : State :=
  match s.win w with
  | some x =>
    (s.modWin w (fun y => { y with state := .setup, armedAt := none })).submit w (x.named.filterMap (s.configure w x))
  | none => s

/-- Every aggressor entry whose link is WITHDRAWING leaves the list, and the window stops naming its GEN (R79
step 2). -/
def State.dropAggressors (s : State) (w : WinId) : State :=
  match s.win w with
  | none => s
  | some x =>
    let gone := x.aggressors.filter (fun a => s.linkIs a.link .withdrawing)
    let gens := gone.filterMap (fun a => (s.aggressorSlot a).map genOf)
    (gens.foldl (fun t r => t.setNaming r none) s).modWin w (fun y =>
      { y with aggressors := y.aggressors.filter (fun a => !gone.contains a)
               named := y.named.filter (fun r => !gens.contains r) })

/-- The Semaphore Unit starts an ARMED window (R71): it ends DONE when its victim is WITHDRAWING; else it drops
withdrawing aggressors and enters SETUP, or is stopped with FAULT at the entry. -/
def State.armedStart (s : State) (w : WinId) : State × List SemId :=
  match s.win w with
  | none => (s, [])
  | some x =>
    if x.state ≠ .armed then (s, [])
    else if s.linkIs x.victim .withdrawing then s.endDone w .linkWithdrawn
    else
      let t := s.dropAggressors w
      match t.win w with
      | some y =>
        if y.faultMode = .halt ∧ !t.latchesClear y then (t.stopWindow w .fault, []) else (t.enterSetup w, [])
      | none => (t, [])

/-! ## Semaphores (R100 to R102, R107) -/

/-- The entries that a start chooses: every LEAVE entry and the first CONSUME entry (R101 steps 1, 2); `free` is
true while no CONSUME entry has been chosen. -/
def chooseEntries (free : Bool) : List ArmedEntry → List ArmedEntry × List ArmedEntry
  | [] => ([], [])
  | e :: rest =>
    if e.take = .leave then
      let (c, k) := chooseEntries free rest
      (e :: c, k)
    else if free then
      let (c, k) := chooseEntries false rest
      (e :: c, k)
    else
      let (c, k) := chooseEntries free rest
      (c, e :: k)

/-- The chosen windows handed over in order; the sets that arise, in the order of the hand-over (R101 step 5,
R107). -/
def State.handOver (s : State) : List ArmedEntry → State × List SemId
  | [] => (s, [])
  | e :: rest =>
    let (t, a) := s.armedStart e.win
    let (u, b) := t.handOver rest
    (u, a ++ b)

/-- The start of the armed list of a semaphore (R101): the windows started and the sets that arise. -/
def State.startList (s : State) (k : SemId) : State × List WinId × List SemId :=
  let (chosen, kept) := chooseEntries true (s.sem k).armed
  let consumed := chosen.any (fun e => decide (e.take = .consume))
  let t := s.modSem k (fun x => { x with armed := kept, set := x.set && !consumed })
  let (u, arising) := t.handOver chosen
  (u, chosen.map (fun e => e.win), arising)

/-- A set arrives: the flag or the overrun, then the start (R100). -/
def State.takeSet (s : State) (k : SemId) : State × List WinId × List SemId :=
  (s.modSem k (fun x => { x with set := true, overrun := x.overrun || x.set })).startList k

/-- Sets taken one after another, those that arise in a start after its hand-over (R107). Each set that arises has ended
one of the eight windows, so nine sets are the most. That the sets of a first start which still wait go before those
that arise in a chained start is the model's choice (log 29). -/
def State.takeSets : Nat → State → List SemId → State
  | 0, s, _ => s
  | _, s, [] => s
  | n + 1, s, k :: rest =>
    let (t, _, arising) := s.takeSet k
    State.takeSets n t (rest ++ arising)

/-- The sets of one event, taken to the end. -/
def State.doSets (s : State) (ks : List SemId) : State := State.takeSets 9 s ks

/-- A window signals an event (R86). -/
def State.signal (s : State) (w : WinId) (e : SignalEvent) : State :=
  match s.win w with
  | some x => s.doSets (x.setsAt e)
  | none => s

/-- A window ends DONE, with the set of its signal (R83, R86). -/
def State.finish (s : State) (w : WinId) (c : EndCause) : State :=
  let (t, ks) := s.endDone w c
  t.doSets ks

/-! ## LEAD and DWELL (R73 to R75) -/

/-- A time that is absent, or lies at least `gap` µs back. -/
def passed (now gap : Nat) : Option Nat → Bool
  | some t => decide (t + gap ≤ now)
  | none => true

/-- The conditions of R73. -/
def State.mayDrive (s : State) (x : Window) : Bool :=
  passed s.now x.timing.dead x.ownFall
  && (s.driveSlots x).all (fun i => passed s.now (s.slotEntry i).quiet (Table.rd s.eng.fall i))
  && s.latchesClear x

/-- The lock check at an entry into DWELL (R114, R75, R90). -/
def State.lockCheck (s : State) (w : WinId) (x : Window) (i : SlotId) : State :=
  if s.lnkUp i then s
  else
    let t := s.modLive i Live.lockLoss
    if x.stopOnLockLoss then t.stopWindow w .lockLoss else t

/-- A window enters DWELL (R75). -/
def State.enterDwell (s : State) (w : WinId) : State :=
  match s.win w with
  | none => s
  | some x =>
    match s.receiveSlot x x.dir with
    | none => s
    | some i =>
      let t := (s.setCken i true).modCap i (fun c => if x.dwelt then c.resume w else c.start w)
      let t := t.modWin w (fun y => { y with
        state := .dwell, dwelt := true, timerEnd := some (s.now + y.dwellLeft), firstDwelt := true })
      let t := t.lockCheck w x i
      match t.win w with
      | some y => if y.state = .dwell ∧ !x.firstDwelt then t.signal w .firstDwell else t
      | none => t

/-- A window enters LEAD; a lead of 0 expires in the same event (R74). -/
def State.enterLead (s : State) (w : WinId) : State :=
  match s.win w with
  | none => s
  | some x =>
    let t := (s.driveSlots x).foldl (fun u i => u.setTxen i true) s
    let t := t.modWin w (fun y => { y with state := .lead, timerEnd := some (s.now + y.timing.lead) })
    if x.timing.lead = 0 then t.enterDwell w else t

/-- A window in SETTLE evaluates its conditions and enters LEAD when they hold together (R73). -/
def State.tryLead (s : State) (w : WinId) : State :=
  match s.win w with
  | some x => if x.state = .settle ∧ s.mayDrive x then s.enterLead w else s
  | none => s

/-- A window enters SETTLE (R72, R73). -/
def State.enterSettle (s : State) (w : WinId) : State :=
  (s.modWin w (fun y => { y with state := .settle, timerEnd := none })).tryLead w

/-- A PAUSED window whose named slots' latches are all clear enters SETTLE (R89). -/
def State.tryResume (s : State) (w : WinId) : State :=
  match s.win w with
  | some x => if x.state = .paused ∧ s.latchesClear x then s.enterSettle w else s
  | none => s

/-- A window in LEAD or DWELL enters PAUSED (R88). -/
def State.pauseWindow (s : State) (w : WinId) (x : Window) : State :=
  let t := (s.dropDrive w x).disableCapture x
  let t := t.modWin w (fun y =>
    { y.modAcc x.dir (fun a => { a with flags := { a.flags with interrupted := true } }) with
      state := .paused
      dwellLeft := x.dwellToRun s.now
      timerEnd := none })
  t.tryResume w

/-- A window in a phase state that names a slot reacts to its latch: a HALT window stops, a PAUSE window in LEAD or
DWELL pauses, in SETUP, SETTLE and HARVEST it goes on (R87, R88). -/
def State.faultWindow (s : State) (i : SlotId) (w : WinId) : State :=
  match s.win w with
  | none => s
  | some x =>
    if x.state.phase ∧ x.namesSlot i then
      match x.faultMode with
      | .halt => s.stopWindow w .fault
      | .pause => if x.state.driving then s.pauseWindow w x else s
    else s

/-- The windows that name a slot react to its latch (R131 step 5). The manual gives them no order; number order is the
model's choice (log 30). -/
def State.faultWindows (s : State) (i : SlotId) : State := allWindows.foldl (fun t w => t.faultWindow i w) s

/-- A latch of a slot clears: the windows in SETTLE or PAUSED that name it evaluate their conditions (R134). The manual
gives them no order; number order is the model's choice (log 30). -/
def State.latchCleared (s : State) (i : SlotId) : State :=
  allWindows.foldl (fun t w =>
    match t.win w with
    | some x => if x.namesSlot i then (if x.state = .paused then t.tryResume w else t.tryLead w) else t
    | none => t) s

/-! ## The end of a DWELL, the HARVEST and the repeat boundary (R76 to R79) -/

/-- The HARVEST transaction of a window, at the victim's receiving end of the direction in progress (R76). -/
def State.harvestGroup (s : State) (w : WinId) (x : Window) : List Txn :=
  match s.link x.victim with
  | some k =>
    let e := k.receiveEnd x.dir
    [{ kind := .harvest, slot := e.slot, port := e.port, lanes := k.lanes, pattern := x.pattern, win := w,
       inFlight := false, discard := false }]
  | none => []

/-- The dwell timer expires (R76). -/
def State.endDwell (s : State) (w : WinId) (x : Window) : State :=
  let t := (s.dropDrive w x).disableCapture x
  let t := t.modWin w (fun y => { y with aggressedMark := t.isAggressed y })
  let t := t.signal w .eachDwellEnd
  (t.modWin w (fun y => { y with state := .harvest, dwellLeft := 0, timerEnd := none })).submit w
    (t.harvestGroup w x)

/-- The cause with which a window ends at a repeat boundary, if it does (R79 step 3). -/
def State.boundaryCause (s : State) (x : Window) : Option EndCause :=
  if x.repeats ≠ 0 ∧ x.repeatsDone = x.repeats then some .complete
  else if x.boundaryStop then some .boundaryStop
  else if x.repeats = 0 ∧ s.run.state = .closing then some .runClosing
  else if s.linkIs x.victim .withdrawing then some .linkWithdrawn
  else none

/-- A pending retime applied (R79 step 1). -/
def Window.applyRetime (x : Window) : Window :=
  match x.retime with
  | some r => { x with timing := r, retime := none, dwellLeft := r.dwell }
  | none => x

/-- The direction in which a mode begins a repeat (R69, R79). -/
def WinMode.first : WinMode → Dir
  | .fwd => .fwd
  | .rev => .rev
  | .paired => .fwd

/-- A repeat boundary (R79). -/
def State.boundary (s : State) (w : WinId) : State :=
  let t := s.modWin w (fun y => { y with repeatsDone := satAdd max16 y.repeatsDone 1 }.applyRetime)
  let t := t.dropAggressors w
  match t.win w with
  | none => t
  | some x =>
    match t.boundaryCause x with
    | some c => t.finish w c
    | none => (t.modWin w (fun y => { y with dir := y.mode.first })).enterSettle w

/-- The window adds a repeat result and goes on to its second direction or to its repeat boundary (R77, R78). -/
def State.harvested (s : State) (w : WinId) (x : Window) (r : RepeatResult) : State :=
  let number := min max16 (x.repeatsDone + 1)
  let t := s.modWin w (fun y =>
    { y.modAcc x.dir (fun a => a.add r number x.aggressedMark) with
      dwelt := false, dwellLeft := y.timing.dwell })
  if x.mode = .paired ∧ x.dir = .fwd then (t.modWin w (fun y => { y with dir := .rev })).enterSettle w
  else t.boundary w

/-! ## The completion of a transaction (R123) -/

/-- A window hears the completion of one of its transactions (R72, R77, R123 step 2). -/
def State.hear (s : State) (t : Txn) (o : ExchangeOutcome) (reply : List Byte) : State :=
  match s.win t.win with
  | none => s
  | some x =>
    if o ≠ .ok then s.stopWindow t.win .paddle
    else if x.state = .setup then (if s.hasOutstanding t.win then s else s.enterSettle t.win)
    else if x.state = .harvest then
      match s.link x.victim with
      | some k => s.harvested t.win x (repeatResult k x (s.cap (k.receiveEnd x.dir).slot) reply)
      | none => s
    else s

/-- The exchange ends and its transaction completes (R123). -/
def State.completeTxn (s : State) (t : Txn) (rest : List Txn) (o : ExchangeOutcome) (reply : List Byte) : State :=
  let u := s.setSetup { s.setup with queue := rest, exchange := .idle }
  let u := if t.discard then u else u.hear t o reply
  u.admitWaiting.kick

/-- The exchange in flight ends with an outcome of its transaction. -/
def State.endExchange (s : State) (outcome : Txn → ExchangeOutcome) (reply : Txn → List Byte) : State :=
  match s.setup.queue with
  | t :: rest => if t.inFlight then s.completeTxn t rest (outcome t) (reply t) else s
  | [] => s

/-- The exchange on the link ends with its reply clocked in. A reply that has been clocked in whole had its start
bit, whether or not that was commanded (log 7). -/
def State.exchangeEnd (s : State) (reply : List Byte) : State :=
  let bytes := fun t : Txn => sampled t.kind.replyLength reply
  match s.setup.exchange with
  | .idle => s
  | .awaiting _ _ => s.endExchange (fun t => judgeReply t (bytes t)) bytes
  | .receiving _ => s.endExchange (fun t => judgeReply t (bytes t)) bytes

/-- The reply timeout runs out without a start bit (R121, R122). -/
def State.replyTimeout (s : State) : State :=
  match s.setup.exchange with
  | .awaiting _ timeoutAt => (s.advanceTo timeoutAt).endExchange (fun _ => .noReply) (fun _ => [])
  | .idle => s
  | .receiving _ => s

/-! ## Event commands -/

/-- SETUP_REPLY_TIMEOUT (R121 to R123). -/
def execSetupReplyTimeout (s : State) : Host.Outcome State Fault Refusal := .next (s.live State.replyTimeout)

/-- SETUP_EXCHANGE_END (R122, R123). -/
def execSetupExchangeEnd (reply : List Byte) (s : State) : Host.Outcome State Fault Refusal :=
  .next (s.live (fun t => t.exchangeEnd reply))

/-- The times that a window in SETTLE waits for (R73 conditions 1 and 2). -/
def State.settleTimes (s : State) (x : Window) : List Nat :=
  ((x.ownFall.map (fun t => t + x.timing.dead)).toList
    ++ (s.driveSlots x).filterMap (fun i => (Table.rd s.eng.fall i).map (fun t => t + (s.slotEntry i).quiet))).filter
      (fun t => decide (s.now < t))

/-- The earliest of some times. -/
def earliest : List Nat → Option Nat
  | [] => none
  | t :: rest => some (rest.foldl min t)

/-- A window in SETTLE reaches the earliest time it still waits for and evaluates its conditions (R73; log 2). -/
def State.settleReached (s : State) (w : WinId) : State :=
  match s.win w with
  | some x =>
    if x.state = .settle then
      match earliest (s.settleTimes x) with
      | some t => (s.advanceTo t).tryLead w
      | none => s.tryLead w
    else s
  | none => s

/-- SETTLE_TIME_REACHED (R73). -/
def execSettleTimeReached (w : WinId) (s : State) : Host.Outcome State Fault Refusal :=
  .next (s.live (fun t => t.settleReached w))

/-- The lead timer of a window in LEAD expires (R74, R75). -/
def State.leadExpired (s : State) (w : WinId) : State :=
  match s.win w with
  | some x => if x.state = .lead then (s.advanceTo (x.timerEnd.getD s.now)).enterDwell w else s
  | none => s

/-- LEAD_EXPIRY (R74, R75). -/
def execLeadExpiry (w : WinId) (s : State) : Host.Outcome State Fault Refusal :=
  .next (s.live (fun t => t.leadExpired w))

/-- The dwell timer of a window in DWELL expires (R76). -/
def State.dwellExpired (s : State) (w : WinId) : State :=
  match s.win w with
  | some x => if x.state = .dwell then (s.advanceTo (x.timerEnd.getD s.now)).endDwell w x else s
  | none => s

/-- DWELL_EXPIRY (R76). -/
def execDwellExpiry (w : WinId) (s : State) : Host.Outcome State Fault Refusal :=
  .next (s.live (fun t => t.dwellExpired w))

/-- A fall of LNK while counting is enabled is a lock loss of the receiving window (R114, R90). -/
def State.lnkFell (s : State) (i : SlotId) : State :=
  if (s.cap i).counting then
    let t := s.modLive i Live.lockLoss
    match (s.cap i).receiving with
    | some w =>
      match s.win w with
      | some x => if x.stopOnLockLoss ∧ x.state = .dwell then t.stopWindow w .lockLoss else t
      | none => t
    | none => t
  else s

/-- LNK_FALL: the level falls; a level that is down already does not (R114; log 3). In reset only the level
changes (log 22). -/
def execLnkFall (i : SlotId) (s : State) : Host.Outcome State Fault Refusal :=
  .next (if s.lnkUp i then (s.setLnk i false).live (fun t => t.lnkFell i) else s)

/-- LNK_RISE: the level rises; nothing is counted (R114). -/
def execLnkRise (i : SlotId) (s : State) : Host.Outcome State Fault Refusal := .next (s.setLnk i true)

end Sys2Proof.Machine
end

