-- ==== Sys2Proof/Machine/WindowRequests.lean ====
section
/-! DEFINITION. Sys2Proof/Machine/WindowRequests.lean: the requests on test windows (spec 04): OPEN_WINDOW, START,
STOP, RETIME, CLOSE_WINDOW, READ_WINDOW. -/

namespace Sys2Proof.Machine

/-! ## OPEN_WINDOW (R67 to R69) -/

/-- The GENs a window would name: the victim's by the mode, and one for each aggressor entry (R68). -/
def State.gensOf (s : State) (k : Link) (o : OpenParams) : List ResId :=
  o.mode.dirs.map (fun d => genOf (k.driveEnd d).slot)
    ++ o.aggressors.filterMap (fun a => (s.aggressorSlot a).map genOf)

/-- The CHKs a window would name (R68). -/
def chksOf (k : Link) (o : OpenParams) : List ResId := o.mode.dirs.map (fun d => chkOf (k.receiveEnd d).slot)

/-- Conditions 3 to 5 of R67 do not hold: the ends of a PAIRED victim lie on two slots; every aggressor is a
neighbour of the victim, none twice; the GENs lie on distinct slots. -/
def State.openParamsFit (s : State) (k : Link) (o : OpenParams) : Bool :=
  (decide (o.mode ≠ .paired) || decide (k.endA.slot ≠ k.endB.slot))
  && o.aggressors.all (fun a => k.neighbours.contains a.link.val)
  && allDistinct (o.aggressors.map (fun a => a.link))
  && allDistinct (s.gensOf k o)

/-- The window record that an accepted OPEN_WINDOW fills (R69). -/
def openedWindow (p : PortId) (k : Link) (o : OpenParams) (named : List ResId) : Window :=
  { state := .opened, owner := p, victim := o.victim, mode := o.mode, aggressors := o.aggressors,
    pattern := o.pattern, timing := o.timing, repeats := o.repeats, source := o.source, signal := o.signal,
    retest := o.retest, stopOnLockLoss := o.stopOnLockLoss, faultMode := o.faultMode, named := named,
    dir := o.mode.first, repeatsDone := 0, dwelt := false, dwellLeft := o.timing.dwell, ownFall := none,
    retime := none, boundaryStop := false, armedAt := none, endCause := none,
    accFwd := if o.mode = .rev then none else some (Accumulator.empty o.victim .fwd k.lanes o.retest),
    accRev := if o.mode = .fwd then none else some (Accumulator.empty o.victim .rev k.lanes o.retest),
    timerEnd := none, aggressedMark := false, firstDwelt := false }

/-- The refusals of R69, the first that holds. -/
def State.openRefusal (s : State) (p : PortId) (o : OpenParams) (named : List ResId) : Option Status :=
  if !s.linkIs o.victim .fitted || o.aggressors.any (fun a => !s.linkIs a.link .fitted) then some .withdrawn
  else if named.any (fun r => !s.holds p r) then some .notHeld
  else if named.any (fun r => decide ((s.res r).recallState ≠ .none)) then some .recalling
  else if named.any (fun r => (s.res r).naming.isSome) then some .busy
  else if !allWindows.any (fun w => (s.win w).isNone) then some .noWindow
  else if s.freeBuffers < (named.filter (fun r => (s.res r).lease.holding.isSome)).length then some .postFull
  else none

/-- OPEN_WINDOW carried out (R69): the holdings of the named CHKs are posted, the lowest IDLE window is filled, its
resources are named. -/
def State.openWindow (s : State) (p : PortId) (w : WinId) (k : Link) (o : OpenParams) (named : List ResId) : State :=
  let t := named.foldl (fun u r => u.postHolding r) s
  let t := t.setWin w (some (openedWindow p k o named))
  named.foldl (fun u r => u.setNaming r (some w)) t

/-- OPEN_WINDOW (R67 to R69). The window holds its named resources in ascending resource number, the order of the group of
R72; that READ_WINDOW lists them so is the model's choice (log 12). -/
def bodyOpenWindow : Body := fun p _ params s =>
  match getOpenParams params with
  | none => refuse s .badParam
  | some o =>
    match s.link o.victim with
    | none => refuse s .badParam
    | some k =>
      if !s.openParamsFit k o then refuse s .badParam
      else
        let named := inNumberOrder (s.gensOf k o ++ chksOf k o)
        match s.openRefusal p o named, allWindows.find? (fun w => (s.win w).isNone) with
        | some st, _ => refuse s st
        | none, none => refuse s .noWindow
        | none, some w =>
          let posted := (named.filter (fun r => (s.res r).lease.holding.isSome)).length
          accept (s.openWindow p w k o named) (u8 w.val ++ u8 posted)

/-! ## START, STOP, RETIME, CLOSE_WINDOW -/

/-- The window named by a request, with its record: a number above 7 is BAD_PARAM, an IDLE window NOT_FOUND
(R70, R80, R85, R96). -/
def State.withWindow (s : State) (b : Byte) (f : WinId → Window → State × Option Reply) : State × Option Reply :=
  match idxOf 8 b with
  | none => refuse s .badParam
  | some w => match s.win w with
    | none => refuse s .notFound
    | some x => f w x

/-- A started window goes to SETUP, or is armed and handed to the Semaphore Unit, which starts it at once when the
semaphore is set (R70, R102). -/
def State.startWindow (s : State) (w : WinId) (x : Window) : State :=
  match x.source with
  | .immediate => s.enterSetup w
  | .semaphore k take =>
    let t := s.modWin w (fun y => { y with state := .armed, armedAt := some s.now })
    let t := t.modSem k (fun m => { m with armed := m.armed ++ [{ win := w, take := take }] })
    if (t.sem k).set then
      let (u, _, arising) := t.startList k
      u.doSets arising
    else t

/-- START (R70). -/
def bodyStart : Body := fun p _ params s =>
  match params with
  | [b] => s.withWindow b (fun w x =>
      if x.owner ≠ p then refuse s .notPermitted
      else if x.state ≠ .opened then refuse s .wrongState
      else if !s.linkIs x.victim .fitted || x.aggressors.any (fun a => !s.linkIs a.link .fitted) then
        refuse s .withdrawn
      else if !s.latchesClear x then refuse s .slotFault
      else accept (s.startWindow w x) [])
  | _ => refuse s .badParam

/-- The port may stop or close the window: its owner, or a SUPERVISOR (R85, R96). -/
def State.mayEnd (s : State) (p : PortId) (x : Window) : Bool :=
  decide (x.owner = p) || decide ((s.port p).role = .supervisor)

/-- The number of a window's state as sent (R64). -/
def State.winStateNum (s : State) (w : WinId) : Nat :=
  match s.win w with
  | some x => x.state.num
  | none => 0

/-- STOP: kind 0 is NOW and 1 is BOUNDARY, which is taken as NOW in OPEN and ARMED (R85). -/
def bodyStop : Body := fun p _ params s =>
  match params with
  | [b, kind] =>
    match flagOf kind with
    | none => refuse s .badParam
    | some boundary => s.withWindow b (fun w x =>
        if !s.mayEnd p x then refuse s .notPermitted
        else if !x.state.active then refuse s .wrongState
        else
          let t := if boundary && x.state.phase then s.modWin w (fun y => { y with boundaryStop := true })
            else s.stopWindow w .stopNow
          accept t (u8 (t.winStateNum w)))
  | _ => refuse s .badParam

/-- The answer's flag is 1 where the values took effect at once, 0 where they are pending (R80; log 12). -/
def bodyRetime : Body := fun p _ params s =>
  match params with
  | b :: more =>
    match getTiming more with
    | some (r, []) => s.withWindow b (fun w x =>
        if x.owner ≠ p then refuse s .notPermitted
        else if x.state.phase then
          accept (s.modWin w (fun y => { y with retime := some r })) (enFlag false)
        else if x.state.active then
          accept (s.modWin w (fun y => { y with timing := r, dwellLeft := r.dwell })) (enFlag true)
        else refuse s .wrongState)
    | _ => refuse s .badParam
  | [] => refuse s .badParam

/-- CLOSE_WINDOW (R96). -/
def bodyCloseWindow : Body := fun p _ params s =>
  match params with
  | [b] => s.withWindow b (fun w x =>
      if !s.mayEnd p x then refuse s .notPermitted
      else if x.state.active then refuse s .busy
      else accept (s.setWin w none) [])
  | _ => refuse s .badParam

/-! ## READ_WINDOW (R97) -/

/-- The setup progress of a window in SETUP or HARVEST: 0 waits for room, 1 has transactions queued, 2 has one in
flight (R97). The numbers, and that a window with one in flight and others queued reports the one in flight, are the
model's choice (log 12). -/
def State.setupProgress (s : State) (w : WinId) : Nat :=
  if s.setup.queue.any (fun t => decide (t.win = w) && t.inFlight && !t.discard) then 2
  else if s.setup.queue.any (fun t => decide (t.win = w) && !t.inFlight) then 1
  else 0

def enAggressor (a : Aggressor) : List Byte := u8 a.link.val ++ u8 a.drive.num

/-- The record of a window as READ_WINDOW gives it, dwell left as it stands (R97, R63). The named resources in ascending
resource number, and of the two accumulators of a PAIRED window FWD first, are the model's choice (log 12). -/
def State.enWindow (s : State) (w : WinId) (x : Window) : List Byte :=
  u8 x.state.num ++ enPort x.owner ++ u8 x.victim.val ++ u8 x.mode.num ++ enList enAggressor x.aggressors
    ++ u8 x.pattern ++ enTiming x.timing ++ u8 x.repeats ++ enSource x.source ++ enSignal x.signal
    ++ enFlag x.retest ++ enFlag x.stopOnLockLoss ++ u8 x.faultMode.num
    ++ enList (fun r : ResId => u8 r.val) x.named
    ++ u8 x.dir.num ++ u16 x.repeatsDone ++ enFlag x.dwelt ++ u32 (x.dwellToRun s.now)
    ++ enOpt u32 (if x.state.driving then some (leftUntil s.now x.timerEnd) else none)
    ++ enOpt u8 (if x.state = .setup ∨ x.state = .harvest then some (s.setupProgress w) else none)
    ++ enOpt enTiming x.retime ++ enFlag x.boundaryStop ++ enOpt (fun c : EndCause => u8 c.num) x.endCause
    ++ enSeq enAccumulator (x.accFwd.toList ++ x.accRev.toList)

/-- READ_WINDOW: for an IDLE window the state alone (R97). -/
def bodyReadWindow : Body := fun _ _ params s =>
  match params with
  | [b] =>
    match idxOf 8 b with
    | none => refuse s .badParam
    | some w => match s.win w with
      | some x => accept s (s.enWindow w x)
      | none => accept s (u8 0)
  | _ => refuse s .badParam

/-! ## Commands -/

/-- OPEN_WINDOW (R67 to R69). -/
def execOpenWindow (p : PortId) (rest : List Byte) (cut : Bool) (s : State) :
    Host.Outcome State Fault Refusal :=
  .next (s.request .openWindow bodyOpenWindow p rest cut)

/-- START (R70). -/
def execStart (p : PortId) (rest : List Byte) (cut : Bool) (s : State) :
    Host.Outcome State Fault Refusal :=
  .next (s.request .start bodyStart p rest cut)

/-- STOP (R85). -/
def execStop (p : PortId) (rest : List Byte) (cut : Bool) (s : State) :
    Host.Outcome State Fault Refusal :=
  .next (s.request .stop bodyStop p rest cut)

/-- RETIME (R80). -/
def execRetime (p : PortId) (rest : List Byte) (cut : Bool) (s : State) :
    Host.Outcome State Fault Refusal :=
  .next (s.request .retime bodyRetime p rest cut)

/-- CLOSE_WINDOW (R96). -/
def execCloseWindow (p : PortId) (rest : List Byte) (cut : Bool) (s : State) :
    Host.Outcome State Fault Refusal :=
  .next (s.request .closeWindow bodyCloseWindow p rest cut)

/-- READ_WINDOW (R97). -/
def execReadWindow (p : PortId) (rest : List Byte) (cut : Bool) (s : State) :
    Host.Outcome State Fault Refusal :=
  .next (s.request .readWindow bodyReadWindow p rest cut)

end Sys2Proof.Machine
end

