-- ==== Sys2Proof/Machine/Semaphores.lean ====
section
/-! DEFINITION. Sys2Proof/Machine/Semaphores.lean: the requests on semaphores (spec 05): SEM_SET, SEM_CLEAR,
SEM_READ. -/

namespace Sys2Proof.Machine

/-- The semaphores' numbers. -/
def allSems : List SemId := List.finRange 8

def enWinId (w : WinId) : List Byte := u8 w.val

/-- SEM_SET: the answer gives the set flag as it was, the windows that this set started, and the flags at the end
of the request's effects (R104, R182; log 14). -/
def bodySemSet : Body := fun _ _ params s =>
  match params with
  | [b] =>
    match idxOf 8 b with
    | none => refuse s .badParam
    | some k =>
      let (t, started, arising) := s.takeSet k
      let u := t.doSets arising
      accept u (enFlag (s.sem k).set ++ enList enWinId started ++ enFlag (u.sem k).set ++ enFlag (u.sem k).overrun)
  | _ => refuse s .badParam

/-- SEM_CLEAR (R105). -/
def bodySemClear : Body := fun _ _ params s =>
  match params with
  | [b] =>
    match idxOf 8 b with
    | none => refuse s .badParam
    | some k =>
      accept (s.modSem k (fun x => { x with set := false, overrun := false }))
        (enFlag (s.sem k).set ++ enFlag (s.sem k).overrun)
  | _ => refuse s .badParam

/-- An entry of an armed list with its window's owner and armed-at time (R106). -/
def State.enArmed (s : State) (e : ArmedEntry) : List Byte :=
  match s.win e.win with
  | some x => enWinId e.win ++ u8 e.take.num ++ enPort x.owner ++ u32 (x.armedAt.getD 0)
  | none => []

/-- SEM_READ (R106). -/
def bodySemRead : Body := fun _ _ params s =>
  match params with
  | [] => accept s (enSeq (fun k => enFlag (s.sem k).set ++ enFlag (s.sem k).overrun
      ++ enList s.enArmed (s.sem k).armed) allSems)
  | _ :: _ => refuse s .badParam

/-! ## Commands -/

/-- SEM_SET (R104). -/
def execSemSet (p : PortId) (rest : List Byte) (cut : Bool) (s : State) :
    Host.Outcome State Fault Refusal :=
  .next (s.request .semSet bodySemSet p rest cut)

/-- SEM_CLEAR (R105). -/
def execSemClear (p : PortId) (rest : List Byte) (cut : Bool) (s : State) :
    Host.Outcome State Fault Refusal :=
  .next (s.request .semClear bodySemClear p rest cut)

/-- SEM_READ (R106). -/
def execSemRead (p : PortId) (rest : List Byte) (cut : Bool) (s : State) :
    Host.Outcome State Fault Refusal :=
  .next (s.request .semRead bodySemRead p rest cut)

end Sys2Proof.Machine
end

