-- ==== Sys2Proof/Machine/Leases.lean ====
section
/-! DEFINITION. Sys2Proof/Machine/Leases.lean: the Lease Directory (spec 03): grants and the grant pass, recalls and
forced releases, and the commands LEASE, RELEASE, POST, DISCARD, RECALL, CANCEL_WAIT, READ_LEASES,
LEASE_LIMIT_CROSSED and RECALL_DEADLINE. -/

namespace Sys2Proof.Machine

/-! ## Grants (R39 to R41) -/

/-- The lease is FREE or WATCHED. -/
def Lease.open : Lease → Bool
  | .free => true
  | .watched _ => true
  | .held _ _ => false
  | .heldUnposted _ _ _ => false

/-- The resource meets the conditions of its mode but for reservation (R39, R40); a WATCH of a checker that the
entry's own port watches is not grantable (R46). -/
def State.leasable (s : State) (p : PortId) (m : LeaseMode) (r : ResId) : Bool :=
  (s.res r).lease.open
  && (match m with
      | .hold => !isGen r || !s.latched (resSlot r)
      | .watch => !isGen r && !s.watches p r)

/-- The resources that some entries name: what they reserve (R44). -/
def reservedBy (es : List WaitEntry) : List ResId := es.flatMap (fun e => e.resources)

/-- The request is grantable (R39, R40). -/
def State.grantable (s : State) (p : PortId) (m : LeaseMode) (rs reserved : List ResId) : Bool :=
  rs.all (fun r => s.leasable p m r && !reserved.contains r)

/-- One resource granted: a HOLD revokes its watchers, LEASE_LOST being raised on each but the requesting port; a
WATCH joins them (R41). -/
def State.grantOne (s : State) (p : PortId) (m : LeaseMode) (r : ResId) : State :=
  match m with
  | .hold =>
    let t := s.raiseOn (PortSet.drop (s.res r).lease.watchers p) .leaseLost
    t.modRes r (fun x => { x with lease := .held p s.nowMs, crossed := false })
  | .watch => s.setLease r (.watched (PortSet.add (s.res r).lease.watchers p))

/-- A grantable request granted (R41). -/
def State.grant (s : State) (p : PortId) (m : LeaseMode) (rs : List ResId) : State :=
  rs.foldl (fun t r => t.grantOne p m r) s

/-! ## Recalls (R52 to R54) -/

/-- The lease limit of a port in ms, 0 meaning none (R4). -/
def State.leaseLimit (s : State) (p : PortId) : Nat := (Table.rd s.map.ports p).leaseLimit

/-- A recall starts: the deadline, and RECALL on the holder (R54). -/
def State.startRecall (s : State) (r : ResId) : State :=
  match (s.res r).lease.holder with
  | some p =>
    (s.modRes r (fun x => { x with recallState := .recalling (s.nowMs + s.map.recallTimeout) })).raise p .recalled
  | none => s

/-- The conditions of R52 on one resource, for a waiting port. -/
def State.recallWanted (s : State) (p : PortId) (r : ResId) : Bool :=
  match (s.res r).lease.holder, (s.res r).lease.since with
  | some q, some since =>
    decide (q ≠ p) && decide (s.leaseLimit q ≠ 0) && decide (s.leaseLimit q < s.nowMs - since)
      && decide ((s.res r).recallState = .none) && (!isGen r || !s.latched (resSlot r))
  | _, _ => false

/-- The recall check of a waiting entry, over its resources in its order (R52). -/
def State.recallCheck (s : State) (e : WaitEntry) : State :=
  e.resources.foldl (fun t r => if t.recallWanted e.port r then t.startRecall r else t) s

/-! ## The grant pass (R46) -/

/-- A pass over the entries still to be visited, `kept` being the older ones that stay. -/
def State.grantFrom (s : State) (kept : List WaitEntry) : List WaitEntry → State
  | [] => s.setWaits kept
  | e :: rest =>
    if s.grantable e.port e.mode e.resources (reservedBy kept) then
      ((s.grant e.port e.mode e.resources).raise e.port .leaseGranted).grantFrom kept rest
    else (s.recallCheck e).grantFrom (kept ++ [e]) rest

/-- A grant pass over the Lease Wait List (R46). -/
def State.grantPass (s : State) : State := s.grantFrom [] s.dir.waits

/-! ## Freeing (R49, R55, R56) -/

/-- A resource becomes FREE and its recall ends; a CHK leaves the expired order (R49, R54, R55). -/
def State.freeRes (s : State) (r : ResId) : State :=
  (s.modRes r (fun x => { x with lease := .free, recallState := .none, crossed := false })).setExpired
    (s.dir.expired.filter (fun q => decide (q ≠ r)))

/-- The window that names a resource stopped with cause RECALLED (R56 step 1, R91). -/
def State.stopNaming (s : State) (r : ResId) : State :=
  match (s.res r).naming with
  | some w => s.stopWindow w .recalled
  | none => s

/-- The forced release of a resource (R56). -/
def State.forcedRelease (s : State) (r : ResId) : State :=
  match (s.res r).lease.holder with
  | none => s
  | some p =>
    let t := s.stopNaming r
    let t := match (t.res r).lease with
      | .heldUnposted q since a => (t.setLease r (.held q since)).arriveRecall a q
      | .held _ _ => t
      | .free => t
      | .watched _ => t
    ((t.freeRes r).raise p .leaseLost).grantPass

/-- The recall buffer has become empty: the CHKs of the expired order are taken in turn while it stays empty
(R55). -/
def State.takeExpired (s : State) : State :=
  s.dir.expired.foldl (fun t r =>
    if t.post.recallBuf.isNone ∧ t.dir.expired.contains r then t.forcedRelease r else t) s

/-! ## LEASE (R38 to R43) -/

/-- The causes of a CONFLICT, numbered in the order of R42's table (log 12). -/
def State.conflictCause (s : State) (r : ResId) : Nat :=
  if !(s.res r).lease.open then 0 else if isGen r && s.latched (resSlot r) then 1 else 2

/-- A request that is neither refused by R38 nor grantable: CONFLICT, WAIT_FULL or QUEUED (R42, R43). -/
def State.waitOrConflict (s : State) (p : PortId) (tag : Byte) (m : LeaseMode) (wait : Bool) (rs : List ResId) :
    State × Option Reply :=
  if !wait then
    match rs.find? (fun r => !s.leasable p m r || (reservedBy s.dir.waits).contains r) with
    | some r => (s, some { status := .conflict, data := u8 r.val ++ u8 (s.conflictCause r) })
    | none => refuse s .conflict
  else if 8 ≤ s.dir.waits.length ∨ 2 ≤ (s.dir.waits.filter (fun e => decide (e.port = p))).length then
    refuse s .waitFull
  else
    let e : WaitEntry := { port := p, tag := tag, mode := m, resources := rs, queuedAt := s.nowMs }
    ((s.setWaits (s.dir.waits ++ [e])).recallCheck e, some (.bare .queued))

/-- A LEASE with good parameters (R38 to R43). -/
def State.leaseRequest (s : State) (p : PortId) (tag : Byte) (m : LeaseMode) (wait : Bool) (rs : List ResId) :
    State × Option Reply :=
  if m = .watch ∧ rs.any isGen then refuse s .badParam
  else if wait && s.dir.waits.any (fun e => decide (e.port = p) && decide (e.tag = tag)) then refuse s .badParam
  else if rs.any (fun r => s.holds p r || (decide (m = .watch) && s.watches p r)) then refuse s .alreadyHeld
  else if s.grantable p m rs (reservedBy s.dir.waits) then accept (s.grant p m rs) []
  else s.waitOrConflict p tag m wait rs

/-- LEASE (R38). -/
def bodyLease : Body := fun p tag params s =>
  if (s.port p).role = .observer ∧ params.head? = some 0 then refuse s .notPermitted
  else
    match params with
    | m :: w :: count :: nums =>
      match leaseModeOf m, flagOf w, s.resListOf count nums with
      | some mode, some wait, some rs => s.leaseRequest p tag mode wait rs
      | _, _, _ => refuse s .badParam
    | _ => refuse s .badParam

/-! ## RELEASE, POST, DISCARD, RECALL, CANCEL_WAIT -/

/-- One resource released by a port (R49). -/
def State.releaseOne (s : State) (p : PortId) (r : ResId) : State :=
  match (s.res r).lease with
  | .heldUnposted _ _ _ => (s.postHolding r).freeRes r
  | .held _ _ => s.freeRes r
  | .watched ws =>
    let left := PortSet.drop ws p
    s.setLease r (if left = 0 then .free else .watched left)
  | .free => s

/-- The number of resources of a list that carry a holding. -/
def State.unposted (s : State) (rs : List ResId) : Nat :=
  (rs.filter (fun r => (s.res r).lease.holding.isSome)).length

/-- RELEASE (R48, R49). -/
def bodyRelease : Body := fun p _ params s =>
  match params with
  | count :: nums =>
    match s.resListOf count nums with
    | none => refuse s .badParam
    | some rs =>
      if rs.any (fun r => !s.holds p r && !s.watches p r) then refuse s .notHeld
      else if rs.any (fun r => (s.res r).naming.isSome) then refuse s .busy
      else if s.freeBuffers < s.unposted rs then refuse s .postFull
      else
        let t := (inNumberOrder rs).foldl (fun u r => u.releaseOne p r) s
        accept t.grantPass.checkClosing (u8 (s.unposted rs))
  | [] => refuse s .badParam

/-- A resource number on a fitted slot. -/
def State.resIdOf (s : State) (b : Byte) : Option ResId :=
  match idxOf 32 b with
  | some r => if s.isFitted (resSlot r) then some r else none
  | none => none

/-- A CHK on a fitted slot (R50, R51). -/
def State.chkIdOf (s : State) (b : Byte) : Option ResId :=
  match s.resIdOf b with
  | some r => if isGen r then none else some r
  | none => none

/-- POST (R50). -/
def bodyPost : Body := fun p _ params s =>
  match params with
  | [b] =>
    match s.chkIdOf b with
    | none => refuse s .badParam
    | some r =>
      if !s.holds p r then refuse s .notHeld
      else if (s.res r).lease.holding.isNone then accept s (u8 0)
      else if s.freeBuffers = 0 then refuse s .postFull
      else accept (s.postHolding r) (u8 1)
  | _ => refuse s .badParam

/-- DISCARD (R51). -/
def bodyDiscard : Body := fun _ _ params s =>
  match params with
  | [b] =>
    match s.chkIdOf b with
    | none => refuse s .badParam
    | some r =>
      match (s.res r).lease with
      | .heldUnposted p since _ =>
        accept ((s.setLease r (.held p since)).count
          (fun c => { c with resultsDiscarded := satAdd max16 c.resultsDiscarded 1 })) []
      | .held _ _ => refuse s .notFound
      | .free => refuse s .notHeld
      | .watched _ => refuse s .notHeld
  | _ => refuse s .badParam

/-- RECALL (R53). -/
def bodyRecall : Body := fun _ _ params s =>
  match params with
  | [b] =>
    match s.resIdOf b with
    | none => refuse s .badParam
    | some r =>
      if (s.res r).lease.holder.isNone then refuse s .notHeld
      else if (s.res r).recallState = .none then accept (s.startRecall r) (enFlag true)
      else accept s (enFlag false)
  | _ => refuse s .badParam

/-- The entry of a port with a tag. -/
def isEntry (p : PortId) (tag : Byte) (e : WaitEntry) : Bool := decide (e.port = p) && decide (e.tag = tag)

/-- CANCEL_WAIT (R47). -/
def bodyCancelWait : Body := fun p _ params s =>
  match params with
  | [b] =>
    if s.dir.waits.any (isEntry p b) then
      accept (s.setWaits (s.dir.waits.filter (fun e => !isEntry p b e))).grantPass []
    else refuse s .notFound
  | _ => refuse s .badParam

/-! ## READ_LEASES (R58) -/

/-- The place of an element in a list. -/
def placeOf (r : ResId) : List ResId → Nat → Option Nat
  | [], _ => none
  | q :: rest, n => if q = r then some n else placeOf r rest (n + 1)

/-- A resource record as READ_LEASES gives it (R58). One presence byte for 'whether it has a holding, and if so' is the
model's choice (log 35). -/
def State.enResource (s : State) (r : ResId) : List Byte :=
  let x := s.res r
  u8 r.val ++ u8 x.lease.num ++ enOpt enPort x.lease.holder ++ enPortSet x.lease.watchers
    ++ enOpt (fun t => u32 (s.nowMs - t)) x.lease.since
    ++ enOpt (fun a : Accumulator => u8 a.link.val ++ u8 a.dir.num) x.lease.holding
    ++ u8 x.recallState.num
    ++ enOpt u32 (match x.recallState with
        | .recalling d => some (d - s.nowMs)
        | .none => none
        | .expiredWaiting => none)
    ++ enOpt u8 (placeOf r s.dir.expired 0)
    ++ enOpt (fun w : WinId => u8 w.val) x.naming
    ++ enFlag ((reservedBy s.dir.waits).contains r)

/-- Waiting entries with their positions, those of them that `keep` picks (R58). That the position stands before the
fields of its entry is the model's choice (log 12). -/
def State.enEntries (s : State) (keep : WaitEntry → Bool) : List WaitEntry → Nat → List (List Byte)
  | [], _ => []
  | e :: rest, n =>
    if keep e then
      (u8 n ++ enPort e.port ++ [e.tag] ++ u8 e.mode.num ++ enList (fun r : ResId => u8 r.val) e.resources
        ++ u32 (s.nowMs - e.queuedAt)) :: s.enEntries keep rest (n + 1)
    else s.enEntries keep rest (n + 1)

/-- The answer of READ_LEASES over some records and entries. -/
def State.leasesReply (s : State) (rs : List ResId) (keep : WaitEntry → Bool) : State × Option Reply :=
  accept s (enList s.enResource rs ++ enList id (s.enEntries keep s.dir.waits 0))

/-- READ_LEASES: selector 0 is PORT and 1 is RANGE (R58). -/
def bodyReadLeases : Body := fun _ _ params s =>
  match params with
  | [sel, b] =>
    if sel = 0 then
      match idxOf 4 b with
      | some p =>
        s.leasesReply (allResources.filter (fun r => s.holds p r || s.watches p r)) (fun e => decide (e.port = p))
      | none => refuse s .badParam
    else refuse s .badParam
  | [sel, first, count] =>
    if sel = 1 ∧ first.toNat < 32 ∧ 1 ≤ count.toNat ∧ first.toNat + count.toNat ≤ 32 then
      let inside := fun r : ResId => decide (first.toNat ≤ r.val) && decide (r.val < first.toNat + count.toNat)
      s.leasesReply (allResources.filter inside) (fun e => e.resources.any inside)
    else refuse s .badParam
  | _ => refuse s .badParam

/-! ## The run's ends (R60, R61) -/

/-- WAIT_CANCELLED on every port with a waiting entry, once each; the list is emptied (R60, R61). -/
def State.cancelWaits (s : State) : State :=
  (allPorts.foldl (fun t p =>
    if s.dir.waits.any (fun e => decide (e.port = p)) then t.raise p .waitCancelled else t) s).setWaits []

/-- Every watch revoked: LEASE_LOST on each watcher, the checkers FREE (R60). -/
def State.revokeWatches (s : State) : State :=
  allResources.foldl (fun t r =>
    match (t.res r).lease with
    | .watched ws => (t.setLease r .free).raiseOn ws .leaseLost
    | .free => t
    | .held _ _ => t
    | .heldUnposted _ _ _ => t) s

/-- RUN_ABORT's part of one resource: its holding dropped and counted, LEASE_LOST on holder and watchers, FREE, its
recall ended (R61). -/
def State.abortRes (s : State) (r : ResId) : State :=
  let t := match (s.res r).lease.holding with
    | some _ => s.count (fun c => { c with resultsDiscarded := satAdd max16 c.resultsDiscarded 1 })
    | none => s
  let t := t.raiseOn (s.res r).lease.watchers .leaseLost
  let t := match (s.res r).lease.holder with
    | some p => t.raise p .leaseLost
    | none => t
  t.freeRes r

/-- RUN_ABORT's part of the directory (R61). -/
def State.abortLeases (s : State) : State := (allResources.foldl State.abortRes s).cancelWaits

/-! ## Commands -/

/-- LEASE (R38 to R43). -/
def execLease (p : PortId) (rest : List Byte) (cut : Bool) (s : State) :
    Host.Outcome State Fault Refusal :=
  .next (s.request .lease bodyLease p rest cut)

/-- RELEASE (R48, R49). -/
def execRelease (p : PortId) (rest : List Byte) (cut : Bool) (s : State) :
    Host.Outcome State Fault Refusal :=
  .next (s.request .release bodyRelease p rest cut)

/-- POST (R50). -/
def execPost (p : PortId) (rest : List Byte) (cut : Bool) (s : State) :
    Host.Outcome State Fault Refusal :=
  .next (s.request .post bodyPost p rest cut)

/-- DISCARD (R51). -/
def execDiscard (p : PortId) (rest : List Byte) (cut : Bool) (s : State) :
    Host.Outcome State Fault Refusal :=
  .next (s.request .discard bodyDiscard p rest cut)

/-- RECALL (R53, R54). -/
def execRecallResource (p : PortId) (rest : List Byte) (cut : Bool) (s : State) :
    Host.Outcome State Fault Refusal :=
  .next (s.request .recallResource bodyRecall p rest cut)

/-- CANCEL_WAIT (R47). -/
def execCancelWait (p : PortId) (rest : List Byte) (cut : Bool) (s : State) :
    Host.Outcome State Fault Refusal :=
  .next (s.request .cancelWait bodyCancelWait p rest cut)

/-- READ_LEASES (R58). -/
def execReadLeases (p : PortId) (rest : List Byte) (cut : Bool) (s : State) :
    Host.Outcome State Fault Refusal :=
  .next (s.request .readLeases bodyReadLeases p rest cut)

/-- The time at which the lease age of a resource exceeds its holder's nonzero lease limit, in ms, unless the
crossing has been taken for this lease (R45). -/
def State.crossingAt (s : State) (r : ResId) : Option Nat :=
  match (s.res r).lease.holder, (s.res r).lease.since with
  | some p, some since =>
    if s.leaseLimit p = 0 ∨ (s.res r).crossed then none else some (since + s.leaseLimit p + 1)
  | _, _ => none

/-- A lease age comes to exceed its holder's limit: a grant pass (R45). -/
def State.limitCrossed (s : State) (r : ResId) : State :=
  match s.crossingAt r with
  | some t => ((s.advanceTo (t * 1000)).modRes r (fun x => { x with crossed := true })).grantPass
  | none => s

/-- LEASE_LIMIT_CROSSED (R45). -/
def execLeaseLimitCrossed (r : ResId) (s : State) : Host.Outcome State Fault Refusal :=
  .next (s.live (fun t => t.limitCrossed r))

/-- The deadline of a RECALLING resource is reached (R55). -/
def State.recallReached (s : State) (r : ResId) : State :=
  match (s.res r).recallState with
  | .recalling deadline =>
    let t := s.advanceTo (deadline * 1000)
    if isGen r ∨ t.post.recallBuf.isNone then (t.forcedRelease r).checkClosing
    else (t.modRes r (fun x => { x with recallState := .expiredWaiting })).setExpired (t.dir.expired ++ [r])
  | .none => s
  | .expiredWaiting => s

/-- RECALL_DEADLINE (R55, R56). -/
def execRecallDeadline (r : ResId) (s : State) : Host.Outcome State Fault Refusal :=
  .next (s.live (fun t => t.recallReached r))

end Sys2Proof.Machine
end

