-- ==== Sys2Proof/Machine/Faults.lean ====
section
/-! DEFINITION. Sys2Proof/Machine/Faults.lean: slot faults (spec 07): qualification, latching, and the commands
FLT_ASSERT, FLT_DEASSERT, FAULT_QUALIFY_EXPIRY, READ_FAULTS and CLEAR_FAULT. -/

namespace Sys2Proof.Machine

/-! ## Latching (R131) -/

/-- The ports with a part in a slot: the holders of its GEN and CHK, the watchers of its CHK, the owners of the
active windows that name a resource on it, and every SUPERVISOR (R131). -/
def State.faultParty (s : State) (i : SlotId) (p : PortId) : Bool :=
  s.holds p (genOf i) || s.holds p (chkOf i) || s.watches p (chkOf i)
  || allWindows.any (fun w => match s.win w with
      | some x => decide (x.owner = p) && x.state.active && x.namesSlot i
      | none => false)
  || decide ((s.port p).role = .supervisor)

/-- The recipient set of a latching (R131). -/
def State.faultRecipients (s : State) (i : SlotId) : PortSet :=
  allPorts.foldl (fun ps p => if s.faultParty i p then PortSet.add ps p else ps) 0

/-- A slot latches: the latch and its time, the cut of TXEN with the time of the fall, the counts, the notices, the
windows (R131). -/
def State.latch (s : State) (i : SlotId) : State :=
  let ps := s.faultRecipients i
  let t := if s.txenPin i then s.setFall i s.now else s
  let t := t.modFault i (fun f => { f with
    latch := true, latchedAt := some s.nowMs, qualifying := none, count := satAdd max8 f.count 1 })
  let t := t.count (fun c => { c with faultLatchings := satAdd max16 c.faultLatchings 1 })
  (t.raiseOn ps .fault).faultWindows i

/-- A fitted slot whose latch is clear and whose FLT is asserted begins to qualify; a qualify time of 0 latches it in
the same event (R130). -/
def State.qualify (s : State) (i : SlotId) : State :=
  if s.isFitted i ∧ !s.latched i ∧ (s.fault i).level then
    if (s.slotEntry i).qualify = 0 then s.latch i
    else s.modFault i (fun f => { f with qualifying := some (s.now + (s.slotEntry i).qualify) })
  else s

/-- The level of FLT has risen: qualifying starts, but not in LOADING, where no slot is fitted whatever the load has
taken so far (R130, R136). -/
def State.fltRose (s : State) (i : SlotId) : State := if s.run.state = .loading then s else s.qualify i

/-! ## Requests -/

/-- A fault record as READ_FAULTS gives it (R135), the qualify time in four bytes (R198; log 34). The byte of the FLT level
(log 33) and the one presence byte of 'whether qualifying is running, and if so' (log 35) are the model's choice. -/
def State.enFault (s : State) (i : SlotId) : List Byte :=
  let f := s.fault i
  enFlag (s.isFitted i) ++ enFlag f.level ++ enOpt (fun d => u32 (d - s.now)) f.qualifying ++ enFlag f.latch
    ++ u8 f.count ++ enOpt (fun t => u32 (s.nowMs - t)) f.latchedAt ++ u32 (s.slotEntry i).qualify

/-- READ_FAULTS (R135). -/
def bodyReadFaults : Body := fun _ _ params s =>
  match params with
  | [] => accept s (enSeq s.enFault allSlots)
  | _ :: _ => refuse s .badParam

/-- A latch cleared and handed on: a grant pass, and the windows that wait on the slot (R134). -/
def State.clearLatch (s : State) (i : SlotId) : State :=
  ((s.modFault i (fun f => { f with latch := false, latchedAt := none })).grantPass).latchCleared i

/-- CLEAR_FAULT (R134). -/
def bodyClearFault : Body := fun _ _ params s =>
  match params with
  | [b] =>
    match idxOf 16 b with
    | none => refuse s .badParam
    | some i =>
      if s.isFitted i && (s.fault i).level then refuse s .faultActive
      else if s.latched i then accept (s.clearLatch i) (enFlag true)
      else accept s (enFlag false)
  | _ => refuse s .badParam

/-! ## Commands -/

/-- READ_FAULTS (R135). -/
def execReadFaults (p : PortId) (rest : List Byte) (cut : Bool) (s : State) :
    Host.Outcome State Fault Refusal :=
  .next (s.request .readFaults bodyReadFaults p rest cut)

/-- CLEAR_FAULT (R134). -/
def execClearFault (p : PortId) (rest : List Byte) (cut : Bool) (s : State) :
    Host.Outcome State Fault Refusal :=
  .next (s.request .clearFault bodyClearFault p rest cut)

/-- FLT_ASSERT: the level rises and qualifying starts (R130, R136); a level that is up already does not rise (log 3). In
reset only the level changes (log 22). -/
def execFltAssert (i : SlotId) (s : State) : Host.Outcome State Fault Refusal :=
  .next (if (s.fault i).level then s
    else (s.modFault i (fun f => { f with level := true })).live (fun t => t.fltRose i))

/-- FLT_DEASSERT: the level falls and qualifying becomes idle; a set latch stays set (R130, R131). -/
def execFltDeassert (i : SlotId) (s : State) : Host.Outcome State Fault Refusal :=
  .next (s.modFault i (fun f => { f with level := false, qualifying := none }))

/-- The qualify deadline is reached with FLT still asserted: the slot latches (R130). -/
def State.qualified (s : State) (i : SlotId) : State :=
  match (s.fault i).qualifying with
  | some t => (s.advanceTo t).latch i
  | none => s

/-- FAULT_QUALIFY_EXPIRY (R130, R131). -/
def execFaultQualifyExpiry (i : SlotId) (s : State) : Host.Outcome State Fault Refusal :=
  .next (s.live (fun t => t.qualified i))

end Sys2Proof.Machine
end

