-- ==== Sys2Proof/Machine/Commits.lean ====
section
/-! DEFINITION. Sys2Proof/Machine/Commits.lean: the completion of a commit (spec 08, R142): the command
COMMIT_COMPLETE. -/

namespace Sys2Proof.Machine

/-- The result in flight, and whether it sits in the recall buffer. -/
def State.inFlight (s : State) : Option (Posted × Bool) :=
  match s.post.recallBuf with
  | some q => if q.inFlight then some (q, true) else (s.post.ordinary.find? (fun x => x.inFlight)).map (fun x => (x, false))
  | none => (s.post.ordinary.find? (fun x => x.inFlight)).map (fun x => (x, false))

/-- Step 1 of R142: the result leaves its buffer and the engine becomes idle. -/
def State.freeBuffer (s : State) (q : Posted) (fromRecall : Bool) : State :=
  s.setPost { s.post with
    ordinary := if fromRecall then s.post.ordinary else s.post.ordinary.filter (fun x => decide (x.serial ≠ q.serial))
    recallBuf := if fromRecall then none else s.post.recallBuf
    commit := none }

/-- The commit in flight completes (R142): the merge or the drop; the buffer; the coverage; the flushes; the expired
order; the closing conditions; the next result. -/
def State.completeCommit (s : State) : State :=
  match s.post.commit, s.inFlight with
  | some _, some (q, fromRecall) =>
    let dropped := s.linkIs q.result.link .withdrawn
    let t := (s.mergePosted q).freeBuffer q fromRecall
    let t := if dropped then t else t.recount.evalCoverage
    let t := t.flushGone [q.serial]
    let t := if fromRecall then t.takeExpired else t
    t.checkClosing.takeCommit
  | _, _ => s

/-- COMMIT_COMPLETE (R142): taken at any moment of the commit (R141; log 5). -/
def execCommitComplete (s : State) : Host.Outcome State Fault Refusal := .next (s.live State.completeCommit)

end Sys2Proof.Machine
end

