-- ==== Sys2Proof/Machine/Lamps.lean ====
section
/-! DEFINITION. Sys2Proof/Machine/Lamps.lean: the slot lamps (spec 11): what a lamp shows, and the commands SET_LAMP,
SET_BLINK and BLINK_CLOCK_TOGGLE. -/

namespace Sys2Proof.Machine

/-! ## What a lamp shows (R192 to R194) -/

/-- The source of a lamp (R192). -/
inductive LampSource where
  | unlit
  | lit
  | blinking (rate : BlinkRate)
  deriving DecidableEq, Repr

/-- Lit or unlit. -/
def LampSource.ofLevel (b : Bool) : LampSource := if b then .lit else .unlit

/-- TXEN or CKEN of the slot is asserted, read at the pins (R193). -/
def State.slotActive (s : State) (i : SlotId) : Bool := s.txenPin i || s.ckenPin i

/-- The verdicts of both records of every link not WITHDRAWN that has an end at the slot (R194). -/
def State.slotVerdicts (s : State) (i : SlotId) : List Verdict :=
  allLinks.flatMap (fun l =>
    match s.link l with
    | some k =>
      if k.state ≠ .withdrawn ∧ (k.endA.slot = i ∨ k.endB.slot = i) then
        ((s.record l .fwd).map (fun v => v.verdict)).toList ++ ((s.record l .rev).map (fun v => v.verdict)).toList
      else []
    | none => [])

/-- The source of mode VERDICT: the first condition that holds (R194). -/
def verdictSource (vs : List Verdict) : LampSource :=
  if vs.contains .fail then .blinking .fast
  else if vs.contains .marginal then .blinking .slow
  else if !vs.isEmpty && vs.all (fun v => decide (v = .pass)) then .lit
  else .unlit

/-- The source of a mode at a slot (R193, R194). -/
def State.lampSource (s : State) (i : SlotId) : LampMode → LampSource
  | .off => .unlit
  | .on => .lit
  | .link => .ofLevel (s.lnkUp i)
  | .activity => .ofLevel (s.slotActive i)
  | .linkAct => if !s.lnkUp i then .unlit else if s.slotActive i then .blinking .fast else .lit
  | .verdict => verdictSource (s.slotVerdicts i)
  | .fault => if (s.fault i).level then .blinking .fast else .ofLevel (s.latched i)
  | .held => .ofLevel ((s.res (genOf i)).lease.holder.isSome || (s.res (chkOf i)).lease.holder.isSome)

/-- The modes to which the blink flag applies (R192 stage 2). -/
def LampMode.blinks : LampMode → Bool
  | .off => true
  | .on => true
  | .link => true
  | .activity => true
  | .linkAct => false
  | .verdict => false
  | .fault => false
  | .held => true

/-- A blink clock is in its on-half (R195). -/
def State.clockOn (s : State) : BlinkRate → Bool
  | .slow => s.lamps.slowOn
  | .fast => s.lamps.fastOn

/-- The level that the three stages of R192 form. -/
def State.lampLevel (s : State) (i : SlotId) : Bool :=
  let r := s.lamp i
  let src := s.lampSource i r.mode
  let src := if r.blink && r.mode.blinks && decide (src = .lit) then .blinking s.lamps.rate else src
  let level := match src with
    | .unlit => false
    | .lit => true
    | .blinking rate => s.clockOn rate
  xor level r.invert

/-- The line LAMP(s): unlit in LOADING, which RST_N asserted leaves the hub in, and on an unfitted slot (R191,
R192). -/
def State.lampLit (s : State) (i : SlotId) : Bool :=
  decide (s.run.state ≠ .loading) && s.isFitted i && s.lampLevel i

/-! ## Requests -/

/-- SET_LAMP (R196). The byte of the lamp's level in the answer, lit 1, is the model's choice (log 33). -/
def bodySetLamp : Body := fun _ _ params s =>
  match params with
  | [b, m, bl, inv] =>
    match s.slotIdOf b, lampModeOf m, flagOf bl, flagOf inv with
    | some i, some mode, some blink, some invert =>
      let old := s.lamp i
      let t := s.setLamps { s.lamps with
        recs := Table.put s.lamps.recs i { mode := mode, blink := blink, invert := invert } }
      accept t (u8 old.mode.num ++ enFlag old.blink ++ enFlag old.invert ++ enFlag (t.lampLit i))
    | _, _, _, _ => refuse s .badParam
  | _ => refuse s .badParam

/-- SET_BLINK (R197). -/
def bodySetBlink : Body := fun _ _ params s =>
  match params with
  | [b] =>
    match rateOf b with
    | some rate => accept (s.setLamps { s.lamps with rate := rate }) (u8 (BlinkRate.num s.lamps.rate))
    | none => refuse s .badParam
  | _ => refuse s .badParam

/-! ## Commands -/

/-- SET_LAMP (R196). -/
def execSetLamp (p : PortId) (rest : List Byte) (cut : Bool) (s : State) :
    Host.Outcome State Fault Refusal :=
  .next (s.request .setLamp bodySetLamp p rest cut)

/-- SET_BLINK (R197). -/
def execSetBlink (p : PortId) (rest : List Byte) (cut : Bool) (s : State) :
    Host.Outcome State Fault Refusal :=
  .next (s.request .setBlink bodySetBlink p rest cut)

/-- The half-period of a blink clock in ms (R195). -/
def blinkHalfMs : BlinkRate → Nat
  | .slow => 250
  | .fast => 100

/-- Whether a blink clock is in its on-half at a time in ms (R195). -/
def blinkOnAt (r : BlinkRate) (ms : Nat) : Bool := decide (ms / blinkHalfMs r % 2 = 0)

/-- A blink clock enters its other half-period. -/
def LampUnit.toggle (u : LampUnit) : BlinkRate → LampUnit
  | .slow => { u with slowOn := !u.slowOn }
  | .fast => { u with fastOn := !u.fastOn }

/-- A blink clock changes its half-period: at the end of the present one, or now when the change is overdue (R195;
log 2). -/
def State.blinkToggle (s : State) (r : BlinkRate) : State :=
  let t := if s.clockOn r = blinkOnAt r s.nowMs then s.advanceTo ((s.nowMs / blinkHalfMs r + 1) * blinkHalfMs r * 1000) else s
  t.setLamps (t.lamps.toggle r)

/-- BLINK_CLOCK_TOGGLE (R195). -/
def execBlinkClockToggle (clock : BlinkRate) (s : State) : Host.Outcome State Fault Refusal :=
  .next (s.live (fun t => t.blinkToggle clock))

end Sys2Proof.Machine
end

