-- ==== Sys2Proof/Machine/Loader.lean ====
section
/-! DEFINITION. Sys2Proof/Machine/Loader.lean: the Profile Loader (spec 01, R199): the header, the walk of the area
chain, the taking of areas, the link pass, neighbour resolution, the end of a load, and the commands HEADER_READ,
AREA_VISIT and LINKS_AREA_READ. -/

namespace Sys2Proof.Machine

/-! ## The load report (R16) -/

/-- The report changed. -/
def State.modReport (s : State) (f : LoadReport → LoadReport) : State :=
  s.setLoader { s.loader with report := f s.loader.report }

/-- An error recorded at an area index: the first one stays (R16). -/
def LoadReport.note (r : LoadReport) (e : LoadError) (index : Nat) : LoadReport :=
  { r with firstError := match r.firstError with
      | some x => some x
      | none => some (e, index) }

def State.noteError (s : State) (e : LoadError) (index : Nat) : State := s.modReport (fun r => r.note e index)

/-- The loader moved to a stage. -/
def State.toStage (s : State) (x : LoaderStage) : State := s.setLoader { s.loader with stage := x }

/-- The flash address of the read in progress: the header's, the area's that is visited, the noted LINKS area's; none
where nothing is read, as of an area whose header would not lie within the flash (R6, R9, R12; log 27). -/
def State.flashAddress (s : State) : Option Nat :=
  match s.loader.stage, s.loader.noted with
  | .idle, _ => none
  | .header, _ => some 0
  | .area addr, _ => if addr ≤ 16777210 then some addr else none
  | .links, a :: _ => some a.addr
  | .links, [] => none

/-- The plain read command: its byte, then the three address bytes, most significant first (R6). -/
def readCommand (addr : Nat) : List Byte := [0x03#8, BitVec.ofNat 8 (addr / 65536), BitVec.ofNat 8 (addr / 256), BitVec.ofNat 8 addr]

/-- What the hub has sent on FDO for the read in progress, before the data bytes come in on FDI (R6; log 18, 27). -/
def State.flashOut (s : State) : List Byte :=
  match s.flashAddress with
  | some addr => readCommand addr
  | none => []

/-- FSEL_N is asserted, true while a read of the flash is in progress; its level between two reads of one load, and at
an area of which nothing is read, is the model's choice (R6, R17; log 18, 27). -/
def State.flashSelected (s : State) : Bool := s.flashAddress.isSome

/-! ## The start of a load (R6, R136) -/

/-- A load begins: the map emptied, and with it every verdict record vacant (R145, R152; log 32); the report cleared,
the qualifying timers idle, the header to be read. -/
def State.loadStart (s : State) : State :=
  let t := (s.setMap LinkMap.empty).setTable VerdictTable.vacant
  let t := t.setLoader { stage := .header, noted := [], report := LoadReport.cleared }
  { t with faults := Table.each (fun f => { f with qualifying := none }) t.faults }

/-! ## Fields (R11, R199) -/

/-- A byte and a two-byte number at a place. -/
def byteAt (bs : List Byte) (i : Nat) : Byte := bs.getD i 0
def num8At (bs : List Byte) (i : Nat) : Nat := (byteAt bs i).toNat
def num16At (bs : List Byte) (i : Nat) : Nat := num16 (byteAt bs i) (byteAt bs (i + 1))

/-- A three-byte flash address at a place. -/
def addrAt (bs : List Byte) (i : Nat) : Nat := num8At bs i * 65536 + num16At bs (i + 1)

/-- A field within its range, or its default, counted as one replacement (R11). -/
def orDefault {α : Type} (ok : Bool) (v d : α) : α × Nat := if ok then (v, 0) else (d, 1)

/-- A named value, or its default, counted as one replacement. -/
def namedOr {α : Type} (v : Option α) (d : α) : α × Nat :=
  match v with
  | some x => (x, 0)
  | none => (d, 1)

/-- A slot entry from its eight bytes, with the number of replacements (R11, R199). -/
def slotEntryOf (e : List Byte) : SlotEntry × Nat :=
  let filter := orDefault (decide (num8At e 2 ≤ 4)) (num8At e 2) 0
  let prescale := orDefault (decide (num8At e 3 ≤ 3)) (num8At e 3) 0
  let qualify := orDefault (decide (num16At e 4 ≤ 1000)) (num16At e 4) 100
  let mode := namedOr (lampModeOf (byteAt e 6)) .off
  ({ quiet := num16At e 0, filter := filter.1, prescale := prescale.1, qualify := qualify.1, lampMode := mode.1,
     lampBlink := (byteAt e 7).getLsbD 0, lampInvert := (byteAt e 7).getLsbD 1 },
   filter.2 + prescale.2 + qualify.2 + mode.2)

/-- The sum of a number over all sixteen slots. -/
def sumSlots (f : SlotId → Nat) : Nat := allSlots.foldl (fun n i => n + f i) 0

/-- A SLOTS payload taken into a map, with the number of replacements: entries at or above the fitted slot count take
the defaults unchecked (R3, R11). -/
def LinkMap.takeSlots (m : LinkMap) (p : List Byte) : LinkMap × Nat :=
  let fitted := num8At p 0
  let blink := namedOr (rateOf (byteAt p 1)) .slow
  let timeout := orDefault (decide (10 ≤ num16At p 2 ∧ num16At p 2 ≤ 1000)) (num16At p 2) 100
  let entry := fun i : SlotId =>
    if i.val < fitted then slotEntryOf (p.drop (4 + 8 * i.val)) else (SlotEntry.default, 0)
  ({ m with fitted := fitted, blink := blink.1, replyTimeout := timeout.1,
            slots := Table.build (fun i => (entry i).1) },
   blink.2 + timeout.2 + sumSlots (fun i => (entry i).2))

/-- A port entry from its five bytes, with the number of replacements (R11, R199). -/
def portSettingsOf (p : PortId) (e : List Byte) : PortSettings × Nat :=
  let role := namedOr (roleOf (byteAt e 0)) (Role.default p)
  ({ role := role.1, enableDefault := BitVec.ofNat 11 (num16At e 1), leaseLimit := num16At e 3 }, role.2)

/-- A PORTS payload taken into a map, with the number of replacements (R11). -/
def LinkMap.takePorts (m : LinkMap) (b : List Byte) : LinkMap × Nat :=
  let entry := fun p : PortId => portSettingsOf p (b.drop (5 * p.val))
  let recallT := orDefault (decide (num16At b 20 ≠ 0)) (num16At b 20) 500
  let syncT := orDefault (decide (num16At b 22 ≠ 0)) (num16At b 22) 2000
  ({ m with ports := Table.build (fun p => (entry p).1), recallTimeout := recallT.1, syncTimeout := syncT.1 },
   allPorts.foldl (fun n p => n + (entry p).2) (recallT.2 + syncT.2))

/-- A limit set from its nine bytes: replaced whole where its minimum dwell is 0 or its fail limit is below its pass
limit (R11). -/
def limitSetOf (e : List Byte) : LimitSet × Nat :=
  orDefault (decide (num32At e 0 ≠ 0 ∧ num16At e 4 ≤ num16At e 6))
    { minDwell := num32At e 0, passLimit := num16At e 4, failLimit := num16At e 6, lockLimit := num8At e 8 }
    LimitSet.default

/-- A LIMITS payload taken into a map, with the number of replacements (R11). -/
def LinkMap.takeLimits (m : LinkMap) (b : List Byte) : LinkMap × Nat :=
  let entry := fun k : Fin 4 => limitSetOf (b.drop (9 * k.val))
  ({ m with limits := Table.build (fun k => (entry k).1) },
   (List.finRange 4).foldl (fun n k => n + (entry k).2) 0)

/-! ## The check and the taking of an area (R9 to R11) -/

/-- A bad area: counted, with its error (R9, R10). -/
def State.badArea (s : State) (e : LoadError) (index : Nat) : State :=
  (s.modReport (fun r => { r with bad := r.bad + 1 })).noteError e index

/-- A skipped area (R10). -/
def State.skipArea (s : State) : State := s.modReport (fun r => { r with skipped := r.skipped + 1 })

/-- The fields of an area taken into the map, the replacements counted with FIELD_RANGE (R11). -/
def State.takeFields (s : State) (x : LinkMap × Nat) (index : Nat) : State :=
  let t := (s.setMap x.1).modReport (fun r => { r with defaulted := satAdd max8 r.defaulted x.2 })
  if x.2 = 0 then t else t.noteError .fieldRange index

/-- A good area of a kind that is taken once: skipped when one has been taken, bad at a wrong length or content, else
taken (R10). That a repeat of a wrong length is skipped, and not bad, is the model's choice (log 28). -/
def State.takeOnce (s : State) (index : Nat) (taken lengthOk contentOk : Bool) (fields : LinkMap × Nat)
    (mark : LoadReport → LoadReport) : State :=
  if taken then s.skipArea.noteError .areaRepeated index
  else if !lengthOk then s.badArea .areaLength index
  else if !contentOk then s.badArea .areaContent index
  else (s.takeFields fields index).modReport mark

/-- A good area, by its kind (R10). -/
def State.takeArea (s : State) (addr index : Nat) (kind : Byte) (p : List Byte) : State :=
  let r := s.loader.report
  if kind = 0x01#8 then
    s.takeOnce index r.slotsTaken (decide (p.length = 132)) (decide (1 ≤ num8At p 0 ∧ num8At p 0 ≤ 16))
      (s.map.takeSlots p) (fun x => { x with slotsTaken := true })
  else if kind = 0x02#8 then
    s.takeOnce index r.portsTaken (decide (p.length = 24)) true (s.map.takePorts p)
      (fun x => { x with portsTaken := true })
  else if kind = 0x03#8 then
    s.takeOnce index r.limitsTaken (decide (p.length = 36)) true (s.map.takeLimits p)
      (fun x => { x with limitsTaken := true })
  else if kind = 0x04#8 then
    s.setLoader { s.loader with noted := s.loader.noted ++ [{ addr := addr, index := index }] }
  else s.skipArea

/-- The payload length of an area, from its bytes. -/
def areaLength (bytes : List Byte) : Nat := num16At (sampled 6 bytes) 1

/-- The area at an address checked, then taken, noted or skipped; its next pointer (R9, R10). -/
def State.visitArea (s : State) (addr : Nat) (bytes : List Byte) : State × Nat :=
  let index := s.loader.report.visited
  if 16777210 < addr then (s.badArea .areaLength index, 0)
  else
    let header := sampled 6 bytes
    let next := addrAt header 3
    let n := areaLength bytes
    if 4096 < n ∨ 16777215 < addr + 6 + n then (s.badArea .areaLength index, next)
    else
      let area := sampled (7 + n) bytes
      if area.getLast? ≠ some (crc8 area.dropLast) then (s.badArea .areaChecksum index, next)
      else (s.takeArea addr index (byteAt header 0) (area.dropLast.drop 6), next)

/-! ## The link pass (R12) -/

/-- An end of a record: a slot and a port within their ranges. -/
def endPointOf (slot port : Byte) : Option EndPoint :=
  match idxOf 16 slot, idxOf 15 port with
  | some i, some j => some { slot := i, port := j }
  | _, _ => none

/-- The endpoint is an end of an accepted link. -/
def LinkMap.usesEndPoint (m : LinkMap) (e : EndPoint) : Bool :=
  allLinks.any (fun l => match Table.rd m.links l with
    | some k => decide (k.endA = e) || decide (k.endB = e)
    | none => false)

/-- The last three tests of a record and the link it gives (R12, R199). -/
def linkOf (r : List Byte) (a b : EndPoint) : Except RejectReason Link :=
  if num8At r 5 = 0 ∨ 4 < num8At r 5 then .error .lanesRange
  else
    match finOf 4 (num8At r 6 % 128) with
    | none => .error .limitSetRange
    | some limit =>
      if 4 < num8At r 7 then .error .neighbourCount
      else .ok { endA := a, endB := b, lanes := num8At r 5, reversed := (byteAt r 6).getLsbD 7, limitSet := limit,
                 neighbours := ((r.drop 8).take (num8At r 7)).map (fun x => x.toNat), state := .fitted }

/-- A complete record judged: the first condition that holds rejects it (R12). -/
def LinkMap.judgeRecord (m : LinkMap) (r : List Byte) : Except RejectReason (LinkId × Link) :=
  match idxOf 128 (byteAt r 0) with
  | none => .error .idRange
  | some l =>
    if (Table.rd m.links l).isSome then .error .duplicateId
    else if m.fitted ≤ num8At r 1 ∨ m.fitted ≤ num8At r 3 then .error .slotNotFitted
    else
      match endPointOf (byteAt r 1) (byteAt r 2), endPointOf (byteAt r 3) (byteAt r 4) with
      | some a, some b =>
        if a = b then .error .sameEndpoint
        else if m.usesEndPoint a || m.usesEndPoint b then .error .endpointUsed
        else
          match linkOf r a b with
          | .ok k => .ok (l, k)
          | .error e => .error e
      | _, _ => .error .portRange

/-- A rejected record counted (R12). -/
def State.rejectRecord (s : State) (e : RejectReason) (index : Nat) : State :=
  (s.modReport (fun r => { r with
    rejected := satAdd max16 r.rejected 1
    rejects := Table.upd r.rejects e.num (fun n => satAdd max16 n 1) })).noteError .linkRejected index

/-- One complete record read: accepted into the map or rejected (R12). That a link accepted here has no verdict record, and
so stands in no verdict count of READ_RUN, before the load ends is the model's choice (R33, R145, R156, R157; log 32). -/
def State.readRecord (s : State) (index : Nat) (r : List Byte) : State :=
  match s.map.judgeRecord r with
  | .ok (l, k) =>
    (s.setMap { s.map with links := Table.put s.map.links l (some k) }).modReport
      (fun x => { x with accepted := x.accepted + 1 })
  | .error e => s.rejectRecord e index

/-- The records of a payload, `n` complete ones; a remainder is a truncated record (R12). -/
def State.readRecords (s : State) (index : Nat) : Nat → List Byte → State
  | 0, [] => s
  | 0, _ :: _ => s.rejectRecord .truncated index
  | n + 1, p => (s.readRecord index (p.take 12)).readRecords index n (p.drop 12)

/-! ## Neighbour resolution (R13) -/

/-- The kept ids of a written list (R13). -/
def LinkMap.keptNeighbours (m : LinkMap) (self : Nat) (kept : List Nat) : List Nat → List Nat
  | [] => kept
  | n :: rest =>
    let known := match finOf 128 n with
      | some l => (Table.rd m.links l).isSome
      | none => false
    if known && decide (n ≠ self) && !kept.contains n then m.keptNeighbours self (kept ++ [n]) rest
    else m.keptNeighbours self kept rest

/-- The neighbour list of one link resolved (R13). -/
def State.resolveLink (s : State) (l : LinkId) : State :=
  match s.link l with
  | none => s
  | some k =>
    let kept := s.map.keptNeighbours l.val [] k.neighbours
    let dropped := k.neighbours.length - kept.length
    let t := (s.setMap { s.map with links := Table.put s.map.links l (some { k with neighbours := kept }) }).modReport
      (fun r => { r with dropped := r.dropped + dropped })
    if dropped = 0 then t else t.noteError .neighbourDropped 0

/-- Every neighbour list resolved, in link id order (R13). -/
def State.resolveNeighbours (s : State) : State := allLinks.foldl State.resolveLink s

/-! ## The end of a load (R15, R157, R175, R109, R191, R136) -/

/-- The fatal cause of a load whose header was good (R15). -/
def LoadReport.fatalCause (r : LoadReport) : Option FatalCause :=
  if !r.slotsTaken then some .noSlots else if r.accepted = 0 then some .noLinks else none

/-- The error of a fatal cause. -/
def FatalCause.error : FatalCause → LoadError
  | .noSignature => .noSignature
  | .noSlots => .noSlots
  | .noLinks => .noLinks

/-- The Verdict Table rebuilt: both records of every link in the map UNTESTED, every other vacant, the count 0
(R157). -/
def State.rebuildTable (s : State) : State :=
  let recs := Table.each (Option.map (fun k : Link => VerdictRecord.untested k.lanes)) s.map.links
  s.setTable { fwd := recs, rev := recs, coverage := 0 }

/-- The ports take their roles and enable sets (R175, R185). -/
def State.takePortSettings (s : State) : State :=
  allPorts.foldl (fun t p =>
    let x := Table.rd t.map.ports p
    t.modPort p (fun y => { y with role := x.role }.setSets y.notices x.enableDefault)) s

/-- The Capture Unit takes the loaded codes (R109). -/
def State.takeCaptureSettings (s : State) : State :=
  allSlots.foldl (fun t i =>
    t.modCap i (fun c => { c with filter := (t.slotEntry i).filter, prescale := (t.slotEntry i).prescale })) s

/-- The Lamp Controller takes the loaded settings (R191). -/
def State.takeLampSettings (s : State) : State :=
  s.setLamps { s.lamps with
    rate := s.map.blink
    recs := Table.each (fun e : SlotEntry =>
      { mode := e.lampMode, blink := e.lampBlink, invert := e.lampInvert }) s.map.slots }

/-- The Fault Unit begins to qualify the asserted inputs of the fitted slots (R136). -/
def State.takeFaultSettings (s : State) : State := allSlots.foldl State.qualify s

/-- A load ends: a fatal cause recorded and the map emptied; the outcome handed to the other blocks; then the run
state (R15, R21; log 24). That a slot which latches in this event counts its SUPERVISORs by the loaded roles is the
model's choice (log 31). -/
def State.loadEnd (s : State) (cause : Option FatalCause) : State :=
  let t := match cause with
    | some c => ((s.setMap LinkMap.empty).noteError c.error 0).modReport (fun r => { r with fatal := some c })
    | none => s
  let t := t.setLoader { t.loader with stage := .idle, noted := [] }
  let t := t.rebuildTable.takePortSettings.takeCaptureSettings.takeLampSettings.takeFaultSettings.evalCoverage
  t.enterRunState (if cause.isSome then .unloaded else .ready)

/-- The link pass is over: the neighbours are resolved and the load ends (R13, R15). -/
def State.linkPassEnd (s : State) : State :=
  let t := s.resolveNeighbours
  t.loadEnd t.loader.report.fatalCause

/-- The walk ends: with a SLOTS area taken the noted LINKS areas are read again, else the load ends (R12, R15). -/
def State.walkEnd (s : State) : State :=
  if s.loader.report.slotsTaken then
    if s.loader.noted.isEmpty then s.linkPassEnd else s.toStage .links
  else s.loadEnd s.loader.report.fatalCause

/-- The next pointer of the header or an area followed (R8). -/
def State.follow (s : State) (current index next : Nat) : State :=
  if next = 0 then s.walkEnd
  else if next ≤ current then (s.noteError .chainBackward index).walkEnd
  else if 32 ≤ s.loader.report.visited then (s.noteError .chainTooLong 32).walkEnd
  else (s.modReport (fun r => { r with visited := r.visited + 1 })).toStage (.area next)

/-! ## Commands -/

/-- The header read (R7). -/
def State.headerRead (s : State) (bytes : List Byte) : State :=
  if s.loader.stage ≠ .header then s
  else
    let h := sampled 7 bytes
    if byteAt h 0 = 0xC5#8 ∧ byteAt h 1 = 0x16#8 ∧ byteAt h 6 = crc8 (h.take 6) then
      (s.modReport (fun r => { r with revision := byteAt h 2 })).follow 0 0 (addrAt h 3)
    else s.loadEnd (some .noSignature)

/-- HEADER_READ (R7, R8); a read that is not of the header does nothing (log 3). -/
def execHeaderRead (bytes : List Byte) (s : State) : Host.Outcome State Fault Refusal :=
  .next (s.live (fun t => t.headerRead bytes))

/-- An area visited (R9 to R11), and its next pointer followed (R8). -/
def State.areaVisited (s : State) (bytes : List Byte) : State :=
  match s.loader.stage with
  | .area addr =>
    let (t, next) := s.visitArea addr bytes
    t.follow addr s.loader.report.visited next
  | .idle => s
  | .header => s
  | .links => s

/-- AREA_VISIT (R8 to R11). -/
def execAreaVisit (bytes : List Byte) (s : State) : Host.Outcome State Fault Refusal :=
  .next (s.live (fun t => t.areaVisited bytes))

/-- The next noted LINKS area read again: its records, then the next area or the end of the link pass (R12; log
19). -/
def State.linksRead (s : State) (bytes : List Byte) : State :=
  match s.loader.stage, s.loader.noted with
  | .links, a :: rest =>
    let payload := (sampled (6 + areaLength bytes) bytes).drop 6
    let t := s.readRecords a.index (payload.length / 12) payload
    let t := t.setLoader { t.loader with noted := rest }
    if rest.isEmpty then t.linkPassEnd else t
  | _, _ => s

/-- LINKS_AREA_READ (R12, R13, R15). -/
def execLinksAreaRead (bytes : List Byte) (s : State) : Host.Outcome State Fault Refusal :=
  .next (s.live (fun t => t.linksRead bytes))

end Sys2Proof.Machine
end

