-- ==== Sys2Proof/Machine/Run.lean ====
section
/-! DEFINITION. Sys2Proof/Machine/Run.lean: the run (spec 02) and the reset line: the commands RESET, RESET_RELEASE,
READ_RUN, RUN_START, RUN_CLOSE, RUN_ABORT, RELOAD and READ_LINK (R18). -/

namespace Sys2Proof.Machine

/-! ## Reset (R20, R17, R190, R125) -/

/-- A transaction in progress is ignored until its deselect once RST_N is asserted (R190). -/
def Transaction.abandon : Transaction → Transaction
  | .none => .none
  | .selected _ => .ignored
  | .ignored => .ignored

/-- RST_N asserted: every block at its power-on values. What is not a block of the hub stays: the levels of FLT and
LNK, the selects of the ports, the commands that wait, the counter of free values. -/
def State.assertReset (s : State) : State :=
  { State.reset with
    faults := Table.each (fun f => FaultRecord.powerOn f.level) s.faults
    ports := Table.build (fun p =>
      { AgentPort.powerOn p with transaction := (s.port p).transaction.abandon })
    lnk := s.lnk
    freeIndex := s.freeIndex
    pending := s.pending }

/-- RESET (R20, R17, R190, R160, R125). -/
def execReset (s : State) : Host.Outcome State Fault Refusal := .next s.assertReset

/-- RST_N released: the timebases start at 0, and a load begins (R6, R65, R195). -/
def State.releaseReset (s : State) : State := { s with rst := false, now := 0 }.loadStart

/-- RESET_RELEASE (R6); with RST_N released already there is no release (log 3). -/
def execResetRelease (s : State) : Host.Outcome State Fault Refusal := .next (if s.rst then s.releaseReset else s)

/-! ## READ_RUN (R34) -/

/-- The records of the table with a verdict (R33). -/
def State.verdictCount (s : State) (v : Verdict) : Nat :=
  allLinks.foldl (fun n l =>
    n + (if (s.record l .fwd).any (fun x => decide (x.verdict = v)) then 1 else 0)
      + (if (s.record l .rev).any (fun x => decide (x.verdict = v)) then 1 else 0)) 0

def enCounters (c : RunCounters) : List Byte :=
  u16 c.resultsLost ++ u16 c.resultsDiscarded ++ u16 c.postsSuperseded ++ u16 c.postsDropped ++ u16 c.windowsDone
    ++ u16 c.windowsStopped ++ u16 c.faultLatchings

/-- The SUMMARY part (R34, R33). -/
def State.enSummary (s : State) : List Byte :=
  u8 s.run.state.num ++ u16 s.run.number ++ enFlag s.run.aborted ++ u32 s.runTimeMs ++ enCounters s.run.counters
    ++ u8 (s.linkCount .fitted) ++ u8 (s.linkCount .withdrawing) ++ u8 (s.linkCount .withdrawn)
    ++ enSeq (fun v => u16 (s.verdictCount v)) [.untested, .incomplete, .marginal, .pass, .fail, .withdrawn]
    ++ u16 s.table.coverage ++ u16 (2 * s.targetLinks) ++ enFlag s.run.complete

/-- The LOAD_REPORT part (R34, R16). Fatal and its cause are two fields of R16, so a flag byte and then an optional
field (log 35). -/
def enReport (r : LoadReport) : List Byte :=
  [r.revision] ++ u8 r.visited ++ u8 r.skipped ++ u8 r.bad ++ enFlag r.slotsTaken ++ enFlag r.portsTaken
    ++ enFlag r.limitsTaken ++ u8 r.defaulted ++ u8 r.accepted ++ u16 r.rejected
    ++ enSeq u16 r.rejects.toList ++ u16 r.dropped ++ u8 (firstErrorNum r.firstError)
    ++ u8 (match r.firstError with
        | some (_, index) => index
        | none => 0)
    ++ enFlag r.fatal.isSome ++ enOpt (fun c : FatalCause => u8 c.num) r.fatal

/-- READ_RUN: part 0 is SUMMARY and 1 is LOAD_REPORT (R34). -/
def bodyReadRun : Body := fun _ _ params s =>
  match params with
  | [b] =>
    if b = 0#8 then accept s s.enSummary
    else if b = 1#8 then accept s (enReport s.loader.report)
    else refuse s .badParam
  | _ => refuse s .badParam

/-! ## READ_LINK (R18) -/

def enEndPoint (e : EndPoint) : List Byte := u8 e.slot.val ++ u8 e.port.val

def enLink (k : Link) : List Byte :=
  enEndPoint k.endA ++ enEndPoint k.endB ++ u8 k.lanes ++ enFlag k.reversed ++ u8 k.limitSet.val ++ u8 k.state.num
    ++ enList u8 k.neighbours

/-- A slot's entry as loaded, quiet time and qualify time in four bytes (R18, R3, R198; log 34). -/
def enSlotEntry (e : SlotEntry) : List Byte :=
  u32 e.quiet ++ u8 e.filter ++ u8 e.prescale ++ u32 e.qualify ++ u8 e.lampMode.num ++ enFlag e.lampBlink
    ++ enFlag e.lampInvert

def enLimitSet (l : LimitSet) : List Byte := u32 l.minDwell ++ u16 l.passLimit ++ u16 l.failLimit ++ u8 l.lockLimit

/-- A port's settings (R18, R4); a lease limit is a timeout, in two bytes (log 34). -/
def enPortSettings (x : PortSettings) : List Byte := u8 x.role.num ++ enKinds x.enableDefault ++ u16 x.leaseLimit

/-- READ_LINK: view 0 is LINKS, 1 SLOT, 2 LIMITS, 3 PORTS (R18). One presence byte for 'whether a record exists; where
one exists' is the model's choice (log 35). -/
def bodyReadLink : Body := fun _ _ params s =>
  match params with
  | [view, first, count] =>
    if view = 0#8 ∧ first.toNat < 128 ∧ 1 ≤ count.toNat ∧ count.toNat ≤ 16 ∧ first.toNat + count.toNat ≤ 128 then
      accept s (enSeq (fun n => enOpt enLink (s.linkNat n)) (List.range' first.toNat count.toNat))
    else refuse s .badParam
  | [view, slot] =>
    match idxOf 16 slot with
    | some i =>
      if view = 1#8 then
        accept s (u8 s.map.fitted ++ u8 (BlinkRate.num s.map.blink) ++ u16 s.map.replyTimeout ++ enFlag (s.isFitted i)
          ++ enSlotEntry (s.slotEntry i))
      else refuse s .badParam
    | none => refuse s .badParam
  | [view] =>
    if view = 2#8 then accept s (enSeq enLimitSet s.map.limits.toList)
    else if view = 3#8 then
      accept s (enSeq enPortSettings s.map.ports.toList ++ u16 s.map.recallTimeout ++ u16 s.map.syncTimeout)
    else refuse s .badParam
  | _ => refuse s .badParam

/-! ## RUN_START and RELOAD (R23, R30) -/

/-- Every window IDLE, every semaphore clear, every capture record cleared, every sync slot NONE (R98, R99, R115,
R170). -/
def State.clearWork (s : State) : State :=
  { s with
    eng := { s.eng with wins := Table.fill 8 none }
    sems := Table.fill 8 Semaphore.clear
    caps := Table.each Capture.clear s.caps
    wd := { s.wd with sync := Table.fill 4 .none } }

/-- Both records of every link not WITHDRAWN set to UNTESTED, the coverage count 0 (R158). -/
def State.startTable (s : State) : State :=
  let t := allLinks.foldl (fun u l =>
    match u.link l with
    | some k =>
      if k.state = .withdrawn then u
      else (u.modRecord l .fwd (fun _ => VerdictRecord.untested k.lanes)).modRecord l .rev
        (fun _ => VerdictRecord.untested k.lanes)
    | none => u) s
  t.setTable { t.table with coverage := 0 }

/-- RUN_START carried out (R23). -/
def State.startRun (s : State) : State :=
  let t := s.setRun { s.run with
    number := satAdd max16 s.run.number 1, aborted := false, counters := RunCounters.zero,
    time := .counting s.nowMs }
  (t.startTable.clearWork.enterRunState .running).evalCoverage

/-- RUN_START (R23). -/
def bodyRunStart : Body := fun _ _ params s =>
  match params with
  | [] =>
    let t := s.startRun
    accept t (u16 t.run.number)
  | _ :: _ => refuse s .badParam

/-- RELOAD carried out (R30). -/
def State.reloadMap (s : State) : State :=
  let t := s.enterRunState .loading
  let t := t.setRun { t.run with aborted := false, time := .stopped 0, counters := RunCounters.zero, complete := false }
  t.clearWork.loadStart

/-- RELOAD (R30). -/
def bodyReload : Body := fun _ _ params s =>
  match params with
  | [] => accept s.reloadMap []
  | _ :: _ => refuse s .badParam

/-! ## RUN_CLOSE and RUN_ABORT (R24, R25) -/

/-- The windows that satisfy a test stopped with a cause, in number order. -/
def State.stopWindows (s : State) (c : EndCause) (test : Window → Bool) : State :=
  allWindows.foldl (fun t w =>
    match t.win w with
    | some x => if test x then t.stopWindow w c else t
    | none => t) s

/-- RUN_CLOSE carried out (R24, R60, R94). -/
def State.closeRun (s : State) : State :=
  let t := ((s.enterRunState .closing).cancelWaits).revokeWatches
  (t.stopWindows .runClosed (fun x => decide (x.state = .opened) || decide (x.state = .armed))).checkClosing

/-- RUN_CLOSE (R24). -/
def bodyRunClose : Body := fun _ _ params s =>
  match params with
  | [] =>
    let t := s.closeRun
    accept t (u8 t.run.state.num)
  | _ :: _ => refuse s .badParam

/-- RUN_ABORT carried out (R25, R61, R94, R168). -/
def State.abortRun (s : State) : State :=
  let t := if s.run.state = .running then s.enterRunState .closing else s
  let t := t.setRun { t.run with aborted := true }
  let t := (t.stopWindows .aborted (fun x => x.state.active)).abortLeases
  (t.removeInterest (fun _ => 0)).checkClosing

/-- RUN_ABORT (R25). -/
def bodyRunAbort : Body := fun _ _ params s =>
  match params with
  | [] =>
    let t := s.abortRun
    accept t (u8 t.run.state.num)
  | _ :: _ => refuse s .badParam

/-! ## Commands -/

/-- READ_RUN (R34). -/
def execReadRun (p : PortId) (rest : List Byte) (cut : Bool) (s : State) :
    Host.Outcome State Fault Refusal :=
  .next (s.request .readRun bodyReadRun p rest cut)

/-- RUN_START (R23). -/
def execRunStart (p : PortId) (rest : List Byte) (cut : Bool) (s : State) :
    Host.Outcome State Fault Refusal :=
  .next (s.request .runStart bodyRunStart p rest cut)

/-- RUN_CLOSE (R24). -/
def execRunClose (p : PortId) (rest : List Byte) (cut : Bool) (s : State) :
    Host.Outcome State Fault Refusal :=
  .next (s.request .runClose bodyRunClose p rest cut)

/-- RUN_ABORT (R25). -/
def execRunAbort (p : PortId) (rest : List Byte) (cut : Bool) (s : State) :
    Host.Outcome State Fault Refusal :=
  .next (s.request .runAbort bodyRunAbort p rest cut)

/-- RELOAD (R30). -/
def execReload (p : PortId) (rest : List Byte) (cut : Bool) (s : State) :
    Host.Outcome State Fault Refusal :=
  .next (s.request .reload bodyReload p rest cut)

/-- READ_LINK (R18). -/
def execReadLink (p : PortId) (rest : List Byte) (cut : Bool) (s : State) :
    Host.Outcome State Fault Refusal :=
  .next (s.request .readLink bodyReadLink p rest cut)

end Sys2Proof.Machine
end

