-- ==== Sys2Proof/Machine/Leaving.lean ====
section
/-! DEFINITION. Sys2Proof/Machine/Leaving.lean: leaving and removing a port (R188, R189, R95, R59, R167): the
commands DETACH and EVICT. -/

namespace Sys2Proof.Machine

/-- What the answer of a DETACH or EVICT counts (R188; log 17). -/
structure LeaveCounts where
  stopped : Nat
  idled : Nat
  freed : Nat
  posted : Nat
  lost : Nat
  deriving DecidableEq, Repr

/-- The windows of a port that pass a test (R95). -/
def State.windowsOf (s : State) (p : PortId) (test : Window → Bool) : List WinId :=
  allWindows.filter (fun w => (s.win w).any (fun x => decide (x.owner = p) && test x))

/-- The Window Engine's part: the port's active windows are stopped, then all its windows are IDLE (R95). -/
def State.leaveWindows (s : State) (p : PortId) : State :=
  let t := (s.windowsOf p (fun x => x.state.active)).foldl (fun u w => u.stopWindow w .evicted) s
  (t.windowsOf p (fun _ => true)).foldl (fun u w => u.setWin w none) t

/-- The port's waiting entries are removed; EVICT raises WAIT_CANCELLED for them (R59 step 1). -/
def State.leaveWaits (s : State) (p : PortId) (evict : Bool) : State :=
  let t := s.setWaits (s.dir.waits.filter (fun e => decide (e.port ≠ p)))
  if evict && s.dir.waits.any (fun e => decide (e.port = p)) then t.raise p .waitCancelled else t

/-- The port leaves a watcher set (R59 step 2). -/
def State.leaveWatch (s : State) (p : PortId) (r : ResId) : State :=
  match (s.res r).lease with
  | .watched ws =>
    let left := PortSet.drop ws p
    s.setLease r (if left = 0 then .free else .watched left)
  | .free => s
  | .held _ _ => s
  | .heldUnposted _ _ _ => s

/-- A resource of the port becomes FREE, its holding posted where a buffer is free, else lost and counted (R59
step 3). -/
def State.leaveRes (s : State) (p : PortId) (r : ResId) : State :=
  if s.holds p r then
    if (s.res r).lease.holding.isSome ∧ s.freeBuffers = 0 then
      (s.freeRes r).count (fun c => { c with resultsLost := satAdd max16 c.resultsLost 1 })
    else (s.postHolding r).freeRes r
  else s

/-- The Lease Directory's part (R59). -/
def State.leaveLeases (s : State) (p : PortId) (evict : Bool) : State :=
  let t := s.leaveWaits p evict
  let t := allResources.foldl (fun u r => u.leaveWatch p r) t
  (allResources.foldl (fun u r => u.leaveRes p r) t).grantPass

/-- The Withdraw Unit's part: the sync slot NONE, then the interest sets (R172, R167). -/
def State.leaveWithdraws (s : State) (p : PortId) : State :=
  (s.setSync p .none).removeInterest (fun ps => PortSet.drop ps p)

/-- The parts of the other blocks in their order, then the closing conditions (R188, R27; log 17). -/
def State.leavePort (s : State) (p : PortId) (evict : Bool) : State :=
  (((s.leaveWindows p).leaveLeases p evict).leaveWithdraws p).checkClosing

/-- The number of results a list of resources can post in turn and the number lost: each arrival takes a buffer and
may cancel older ones (R139, R140). -/
def State.countPosts (s : State) (p : PortId) : List ResId → Nat × Nat
  | [] => (0, 0)
  | r :: rest =>
    let (n, m) := (s.leaveRes p r).countPosts p rest
    if s.holds p r ∧ (s.res r).lease.holding.isSome then (if s.freeBuffers = 0 then (n, m + 1) else (n + 1, m))
    else (n, m)

/-- The counts of the answer (R188). -/
def State.leaveCounts (s : State) (p : PortId) (evict : Bool) : LeaveCounts :=
  let t := allResources.foldl (fun u r => u.leaveWatch p r) ((s.leaveWindows p).leaveWaits p evict)
  let counts := t.countPosts p allResources
  { stopped := (s.windowsOf p (fun x => x.state.active)).length
    idled := (s.windowsOf p (fun _ => true)).length
    freed := (allResources.filter (fun r => s.holds p r)).length
    posted := counts.1
    lost := counts.2 }

def enLeaveCounts (c : LeaveCounts) : List Byte := u8 c.stopped ++ u8 c.idled ++ u8 c.freed ++ u8 c.posted ++ u8 c.lost

/-- DETACH: the notice set of the port is emptied last (R188). -/
def bodyDetach : Body := fun p _ params s =>
  match params with
  | [] =>
    let t := s.leavePort p false
    accept (t.modPort p (fun x => x.setSets 0 x.enables)) (enLeaveCounts (s.leaveCounts p false))
  | _ :: _ => refuse s .badParam

/-- EVICT of another port: EVICTED is raised on it last (R189). -/
def bodyEvict : Body := fun p _ params s =>
  match params with
  | [b] =>
    match idxOf 4 b with
    | none => refuse s .badParam
    | some q =>
      if q = p then refuse s .badParam
      else accept ((s.leavePort q true).raise q .evicted) (enLeaveCounts (s.leaveCounts q true))
  | _ => refuse s .badParam

/-! ## Commands -/

/-- DETACH (R188). -/
def execDetach (p : PortId) (rest : List Byte) (cut : Bool) (s : State) :
    Host.Outcome State Fault Refusal :=
  .next (s.request .detach bodyDetach p rest cut)

/-- EVICT (R189). -/
def execEvict (p : PortId) (rest : List Byte) (cut : Bool) (s : State) :
    Host.Outcome State Fault Refusal :=
  .next (s.request .evict bodyEvict p rest cut)

end Sys2Proof.Machine
end

