-- ==== Sys2Proof/Machine/Transactions.lean ====
section
/-! DEFINITION. Sys2Proof/Machine/Transactions.lean: the end of a transaction whatever it carried (R177 to R181): the
command TRANSACTION_END. -/

namespace Sys2Proof.Machine

/-- The own rule of each request. -/
def Req.body : Req → Body
  | .readRun => bodyReadRun
  | .runStart => bodyRunStart
  | .runClose => bodyRunClose
  | .runAbort => bodyRunAbort
  | .reload => bodyReload
  | .readLink => bodyReadLink
  | .withdraw => bodyWithdraw
  | .restore => bodyRestore
  | .ackWithdraw => bodyAckWithdraw
  | .sync => bodySync
  | .readWithdraws => bodyReadWithdraws
  | .lease => bodyLease
  | .release => bodyRelease
  | .post => bodyPost
  | .discard => bodyDiscard
  | .recallResource => bodyRecall
  | .cancelWait => bodyCancelWait
  | .readLeases => bodyReadLeases
  | .openWindow => bodyOpenWindow
  | .start => bodyStart
  | .stop => bodyStop
  | .retime => bodyRetime
  | .closeWindow => bodyCloseWindow
  | .readWindow => bodyReadWindow
  | .semSet => bodySemSet
  | .semClear => bodySemClear
  | .semRead => bodySemRead
  | .readCapture => bodyReadCapture
  | .setCapture => bodySetCapture
  | .readVerdict => bodyReadVerdict
  | .readFaults => bodyReadFaults
  | .clearFault => bodyClearFault
  | .setLamp => bodySetLamp
  | .setBlink => bodySetBlink
  | .readNotices => bodyReadNotices
  | .clearNotices => bodyClearNotices
  | .setNotices => bodySetNotices
  | .setNoticeEnable => bodySetNoticeEnable
  | .detach => bodyDetach
  | .evict => bodyEvict

/-- Steps 2 to 5 of R181 on a good frame: a code that names no request is answered UNKNOWN. -/
def State.dispatch (s : State) (p : PortId) (code tag : Byte) (params : List Byte) : State :=
  match reqOf code with
  | some r => s.serve r r.body p tag params
  | none => s.answer p code tag (.bare .unknown)

/-- TRANSACTION_END: the deselect of a transaction that received the whole bytes `rx` (R176 to R181). -/
def execTransactionEnd (p : PortId) (rx : List Byte) (cut : Bool) (s : State) :
    Host.Outcome State Fault Refusal :=
  .next (s.transact p rx cut (fun code tag params t => t.dispatch p code tag params))

end Sys2Proof.Machine
end

