-- ==== Sys2Proof/Machine/Dispatch.lean ====
section
/-! DEFINITION. Sys2Proof/Machine/Dispatch.lean: the meaning of every command, one arm per constructor. -/

namespace Sys2Proof.Machine

def exec (i : Instr) (s : State) : Host.Outcome State Fault Refusal :=
  match i with
  | .reset => Sys2Proof.Machine.execReset s
  | .resetRelease => Sys2Proof.Machine.execResetRelease s
  | .headerRead bytes => Sys2Proof.Machine.execHeaderRead bytes s
  | .areaVisit bytes => Sys2Proof.Machine.execAreaVisit bytes s
  | .linksAreaRead bytes => Sys2Proof.Machine.execLinksAreaRead bytes s
  | .transactionEnd p rx cut => Sys2Proof.Machine.execTransactionEnd p rx cut s
  | .readRun p rest cut => Sys2Proof.Machine.execReadRun p rest cut s
  | .runStart p rest cut => Sys2Proof.Machine.execRunStart p rest cut s
  | .runClose p rest cut => Sys2Proof.Machine.execRunClose p rest cut s
  | .runAbort p rest cut => Sys2Proof.Machine.execRunAbort p rest cut s
  | .reload p rest cut => Sys2Proof.Machine.execReload p rest cut s
  | .readLink p rest cut => Sys2Proof.Machine.execReadLink p rest cut s
  | .withdraw p rest cut => Sys2Proof.Machine.execWithdraw p rest cut s
  | .restore p rest cut => Sys2Proof.Machine.execRestore p rest cut s
  | .ackWithdraw p rest cut => Sys2Proof.Machine.execAckWithdraw p rest cut s
  | .sync p rest cut => Sys2Proof.Machine.execSync p rest cut s
  | .readWithdraws p rest cut => Sys2Proof.Machine.execReadWithdraws p rest cut s
  | .lease p rest cut => Sys2Proof.Machine.execLease p rest cut s
  | .release p rest cut => Sys2Proof.Machine.execRelease p rest cut s
  | .post p rest cut => Sys2Proof.Machine.execPost p rest cut s
  | .discard p rest cut => Sys2Proof.Machine.execDiscard p rest cut s
  | .recallResource p rest cut => Sys2Proof.Machine.execRecallResource p rest cut s
  | .cancelWait p rest cut => Sys2Proof.Machine.execCancelWait p rest cut s
  | .readLeases p rest cut => Sys2Proof.Machine.execReadLeases p rest cut s
  | .openWindow p rest cut => Sys2Proof.Machine.execOpenWindow p rest cut s
  | .start p rest cut => Sys2Proof.Machine.execStart p rest cut s
  | .stop p rest cut => Sys2Proof.Machine.execStop p rest cut s
  | .retime p rest cut => Sys2Proof.Machine.execRetime p rest cut s
  | .closeWindow p rest cut => Sys2Proof.Machine.execCloseWindow p rest cut s
  | .readWindow p rest cut => Sys2Proof.Machine.execReadWindow p rest cut s
  | .semSet p rest cut => Sys2Proof.Machine.execSemSet p rest cut s
  | .semClear p rest cut => Sys2Proof.Machine.execSemClear p rest cut s
  | .semRead p rest cut => Sys2Proof.Machine.execSemRead p rest cut s
  | .readCapture p rest cut => Sys2Proof.Machine.execReadCapture p rest cut s
  | .setCapture p rest cut => Sys2Proof.Machine.execSetCapture p rest cut s
  | .readVerdict p rest cut => Sys2Proof.Machine.execReadVerdict p rest cut s
  | .readFaults p rest cut => Sys2Proof.Machine.execReadFaults p rest cut s
  | .clearFault p rest cut => Sys2Proof.Machine.execClearFault p rest cut s
  | .setLamp p rest cut => Sys2Proof.Machine.execSetLamp p rest cut s
  | .setBlink p rest cut => Sys2Proof.Machine.execSetBlink p rest cut s
  | .readNotices p rest cut => Sys2Proof.Machine.execReadNotices p rest cut s
  | .clearNotices p rest cut => Sys2Proof.Machine.execClearNotices p rest cut s
  | .setNotices p rest cut => Sys2Proof.Machine.execSetNotices p rest cut s
  | .setNoticeEnable p rest cut => Sys2Proof.Machine.execSetNoticeEnable p rest cut s
  | .detach p rest cut => Sys2Proof.Machine.execDetach p rest cut s
  | .evict p rest cut => Sys2Proof.Machine.execEvict p rest cut s
  | .leaseLimitCrossed r => Sys2Proof.Machine.execLeaseLimitCrossed r s
  | .recallDeadline r => Sys2Proof.Machine.execRecallDeadline r s
  | .setupReplyTimeout => Sys2Proof.Machine.execSetupReplyTimeout s
  | .setupExchangeEnd reply => Sys2Proof.Machine.execSetupExchangeEnd reply s
  | .settleTimeReached w => Sys2Proof.Machine.execSettleTimeReached w s
  | .leadExpiry w => Sys2Proof.Machine.execLeadExpiry w s
  | .dwellExpiry w => Sys2Proof.Machine.execDwellExpiry w s
  | .fltAssert slot => Sys2Proof.Machine.execFltAssert slot s
  | .fltDeassert slot => Sys2Proof.Machine.execFltDeassert slot s
  | .faultQualifyExpiry slot => Sys2Proof.Machine.execFaultQualifyExpiry slot s
  | .errPulseAccept slot width => Sys2Proof.Machine.execErrPulseAccept slot width s
  | .errPulseReject slot width => Sys2Proof.Machine.execErrPulseReject slot width s
  | .lnkFall slot => Sys2Proof.Machine.execLnkFall slot s
  | .lnkRise slot => Sys2Proof.Machine.execLnkRise slot s
  | .commitComplete => Sys2Proof.Machine.execCommitComplete s
  | .syncTimeout p => Sys2Proof.Machine.execSyncTimeout p s
  | .blinkClockToggle clock => Sys2Proof.Machine.execBlinkClockToggle clock s
  | .pselNAssertion p => Sys2Proof.Machine.execPselNAssertion p s
  | .replyStartBit => Sys2Proof.Machine.execReplyStartBit s

end Sys2Proof.Machine
end

