-- ==== Sys2Proof/Machine/Timers.lean ====
section
/-! DEFINITION. Sys2Proof/Machine/Timers.lean: the timer events that are due, and what an idle hub does: it lets a µs
pass, or brings a due event (log 1, 4). -/

namespace Sys2Proof.Machine

/-- A time of the µs timebase has been reached. -/
def State.reached (s : State) : Option Nat → Bool
  | some t => decide (t ≤ s.now)
  | none => false

/-- A time of the ms timebase has been reached. -/
def State.reachedMs (s : State) : Option Nat → Bool
  | some t => decide (t ≤ s.nowMs)
  | none => false

/-- The deadline of a recall (R54). -/
def Recall.deadline : Recall → Option Nat
  | .recalling d => some d
  | .none => Option.none
  | .expiredWaiting => Option.none

/-- The end of the reply timeout (R121). -/
def Exchange.timeout : Exchange → Option Nat
  | .awaiting _ t => some t
  | .idle => none
  | .receiving _ => none

/-- The deadline of a sync slot (R172). -/
def SyncSlot.deadline : SyncSlot → Option Nat
  | .waiting _ d => some d
  | .none => Option.none
  | .complete _ _ => Option.none

/-- The end of a window's timer in a state. -/
def State.timerOf (s : State) (w : WinId) (st : WinState) : Option Nat :=
  match s.win w with
  | some x => if x.state = st then x.timerEnd else none
  | none => none

/-- A window in SETTLE whose conditions hold, a time it waited for having been reached (R73). -/
def State.settleDue (s : State) (w : WinId) : Bool :=
  match s.win w with
  | some x => decide (x.state = .settle) && s.mayDrive x
  | none => false

/-- The time by which the commit in flight completes (R141; log 5). -/
def State.commitDue (s : State) : Option Nat := s.post.commit.map (fun c => c.takenAt + c.delay)

/-- The timer events that are due. -/
def State.dueEvents (s : State) : List Instr :=
  (allResources.filter (fun r => s.reachedMs (s.crossingAt r))).map Instr.leaseLimitCrossed
    ++ (allResources.filter (fun r => s.reachedMs (s.res r).recallState.deadline)).map Instr.recallDeadline
    ++ (if s.reached s.setup.exchange.timeout then [Instr.setupReplyTimeout] else [])
    ++ (allWindows.filter (fun w => s.settleDue w)).map Instr.settleTimeReached
    ++ (allWindows.filter (fun w => s.reached (s.timerOf w .lead))).map Instr.leadExpiry
    ++ (allWindows.filter (fun w => s.reached (s.timerOf w .dwell))).map Instr.dwellExpiry
    ++ (allSlots.filter (fun i => s.reached (s.fault i).qualifying)).map Instr.faultQualifyExpiry
    ++ (if s.reached s.commitDue then [Instr.commitComplete] else [])
    ++ (allPorts.filter (fun p => s.reachedMs (s.syncSlot p).deadline)).map Instr.syncTimeout
    ++ ([BlinkRate.slow, BlinkRate.fast].filter (fun r => decide (s.clockOn r ≠ blinkOnAt r s.nowMs))).map
        Instr.blinkClockToggle

/-- A due event brought: the one event, or one that the free value picks (log 4). -/
def State.bring (s : State) : List Instr → State
  | [] => s
  | [e] => { s with pending := [e] }
  | e :: f :: rest =>
    let all := e :: f :: rest
    { s with pending := [all.getD (Config.tieBreak s.freeIndex % all.length) e], freeIndex := s.freeIndex + 1 }

/-- The hub with no command waiting: nothing while RST_N is asserted; else a due event is brought into the queue;
else a µs passes (log 1). -/
def State.idle (s : State) : State :=
  if s.rst then s
  else
    match s.dueEvents with
    | [] => { s with now := s.now + 1 }
    | e :: rest => s.bring (e :: rest)

end Sys2Proof.Machine
end

