-- ==== Sys2Proof/Safety.lean ====
section
/-! DEFINITION. Sys2Proof/Safety.lean: what the claims are stated in: the frames that agents send, when a request is
taken and accepted, its parameters, the effects of a withdrawal, and the invariants of the hub. -/

namespace Sys2Proof.Machine

/-! ## Requests as agents send them (R198, R178, R180) -/

/-- The bytes after the code byte of a transaction that carries a whole good request frame: tag, length, parameters,
CRC-8, and the filler clocked after it (R198). -/
def frameRest (r : Req) (tag : Byte) (params filler : List Byte) : List Byte :=
  let len : Byte := BitVec.ofNat 8 params.length
  tag :: len :: (params ++ crc8 (r.code :: tag :: len :: params) :: filler)

/-- A transaction of `n` bytes on the port is one whose frame is taken: the hub is out of reset, and the slot was
READY at select, or ANSWERED and its response is read whole (R178, R180). -/
def State.takes (s : State) (p : PortId) (n : Nat) : Bool :=
  !s.rst && match (s.port p).atSelect, (s.port p).slot with
    | some .ready, _ => true
    | some .answered, .answered frame => decide (frame.length ≤ n)
    | _, _ => false

/-- The request of a transaction of `n` bytes passes the checks before its own rule: it is taken, its run state admits
it, its role permits it (R181 steps 3 and 4). -/
def State.accepts (s : State) (r : Req) (p : PortId) (n : Nat) : Bool :=
  s.takes p n && r.admits s.run.state && r.permits (s.port p).role

/-- The state in which a taken request's own rule acts: PSEL_N deasserted, the slot WORKING with code and tag
(R178). -/
def State.inWork (s : State) (p : PortId) (code tag : Byte) : State :=
  (s.deselect p).setSlot p (.working code tag none)

/-- The state in which an accepted request's own rule acts. -/
def State.working (s : State) (r : Req) (p : PortId) (tag : Byte) : State := s.inWork p r.code tag

/-- The answer of an accepted request placed: OK with data. -/
def State.answerOk (s : State) (r : Req) (p : PortId) (tag : Byte) (data : List Byte) : State :=
  s.answer p r.code tag (.ok data)

/-- A request refused with a status: nothing changes but the port's slot and transaction (R181). -/
def State.refusedWith (s : State) (r : Req) (p : PortId) (tag : Byte) (st : Status) : State :=
  (s.working r p tag).answer p r.code tag (.bare st)

/-! ## The commands of requests (R177, R22, R183) -/

/-- The command that carries a request. -/
def Req.command : Req → PortId → List Byte → Bool → Instr
  | .readRun, p, rest, cut => .readRun p rest cut
  | .runStart, p, rest, cut => .runStart p rest cut
  | .runClose, p, rest, cut => .runClose p rest cut
  | .runAbort, p, rest, cut => .runAbort p rest cut
  | .reload, p, rest, cut => .reload p rest cut
  | .readLink, p, rest, cut => .readLink p rest cut
  | .withdraw, p, rest, cut => .withdraw p rest cut
  | .restore, p, rest, cut => .restore p rest cut
  | .ackWithdraw, p, rest, cut => .ackWithdraw p rest cut
  | .sync, p, rest, cut => .sync p rest cut
  | .readWithdraws, p, rest, cut => .readWithdraws p rest cut
  | .lease, p, rest, cut => .lease p rest cut
  | .release, p, rest, cut => .release p rest cut
  | .post, p, rest, cut => .post p rest cut
  | .discard, p, rest, cut => .discard p rest cut
  | .recallResource, p, rest, cut => .recallResource p rest cut
  | .cancelWait, p, rest, cut => .cancelWait p rest cut
  | .readLeases, p, rest, cut => .readLeases p rest cut
  | .openWindow, p, rest, cut => .openWindow p rest cut
  | .start, p, rest, cut => .start p rest cut
  | .stop, p, rest, cut => .stop p rest cut
  | .retime, p, rest, cut => .retime p rest cut
  | .closeWindow, p, rest, cut => .closeWindow p rest cut
  | .readWindow, p, rest, cut => .readWindow p rest cut
  | .semSet, p, rest, cut => .semSet p rest cut
  | .semClear, p, rest, cut => .semClear p rest cut
  | .semRead, p, rest, cut => .semRead p rest cut
  | .readCapture, p, rest, cut => .readCapture p rest cut
  | .setCapture, p, rest, cut => .setCapture p rest cut
  | .readVerdict, p, rest, cut => .readVerdict p rest cut
  | .readFaults, p, rest, cut => .readFaults p rest cut
  | .clearFault, p, rest, cut => .clearFault p rest cut
  | .setLamp, p, rest, cut => .setLamp p rest cut
  | .setBlink, p, rest, cut => .setBlink p rest cut
  | .readNotices, p, rest, cut => .readNotices p rest cut
  | .clearNotices, p, rest, cut => .clearNotices p rest cut
  | .setNotices, p, rest, cut => .setNotices p rest cut
  | .setNoticeEnable, p, rest, cut => .setNoticeEnable p rest cut
  | .detach, p, rest, cut => .detach p rest cut
  | .evict, p, rest, cut => .evict p rest cut

/-- The run states that admit a request, row by row of the table of R22. -/
def Req.runStates : Req → List RunState
  | .readRun => [.unloaded, .loading, .ready, .running, .closing, .closed]
  | .runStart => [.ready, .closed]
  | .runClose | .lease | .openWindow | .start => [.running]
  | .runAbort | .release | .post | .discard | .recallResource | .cancelWait | .stop | .retime | .readCapture
  | .setCapture => [.running, .closing]
  | .reload => [.unloaded, .ready, .closed]
  | .readLink | .ackWithdraw | .sync | .readWithdraws | .readLeases | .closeWindow | .readWindow | .semSet
  | .semClear | .semRead | .readVerdict | .readFaults | .clearFault | .setLamp | .setBlink | .readNotices
  | .clearNotices | .setNotices | .setNoticeEnable | .detach | .evict =>
    [.unloaded, .ready, .running, .closing, .closed]
  | .withdraw | .restore => [.ready, .running, .closing, .closed]

/-- The roles that the catalogue of 10.5 gives a request; where it gives a condition, the roles that pass on to the
request's own rule (R183). -/
def Req.roles : Req → List Role
  | .readRun | .readLink | .ackWithdraw | .sync | .readWithdraws | .lease | .release | .cancelWait
  | .readLeases | .stop | .closeWindow | .readWindow | .semRead | .readCapture | .readVerdict | .readFaults
  | .readNotices | .clearNotices | .setNotices | .setNoticeEnable | .detach => [.supervisor, .tester, .observer]
  | .runStart | .runClose | .runAbort | .reload | .withdraw | .restore | .discard | .recallResource
  | .clearFault | .setLamp | .setBlink | .evict => [.supervisor]
  | .post | .openWindow | .start | .retime | .semSet | .semClear | .setCapture => [.supervisor, .tester]

/-- A whole good frame with these parameters and this filler is taken at its deselect (R177, R178, R180). -/
def State.taken (s : State) (p : PortId) (params filler : List Byte) : Bool :=
  decide (params.length < 256) && s.takes p (params.length + 4 + filler.length)

/-- It is taken, and the run state and the role let it pass on to the request's own rule (R181). -/
def State.admitted (s : State) (r : Req) (p : PortId) (params filler : List Byte) : Bool :=
  s.taken p params filler && r.runStates.contains s.run.state && r.roles.contains (s.port p).role

/-- A notice kind stands in the notice set of a port (R184). -/
def State.noticed (s : State) (p : PortId) (k : Notice) : Bool := (s.port p).notices.getLsbD k.bit

/-- The resource numbers of a request, after their count (R38, R48). -/
def enResources (rs : List ResId) : List Byte := u8 rs.length ++ enSeq (fun r : ResId => u8 r.val) rs

/-- The parameter bytes of an OPEN_WINDOW (R67, R198). -/
def enOpenParams (o : OpenParams) : List Byte :=
  u8 o.victim.val ++ u8 o.mode.num ++ enList enAggressor o.aggressors ++ u8 o.pattern ++ enTiming o.timing
    ++ u8 o.repeats ++ enSource o.source ++ enSignal o.signal ++ enFlag o.retest ++ enFlag o.stopOnLockLoss
    ++ u8 o.faultMode.num

/-- The fields of an OPEN_WINDOW lie within the ranges of R63. -/
def OpenParams.inRange (o : OpenParams) : Bool :=
  decide (o.aggressors.length ≤ 4) && decide (o.pattern ≤ 15) && decide (o.timing.lead ≤ 65535)
    && decide (1 ≤ o.timing.dwell ∧ o.timing.dwell ≤ 16777215) && decide (o.timing.dead ≤ 65535)
    && decide (o.repeats ≤ 255)

/-! ## Parameters that decode (R198) -/

/-- The resources of a LEASE or RELEASE: 1 to 8 of them, none twice, each on a fitted slot (R38, R48). -/
def State.resourcesGood (s : State) (rs : List ResId) : Prop :=
  1 ≤ rs.length ∧ rs.length ≤ 8 ∧ rs.Nodup ∧ ∀ r ∈ rs, s.isFitted (resSlot r) = true

/-- The parameters of an OPEN_WINDOW pass R67: every field in its range, the victim in the map, the ends of a PAIRED
victim on two slots, every aggressor a neighbour of the victim and none twice, no two GENs on one slot. -/
def State.openParamsGood (s : State) (o : OpenParams) : Prop :=
  o.inRange = true ∧ ∃ k, s.link o.victim = some k ∧ (o.mode = .paired → k.endA.slot ≠ k.endB.slot)
  ∧ (∀ a ∈ o.aggressors, a.link.val ∈ k.neighbours) ∧ (o.aggressors.map (fun a => a.link)).Nodup
  ∧ (s.gensOf k o).Nodup

/-- The parameter bytes of a request decode into the fields that its rule names, each in its range, naming a fitted slot,
a link of the map or another port where the rule asks for one. Bytes that do not are refused with BAD_PARAM, whatever
else holds (R198 and the rule of each request). -/
def State.decodes (s : State) (p : PortId) : Req → List Byte → Prop
  | .runStart, ps | .runClose, ps | .runAbort, ps | .reload, ps | .sync, ps | .readWithdraws, ps | .semRead, ps
  | .readFaults, ps | .readNotices, ps | .detach, ps => ps = []
  | .readRun, ps | .setBlink, ps => ∃ b : Bool, ps = enFlag b
  | .readLink, ps =>
    (∃ first count, first < 128 ∧ 1 ≤ count ∧ count ≤ 16 ∧ first + count ≤ 128 ∧ ps = u8 0 ++ u8 first ++ u8 count)
    ∨ (∃ i : SlotId, ps = u8 1 ++ u8 i.val) ∨ ps = u8 2 ∨ ps = u8 3
  | .withdraw, ps | .restore, ps | .ackWithdraw, ps => ∃ l : LinkId, (s.link l).isSome = true ∧ ps = u8 l.val
  | .lease, ps => ∃ (m : LeaseMode) (wait : Bool) (rs : List ResId), s.resourcesGood rs
      ∧ (m = .watch → ∀ r ∈ rs, isGen r = false) ∧ ps = u8 m.num ++ enFlag wait ++ enResources rs
  | .release, ps => ∃ rs, s.resourcesGood rs ∧ ps = enResources rs
  | .post, ps | .discard, ps => ∃ i, s.isFitted i = true ∧ ps = u8 (chkOf i).val
  | .recallResource, ps => ∃ r, s.isFitted (resSlot r) = true ∧ ps = u8 r.val
  | .cancelWait, ps => ∃ tag : Byte, ps = [tag]
  | .readLeases, ps => (∃ q : PortId, ps = u8 0 ++ u8 q.val)
    ∨ ∃ first count, first < 32 ∧ 1 ≤ count ∧ first + count ≤ 32 ∧ ps = u8 1 ++ u8 first ++ u8 count
  | .openWindow, ps => ∃ o, s.openParamsGood o ∧ ps = enOpenParams o
  | .start, ps | .closeWindow, ps | .readWindow, ps => ∃ w : WinId, ps = u8 w.val
  | .stop, ps => ∃ (w : WinId) (boundary : Bool), ps = u8 w.val ++ enFlag boundary
  | .retime, ps => ∃ (w : WinId) (x : Timing), (x.lead ≤ 65535 ∧ 1 ≤ x.dwell ∧ x.dwell ≤ 16777215 ∧ x.dead ≤ 65535)
      ∧ ps = u8 w.val ++ enTiming x
  | .semSet, ps | .semClear, ps => ∃ k : SemId, ps = u8 k.val
  | .readCapture, ps => ∃ i, s.isFitted i = true ∧ ps = u8 i.val
  | .setCapture, ps => ∃ (i : SlotId) (filter : Fin 5) (prescale : Fin 4), s.isFitted i = true
      ∧ ps = u8 i.val ++ u8 filter.val ++ u8 prescale.val
  | .readVerdict, ps => ∃ (l : LinkId) (choice : Fin 3) (flush : Bool), (s.link l).isSome = true
      ∧ ps = u8 l.val ++ u8 choice.val ++ enFlag flush
  | .clearFault, ps => ∃ i : SlotId, ps = u8 i.val
  | .setLamp, ps => ∃ (i : SlotId) (mode : Fin 8) (blink invert : Bool), s.isFitted i = true
      ∧ ps = u8 i.val ++ u8 mode.val ++ enFlag blink ++ enFlag invert
  | .clearNotices, ps | .setNotices, ps | .setNoticeEnable, ps => ∃ ks : NoticeSet, ps = enKinds ks
  | .evict, ps => ∃ q : PortId, q ≠ p ∧ ps = u8 q.val

/-! ## A link withdrawn or restored (R149, R164, R166) -/

/-- A port is blocked on a link (R164): it owns an active window whose victim or an aggressor it is, or holds a resource
whose holding is for the link. -/
def State.isBlocked (s : State) (q : PortId) (l : LinkId) : Prop :=
  (∃ w x, s.win w = some x ∧ x.owner = q ∧ x.state.active = true ∧ (x.victim = l ∨ ∃ a ∈ x.aggressors, a.link = l))
  ∨ ∃ r since a, (s.res r).lease = .heldUnposted q since a ∧ a.link = l

/-- From `s` to `t` a link has changed its state: of the records of every other link, those of the links that list it have
the verdict of the ladder as it now stands and their other fields as before, the rest are as before; the coverage count
is that of the table (R149, R152). -/
def State.regradedFrom (t s : State) (l : LinkId) : Prop :=
  (∀ m k d v, m ≠ l → s.link m = some k → s.record m d = some v →
    (l.val ∈ k.neighbours → t.record m d = some { v with verdict := t.grade k v })
    ∧ (l.val ∉ k.neighbours → t.record m d = some v))
  ∧ t.table.coverage = t.gradedCount

/-- The coverage-complete flag is as R32 has it. -/
def State.completeEvaluated (t : State) : Prop :=
  t.run.complete = decide (0 < t.targetLinks ∧ t.table.coverage = 2 * t.targetLinks)

/-- From `s` to `t` the coverage-complete flag has been evaluated: where it goes from clear to set, RUN_STATE is raised on
all four ports (R32). -/
def State.completeNoticed (t s : State) : Prop :=
  s.run.complete = false → t.run.complete = true → ∀ p, t.noticed p .runState = true

/-- From `s` to `t` the withdrawal of a link has completed (R166): the link and its records are WITHDRAWN, the records'
contents kept, its entry gone from the Withdraw List, the links that list it regraded; and it has left the awaited list
of every WAITING sync slot, one with nothing left being COMPLETE with OK and SYNC_DONE raised (R172). -/
def State.withdrewFrom (t s : State) (l : LinkId) : Prop :=
  (∀ k, s.link l = some k → t.link l = some { k with state := .withdrawn }) ∧ (∀ m, m ≠ l → t.link m = s.link m)
  ∧ t.wd.list = s.wd.list.filter (fun e => decide (e.link ≠ l))
  ∧ (∀ d v, s.record l d = some v → t.record l d = some { v with verdict := .withdrawn })
  ∧ t.regradedFrom s l
  ∧ ∀ q,
    (∀ awaited deadline, s.syncSlot q = .waiting awaited deadline →
      (l ∉ awaited → t.syncSlot q = s.syncSlot q)
      ∧ (l ∈ awaited → (∀ m ∈ awaited, m = l) → t.syncSlot q = .complete [] true ∧ t.noticed q .syncDone = true)
      ∧ (l ∈ awaited → (∃ m ∈ awaited, m ≠ l) →
          t.syncSlot q = .waiting (awaited.filter (fun m => decide (m ≠ l))) deadline))
    ∧ ((∀ awaited deadline, s.syncSlot q ≠ .waiting awaited deadline) → t.syncSlot q = s.syncSlot q)

/-! ## Invariants -/

/-- PATN_N of every port follows its masked set (R185). -/
def State.attentionFollows (s : State) : Prop :=
  ∀ p : PortId, (s.port p).attention = decide ((s.port p).masked ≠ 0)

/-- The Setup Queue holds at most sixteen transactions, none but its oldest in flight, and no waiting group has one
in flight; the link carries an exchange exactly while the oldest transaction is in flight (R118, R120, R121). -/
def SetupLink.ordered (x : SetupLink) : Prop :=
  x.queue.length ≤ queuePlaces
  ∧ (∀ t ∈ x.queue.tail, t.inFlight = false)
  ∧ (∀ g ∈ x.order, ∀ t ∈ g.group, t.inFlight = false)
  ∧ (x.exchange ≠ .idle ↔ ∃ t ∈ x.queue.head?, t.inFlight = true)

/-- The Lease Wait List and the Withdraw List hold at most eight entries each (R43, R161). -/
def State.listsBounded (s : State) : Prop := s.dir.waits.length ≤ 8 ∧ s.wd.list.length ≤ 8

/-- A GEN is FREE or HELD: only a CHK is WATCHED or HELD_UNPOSTED (R36). -/
def State.gensPlain (s : State) : Prop :=
  ∀ r : ResId, isGen r = true → (s.res r).lease = .free ∨ ∃ p t, (s.res r).lease = .held p t

/-- The run counters and the run number stay within 0 to 65535 (R29, R31). -/
def RunRecord.bounded (x : RunRecord) : Prop :=
  x.number ≤ 65535 ∧ x.counters.resultsLost ≤ 65535 ∧ x.counters.resultsDiscarded ≤ 65535
  ∧ x.counters.postsSuperseded ≤ 65535 ∧ x.counters.postsDropped ≤ 65535 ∧ x.counters.windowsDone ≤ 65535
  ∧ x.counters.windowsStopped ≤ 65535 ∧ x.counters.faultLatchings ≤ 65535

/-- Every semaphore is set with an empty armed list, or clear (R101). -/
def State.semaphoresSettled (s : State) : Prop := ∀ k : SemId, (s.sem k).set = true → (s.sem k).armed = []

/-- The invariants together. -/
structure State.Sound (s : State) : Prop where
  attention : s.attentionFollows
  setup : s.setup.ordered
  lists : s.listsBounded
  gens : s.gensPlain
  run : s.run.bounded
  sems : s.semaphoresSettled

end Sys2Proof.Machine
end

