-- ==== Sys2Proof/Certificates/Slice0/Obligations.lean ====
section
/-! DEFINITION. Sys2Proof/Certificates/Slice0/Obligations.lean: the statements about the hub, block by block. A statement
about a request speaks of its frame sent whole (`frameRest`), with any filler after it; `s.working r p tag` is the
state in which the request's own rule acts: PSEL_N deasserted and the slot of the port WORKING, nothing else changed. -/

section

open Sys2Proof Sys2Proof.Machine

/-! ## The step -/

/-- One step takes the command at the front of the queue and is its meaning on the state with the queue's rest. -/
def Obligations.StepRunsFrontCommand : Prop :=
  ∀ (c : Instr) (rest : List Instr) (s : State), s.pending = c :: rest → step s = exec c { s with pending := rest }

/-- The step on an empty queue (the model's choice, log 1 and 4): nothing while RST_N is asserted; a µs where no timer
event is due; else a due event put into the queue. -/
def Obligations.IdleHubTicksOrBringsDueEvent : Prop :=
  ∀ s : State, s.pending = [] →
    (s.rst = true → step s = .next s)
    ∧ (s.rst = false → s.dueEvents = [] → step s = .next { s with now := s.now + 1 })
    ∧ (∀ e, s.rst = false → s.dueEvents = [e] → step s = .next { s with pending := [e] })
    ∧ (s.rst = false → s.dueEvents ≠ [] →
        ∃ e n, e ∈ s.dueEvents ∧ step s = .next { s with pending := [e], freeIndex := n })

/-- No command stops the hub (DEDUCED, log 25); none touches the queue, and none but the edges of RST_N changes RST_N or
turns time back (a timer command moves it on to its deadline, never back: the model's choice, log 2). -/
def Obligations.CommandsKeepQueueAndTime : Prop :=
  ∀ (c : Instr) (s : State), ∃ t, exec c s = .next t ∧ t.pending = s.pending
    ∧ (c ≠ .reset → c ≠ .resetRelease → t.rst = s.rst ∧ s.now ≤ t.now)

/-- The invariants hold at power-on. -/
def Obligations.PowerOnStateIsSound : Prop := State.reset.Sound

/-- Every step keeps the invariants of the hub: the attention lines, the order of the setup link, the bounds of the
lists and counters, the states of the generators, the two conditions of a semaphore. -/
def Obligations.StepKeepsHubSound : Prop :=
  ∀ s t : State, s.Sound → step s = .next t → t.Sound

/-! ## Reset (R20, R6, R190) -/

/-- RST_N asserted: every record at its power-on value, the Link Map the emptied one with every setting at its default;
the input levels, the queue and the counter of free values are not the hub's to reset (log 8, 9, 21). RST_N released: the
timebases start at 0, the map is emptied, every verdict record vacant (log 32), the report cleared, the qualifying timers
idle, and the read of the header begins (nothing where RST_N was released already, log 3). A read of the flash: FSEL_N
asserted, and on FDO the byte 0x03 and the three address bytes, most significant first (one read for each header or
area: log 18, 27). While RST_N is asserted (log 22): a request or any other transaction ends unheard, a timer or an
exchange does nothing, and the input level is all that an edge changes. -/
def Obligations.ResetAndReleaseOfTheHub : Prop :=
  (∀ s : State, ∃ t, exec .reset s = .next t
      ∧ t.rst = true ∧ t.now = 0
      ∧ t.run = { state := .loading, number := 0, aborted := false, time := .stopped 0,
                  counters := RunCounters.zero, complete := false }
      ∧ t.map = LinkMap.empty ∧ (∀ l, t.link l = none)
      ∧ t.loader = { stage := .idle, noted := [], report := LoadReport.cleared } ∧ t.flashSelected = false
      ∧ (∀ r, t.res r = Resource.free) ∧ t.dir.waits = [] ∧ t.dir.expired = []
      ∧ (∀ w, t.win w = none)
      ∧ (∀ i : SlotId, t.txenPin i = false ∧ t.ckenPin i = false ∧ Table.rd t.eng.fall i = none)
      ∧ (∀ k, t.sem k = { set := false, overrun := false, armed := [] })
      ∧ (∀ i, t.cap i = Capture.powerOn)
      ∧ t.setup = { queue := [], order := [], exchange := .idle }
      ∧ (∀ i, t.fault i =
          { level := (s.fault i).level, qualifying := none, latch := false, count := 0, latchedAt := none })
      ∧ t.post.ordinary = [] ∧ t.post.recallBuf = none ∧ t.post.commit = none
      ∧ (∀ l d, t.record l d = none) ∧ t.table.coverage = 0
      ∧ t.wd.list = [] ∧ (∀ p, t.syncSlot p = .none)
      ∧ (∀ p : PortId, t.port p =
          { role := if p = 0 then .supervisor else .tester, slot := .ready, notices := 0, enables := 0,
            attention := false, transaction := if (s.port p).transaction = .none then .none else .ignored })
      ∧ t.lamps.rate = .slow ∧ (∀ i, t.lamp i = { mode := .off, blink := false, invert := false })
      ∧ t.lamps.slowOn = true ∧ t.lamps.fastOn = true
      ∧ t.lnk = s.lnk ∧ t.freeIndex = s.freeIndex ∧ t.pending = s.pending)
  ∧ (∀ s : State,
      (s.rst = true → exec .resetRelease s = .next { s with
        rst := false
        now := 0
        map := LinkMap.empty
        loader := { stage := .header, noted := [], report := LoadReport.cleared }
        table := { fwd := Table.fill 128 none, rev := Table.fill 128 none, coverage := 0 }
        faults := Table.each (fun f => { f with qualifying := none }) s.faults })
      ∧ (s.rst = false → exec .resetRelease s = .next s)
      ∧ (s.loader.stage = .idle → s.flashSelected = false ∧ s.flashOut = [])
      ∧ (s.loader.stage = .header → s.flashSelected = true ∧ s.flashOut = [0x03#8, 0x00#8, 0x00#8, 0x00#8])
      ∧ ∀ a b c : Byte, s.loader.stage = .area (num32 0 a b c) → num32 0 a b c ≤ 16777210 →
          s.flashSelected = true ∧ s.flashOut = [0x03#8, a, b, c])
  ∧ (∀ s : State, s.rst = true →
      (∀ r p rest cut, exec (Req.command r p rest cut) s = .next (s.deselect p))
      ∧ (∀ p rx cut, exec (.transactionEnd p rx cut) s = .next (s.deselect p))
      ∧ (∀ b, exec (.headerRead b) s = .next s ∧ exec (.areaVisit b) s = .next s ∧ exec (.linksAreaRead b) s = .next s
          ∧ exec (.setupExchangeEnd b) s = .next s)
      ∧ (∀ r, exec (.leaseLimitCrossed r) s = .next s ∧ exec (.recallDeadline r) s = .next s)
      ∧ exec .setupReplyTimeout s = .next s ∧ exec .replyStartBit s = .next s ∧ exec .commitComplete s = .next s
      ∧ (∀ w, exec (.settleTimeReached w) s = .next s ∧ exec (.leadExpiry w) s = .next s
          ∧ exec (.dwellExpiry w) s = .next s)
      ∧ (∀ i n, exec (.faultQualifyExpiry i) s = .next s ∧ exec (.errPulseAccept i n) s = .next s
          ∧ exec (.errPulseReject i n) s = .next s)
      ∧ (∀ p, exec (.syncTimeout p) s = .next s) ∧ (∀ x, exec (.blinkClockToggle x) s = .next s)
      ∧ (∀ i, (s.fault i).level = false →
          exec (.fltAssert i) s = .next (s.modFault i (fun f => { f with level := true })))
      ∧ (∀ i, s.lnkUp i = true → exec (.lnkFall i) s = .next (s.setLnk i false)))

/-! ## The agent ports (R176 to R190) -/

/-- PSEL_N asserted: the port notes the state of its response slot, and nothing else changes (in reset, the transaction
is ignored until its deselect: R190, and log 22 for what else reset leaves). At the deselect: READY at select and no
complete frame leaves the port as it was; WORKING at select takes no request, a complete frame being dropped with
REQUEST_LOST; a response read in part stays in the slot, a complete frame beside it being dropped with REQUEST_LOST; a
response read whole without a complete frame leaves the slot READY. -/
def Obligations.TransactionsGoByTheStateAtSelect : Prop :=
  (∀ (s : State) (p : PortId), (s.port p).transaction = .none →
      exec (.pselNAssertion p) s = .next (s.modPort p (fun x => { x with
        transaction := if s.rst then .ignored else .selected x.slot.kind })))
  ∧ (∀ (s : State) (p : PortId) (rx : List Byte) (cut : Bool), s.rst = false →
      (s.port p).atSelect = some .ready → (s.port p).slot = .ready → (judge rx cut).complete = false →
      exec (.transactionEnd p rx cut) s = .next (s.deselect p))
  ∧ (∀ (s : State) (p : PortId) (rx : List Byte) (cut : Bool), s.rst = false → (s.port p).atSelect = some .working →
      ((judge rx cut).complete = true → exec (.transactionEnd p rx cut) s = .next ((s.deselect p).raise p .requestLost))
      ∧ ((judge rx cut).complete = false → exec (.transactionEnd p rx cut) s = .next (s.deselect p)))
  ∧ (∀ (s : State) (p : PortId) (rx : List Byte) (cut : Bool) (frame : List Byte), s.rst = false →
      (s.port p).atSelect = some .answered → (s.port p).slot = .answered frame →
      (rx.length < frame.length → (judge rx cut).complete = true →
        exec (.transactionEnd p rx cut) s = .next ((s.deselect p).raise p .requestLost))
      ∧ (rx.length < frame.length → (judge rx cut).complete = false →
        exec (.transactionEnd p rx cut) s = .next (s.deselect p))
      ∧ (frame.length ≤ rx.length → (judge rx cut).complete = false →
        exec (.transactionEnd p rx cut) s = .next ((s.deselect p).setSlot p .ready)))

/-- The judgement at the deselect: no byte or a first byte of NOP is no request; a whole frame is good exactly when
its CRC-8 is right, whatever follows it; fewer whole bytes are a bad frame on a byte boundary (its tag 0 where none
was received) and a partial frame with a byte cut short. -/
def Obligations.FramesAreJudgedAtDeselect : Prop :=
  (∀ cut, judge [] cut = .noRequest) ∧ (∀ rest cut, judge (0x00#8 :: rest) cut = .noRequest)
  ∧ (∀ (code tag len c : Byte) (params filler : List Byte) (cut : Bool), code ≠ 0x00#8 → params.length = len.toNat →
      judge (code :: tag :: len :: (params ++ c :: filler)) cut =
        if c = crc8 (code :: tag :: len :: params) then .frame code tag params else .badFrame code tag)
  ∧ (∀ (code tag len : Byte) (more : List Byte), code ≠ 0x00#8 → more.length < len.toNat + 1 →
      judge (code :: tag :: len :: more) true = .partialFrame
      ∧ judge (code :: tag :: len :: more) false = .badFrame code tag)
  ∧ (∀ code tag : Byte, code ≠ 0x00#8 →
      judge [code, tag] true = .partialFrame ∧ judge [code, tag] false = .badFrame code tag
      ∧ judge [code] true = .partialFrame ∧ judge [code] false = .badFrame code 0x00#8)

/-- A bad frame that is taken is answered BAD_FRAME, a good one whose code names no request UNKNOWN; the slot holds the
response and nothing else changes. A request command is the transaction that carries its frame. -/
def Obligations.BadFramesAndUnknownCodesAreAnswered : Prop :=
  (∀ (s : State) (p : PortId) (rx : List Byte) (cut : Bool) (code tag : Byte), s.takes p rx.length = true →
      (judge rx cut = .badFrame code tag → exec (.transactionEnd p rx cut) s =
        .next ((s.deselect p).setSlot p (.answered (responseFrame (.bare .badFrame) code tag))))
      ∧ (∀ params, judge rx cut = .frame code tag params → (∀ r : Req, r.code ≠ code) →
        exec (.transactionEnd p rx cut) s =
          .next ((s.inWork p code tag).setSlot p (.answered (responseFrame (.bare .unknown) code tag)))))
  ∧ (∀ (r : Req) (p : PortId) (rest : List Byte) (cut : Bool) (s : State),
      exec (r.command p rest cut) s = exec (.transactionEnd p (r.code :: rest) cut) s)

/-- The checks of every request, in their order: the run state, by the table of R22; the role, by the catalogue; then
the request's own rule, whose answer is placed in the slot in the same event, but for a READ_VERDICT that waits.
Parameter bytes that do not decode into the fields of the request's rule are refused with BAD_PARAM before anything else
of that rule (R198), but for the role of a HOLD (R38). That a lead and a dead time of an OPEN_WINDOW or a RETIME are times
of four bytes in what decodes is the model's choice (log 34). -/
def Obligations.RequestsPassRunStateThenRole : Prop :=
  ∀ (r : Req) (s : State) (p : PortId) (tag : Byte) (params filler : List Byte) (cut : Bool),
    s.taken p params filler = true →
    (s.run.state ∉ r.runStates →
      exec (r.command p (frameRest r tag params filler) cut) s = .next (s.refusedWith r p tag .wrongState))
    ∧ (s.run.state ∈ r.runStates → (s.port p).role ∉ r.roles →
      exec (r.command p (frameRest r tag params filler) cut) s = .next (s.refusedWith r p tag .notPermitted))
    ∧ (s.run.state ∈ r.runStates → (s.port p).role ∈ r.roles →
      exec (r.command p (frameRest r tag params filler) cut) s =
        .next (match r.body p tag params (s.working r p tag) with
          | (t, some y) => t.answer p r.code tag y
          | (t, none) => t))
    ∧ (s.run.state ∈ r.runStates → (s.port p).role ∈ r.roles → ¬ s.decodes p r params →
      (r = .lease → (s.port p).role = .observer → params.head? ≠ some 0x00#8) →
      exec (r.command p (frameRest r tag params filler) cut) s = .next (s.refusedWith r p tag .badParam))

/-- A request that is refused changes nothing in the hub but the slot that holds the refusal. -/
def Obligations.RefusalChangesNothing : Prop :=
  ∀ (r : Req) (s t : State) (p : PortId) (tag : Byte) (params filler : List Byte) (cut : Bool) (st : Status)
    (frame : List Byte), s.taken p params filler = true → st ≠ .ok → st ≠ .queued →
    exec (r.command p (frameRest r tag params filler) cut) s = .next t →
    (t.port p).slot = .answered frame → frame.head? = some st.code →
    t = (s.deselect p).setSlot p (.answered frame)

/-- The reading requests answer OK with what they read and change nothing else: READ_RUN, READ_LINK, READ_LEASES,
READ_WINDOW, READ_WITHDRAWS, SEM_READ, READ_FAULTS and READ_NOTICES. Where R198 leaves a layout open the data rests on
log 12, 13, 33, 34 and 35. -/
def Obligations.ReadsAnswerAndChangeNothing : Prop :=
  ∀ (s : State) (p : PortId) (tag : Byte) (filler : List Byte) (cut : Bool),
    (s.admitted .readRun p [0x00#8] filler = true → exec (.readRun p (frameRest .readRun tag [0x00#8] filler) cut) s =
      .next ((s.working .readRun p tag).answerOk .readRun p tag s.enSummary))
    ∧ (s.admitted .readRun p [0x01#8] filler = true → exec (.readRun p (frameRest .readRun tag [0x01#8] filler) cut) s =
      .next ((s.working .readRun p tag).answerOk .readRun p tag (enReport s.loader.report)))
    ∧ (∀ first count : Nat, 1 ≤ count → count ≤ 16 → first + count ≤ 128 →
      s.admitted .readLink p [0x00#8, BitVec.ofNat 8 first, BitVec.ofNat 8 count] filler = true →
      exec (.readLink p (frameRest .readLink tag [0x00#8, BitVec.ofNat 8 first, BitVec.ofNat 8 count] filler) cut) s =
        .next ((s.working .readLink p tag).answerOk .readLink p tag
          (enSeq (fun n => enOpt enLink (s.linkNat n)) (List.range' first count))))
    ∧ (∀ i : SlotId, s.admitted .readLink p [0x01#8, BitVec.ofNat 8 i.val] filler = true →
      exec (.readLink p (frameRest .readLink tag [0x01#8, BitVec.ofNat 8 i.val] filler) cut) s =
        .next ((s.working .readLink p tag).answerOk .readLink p tag (u8 s.map.fitted ++ u8 (BlinkRate.num s.map.blink)
          ++ u16 s.map.replyTimeout ++ enFlag (s.isFitted i) ++ enSlotEntry (s.slotEntry i))))
    ∧ (s.admitted .readLink p [0x02#8] filler = true →
      exec (.readLink p (frameRest .readLink tag [0x02#8] filler) cut) s =
        .next ((s.working .readLink p tag).answerOk .readLink p tag (enSeq enLimitSet s.map.limits.toList)))
    ∧ (s.admitted .readLink p [0x03#8] filler = true →
      exec (.readLink p (frameRest .readLink tag [0x03#8] filler) cut) s =
        .next ((s.working .readLink p tag).answerOk .readLink p tag (enSeq enPortSettings s.map.ports.toList
          ++ u16 s.map.recallTimeout ++ u16 s.map.syncTimeout)))
    ∧ (∀ q : PortId, s.admitted .readLeases p [0x00#8, BitVec.ofNat 8 q.val] filler = true →
      exec (.readLeases p (frameRest .readLeases tag [0x00#8, BitVec.ofNat 8 q.val] filler) cut) s =
        .next ((s.working .readLeases p tag).answerOk .readLeases p tag
          (enList s.enResource (allResources.filter (fun r => s.holds q r || s.watches q r))
            ++ enList id (s.enEntries (fun e => decide (e.port = q)) s.dir.waits 0))))
    ∧ (∀ first count : Nat, 1 ≤ count → first + count ≤ 32 →
      let inside := fun r : ResId => decide (first ≤ r.val) && decide (r.val < first + count)
      s.admitted .readLeases p [0x01#8, BitVec.ofNat 8 first, BitVec.ofNat 8 count] filler = true →
      exec (.readLeases p (frameRest .readLeases tag [0x01#8, BitVec.ofNat 8 first, BitVec.ofNat 8 count] filler) cut)
          s = .next ((s.working .readLeases p tag).answerOk .readLeases p tag
            (enList s.enResource (allResources.filter inside)
              ++ enList id (s.enEntries (fun e => e.resources.any inside) s.dir.waits 0))))
    ∧ (∀ w : WinId, s.admitted .readWindow p (u8 w.val) filler = true →
      exec (.readWindow p (frameRest .readWindow tag (u8 w.val) filler) cut) s =
        .next ((s.working .readWindow p tag).answerOk .readWindow p tag (match s.win w with
          | some x => s.enWindow w x
          | none => u8 0)))
    ∧ (s.admitted .readWithdraws p [] filler = true → exec (.readWithdraws p (frameRest .readWithdraws tag [] filler) cut) s =
      .next ((s.working .readWithdraws p tag).answerOk .readWithdraws p tag
        (enList s.enWithdrawEntry s.wd.list ++ s.enSyncSlot (s.syncSlot p))))
    ∧ (s.admitted .semRead p [] filler = true → exec (.semRead p (frameRest .semRead tag [] filler) cut) s =
      .next ((s.working .semRead p tag).answerOk .semRead p tag (enSeq (fun k => enFlag (s.sem k).set
        ++ enFlag (s.sem k).overrun ++ enList s.enArmed (s.sem k).armed) [0, 1, 2, 3, 4, 5, 6, 7])))
    ∧ (s.admitted .readFaults p [] filler = true → exec (.readFaults p (frameRest .readFaults tag [] filler) cut) s =
      .next ((s.working .readFaults p tag).answerOk .readFaults p tag
        (enSeq s.enFault [0, 1, 2, 3, 4, 5, 6, 7, 8, 9, 10, 11, 12, 13, 14, 15])))
    ∧ (s.admitted .readNotices p [] filler = true → exec (.readNotices p (frameRest .readNotices tag [] filler) cut) s =
      .next ((s.working .readNotices p tag).answerOk .readNotices p tag
        (enKinds (s.port p).notices ++ enKinds (s.port p).enables ++ enKinds (s.port p).masked)))

/-- CLEAR_NOTICES removes the kinds named and reports the set before and after; SET_NOTICES adds them;
SET_NOTICE_ENABLE replaces the enable set; the attention line follows, and no other port is touched. -/
def Obligations.NoticeRequestsChangeTheOwnPort : Prop :=
  ∀ (s : State) (p : PortId) (tag : Byte) (ks : NoticeSet) (filler : List Byte) (cut : Bool),
    (s.admitted .clearNotices p (enKinds ks) filler = true →
      exec (.clearNotices p (frameRest .clearNotices tag (enKinds ks) filler) cut) s =
        .next (((s.working .clearNotices p tag).modPort p (fun x => { x with
          notices := x.notices &&& ~~~ks, attention := decide ((x.notices &&& ~~~ks) &&& x.enables ≠ 0) })).answerOk
          .clearNotices p tag (enKinds (s.port p).notices ++ enKinds ((s.port p).notices &&& ~~~ks))))
    ∧ (s.admitted .setNotices p (enKinds ks) filler = true →
      exec (.setNotices p (frameRest .setNotices tag (enKinds ks) filler) cut) s =
        .next (((s.working .setNotices p tag).modPort p (fun x => { x with
          notices := x.notices ||| ks, attention := decide ((x.notices ||| ks) &&& x.enables ≠ 0) })).answerOk
          .setNotices p tag (enKinds ((s.port p).notices ||| ks) ++ enKinds (s.port p).enables)))
    ∧ (s.admitted .setNoticeEnable p (enKinds ks) filler = true →
      exec (.setNoticeEnable p (frameRest .setNoticeEnable tag (enKinds ks) filler) cut) s =
        .next (((s.working .setNoticeEnable p tag).modPort p (fun x => { x with
          enables := ks, attention := decide (x.notices &&& ks ≠ 0) })).answerOk
          .setNoticeEnable p tag (enKinds (s.port p).notices ++ enKinds ks)))

/-- DETACH leaves its port with nothing: no window, no lease or watch, no waiting entry, no sync slot, no place in an
interest set, an empty notice set; its role and enable set stay, and the answer is OK. EVICT does the same to another
port, but keeps what stands in its notice set and raises EVICTED on it. -/
def Obligations.DetachAndEvictLeaveNothingHeld : Prop :=
  (∀ (s : State) (p : PortId) (tag : Byte) (filler : List Byte) (cut : Bool), s.admitted .detach p [] filler = true →
      ∃ t data, exec (.detach p (frameRest .detach tag [] filler) cut) s = .next t
        ∧ (∀ r, t.holds p r = false ∧ t.watches p r = false)
        ∧ (∀ w x, t.win w = some x → x.owner ≠ p)
        ∧ (∀ e ∈ t.dir.waits, e.port ≠ p)
        ∧ t.syncSlot p = .none
        ∧ (∀ e ∈ t.wd.list, PortSet.has e.interest p = false)
        ∧ (t.port p).notices = 0 ∧ (t.port p).attention = false
        ∧ (t.port p).role = (s.port p).role ∧ (t.port p).enables = (s.port p).enables
        ∧ (t.port p).slot = .answered (responseFrame (.ok data) Req.detach.code tag))
  ∧ (∀ (s : State) (p q : PortId) (tag : Byte) (filler : List Byte) (cut : Bool), q ≠ p →
      s.admitted .evict p (u8 q.val) filler = true →
      ∃ t data, exec (.evict p (frameRest .evict tag (u8 q.val) filler) cut) s = .next t
        ∧ (∀ r, t.holds q r = false ∧ t.watches q r = false)
        ∧ (∀ w x, t.win w = some x → x.owner ≠ q)
        ∧ (∀ e ∈ t.dir.waits, e.port ≠ q)
        ∧ t.syncSlot q = .none
        ∧ (∀ e ∈ t.wd.list, PortSet.has e.interest q = false)
        ∧ t.noticed q .evicted = true ∧ (∀ k, s.noticed q k = true → t.noticed q k = true)
        ∧ (t.port q).role = (s.port q).role ∧ (t.port q).enables = (s.port q).enables
        ∧ (t.port p).slot = .answered (responseFrame (.ok data) Req.evict.code tag))

/-! ## The run (R20 to R34) -/

/-- RUN_START: the run number, the counters, the time and the state of the run record; windows IDLE, semaphores clear,
capture records cleared with their codes kept, sync slots NONE, the records of every link not WITHDRAWN UNTESTED and
the coverage count 0; RUN_STATE on every port; the rest kept. -/
def Obligations.RunStartBeginsARun : Prop :=
  ∀ (s : State) (p : PortId) (tag : Byte) (filler : List Byte) (cut : Bool), s.admitted .runStart p [] filler = true →
    ∃ t, exec (.runStart p (frameRest .runStart tag [] filler) cut) s = .next t
      ∧ t.run = { state := .running, number := min 65535 (s.run.number + 1), aborted := false,
                  time := .counting s.nowMs, counters := RunCounters.zero, complete := false }
      ∧ (∀ w, t.win w = none) ∧ (∀ k, t.sem k = Semaphore.clear) ∧ (∀ q, t.syncSlot q = .none)
      ∧ (∀ i, t.cap i = { s.cap i with counting := false, receiving := none, live := Live.cleared })
      ∧ (∀ l d, t.record l d = match s.link l with
          | some k => if k.state = .withdrawn then s.record l d
              else (s.record l d).map (fun _ => VerdictRecord.untested k.lanes)
          | none => s.record l d)
      ∧ t.table.coverage = 0
      ∧ (∀ q, (t.port q).notices = (s.port q).notices ||| Notice.runState.one
          ∧ (t.port q).enables = (s.port q).enables ∧ (t.port q).role = (s.port q).role)
      ∧ (t.port p).slot =
          .answered (responseFrame (.ok (u16 (min 65535 (s.run.number + 1)))) Req.runStart.code tag)
      ∧ t = { s with run := t.run, eng := { s.eng with wins := t.eng.wins }, sems := t.sems, caps := t.caps,
                     wd := { s.wd with sync := t.wd.sync }, table := t.table, ports := t.ports }

/-- RUN_CLOSE: the run is CLOSED at once where no window is in a phase state, nothing is held and no result is posted,
its time stopped, the pending withdrawals completed and the coverage-complete flag evaluated (R27, R28), else CLOSING;
the wait list is empty and nothing is WATCHED; holders and grant times stay; windows in OPEN or ARMED are STOPPED with
RUN_CLOSED and the others stand as they were. -/
def Obligations.RunCloseEndsWaitsWatchesAndUnstartedWindows : Prop :=
  ∀ (s : State) (p : PortId) (tag : Byte) (filler : List Byte) (cut : Bool), s.admitted .runClose p [] filler = true →
    let atRest := (∀ w x, s.win w = some x → x.state.phase = false) ∧ (∀ r, (s.res r).lease.holder = none)
      ∧ s.post.ordinary = [] ∧ s.post.recallBuf = none ∧ s.post.commit = none
    ∃ t, exec (.runClose p (frameRest .runClose tag [] filler) cut) s = .next t
      ∧ (¬ atRest → t.run.state = .closing ∧ t.run.time = s.run.time ∧ t.run.complete = s.run.complete ∧ t.wd = s.wd)
      ∧ (atRest → t.run.state = .closed ∧ t.run.time = .stopped s.runTimeMs ∧ t.wd.list = []
        ∧ (∀ e ∈ s.wd.list, (s.link e.link).isSome = true → t.linkIs e.link .withdrawn = true)
        ∧ t.completeEvaluated)
      ∧ t.run.number = s.run.number
      ∧ t.run.aborted = s.run.aborted
      ∧ t.dir.waits = []
      ∧ (∀ r, (t.res r).lease.watchers = 0 ∧ (t.res r).lease.holder = (s.res r).lease.holder
          ∧ (t.res r).lease.since = (s.res r).lease.since)
      ∧ (∀ w x, s.win w = some x → x.state = .opened ∨ x.state = .armed →
          ∃ y, t.win w = some y ∧ y.state = .stopped ∧ y.endCause = some .runClosed)
      ∧ (∀ w x, s.win w = some x → x.state ≠ .opened → x.state ≠ .armed → t.win w = some x)
      ∧ (∀ q, t.noticed q .runState = true)
      ∧ (∀ e ∈ s.dir.waits, t.noticed e.port .waitCancelled = true)
      ∧ (∀ q r, s.watches q r = true → t.noticed q .leaseLost = true)
      ∧ (t.port p).slot = .answered (responseFrame (.ok (u8 t.run.state.num)) Req.runClose.code tag)

/-- RUN_ABORT: no resource is held or watched and no holding or recall is left; the wait list, the expired order and
the Withdraw List are empty; every active window is STOPPED with ABORTED; the run is aborted, and CLOSED unless a post
is still to be committed. -/
def Obligations.RunAbortFreesEverything : Prop :=
  ∀ (s : State) (p : PortId) (tag : Byte) (filler : List Byte) (cut : Bool), s.admitted .runAbort p [] filler = true →
    ∃ t, exec (.runAbort p (frameRest .runAbort tag [] filler) cut) s = .next t
      ∧ t.run.aborted = true
      ∧ t.run.state = (if t.post.ordinary = [] ∧ t.post.recallBuf = none ∧ t.post.commit = none then .closed
          else .closing)
      ∧ (∀ r, (t.res r).lease = .free ∧ (t.res r).recallState = .none)
      ∧ t.dir.waits = [] ∧ t.dir.expired = [] ∧ t.wd.list = []
      ∧ (∀ w x, s.win w = some x → x.state.active = true →
          ∃ y, t.win w = some y ∧ y.state = .stopped ∧ y.endCause = some .aborted)
      ∧ (∀ w x, s.win w = some x → x.state.active = false → t.win w = some x)
      ∧ (∀ q r, s.holds q r = true ∨ s.watches q r = true → t.noticed q .leaseLost = true)
      ∧ (t.port p).slot = .answered (responseFrame (.ok (u8 t.run.state.num)) Req.runAbort.code tag)

/-- RELOAD: the run state LOADING, the run record cleared but for its number, windows IDLE, semaphores clear, capture
records cleared, sync slots NONE, the map emptied, with it every verdict record vacant and the coverage count 0 (log 32),
and the read of the header begun; latches and fault counts stay. -/
def Obligations.ReloadStartsALoad : Prop :=
  ∀ (s : State) (p : PortId) (tag : Byte) (filler : List Byte) (cut : Bool), s.admitted .reload p [] filler = true →
    ∃ t, exec (.reload p (frameRest .reload tag [] filler) cut) s = .next t
      ∧ t.run = { state := .loading, number := s.run.number, aborted := false, time := .stopped 0,
                  counters := RunCounters.zero, complete := false }
      ∧ (∀ w, t.win w = none) ∧ (∀ k, t.sem k = Semaphore.clear) ∧ (∀ q, t.syncSlot q = .none)
      ∧ (∀ i, t.cap i = { s.cap i with counting := false, receiving := none, live := Live.cleared })
      ∧ t.map = LinkMap.empty ∧ (∀ l d, t.record l d = none) ∧ t.table.coverage = 0
      ∧ t.loader = { stage := .header, noted := [], report := LoadReport.cleared }
      ∧ (∀ i, t.fault i = { s.fault i with qualifying := none })
      ∧ (∀ q, (t.port q).notices = (s.port q).notices ||| Notice.runState.one)
      ∧ (t.port p).slot = .answered (responseFrame (.ok []) Req.reload.code tag)
      ∧ t = { s with run := t.run, eng := { s.eng with wins := t.eng.wins }, sems := t.sems, caps := t.caps,
                     wd := { s.wd with sync := t.wd.sync }, map := t.map, loader := t.loader, table := t.table,
                     faults := t.faults, ports := t.ports }

/-! ## The Profile Loader (R7 to R15) -/

/-- The header read: with the signature and a right CRC-8 the revision is recorded and the area at the first-area
pointer is the next to be visited, or with a pointer of 0 the load ends UNLOADED with NO_SLOTS; any other header ends
the load UNLOADED with an emptied map, NO_SIGNATURE, every verdict record vacant, the default roles and every kind
enabled. -/
def Obligations.HeaderReadBeginsTheWalk : Prop :=
  ∀ s : State, s.rst = false → s.loader.stage = .header →
    (∀ rev a b c : Byte, 0 < num32 0 a b c → s.loader.report.visited < 32 →
      exec (.headerRead [0xC5#8, 0x16#8, rev, a, b, c, crc8 [0xC5#8, 0x16#8, rev, a, b, c]]) s = .next { s with
        loader := { s.loader with
          stage := .area (num32 0 a b c)
          report := { s.loader.report with revision := rev, visited := s.loader.report.visited + 1 } } })
    ∧ (∀ rev : Byte, s.loader.report.slotsTaken = false →
      ∃ t, exec (.headerRead [0xC5#8, 0x16#8, rev, 0, 0, 0, crc8 [0xC5#8, 0x16#8, rev, 0, 0, 0]]) s = .next t
        ∧ t.run.state = .unloaded ∧ t.map = LinkMap.empty ∧ t.loader.stage = .idle
        ∧ t.loader.report.fatal = some .noSlots ∧ t.loader.report.revision = rev)
    ∧ (∀ x y rev a b c d : Byte, (x ≠ 0xC5#8 ∨ y ≠ 0x16#8 ∨ d ≠ crc8 [x, y, rev, a, b, c]) →
      ∃ t, exec (.headerRead [x, y, rev, a, b, c, d]) s = .next t
        ∧ t.run.state = .unloaded ∧ t.map = LinkMap.empty ∧ t.loader.stage = .idle
        ∧ t.loader.report.fatal = some .noSignature ∧ (∀ l dir, t.record l dir = none) ∧ t.table.coverage = 0
        ∧ (∀ q, (t.port q).role = Role.default q ∧ (t.port q).enables = BitVec.allOnes 11
            ∧ (t.port q).notices = (s.port q).notices ||| Notice.runState.one ∧ (t.port q).slot = (s.port q).slot))

/-- The visit of an area, its bytes as R199 lays them out. One that lies beyond address 16,777,210 is not read: bad with
AREA_LENGTH, its pointer 0 (R9); one longer than 4096 or past the flash is bad with AREA_LENGTH, whatever follows its
header. A wrong CRC-8 makes an area bad with AREA_CHECKSUM; an unknown kind is skipped; a LINKS area is noted; a SLOTS,
PORTS or LIMITS area whose kind has been taken is skipped with AREA_REPEATED (one of a wrong length too: the model's choice,
log 28), else a wrong length is AREA_LENGTH, a fitted slot count out of 1 to 16 AREA_CONTENT, and a good one is taken, a
field out of its range having its default, each replacement counted with FIELD_RANGE (R10, R11). Then the next pointer
(R8): 0 ends the walk; one that does not lead on ends it with CHAIN_BACKWARD, a 33rd area with CHAIN_TOO_LONG at 32; else
its area is the next to be visited. The end of the walk: the noted LINKS areas are read again; without a SLOTS area, or with
no LINKS area and no link, the load ends UNLOADED with NO_SLOTS or NO_LINKS. -/
def Obligations.AreaVisitJudgesAndFollows : Prop :=
  ∀ (s : State) (addr : Nat), s.rst = false → s.loader.stage = .area addr →
    let n := s.loader.report.visited
    let withReport := fun (u : State) (r : LoadReport) => ({ u with loader := { u.loader with report := r } } : State)
    let noting := fun (u : State) (e : LoadError) (i : Nat) => withReport u { u.loader.report with
      firstError := some (u.loader.report.firstError.getD (e, i)) }
    let bad := fun e : LoadError => noting (withReport s { s.loader.report with bad := s.loader.report.bad + 1 }) e n
    let skipped := withReport s { s.loader.report with skipped := s.loader.report.skipped + 1 }
    let fatal := fun (u t : State) (c : FatalCause) => t.run.state = .unloaded ∧ t.map = LinkMap.empty
      ∧ t.loader.stage = .idle ∧ t.loader.noted = [] ∧ t.loader.report.fatal = some c
      ∧ (∀ x, u.loader.report.firstError = some x → t.loader.report.firstError = some x)
      ∧ (u.loader.report.firstError = none → (∀ l, u.link l = none) → t.loader.report.firstError = some (c.error, 0))
      ∧ (∀ l d, t.record l d = none) ∧ t.table.coverage = 0
      ∧ ∀ q, (t.port q).role = Role.default q ∧ (t.port q).enables = BitVec.allOnes 11 ∧ t.noticed q .runState = true
    let ends := fun u t : State =>
      (u.loader.report.slotsTaken = true → u.loader.noted ≠ [] → t = { u with loader := { u.loader with stage := .links } })
      ∧ (u.loader.report.slotsTaken = true → u.loader.noted = [] → u.loader.report.accepted = 0 → fatal u t .noLinks)
      ∧ (u.loader.report.slotsTaken = false → fatal u t .noSlots)
    let leads := fun (next : Nat) (u t : State) =>
      (next = 0 → ends u t)
      ∧ (next ≠ 0 → next ≤ addr → ends (noting u .chainBackward n) t)
      ∧ (addr < next → 32 ≤ n → ends (noting u .chainTooLong 32) t)
      ∧ (addr < next → n < 32 → t = { u with loader := { u.loader with
          stage := .area next, report := { u.loader.report with visited := n + 1 } } })
    (16777210 < addr → ∀ bytes, ∃ t, exec (.areaVisit bytes) s = .next t ∧ leads 0 (bad .areaLength) t)
    ∧ (∀ kind hi lo a b c : Byte, addr ≤ 16777210 → 4096 < num16 hi lo ∨ 16777215 < addr + 6 + num16 hi lo →
      ∀ more, ∃ t, exec (.areaVisit ([kind, hi, lo, a, b, c] ++ more)) s = .next t
        ∧ leads (num32 0 a b c) (bad .areaLength) t)
    ∧ ∀ (kind a b c d : Byte) (payload : List Byte), addr + 6 + payload.length ≤ 16777215 → payload.length ≤ 4096 →
      let head := [kind, BitVec.ofNat 8 (payload.length / 256), BitVec.ofNat 8 payload.length, a, b, c]
      let visits := fun u : State => ∃ t, exec (.areaVisit (head ++ payload ++ [d])) s = .next t
        ∧ leads (num32 0 a b c) u t
      let at1 := num8At payload
      let at2 := num16At payload
      let taken := fun (u : State) (replaced : Nat) =>
        let v := withReport u { u.loader.report with defaulted := min 255 (s.loader.report.defaulted + replaced) }
        visits (if replaced = 0 then v else noting v .fieldRange n)
      (d ≠ crc8 (head ++ payload) → visits (bad .areaChecksum))
      ∧ (d = crc8 (head ++ payload) →
        (kind.toNat = 0 ∨ 4 < kind.toNat → visits skipped)
        ∧ (kind = 0x04#8 → visits { s with loader := { s.loader with
            noted := s.loader.noted ++ [{ addr := addr, index := n }] } })
        ∧ (kind = 0x01#8 →
          (s.loader.report.slotsTaken = true → visits (noting skipped .areaRepeated n))
          ∧ (s.loader.report.slotsTaken = false →
            (payload.length ≠ 132 → visits (bad .areaLength))
            ∧ (payload.length = 132 → at1 0 = 0 ∨ 16 < at1 0 → visits (bad .areaContent))
            ∧ (payload.length = 132 → 1 ≤ at1 0 → at1 0 ≤ 16 →
              let base := fun i : SlotId => 4 + 8 * i.val
              let wrong := fun i : SlotId => [decide (4 < at1 (base i + 2)), decide (3 < at1 (base i + 3)),
                decide (1000 < at2 (base i + 4)), decide (7 < at1 (base i + 6))].count true
              let entry := fun i : SlotId => if i.val < at1 0 then
                  { quiet := at2 (base i)
                    filter := if at1 (base i + 2) ≤ 4 then at1 (base i + 2) else 0
                    prescale := if at1 (base i + 3) ≤ 3 then at1 (base i + 3) else 0
                    qualify := if at2 (base i + 4) ≤ 1000 then at2 (base i + 4) else 100
                    lampMode := (lampModeOf (byteAt payload (base i + 6))).getD .off
                    lampBlink := (byteAt payload (base i + 7)).getLsbD 0
                    lampInvert := (byteAt payload (base i + 7)).getLsbD 1 }
                else SlotEntry.default
              taken { s with
                map := { s.map with
                  fitted := at1 0
                  blink := if at1 1 = 1 then .fast else .slow
                  replyTimeout := if 10 ≤ at2 2 ∧ at2 2 ≤ 1000 then at2 2 else 100
                  slots := Table.build entry }
                loader := { s.loader with report := { s.loader.report with slotsTaken := true } } }
                ([decide (1 < at1 1), decide (at2 2 < 10 ∨ 1000 < at2 2)].count true
                  + ((allSlots.filter (fun i => decide (i.val < at1 0))).map wrong).sum))))
        ∧ (kind = 0x02#8 →
          (s.loader.report.portsTaken = true → visits (noting skipped .areaRepeated n))
          ∧ (s.loader.report.portsTaken = false →
            (payload.length ≠ 24 → visits (bad .areaLength))
            ∧ (payload.length = 24 →
              taken { s with
                map := { s.map with
                  ports := Table.build (fun p : PortId =>
                    { role := (roleOf (byteAt payload (5 * p.val))).getD (Role.default p)
                      enableDefault := BitVec.ofNat 11 (at2 (5 * p.val + 1))
                      leaseLimit := at2 (5 * p.val + 3) })
                  recallTimeout := if at2 20 = 0 then 500 else at2 20
                  syncTimeout := if at2 22 = 0 then 2000 else at2 22 }
                loader := { s.loader with report := { s.loader.report with portsTaken := true } } }
                ([decide (2 < at1 0), decide (2 < at1 5), decide (2 < at1 10), decide (2 < at1 15), decide (at2 20 = 0),
                  decide (at2 22 = 0)].count true))))
        ∧ (kind = 0x03#8 →
          (s.loader.report.limitsTaken = true → visits (noting skipped .areaRepeated n))
          ∧ (s.loader.report.limitsTaken = false →
            (payload.length ≠ 36 → visits (bad .areaLength))
            ∧ (payload.length = 36 →
              let good := fun m : Fin 4 => decide (num32At payload (9 * m.val) ≠ 0
                ∧ at2 (9 * m.val + 4) ≤ at2 (9 * m.val + 6))
              taken { s with
                map := { s.map with limits := Table.build (fun m : Fin 4 => if good m then
                    { minDwell := num32At payload (9 * m.val), passLimit := at2 (9 * m.val + 4)
                      failLimit := at2 (9 * m.val + 6), lockLimit := at1 (9 * m.val + 8) }
                  else { minDwell := 1000000, passLimit := 0, failLimit := 10, lockLimit := 0 }) }
                loader := { s.loader with report := { s.loader.report with limitsTaken := true } } }
                ([good 0, good 1, good 2, good 3].count false)))))

/-- The tests of a link record in the order of R12: the first that holds rejects it; a record that none rejects is
accepted with the fields that R199 gives it. -/
def Obligations.LinkRecordsAreTestedInOrder : Prop :=
  ∀ (m : LinkMap) (id sa pa sb pb n ctl k na nb nc nd : Byte),
    let r := [id, sa, pa, sb, pb, n, ctl, k, na, nb, nc, nd]
    (128 ≤ id.toNat → m.judgeRecord r = .error .idRange)
    ∧ ∀ l : LinkId, id.toNat = l.val →
      ((Table.rd m.links l).isSome = true → m.judgeRecord r = .error .duplicateId)
      ∧ ((Table.rd m.links l).isSome = false →
        (m.fitted ≤ sa.toNat ∨ m.fitted ≤ sb.toNat → m.judgeRecord r = .error .slotNotFitted)
        ∧ (sa.toNat < m.fitted → sb.toNat < m.fitted → m.fitted ≤ 16 →
          (15 ≤ pa.toNat ∨ 15 ≤ pb.toNat → m.judgeRecord r = .error .portRange)
          ∧ ∀ (ea eb : EndPoint), sa.toNat = ea.slot.val → pa.toNat = ea.port.val → sb.toNat = eb.slot.val →
            pb.toNat = eb.port.val →
            (ea = eb → m.judgeRecord r = .error .sameEndpoint)
            ∧ (ea ≠ eb →
              (m.usesEndPoint ea = true ∨ m.usesEndPoint eb = true → m.judgeRecord r = .error .endpointUsed)
              ∧ (m.usesEndPoint ea = false → m.usesEndPoint eb = false →
                (n.toNat = 0 ∨ 4 < n.toNat → m.judgeRecord r = .error .lanesRange)
                ∧ (1 ≤ n.toNat → n.toNat ≤ 4 →
                  (4 ≤ ctl.toNat % 128 → m.judgeRecord r = .error .limitSetRange)
                  ∧ ∀ lim : Fin 4, ctl.toNat % 128 = lim.val →
                    (4 < k.toNat → m.judgeRecord r = .error .neighbourCount)
                    ∧ (k.toNat ≤ 4 → m.judgeRecord r = .ok (l,
                      { endA := ea, endB := eb, lanes := n.toNat, reversed := decide (128 ≤ ctl.toNat),
                        limitSet := lim,
                        neighbours := ([na, nb, nc, nd].take k.toNat).map (fun x => x.toNat),
                        state := .fitted })))))))

/-- A noted LINKS area read again: its records in their order, each adding the link that it gives or counting its
rejection with its reason, and a remainder of fewer than 12 bytes counted as TRUNCATED; the next noted area is to be
read. The last noted area ends the load: READY where a link was accepted, each link with the contents it was read with,
its neighbours resolved (R13) and each id dropped counted; UNLOADED with NO_LINKS and an emptied map where none was.
Either way the map left is handed to the other blocks: UNTESTED verdict records of its links, every other vacant,
coverage 0 and the coverage-complete flag clear, the capture codes, the roles and enable sets, the lamps, and the fitted
slots whose FLT is up and latch clear begin to qualify or, with a qualify time of 0, latch (R15, R157, R109, R175, R191,
R136). The area's length is taken from this second read, with no second check (the model's choice, log 19). -/
def Obligations.LinksAreaReadFillsTheMap : Prop :=
  ∀ (s : State) (x : NotedArea) (rest : List NotedArea), s.rst = false → s.loader.stage = .links →
    s.loader.noted = x :: rest →
    let reject := fun (e : RejectReason) (u : State) => ({ u with loader := { u.loader with report := { u.loader.report with
      rejected := min 65535 (u.loader.report.rejected + 1)
      rejects := Table.upd u.loader.report.rejects e.num (fun n => min 65535 (n + 1))
      firstError := some (u.loader.report.firstError.getD (.linkRejected, x.index)) } } } : State)
    let accept := fun (l : LinkId) (k : Link) (u : State) => ({ u with
      map := { u.map with links := Table.put u.map.links l (some k) }
      loader := { u.loader with report := { u.loader.report with accepted := u.loader.report.accepted + 1 } } } : State)
    let take := fun (u : State) (record : List Byte) => match u.map.judgeRecord record with
      | .ok (l, k) => accept l k u
      | .error e => reject e u
    ∀ (records : List (List Byte)) (tail next : List Byte) (d : Byte),
      (∀ record ∈ records, record.length = 12) → tail.length < 12 → next.length = 3 →
      let payload := records.flatten ++ tail
      let area := [0x04#8, BitVec.ofNat 8 (payload.length / 256), BitVec.ofNat 8 payload.length] ++ next ++ payload ++ [d]
      let read := if tail = [] then records.foldl take s else reject .truncated (records.foldl take s)
      payload.length ≤ 4096 →
      (rest ≠ [] → exec (.linksAreaRead area) s = .next { read with loader := { read.loader with noted := rest } })
      ∧ (rest = [] → s.loader.report.slotsTaken = true →
        ∃ t, exec (.linksAreaRead area) s = .next t ∧ t.loader.stage = .idle ∧ t.loader.noted = []
          ∧ t.loader.report.accepted = read.loader.report.accepted
          ∧ t.loader.report.rejected = read.loader.report.rejected
          ∧ t.loader.report.rejects = read.loader.report.rejects
          ∧ (read.loader.report.accepted ≠ 0 →
              let kept := fun (l : LinkId) (k : Link) => (k.neighbours.filter (fun n =>
                decide (n ≠ l.val) && (read.linkNat n).isSome)).eraseDups
              let dropped := (allLinks.map (fun l => match read.link l with
                | some k => k.neighbours.length - (kept l k).length
                | none => 0)).sum
              t.run.state = .ready ∧ t.map = { read.map with links := t.map.links }
              ∧ (∀ l, t.link l = (read.link l).map (fun k => { k with neighbours := kept l k }))
              ∧ t.loader.report = { read.loader.report with
                  dropped := read.loader.report.dropped + dropped
                  firstError := if dropped = 0 then read.loader.report.firstError
                    else some (read.loader.report.firstError.getD (.neighbourDropped, 0)) })
          ∧ (read.loader.report.accepted = 0 → t.run.state = .unloaded ∧ t.loader.report.fatal = some .noLinks
              ∧ t.map = LinkMap.empty
              ∧ ∀ e, read.loader.report.firstError = some e → t.loader.report.firstError = some e)
          ∧ (∀ l d, t.record l d = (t.link l).map (fun k => VerdictRecord.untested k.lanes)) ∧ t.table.coverage = 0
          ∧ t.run.complete = false
          ∧ (∀ i, (t.cap i).filter = (t.slotEntry i).filter ∧ (t.cap i).prescale = (t.slotEntry i).prescale)
          ∧ (∀ q, (t.port q).role = (Table.rd t.map.ports q).role
              ∧ (t.port q).enables = (Table.rd t.map.ports q).enableDefault ∧ t.noticed q .runState = true)
          ∧ t.lamps.rate = t.map.blink
          ∧ (∀ i, t.lamp i = { mode := (t.slotEntry i).lampMode, blink := (t.slotEntry i).lampBlink,
                               invert := (t.slotEntry i).lampInvert })
          ∧ ∀ i, let asserted := t.isFitted i = true ∧ (s.fault i).level = true ∧ s.latched i = false
            (¬ asserted → t.fault i = s.fault i)
            ∧ (asserted → 0 < (t.slotEntry i).qualify → t.fault i = { s.fault i with
                qualifying := some (s.now + (t.slotEntry i).qualify) })
            ∧ (asserted → (t.slotEntry i).qualify = 0 → t.fault i = { s.fault i with
                latch := true, latchedAt := some s.nowMs, qualifying := none, count := min 255 ((s.fault i).count + 1) }))

/-! ## Withdrawing links (R161 to R174) -/

/-- An accepted WITHDRAW: its interest set is the ports blocked on the link, that is the owners of active windows that
name it as victim or aggressor and the holders of holdings for it; with one the link is WITHDRAWING, its own records as
they were, an entry joins the list and WITHDRAW is raised on them; with none the withdrawal completes at once
(`withdrewFrom`). Either way the records of the links that list it are regraded, and the coverage count and the
coverage-complete flag follow, RUN_STATE on all four ports where the flag goes from clear to set (R32). An id that names
no link is refused with BAD_PARAM, a link not FITTED with WITHDRAWN, a ninth entry with LIST_FULL. -/
def Obligations.WithdrawWaitsForBlockedPorts : Prop :=
  (∀ (s : State) (p : PortId) (l : LinkId) (tag : Byte) (filler : List Byte) (cut : Bool),
    s.admitted .withdraw p (u8 l.val) filler = true → s.linkIs l .fitted = true → s.wd.list.length < 8 →
    ∃ t, exec (.withdraw p (frameRest .withdraw tag (u8 l.val) filler) cut) s = .next t
      ∧ (∀ q, PortSet.has (s.interestOf l) q = true ↔ s.isBlocked q l)
      ∧ (t.port p).slot = .answered (responseFrame
          (.ok (enFlag (decide (s.interestOf l = 0)) ++ enPortSet (s.interestOf l))) Req.withdraw.code tag)
      ∧ (s.interestOf l ≠ 0 → t.linkIs l .withdrawing = true
          ∧ t.wd.list = s.wd.list ++ [{ link := l, issuer := p, issuedAt := s.nowMs, interest := s.interestOf l }]
          ∧ (∀ q, s.isBlocked q l → t.noticed q .withdraw = true)
          ∧ ((∀ k, s.link l = some k → l.val ∉ k.neighbours) → ∀ d, t.record l d = s.record l d)
          ∧ (∀ q, t.syncSlot q = s.syncSlot q))
      ∧ (s.interestOf l = 0 → t.withdrewFrom s l)
      ∧ t.regradedFrom s l ∧ t.completeEvaluated ∧ t.completeNoticed s
      ∧ t.dir = s.dir ∧ t.eng = s.eng ∧ t.sems = s.sems ∧ t.setup = s.setup ∧ t.post = s.post
      ∧ t.run.state = s.run.state ∧ t.run.counters = s.run.counters
      ∧ (∀ m, m ≠ l → t.link m = s.link m)) ∧ (
    ∀ (s : State) (p : PortId) (l : LinkId) (tag : Byte) (filler : List Byte) (cut : Bool),
    s.admitted .withdraw p (u8 l.val) filler = true →
    (s.link l = none → exec (.withdraw p (frameRest .withdraw tag (u8 l.val) filler) cut) s =
      .next (s.refusedWith .withdraw p tag .badParam))
    ∧ (s.linkIs l .withdrawing = true ∨ s.linkIs l .withdrawn = true →
      exec (.withdraw p (frameRest .withdraw tag (u8 l.val) filler) cut) s =
        .next (s.refusedWith .withdraw p tag .withdrawn))
    ∧ (s.linkIs l .fitted = true → 8 ≤ s.wd.list.length →
      exec (.withdraw p (frameRest .withdraw tag (u8 l.val) filler) cut) s =
        .next (s.refusedWith .withdraw p tag .listFull)))

/-- RESTORE of a WITHDRAWN link: FITTED again, both its records UNTESTED with zero totals, the records of
the links that list it regraded, the coverage count and the coverage-complete flag following; a FITTED link is refused
with BAD_PARAM and a WITHDRAWING one with BUSY. -/
def Obligations.RestoreFitsAWithdrawnLink : Prop :=
  ∀ (s : State) (p : PortId) (l : LinkId) (k : Link) (tag : Byte) (filler : List Byte) (cut : Bool),
    s.admitted .restore p (u8 l.val) filler = true → s.link l = some k →
    (k.state = .withdrawn → ∃ t, exec (.restore p (frameRest .restore tag (u8 l.val) filler) cut) s = .next t
      ∧ t.link l = some { k with state := .fitted } ∧ (∀ m, m ≠ l → t.link m = s.link m)
      ∧ (∀ d, t.record l d = (s.record l d).map (fun _ => VerdictRecord.untested k.lanes))
      ∧ t.regradedFrom s l ∧ t.completeEvaluated ∧ t.completeNoticed s
      ∧ (t.port p).slot = .answered (responseFrame (.ok []) Req.restore.code tag)
      ∧ t.dir = s.dir ∧ t.eng = s.eng ∧ t.post = s.post ∧ t.wd = s.wd ∧ t.run.state = s.run.state)
    ∧ (k.state = .fitted → exec (.restore p (frameRest .restore tag (u8 l.val) filler) cut) s =
      .next (s.refusedWith .restore p tag .badParam))
    ∧ (k.state = .withdrawing → exec (.restore p (frameRest .restore tag (u8 l.val) filler) cut) s =
      .next (s.refusedWith .restore p tag .busy))

/-- ACK_WITHDRAW of a port that is not blocked: the port leaves the interest set, and the answer counts the ports
left; the last one completes the withdrawal: link and records WITHDRAWN, the links that list it regraded, the WAITING sync
slots updated (`withdrewFrom`), the coverage-complete flag evaluated, with RUN_STATE on all four ports where it goes from
clear to set. A blocked port (`isBlocked`: it owns an active window that names the link or holds a holding
for it) is refused with BUSY; a port outside the set, or without an
entry for the link, with NOT_FOUND. -/
def Obligations.AckWithdrawLeavesInterestSet : Prop :=
  (∀ (s : State) (p : PortId) (l : LinkId) (e : WithdrawEntry) (tag : Byte) (filler : List Byte) (cut : Bool),
    s.admitted .ackWithdraw p (u8 l.val) filler = true → (s.link l).isSome = true →
    s.wd.list.find? (fun x => decide (x.link = l)) = some e →
    (PortSet.has e.interest p = true → ¬ s.isBlocked p l → PortSet.drop e.interest p ≠ 0 →
      exec (.ackWithdraw p (frameRest .ackWithdraw tag (u8 l.val) filler) cut) s =
        .next (((s.working .ackWithdraw p tag).setWithdrawList (s.wd.list.map (fun x =>
            if x.link = l then { x with interest := PortSet.drop e.interest p } else x))).answerOk .ackWithdraw p tag
          (u8 (allPorts.filter (fun q => PortSet.has (PortSet.drop e.interest p) q)).length)))
    ∧ (PortSet.has e.interest p = true → ¬ s.isBlocked p l → PortSet.drop e.interest p = 0 →
      ∃ t, exec (.ackWithdraw p (frameRest .ackWithdraw tag (u8 l.val) filler) cut) s = .next t
        ∧ t.withdrewFrom s l ∧ t.completeEvaluated ∧ t.completeNoticed s
        ∧ (t.port p).slot = .answered (responseFrame (.ok (u8 0)) Req.ackWithdraw.code tag)
        ∧ t.dir = s.dir ∧ t.eng = s.eng ∧ t.post = s.post)
    ∧ (PortSet.has e.interest p = true → s.isBlocked p l →
      exec (.ackWithdraw p (frameRest .ackWithdraw tag (u8 l.val) filler) cut) s =
        .next (s.refusedWith .ackWithdraw p tag .busy))
    ∧ (PortSet.has e.interest p = false →
      exec (.ackWithdraw p (frameRest .ackWithdraw tag (u8 l.val) filler) cut) s =
        .next (s.refusedWith .ackWithdraw p tag .notFound))) ∧ (
    ∀ (s : State) (p : PortId) (l : LinkId) (tag : Byte) (filler : List Byte) (cut : Bool),
    s.admitted .ackWithdraw p (u8 l.val) filler = true → (s.link l).isSome = true → (∀ x ∈ s.wd.list, x.link ≠ l) →
    exec (.ackWithdraw p (frameRest .ackWithdraw tag (u8 l.val) filler) cut) s =
      .next (s.refusedWith .ackWithdraw p tag .notFound))

/-- SYNC: COMPLETE with OK at once on an empty Withdraw List; else WAITING for every link of the list until the sync
timeout, answered QUEUED with their number; refused with BUSY while WAITING. The deadline of a WAITING slot: COMPLETE
with TIMEOUT, the links still awaited kept, SYNC_DONE raised, the timebase at the deadline at least (the model's choice,
log 2); a slot that is not WAITING is left as it is (log 3). The completion of a withdrawal, whatever brings it
(`withdrewFrom`): its link leaves every awaited list, and a WAITING slot with nothing left is COMPLETE with OK,
SYNC_DONE raised; the coverage-complete flag is evaluated with it but at the entry to CLOSED, RUN_STATE on all four
ports where it goes from clear to set. -/
def Obligations.SyncAwaitsTheWithdrawList : Prop :=
  (∀ (s : State) (p : PortId) (tag : Byte) (filler : List Byte) (cut : Bool), s.admitted .sync p [] filler = true →
      (∀ awaited deadline, s.syncSlot p = .waiting awaited deadline →
        exec (.sync p (frameRest .sync tag [] filler) cut) s = .next (s.refusedWith .sync p tag .busy))
      ∧ ((∀ awaited deadline, s.syncSlot p ≠ .waiting awaited deadline) →
        (s.wd.list = [] → exec (.sync p (frameRest .sync tag [] filler) cut) s =
          .next (((s.working .sync p tag).setSync p (.complete [] true)).answerOk .sync p tag []))
        ∧ (s.wd.list ≠ [] → exec (.sync p (frameRest .sync tag [] filler) cut) s =
          .next (((s.working .sync p tag).setSync p
              (.waiting (s.wd.list.map (fun e => e.link)) (s.nowMs + s.map.syncTimeout))).answer p Req.sync.code tag
            { status := .queued, data := u8 s.wd.list.length }))))
  ∧ (∀ (s : State) (p : PortId), s.rst = false →
      (∀ awaited deadline, s.syncSlot p = .waiting awaited deadline → exec (.syncTimeout p) s =
        .next ((({ s with now := max s.now (deadline * 1000) } : State).setSync p (.complete awaited false)).raise p
          .syncDone))
      ∧ ((∀ awaited deadline, s.syncSlot p ≠ .waiting awaited deadline) → exec (.syncTimeout p) s = .next s))
  ∧ (∀ (s : State) (l : LinkId),
      (s.completeWithdraw true l).withdrewFrom s l ∧ (s.completeWithdraw true l).completeEvaluated
      ∧ (s.completeWithdraw true l).completeNoticed s
      ∧ (s.completeWithdraw false l).withdrewFrom s l ∧ (s.completeWithdraw false l).run = s.run)

/-! ## Leases (R35 to R61) -/

/-- A LEASE with good parameters that is grantable: a HOLD makes every named resource HELD by the port from now on,
with LEASE_LOST on the other ports that watched one; a WATCH adds the port to the watchers of every named CHK; no
other resource and nothing else of the hub changes. -/
def Obligations.GrantableLeaseIsGranted : Prop :=
  ∀ (s : State) (p : PortId) (tag : Byte) (wait : Bool) (rs : List ResId) (filler : List Byte) (cut : Bool),
    1 ≤ rs.length → rs.length ≤ 8 → rs.Nodup → (∀ r ∈ rs, s.isFitted (resSlot r) = true) →
    (wait = true → ∀ e ∈ s.dir.waits, e.port = p → e.tag ≠ tag) →
    (∀ r ∈ rs, ∀ e ∈ s.dir.waits, r ∉ e.resources) → (∀ r ∈ rs, (s.res r).lease.holder = none) →
    (s.admitted .lease p (0x00#8 :: enFlag wait ++ enResources rs) filler = true → (s.port p).role ≠ .observer →
      (∀ r ∈ rs, isGen r = true → s.latched (resSlot r) = false) →
      ∃ t, exec (.lease p (frameRest .lease tag (0x00#8 :: enFlag wait ++ enResources rs) filler) cut) s = .next t
        ∧ (∀ r ∈ rs, (t.res r).lease = .held p s.nowMs)
        ∧ (∀ r, r ∉ rs → t.res r = s.res r)
        ∧ (∀ r ∈ rs, (t.res r).recallState = (s.res r).recallState ∧ (t.res r).naming = (s.res r).naming)
        ∧ (∀ q, q ≠ p → (∃ r ∈ rs, s.watches q r = true) → t.noticed q .leaseLost = true)
        ∧ (∀ q, q ≠ p → (∀ r ∈ rs, s.watches q r = false) → t.port q = s.port q)
        ∧ (t.port p).notices = (s.port p).notices
        ∧ (t.port p).slot = .answered (responseFrame (.ok []) Req.lease.code tag)
        ∧ t = { s with dir := { s.dir with res := t.dir.res }, ports := t.ports })
    ∧ (s.admitted .lease p (0x01#8 :: enFlag wait ++ enResources rs) filler = true →
      (∀ r ∈ rs, isGen r = false ∧ s.watches p r = false) →
      ∃ t, exec (.lease p (frameRest .lease tag (0x01#8 :: enFlag wait ++ enResources rs) filler) cut) s = .next t
        ∧ (∀ r ∈ rs, (t.res r).lease = .watched (PortSet.add (s.res r).lease.watchers p))
        ∧ (∀ r, r ∉ rs → t.res r = s.res r)
        ∧ (∀ q, q ≠ p → t.port q = s.port q)
        ∧ (t.port p).slot = .answered (responseFrame (.ok []) Req.lease.code tag)
        ∧ t = { s with dir := { s.dir with res := t.dir.res }, ports := t.ports })

/-- A LEASE that is not grantable: with wait 0 it is refused with CONFLICT for the first resource that fails, with its
cause; with wait 1 it joins the young end of the Lease Wait List and is answered QUEUED, no lease changing, and a recall
starts on each resource it names that another port has held past its nonzero lease limit, with no recall yet and, for a
GEN, a clear latch, and on no other; or it is refused with WAIT_FULL at eight entries or two of the port. The cause's
number rests on log 12. The refusals before that (R38): NOT_PERMITTED for a HOLD of an OBSERVER; BAD_PARAM for a mode or
a wait flag out of range, a count out of 1 to 8 or other than the resources given, a resource out of range, unfitted or
given twice, a WATCH of a GEN (`decodes`), and for wait 1 with the tag of a waiting entry of the port; ALREADY_HELD
where the port holds a resource named, or for a WATCH watches it. -/
def Obligations.UngrantableLeaseConflictsOrWaits : Prop :=
  (∀ (s : State) (p : PortId) (tag : Byte) (m : LeaseMode) (pre post : List ResId) (r : ResId) (filler : List Byte)
    (cut : Bool),
    let rs := pre ++ r :: post
    let params := fun wait : Bool => u8 m.num ++ enFlag wait ++ enResources rs
    let reserved := fun q : ResId => ∃ e ∈ s.dir.waits, q ∈ e.resources
    let faulted := fun q : ResId => m = .hold ∧ isGen q = true ∧ s.latched (resSlot q) = true
    let fails := fun q : ResId => (s.res q).lease.holder ≠ none ∨ faulted q ∨ reserved q
    let overdue := fun (q : ResId) (h : PortId) => (s.res q).lease.holder = some h
      ∧ (∃ since, (s.res q).lease.since = some since ∧ (Table.rd s.map.ports h).leaseLimit < s.nowMs - since)
      ∧ (Table.rd s.map.ports h).leaseLimit ≠ 0 ∧ (s.res q).recallState = .none
      ∧ (isGen q = true → s.latched (resSlot q) = false)
    rs.length ≤ 8 → rs.Nodup → (∀ q ∈ rs, s.isFitted (resSlot q) = true ∧ s.holds p q = false) →
    (m = .hold → (s.port p).role ≠ .observer) →
    (m = .watch → ∀ q ∈ rs, isGen q = false ∧ s.watches p q = false) → (∀ q ∈ pre, ¬ fails q) → fails r →
    (s.admitted .lease p (params false) filler = true →
      ∃ cause, exec (.lease p (frameRest .lease tag (params false) filler) cut) s =
          .next ((s.working .lease p tag).answer p Req.lease.code tag
            { status := .conflict, data := u8 r.val ++ u8 cause })
        ∧ ((s.res r).lease.holder ≠ none → cause = 0)
        ∧ ((s.res r).lease.holder = none → faulted r → cause = 1)
        ∧ ((s.res r).lease.holder = none → ¬ faulted r → cause = 2))
    ∧ (s.admitted .lease p (params true) filler = true →
      (∀ e ∈ s.dir.waits, e.port = p → e.tag ≠ tag) →
      (s.dir.waits.length < 8 → (s.dir.waits.filter (fun e => decide (e.port = p))).length < 2 →
        ∃ t, exec (.lease p (frameRest .lease tag (params true) filler) cut) s = .next t
          ∧ t.dir.waits = s.dir.waits ++
              [{ port := p, tag := tag, mode := m, resources := rs, queuedAt := s.nowMs }]
          ∧ (∀ q, (t.res q).lease = (s.res q).lease ∧ (t.res q).naming = (s.res q).naming)
          ∧ (∀ q ∈ rs, ∀ h, overdue q h → t.noticed h .recalled = true
              ∧ (t.res q).recallState = .recalling (s.nowMs + s.map.recallTimeout))
          ∧ (∀ q, q ∉ rs ∨ (∀ h, ¬ overdue q h) → (t.res q).recallState = (s.res q).recallState)
          ∧ (t.port p).slot = .answered (responseFrame (.bare .queued) Req.lease.code tag)
          ∧ t = { s with dir := t.dir, ports := t.ports })
      ∧ (8 ≤ s.dir.waits.length ∨ 2 ≤ (s.dir.waits.filter (fun e => decide (e.port = p))).length →
        exec (.lease p (frameRest .lease tag (params true) filler) cut) s =
          .next (s.refusedWith .lease p tag .waitFull))))
  ∧ (∀ (s : State) (p : PortId) (tag : Byte) (params filler : List Byte) (cut : Bool),
    let refused := fun st => exec (.lease p (frameRest .lease tag params filler) cut) s =
      .next (s.refusedWith .lease p tag st)
    s.admitted .lease p params filler = true →
    ((s.port p).role = .observer → params.head? = some 0x00#8 → refused .notPermitted)
    ∧ (((s.port p).role = .observer → params.head? ≠ some 0x00#8) → ¬ s.decodes p .lease params → refused .badParam)
    ∧ ∀ (m : LeaseMode) (wait : Bool) (rs : List ResId), params = u8 m.num ++ enFlag wait ++ enResources rs →
      s.resourcesGood rs → (m = .watch → ∀ r ∈ rs, isGen r = false) → (m = .hold → (s.port p).role ≠ .observer) →
      let tagWaits := wait = true ∧ ∃ e ∈ s.dir.waits, e.port = p ∧ e.tag = tag
      (tagWaits → refused .badParam)
      ∧ (¬ tagWaits → (∃ r ∈ rs, s.holds p r = true ∨ (m = .watch ∧ s.watches p r = true)) → refused .alreadyHeld))

/-- A grant pass: an entry that leaves the Lease Wait List was granted, with LEASE_GRANTED on its port: every resource
of a HOLD entry is HELD by its port from now on, and every CHK of a WATCH entry is watched by it, or was held in the
same pass by a younger entry, with LEASE_LOST on the watcher that lost it. The entries left keep their order; a
grantable oldest entry, HOLD or WATCH, is granted and leaves. An entry that names a resource which an older entry that
stays reserves stays; one whose resources no older entry names and which all may be leased as its mode asks is granted;
and what an entry that stays reserves, no older entry being granted it, has the lease it had: no younger entry takes it.
A resource of an entry left, held by another port past its nonzero lease limit, with no recall yet and, for a GEN, a
clear latch, is under recall, with RECALL on its holder. A resource that no entry names is as before. -/
def Obligations.GrantPassGrantsOldestFirst : Prop :=
  ∀ s : State,
    (s.grantPass.dir.waits).Sublist s.dir.waits
    ∧ (∀ e ∈ s.dir.waits, e.mode = .hold → e ∈ s.grantPass.dir.waits
        ∨ (∀ r ∈ e.resources, (s.grantPass.res r).lease = .held e.port s.nowMs)
            ∧ s.grantPass.noticed e.port .leaseGranted = true)
    ∧ (∀ e ∈ s.dir.waits, e.mode = .watch → e ∈ s.grantPass.dir.waits
        ∨ (∀ r ∈ e.resources, isGen r = false ∧ (s.grantPass.watches e.port r = true
              ∨ ∃ q, (s.grantPass.res r).lease = .held q s.nowMs
                  ∧ (q = e.port ∨ s.grantPass.noticed e.port .leaseLost = true)))
            ∧ s.grantPass.noticed e.port .leaseGranted = true)
    ∧ (∀ e rest, s.dir.waits = e :: rest → (∀ r ∈ e.resources, (s.res r).lease.holder = none) →
        (e.mode = .hold → (∀ r ∈ e.resources, isGen r = true → s.latched (resSlot r) = false) →
          (s.grantPass.dir.waits).Sublist rest ∧ s.grantPass.noticed e.port .leaseGranted = true
          ∧ ∀ r ∈ e.resources, (s.grantPass.res r).lease = .held e.port s.nowMs)
        ∧ (e.mode = .watch → (∀ r ∈ e.resources, isGen r = false ∧ s.watches e.port r = false) →
          (s.grantPass.dir.waits).Sublist rest ∧ s.grantPass.noticed e.port .leaseGranted = true
          ∧ ∀ r ∈ e.resources, s.grantPass.watches e.port r = true
              ∨ ∃ q, (s.grantPass.res r).lease = .held q s.nowMs
                  ∧ (q = e.port ∨ s.grantPass.noticed e.port .leaseLost = true)))
    ∧ (∃ stays : List Bool, stays.length = s.dir.waits.length
        ∧ s.grantPass.dir.waits = ((s.dir.waits.zip stays).filter (fun x => x.2)).map (fun x => x.1)
        ∧ ∀ i e, s.dir.waits[i]? = some e →
          let older := fun (f : WaitEntry) (j : Nat) => j < i ∧ s.dir.waits[j]? = some f
          let leasable := fun r : ResId => (s.res r).lease.holder = none
            ∧ (e.mode = .hold → isGen r = true → s.latched (resSlot r) = false)
            ∧ (e.mode = .watch → isGen r = false ∧ s.watches e.port r = false)
          ((∃ r ∈ e.resources, ∃ f j, older f j ∧ stays[j]? = some true ∧ r ∈ f.resources) → stays[i]? = some true)
          ∧ ((∀ r ∈ e.resources, leasable r ∧ ∀ f j, older f j → r ∉ f.resources) → stays[i]? = some false)
          ∧ (stays[i]? = some true → ∀ r ∈ e.resources,
              (∀ f j, older f j → r ∈ f.resources → stays[j]? = some true) →
              (s.grantPass.res r).lease = (s.res r).lease))
    ∧ (∀ e ∈ s.grantPass.dir.waits, ∀ r ∈ e.resources, ∀ h since, (s.res r).lease.holder = some h →
        (s.res r).lease.since = some since → h ≠ e.port → (Table.rd s.map.ports h).leaseLimit ≠ 0 →
        (Table.rd s.map.ports h).leaseLimit < s.nowMs - since → (s.res r).recallState = .none →
        (isGen r = true → s.latched (resSlot r) = false) →
        (s.grantPass.res r).recallState = .recalling (s.nowMs + s.map.recallTimeout)
          ∧ s.grantPass.noticed h .recalled = true)
    ∧ (∀ r, (∀ e ∈ s.dir.waits, r ∉ e.resources) → s.grantPass.res r = s.res r)

/-- RELEASE: refused with NOT_HELD, BUSY or POST_FULL, the first that holds; else the resources are released one by one
in number order, a grant pass and the closing conditions follow, and the answer counts the holdings posted. With
no entry waiting in a run that goes on: each HELD or HELD_UNPOSTED one becomes FREE with its recall ended, each watched CHK
loses the port from its watchers, each holding is in an ordinary buffer, posted by the port, in number order, but for one
that a RETEST holding posted behind it superseded (R140), and nothing else of the hub changes but that commits start and
flushes are answered. In a CLOSING run a release that posts nothing completes the closing conditions where no other
resource is held, no window is in a phase state and no result is posted (R27), else the run stays CLOSING. -/
def Obligations.ReleaseFreesWhatIsNamed : Prop :=
  ∀ (s : State) (p : PortId) (tag : Byte) (rs : List ResId) (filler : List Byte) (cut : Bool),
    let answers := fun t => exec (.release p (frameRest .release tag (enResources rs) filler) cut) s = .next t
    let mine := ∀ r ∈ rs, s.holds p r = true ∨ s.watches p r = true
    let unnamed := ∀ r ∈ rs, (s.res r).naming = none
    let unposted := (rs.filter (fun r => (s.res r).lease.holding.isSome)).length
    let holdings := (inNumberOrder rs).filterMap (fun r => (s.res r).lease.holding)
    1 ≤ rs.length → rs.length ≤ 8 → rs.Nodup → (∀ r ∈ rs, s.isFitted (resSlot r) = true) →
    s.admitted .release p (enResources rs) filler = true →
    (¬ mine → answers (s.refusedWith .release p tag .notHeld))
    ∧ (mine → ¬ unnamed → answers (s.refusedWith .release p tag .busy))
    ∧ (mine → unnamed → 4 - s.post.ordinary.length < unposted → answers (s.refusedWith .release p tag .postFull))
    ∧ (mine → unnamed → unposted ≤ 4 - s.post.ordinary.length → answers
      (((inNumberOrder rs).foldl (fun u r => u.releaseOne p r) (s.working .release p tag)).grantPass.checkClosing.answerOk
        .release p tag (u8 unposted)))
    ∧ (mine → unnamed → unposted ≤ 4 - s.post.ordinary.length → s.dir.waits = [] → s.run.state = .running →
      ∃ t, answers t
        ∧ (∀ r ∈ rs, s.holds p r = true → (t.res r).lease = .free ∧ (t.res r).recallState = .none)
        ∧ (∀ r ∈ rs, s.watches p r = true → t.watches p r = false ∧ (t.res r).lease.watchers =
            PortSet.drop (s.res r).lease.watchers p)
        ∧ (∀ r, r ∉ rs → t.res r = s.res r)
        ∧ (∀ r ∈ rs, ∀ a, (s.res r).lease.holding = some a →
            (∃ q ∈ t.post.ordinary, q.result = a ∧ q.port = p)
            ∨ ∃ r' ∈ rs, r < r' ∧ ∃ b, (s.res r').lease.holding = some b ∧ b.retest = true
                ∧ b.link = a.link ∧ b.dir = a.dir)
        ∧ ((∀ a ∈ holdings, a.retest = false) → t.post.ordinary.map (fun q => q.result) =
            s.post.ordinary.map (fun q => q.result) ++ holdings)
        ∧ (∀ x ∈ s.post.ordinary, x.inFlight = true
              ∨ (∀ a ∈ holdings, a.retest = false ∨ a.link ≠ x.result.link ∨ a.dir ≠ x.result.dir) →
            ∃ y ∈ t.post.ordinary, y.serial = x.serial ∧ y.result = x.result ∧ y.port = x.port)
        ∧ (holdings ≠ [] → t.run.counters.postsSuperseded = min 65535 (s.run.counters.postsSuperseded
            + (s.post.ordinary.length + holdings.length - t.post.ordinary.length)))
        ∧ (t.port p).slot = .answered (responseFrame (.ok (u8 unposted)) Req.release.code tag)
        ∧ (∀ q, (t.port q).notices = (s.port q).notices)
        ∧ t = { s with dir := t.dir, post := t.post, ports := t.ports, run := t.run, freeIndex := t.freeIndex }
        ∧ t.run = { s.run with counters := { s.run.counters with
            postsSuperseded := t.run.counters.postsSuperseded } }
        ∧ (unposted = 0 → (∀ q, q ≠ p → t.port q = s.port q)
          ∧ t = { s with dir := t.dir, ports := t.ports }))
    ∧ (mine → unnamed → unposted = 0 → s.dir.waits = [] → s.run.state = .closing →
      let atRest := (∀ q, q ∉ rs → (s.res q).lease.holder = none)
        ∧ (∀ w x, s.win w = some x → x.state.phase = false)
        ∧ s.post.ordinary = [] ∧ s.post.recallBuf = none ∧ s.post.commit = none
      ∃ t, answers t ∧ (∀ r ∈ rs, s.holds p r = true → (t.res r).lease = .free)
        ∧ (atRest → t.run.state = .closed ∧ t.wd.list = [] ∧ ∀ q, t.noticed q .runState = true)
        ∧ (¬ atRest → t.run.state = .closing))

/-- POST of a CHK held by the port: its holding goes to the young end of the ordinary buffers and the CHK is HELD as
before, the posted count 1; a RETEST result cancels the older ordinary results of its link-direction that are not in
flight, each counted in posts superseded, and a waiting flush whose set has thereby emptied is answered (R140, R155);
with no free buffer POST_FULL; with no holding nothing but the count 0; of a CHK that the port does not hold NOT_HELD.
DISCARD of a HELD_UNPOSTED CHK, whoever holds it: the holding is dropped and counted, holder and grant time stay; a HELD
CHK is refused with NOT_FOUND, a FREE or WATCHED one with NOT_HELD. -/
def Obligations.PostMovesAndDiscardDropsTheHolding : Prop :=
  (∀ (s : State) (p : PortId) (i : SlotId) (tag : Byte) (filler : List Byte) (cut : Bool), s.isFitted i = true →
      s.admitted .post p (u8 (chkOf i).val) filler = true →
      (∀ since a, (s.res (chkOf i)).lease = .heldUnposted p since a → s.post.ordinary.length < 4 →
        ∃ t, exec (.post p (frameRest .post tag (u8 (chkOf i).val) filler) cut) s = .next t
          ∧ (t.res (chkOf i)).lease = .held p since
          ∧ (∀ r, r ≠ chkOf i → t.res r = s.res r)
          ∧ (∃ q ∈ t.post.ordinary, q.result = a ∧ q.port = p)
          ∧ (let cancelled := fun x : Posted => a.retest && decide (x.result.link = a.link) && decide (x.result.dir = a.dir)
                && !x.inFlight
             let gone := (s.post.ordinary.filter cancelled).map (fun x => x.serial)
             t.post.ordinary.map (fun q => q.result) =
                (s.post.ordinary.filter (fun x => !cancelled x)).map (fun q => q.result) ++ [a]
             ∧ t.run.counters.postsSuperseded = min 65535 (s.run.counters.postsSuperseded + gone.length)
             ∧ ∀ q code g f, q ≠ p → gone ≠ [] → (s.port q).slot = .working code g (some f) →
                ((∀ n ∈ f.members, n ∈ gone) →
                  (t.port q).slot = .answered (responseFrame (t.verdictReply f.link f.dirs) code g))
                ∧ ((∃ n ∈ f.members, n ∉ gone) → (t.port q).slot = .working code g (some { f with
                    members := f.members.filter (fun n => decide (n ∉ gone)) })))
          ∧ t.post.commit.isSome = true
          ∧ (t.port p).slot = .answered (responseFrame (.ok (u8 1)) Req.post.code tag)
          ∧ t.table = s.table ∧ t.eng = s.eng ∧ t.run.state = s.run.state)
      ∧ (∀ since a, (s.res (chkOf i)).lease = .heldUnposted p since a → 4 ≤ s.post.ordinary.length →
        exec (.post p (frameRest .post tag (u8 (chkOf i).val) filler) cut) s =
          .next (s.refusedWith .post p tag .postFull))
      ∧ (∀ since, (s.res (chkOf i)).lease = .held p since →
        exec (.post p (frameRest .post tag (u8 (chkOf i).val) filler) cut) s =
          .next ((s.working .post p tag).answerOk .post p tag (u8 0)))
      ∧ (s.holds p (chkOf i) = false →
        exec (.post p (frameRest .post tag (u8 (chkOf i).val) filler) cut) s =
          .next (s.refusedWith .post p tag .notHeld)))
  ∧ (∀ (s : State) (p : PortId) (i : SlotId) (tag : Byte) (filler : List Byte) (cut : Bool), s.isFitted i = true →
      s.admitted .discard p (u8 (chkOf i).val) filler = true →
      (∀ q since a, (s.res (chkOf i)).lease = .heldUnposted q since a →
        exec (.discard p (frameRest .discard tag (u8 (chkOf i).val) filler) cut) s =
          .next ((((s.working .discard p tag).setLease (chkOf i) (.held q since)).setRun { s.run with
            counters := { s.run.counters with
              resultsDiscarded := min 65535 (s.run.counters.resultsDiscarded + 1) } }).answerOk .discard p tag []))
      ∧ (∀ q since, (s.res (chkOf i)).lease = .held q since →
        exec (.discard p (frameRest .discard tag (u8 (chkOf i).val) filler) cut) s =
          .next (s.refusedWith .discard p tag .notFound))
      ∧ ((s.res (chkOf i)).lease.holder = none →
        exec (.discard p (frameRest .discard tag (u8 (chkOf i).val) filler) cut) s =
          .next (s.refusedWith .discard p tag .notHeld)))

/-- RECALL (R53, with the start of a recall by R54): only a SUPERVISOR in RUNNING or CLOSING; a resource number on a
fitted slot, else BAD_PARAM; FREE or WATCHED NOT_HELD; a held resource whose recall is NONE becomes RECALLING until
the recall timeout, RECALL raised on its holder, the flag set; one under recall already is left, the flag clear. -/
def Obligations.RecallStartsAtMostOneRecall : Prop :=
  ∀ (s : State) (p : PortId) (tag : Byte) (params filler : List Byte) (cut : Bool), s.taken p params filler = true →
    (s.run.state ≠ .running → s.run.state ≠ .closing →
      exec (.recallResource p (frameRest .recallResource tag params filler) cut) s =
        .next (s.refusedWith .recallResource p tag .wrongState))
    ∧ (s.run.state = .running ∨ s.run.state = .closing →
      ((s.port p).role ≠ .supervisor → exec (.recallResource p (frameRest .recallResource tag params filler) cut) s =
        .next (s.refusedWith .recallResource p tag .notPermitted))
      ∧ ((s.port p).role = .supervisor →
        ((∀ r : ResId, params = u8 r.val → s.isFitted (resSlot r) = false) →
          exec (.recallResource p (frameRest .recallResource tag params filler) cut) s =
            .next (s.refusedWith .recallResource p tag .badParam))
        ∧ ∀ r : ResId, params = u8 r.val → s.isFitted (resSlot r) = true →
          ((s.res r).lease.holder = none →
            exec (.recallResource p (frameRest .recallResource tag params filler) cut) s =
              .next (s.refusedWith .recallResource p tag .notHeld))
          ∧ (∀ q, (s.res r).lease.holder = some q → (s.res r).recallState = .none →
            exec (.recallResource p (frameRest .recallResource tag params filler) cut) s =
              .next ((((s.working .recallResource p tag).modRes r (fun x => { x with
                  recallState := .recalling (s.nowMs + s.map.recallTimeout) })).raise q .recalled).answerOk
                .recallResource p tag (enFlag true)))
          ∧ ((s.res r).lease.holder ≠ none → (s.res r).recallState ≠ .none →
            exec (.recallResource p (frameRest .recallResource tag params filler) cut) s =
              .next ((s.working .recallResource p tag).answerOk .recallResource p tag (enFlag false)))))

/-- CANCEL_WAIT: the port's entry with the tag leaves the list and a grant pass follows; without one NOT_FOUND. The lease
age of a held resource comes to exceed its holder's nonzero limit: a grant pass at that time, once for the lease (the
timebase moved on to that time: log 2; the mark that it was taken: log 21); without a limit or a holder, or
where it was taken already, nothing (log 3). -/
def Obligations.CancelWaitAndCrossedLimitTakeGrantPass : Prop :=
  (∀ (s : State) (p : PortId) (x tag : Byte) (filler : List Byte) (cut : Bool),
      s.admitted .cancelWait p [x] filler = true →
      ((∃ e ∈ s.dir.waits, e.port = p ∧ e.tag = x) →
        exec (.cancelWait p (frameRest .cancelWait tag [x] filler) cut) s =
          .next ((((s.working .cancelWait p tag).setWaits (s.dir.waits.filter (fun e =>
            !(decide (e.port = p) && decide (e.tag = x))))).grantPass).answerOk .cancelWait p tag []))
      ∧ ((∀ e ∈ s.dir.waits, e.port = p → e.tag ≠ x) →
        exec (.cancelWait p (frameRest .cancelWait tag [x] filler) cut) s =
          .next (s.refusedWith .cancelWait p tag .notFound)))
  ∧ (∀ (s : State) (r : ResId), s.rst = false →
      (∀ p since, (s.res r).lease.holder = some p → (s.res r).lease.since = some since →
        (Table.rd s.map.ports p).leaseLimit ≠ 0 → (s.res r).crossed = false →
        exec (.leaseLimitCrossed r) s = .next (({ s with
          now := max s.now ((since + (Table.rd s.map.ports p).leaseLimit + 1) * 1000) } : State).modRes r
            (fun x => { x with crossed := true })).grantPass)
      ∧ ((s.res r).lease.holder = none → exec (.leaseLimitCrossed r) s = .next s)
      ∧ (∀ p, (s.res r).lease.holder = some p → (Table.rd s.map.ports p).leaseLimit = 0 →
        exec (.leaseLimitCrossed r) s = .next s)
      ∧ ((s.res r).crossed = true → exec (.leaseLimitCrossed r) s = .next s))

/-- The deadline of a recall: a resource that no window names is FREE with LEASE_LOST on its holder, its holding, if it
has one, in the recall buffer with RECALLED set (shown with no entry waiting in a run that goes on; in a CLOSING run
that release completes the closing conditions where no other resource is held, no window is in a phase state and no
result is posted, and the run is then CLOSED, else it stays CLOSING); the window that names a GEN, or a CHK that may be
released at once, is STOPPED with RECALLED, and the result that its stop places on that CHK goes to the recall buffer; a
CHK that finds the recall buffer occupied is EXPIRED_WAITING at the end of the expired order; a resource not RECALLING
is left (log 3). The timebase is moved on to the deadline where the command comes before it (log 2). -/
def Obligations.RecallDeadlineForcesRelease : Prop :=
  ∀ (s : State) (r : ResId), s.rst = false →
    (∀ p since d, (s.res r).lease = .held p since → (s.res r).recallState = .recalling d → (s.res r).naming = none →
      s.dir.waits = [] → s.run.state = .running → isGen r = true ∨ s.post.recallBuf = none →
      ∃ t, exec (.recallDeadline r) s = .next t
        ∧ (t.res r).lease = .free ∧ (t.res r).recallState = .none ∧ (∀ q, q ≠ r → t.res q = s.res q)
        ∧ (t.port p).notices = (s.port p).notices ||| Notice.leaseLost.one ∧ (∀ q, q ≠ p → t.port q = s.port q)
        ∧ t = { s with now := max s.now (d * 1000), dir := t.dir, ports := t.ports })
    ∧ (∀ p since a d, (s.res r).lease = .heldUnposted p since a → (s.res r).recallState = .recalling d →
      (s.res r).naming = none → s.dir.waits = [] → s.run.state = .running → isGen r = false →
      s.post.recallBuf = none →
      ∃ t q, exec (.recallDeadline r) s = .next t
        ∧ (t.res r).lease = .free ∧ (t.res r).recallState = .none ∧ (∀ q, q ≠ r → t.res q = s.res q)
        ∧ t.post.recallBuf = some q ∧ q.result = { a with flags := { a.flags with recalled := true } } ∧ q.port = p
        ∧ t.noticed p .leaseLost = true)
    ∧ (∀ w x p d, (s.res r).lease.holder = some p → (s.res r).recallState = .recalling d →
      (s.res r).naming = some w → s.win w = some x → x.state.active = true → isGen r = true ∨ s.post.recallBuf = none →
      ∃ t y, exec (.recallDeadline r) s = .next t ∧ t.noticed p .leaseLost = true
        ∧ t.win w = some y ∧ y.state = .stopped ∧ y.endCause = some .recalled
        ∧ ∀ b i a since, isGen r = false → (s.res r).lease = .held p since → s.receiveSlot x b = some i → r = chkOf i →
            y.acc b = some a → 1 ≤ a.repeats → (∀ c, c ≠ b → x.acc c = none ∨ s.receiveSlot x c ≠ some i) →
            ∃ q, t.post.recallBuf = some q ∧ q.port = p
              ∧ q.result = { a with flags := { a.flags with recalled := true } })
    ∧ (∀ p since d, (s.res r).lease = .held p since → (s.res r).recallState = .recalling d → (s.res r).naming = none →
      s.dir.waits = [] → s.run.state = .closing → isGen r = true ∨ s.post.recallBuf = none →
      let atRest := (∀ q, q ≠ r → (s.res q).lease.holder = none)
        ∧ (∀ w x, s.win w = some x → x.state.phase = false)
        ∧ s.post.ordinary = [] ∧ s.post.recallBuf = none ∧ s.post.commit = none
      ∃ t, exec (.recallDeadline r) s = .next t ∧ (t.res r).lease = .free ∧ t.noticed p .leaseLost = true
        ∧ (atRest → t.run.state = .closed ∧ t.wd.list = [] ∧ ∀ q, t.noticed q .runState = true)
        ∧ (¬ atRest → t.run.state = .closing))
    ∧ (∀ d, (s.res r).recallState = .recalling d → isGen r = false → s.post.recallBuf ≠ none →
      exec (.recallDeadline r) s = .next ((({ s with now := max s.now (d * 1000) } : State).modRes r (fun x =>
        { x with recallState := .expiredWaiting })).setExpired (s.dir.expired ++ [r])))
    ∧ ((∀ d, (s.res r).recallState ≠ .recalling d) → exec (.recallDeadline r) s = .next s)

/-! ## Test windows (R63 to R98) -/

/-- The parameter bytes of an OPEN_WINDOW are read back, field by field, whatever the fields are within their ranges (that a
lead and a dead time are times of four bytes rests on log 34). -/
def Obligations.OpenWindowParametersAreReadBack : Prop :=
  ∀ o : OpenParams, o.inRange = true → getOpenParams (enOpenParams o) = some o

/-- An OPEN_WINDOW that R67 and R69 let pass: the lowest IDLE window is OPEN with the parameters and the port as owner,
its accumulators empty; each resource it names is named by it and HELD by the port; the holdings they carried are in
ordinary buffers, posted by the port in number order, but for one that a RETEST holding posted behind it superseded
(R140), and counted in the answer. Of the results that were there, those in flight and those of which no RETEST holding has
the link-direction stay; with the engine busy, what each RETEST holding cancels is shown exactly; every result that left is
counted in posts superseded. One that R67 alone lets pass is refused for the first condition of R69 that holds;
parameters that R67 does not let pass, or bytes that are no parameters (`decodes`), with BAD_PARAM.
That a lead and a dead time of the request are times of four bytes rests on log 34, that the window lists its named
resources in number order on log 12. -/
def Obligations.OpenWindowFillsTheLowestIdleWindow : Prop :=
  (∀ (s : State) (p : PortId) (o : OpenParams) (k : Link) (w : WinId) (tag : Byte) (filler : List Byte) (cut : Bool),
      let named := inNumberOrder (s.gensOf k o ++ chksOf k o)
      let holdings := named.filterMap (fun r => (s.res r).lease.holding)
      let unposted := (named.filter (fun r => (s.res r).lease.holding.isSome)).length
      o.inRange = true → s.admitted .openWindow p (enOpenParams o) filler = true →
      s.link o.victim = some k → s.openParamsFit k o = true → k.state = .fitted →
      (∀ a ∈ o.aggressors, s.linkIs a.link .fitted = true) →
      (∀ r ∈ named, s.holds p r = true ∧ (s.res r).recallState = .none ∧ (s.res r).naming = none) →
      unposted ≤ 4 - s.post.ordinary.length → s.win w = none → (∀ v, v < w → s.win v ≠ none) →
      ∃ t, exec (.openWindow p (frameRest .openWindow tag (enOpenParams o) filler) cut) s = .next t
        ∧ t.win w = some (openedWindow p k o named)
        ∧ (∀ v, v ≠ w → t.win v = s.win v)
        ∧ (∀ r ∈ named, (t.res r).naming = some w ∧ (t.res r).lease.holder = some p ∧ (t.res r).lease.holding = none
            ∧ (t.res r).lease.since = (s.res r).lease.since)
        ∧ (∀ r, r ∉ named → t.res r = s.res r)
        ∧ (∀ r ∈ named, ∀ a, (s.res r).lease.holding = some a →
            (∃ q ∈ t.post.ordinary, q.result = a ∧ q.port = p)
            ∨ ∃ r' ∈ named, r < r' ∧ ∃ b, (s.res r').lease.holding = some b ∧ b.retest = true
                ∧ b.link = a.link ∧ b.dir = a.dir)
        ∧ ((∀ a ∈ holdings, a.retest = false) → t.post.ordinary.map (fun q => q.result) =
            s.post.ordinary.map (fun q => q.result) ++ holdings)
        ∧ (holdings = [] → t.post = s.post)
        ∧ (∀ x ∈ s.post.ordinary, x.inFlight = true
              ∨ (∀ a ∈ holdings, a.retest = false ∨ a.link ≠ x.result.link ∨ a.dir ≠ x.result.dir) →
            ∃ y ∈ t.post.ordinary, y.serial = x.serial ∧ y.result = x.result ∧ y.port = x.port)
        ∧ (s.post.commit ≠ none → t.post.ordinary.map (fun q => (q.result, q.inFlight)) =
            holdings.foldl (fun qs a => qs.filter (fun q => !(a.retest && decide (q.1.link = a.link)
              && decide (q.1.dir = a.dir) && !q.2)) ++ [(a, false)])
              (s.post.ordinary.map (fun q => (q.result, q.inFlight))))
        ∧ (holdings ≠ [] → t.run.counters.postsSuperseded = min 65535 (s.run.counters.postsSuperseded
            + (s.post.ordinary.length + holdings.length - t.post.ordinary.length)))
        ∧ t.post.recallBuf.map (fun q => q.result) = s.post.recallBuf.map (fun q => q.result)
        ∧ (t.port p).slot = .answered (responseFrame (.ok (u8 w.val ++ u8 unposted)) Req.openWindow.code tag)
        ∧ t.map = s.map ∧ t.table = s.table ∧ t.setup = s.setup ∧ t.sems = s.sems ∧ t.run.state = s.run.state)
  ∧ (∀ (s : State) (p : PortId) (o : OpenParams) (k : Link) (tag : Byte) (filler : List Byte) (cut : Bool),
      let named := inNumberOrder (s.gensOf k o ++ chksOf k o)
      let answers := fun st => exec (.openWindow p (frameRest .openWindow tag (enOpenParams o) filler) cut) s =
        .next (s.refusedWith .openWindow p tag st)
      let linksOk := k.state = .fitted ∧ ∀ a ∈ o.aggressors, s.linkIs a.link .fitted = true
      let held := ∀ r ∈ named, s.holds p r = true
      let calm := ∀ r ∈ named, (s.res r).recallState = .none
      let unnamed := ∀ r ∈ named, (s.res r).naming = none
      let someIdle := ∃ w, s.win w = none
      o.inRange = true → s.admitted .openWindow p (enOpenParams o) filler = true →
      s.link o.victim = some k → s.openParamsFit k o = true →
      (¬ linksOk → answers .withdrawn)
      ∧ (linksOk → ¬ held → answers .notHeld)
      ∧ (linksOk → held → ¬ calm → answers .recalling)
      ∧ (linksOk → held → calm → ¬ unnamed → answers .busy)
      ∧ (linksOk → held → calm → unnamed → ¬ someIdle → answers .noWindow)
      ∧ (linksOk → held → calm → unnamed → someIdle →
          4 - s.post.ordinary.length < (named.filter (fun r => (s.res r).lease.holding.isSome)).length →
          answers .postFull))
  ∧ (∀ (s : State) (p : PortId) (tag : Byte) (params filler : List Byte) (cut : Bool),
      s.admitted .openWindow p params filler = true → ¬ s.decodes p .openWindow params →
      exec (.openWindow p (frameRest .openWindow tag params filler) cut) s =
        .next (s.refusedWith .openWindow p tag .badParam))

/-- START of an OPEN window of the port with FITTED links and clear latches: IMMEDIATE enters SETUP and submits its
group in the order of its named resources: for the victim's GEN of a direction a CONFIGURE_GEN at the end it drives
from, for the CHK a CONFIGURE_CHK at the receiving end, for an aggressor's GEN one at its driving end with its link's
lane count, the window's pattern in each (R72; shown where no two of them fall on one slot). It is admitted at once
where no window waits and the queue has room, behind what is there, or with the first transaction in flight, its request
word (R200) sent and the reply timeout running (log 10); on a clear semaphore it is ARMED at the end of the armed list;
on a set one it has left ARMED in the same event. Otherwise the first check of R70 that fails gives the refusal,
BAD_PARAM for a window number above 7 or other parameters than one byte. -/
def Obligations.StartSetsUpOrArms : Prop :=
  (∀ (s : State) (p : PortId) (w : WinId) (x : Window) (tag : Byte) (filler : List Byte) (cut : Bool),
    let group := x.named.filterMap (s.configure w x)
    let runsStart := exec (.start p (frameRest .start tag (u8 w.val) filler) cut) s
    let linksOk := s.linkIs x.victim .fitted = true ∧ ∀ a ∈ x.aggressors, s.linkIs a.link .fitted = true
    let latchesOk := ∀ r ∈ x.named, s.latched (resSlot r) = false
    s.admitted .start p (u8 w.val) filler = true →
    (s.win w = none → runsStart = .next (s.refusedWith .start p tag .notFound))
    ∧ (s.win w = some x →
      (x.owner ≠ p → runsStart = .next (s.refusedWith .start p tag .notPermitted))
      ∧ (x.owner = p → x.state ≠ .opened → runsStart = .next (s.refusedWith .start p tag .wrongState))
      ∧ (x.owner = p → x.state = .opened → ¬ linksOk → runsStart = .next (s.refusedWith .start p tag .withdrawn))
      ∧ (x.owner = p → x.state = .opened → linksOk → ¬ latchesOk →
        runsStart = .next (s.refusedWith .start p tag .slotFault))
      ∧ (x.owner = p → x.state = .opened → linksOk → latchesOk →
        (x.source = .immediate → ∃ t, runsStart = .next t
          ∧ t.win w = some { x with state := .setup, armedAt := none } ∧ (∀ v, v ≠ w → t.win v = s.win v)
          ∧ (s.setup.order = [] → s.setup.queue.length + group.length ≤ 16 →
              t.setup.order = []
              ∧ (∀ u, s.setup.queue.head? = some u → u.inFlight = true →
                  t.setup.queue = s.setup.queue ++ group ∧ t.setup.exchange = s.setup.exchange)
              ∧ (∀ u more, s.setup.queue = [] → group = u :: more →
                  t.setup.queue = { u with inFlight := true } :: more
                  ∧ t.setup.exchange = .awaiting u.word (s.now + 2 + s.map.replyTimeout)))
          ∧ (s.setup.order ≠ [] ∨ 16 < s.setup.queue.length + group.length →
              t.setup.order = s.setup.order ++ [{ win := w, group := group }])
          ∧ t = { s with eng := t.eng, setup := t.setup, ports := t.ports }
          ∧ (t.port p).slot = .answered (responseFrame (.ok []) Req.start.code tag))
        ∧ (∀ k take, x.source = .semaphore k take → (s.sem k).set = false → runsStart = .next
          ((((s.working .start p tag).setWin w (some { x with state := .armed, armedAt := some s.now })).modSem k
            (fun m => { m with armed := m.armed ++ [{ win := w, take := take }] })).answerOk .start p tag []))
        ∧ (∀ k take, x.source = .semaphore k take → (s.sem k).set = true → (s.sem k).armed = [] →
          ∃ t y, runsStart = .next t ∧ t.win w = some y ∧ y.state ≠ .armed ∧ y.state ≠ .opened
            ∧ (t.port p).slot = .answered (responseFrame (.ok []) Req.start.code tag)))))
  ∧ (∀ (s : State) (p : PortId) (tag : Byte) (params filler : List Byte) (cut : Bool),
    s.admitted .start p params filler = true → params.length ≠ 1 ∨ (∃ b, params = [b] ∧ 7 < b.toNat) →
    exec (.start p (frameRest .start tag params filler) cut) s = .next (s.refusedWith .start p tag .badParam))
  ∧ (∀ (s : State) (w : WinId) (x : Window) (k : Link), s.link x.victim = some k →
    let txn := fun (kind : TxnKind) (e : EndPoint) (lanes : Nat) =>
      ({ kind := kind, slot := e.slot, port := e.port, lanes := lanes, pattern := x.pattern, win := w, inFlight := false,
         discard := false } : Txn)
    (∀ d ∈ x.mode.dirs, (∀ c ∈ x.mode.dirs, c ≠ d → (k.driveEnd c).slot ≠ (k.driveEnd d).slot) →
      s.configure w x (genOf (k.driveEnd d).slot) = some (txn .configureGen (k.driveEnd d) k.lanes)
      ∧ s.configure w x (chkOf (k.receiveEnd d).slot) = some (txn .configureChk (k.receiveEnd d) k.lanes))
    ∧ (∀ a ∈ x.aggressors, ∀ m, s.link a.link = some m →
      (∀ d ∈ x.mode.dirs, (k.driveEnd d).slot ≠ (m.endPoint a.drive).slot) →
      (∀ c ∈ x.aggressors, c ≠ a → s.aggressorSlot c ≠ some (m.endPoint a.drive).slot) →
      s.configure w x (genOf (m.endPoint a.drive).slot) = some (txn .configureGen (m.endPoint a.drive) m.lanes)))
  ∧ (∀ u : Txn, 1 ≤ u.lanes → u.lanes ≤ 4 → u.pattern ≤ 15 →
    let op := match u.kind with
      | .configureGen => 1
      | .configureChk => 2
      | .harvest => 3
    let n0 := op * 4 + (u.lanes - 1)
    u.word.toNat = n0 * 4096 + u.port.val * 256 + u.pattern * 16 + (n0 ^^^ u.port.val ^^^ u.pattern))

/-- STOP by the owner or a SUPERVISOR: BOUNDARY marks a window in SETUP through PAUSED; NOW, and BOUNDARY in OPEN or
ARMED, leaves the window STOPPED with STOP_NOW, naming nothing; a window that has ended is refused with WRONG_STATE,
a window of another port with NOT_PERMITTED, an IDLE one with NOT_FOUND. -/
def Obligations.StopMarksOrStops : Prop :=
  ∀ (s : State) (p : PortId) (w : WinId) (x : Window) (boundary : Bool) (tag : Byte) (filler : List Byte)
    (cut : Bool),
    let runsStop := exec (.stop p (frameRest .stop tag (u8 w.val ++ enFlag boundary) filler) cut) s
    s.admitted .stop p (u8 w.val ++ enFlag boundary) filler = true →
    (s.win w = none → runsStop = .next (s.refusedWith .stop p tag .notFound))
    ∧ (s.win w = some x →
      (x.owner ≠ p → (s.port p).role ≠ .supervisor → runsStop = .next (s.refusedWith .stop p tag .notPermitted))
      ∧ (x.owner = p ∨ (s.port p).role = .supervisor →
        (x.state.active = false → runsStop = .next (s.refusedWith .stop p tag .wrongState))
        ∧ (x.state.phase = true → boundary = true → runsStop = .next
          (((s.working .stop p tag).setWin w (some { x with boundaryStop := true })).answerOk .stop p tag
            (u8 x.state.num)))
        ∧ (x.state.active = true → boundary = false ∨ x.state.phase = false →
          ∃ t y, runsStop = .next t ∧ t.win w = some y ∧ y.state = .stopped ∧ y.endCause = some .stopNow
            ∧ y.named = [] ∧ (∀ r ∈ x.named, (t.res r).naming = none)
            ∧ (∀ v, v ≠ w → t.win v = s.win v)
            ∧ t.noticed x.owner .windowEnd = true
            ∧ t.run.counters.windowsStopped = min 65535 (s.run.counters.windowsStopped + 1)
            ∧ (t.port p).slot = .answered (responseFrame (.ok (u8 10)) Req.stop.code tag))))

/-- The stop of an active window, whatever the cause: STOPPED with the cause; of its transactions none is left in the
queue but one that is in flight and marked discard (the QUEUED ones are gone), none waiting for room; in no armed list;
counting disabled at its receiving slot and the requests of a window in LEAD or DWELL down; with ABORTED no lease
changed. -/
def Obligations.StoppedWindowLeavesNothingRunning : Prop :=
  ∀ (s : State) (w : WinId) (x : Window) (c : EndCause), s.win w = some x → x.state.active = true →
    let t := s.stopWindow w c
    (∃ y, t.win w = some y ∧ y.state = .stopped ∧ y.endCause = some c ∧ y.timerEnd = none ∧ y.named = [])
    ∧ (∀ q ∈ t.setup.queue, q.win = w → (q.inFlight = true ∧ q.discard = true)
        ∨ ∃ g ∈ s.setup.order, g.win ≠ w ∧ ∃ u ∈ g.group, u.win = w)
    ∧ (∀ g ∈ t.setup.order, g.win ≠ w)
    ∧ (∀ k, ∀ e ∈ (t.sem k).armed, e.win ≠ w)
    ∧ (∀ i, s.receiveSlot x x.dir = some i → (t.cap i).counting = false)
    ∧ (x.state.driving = true → ∀ i ∈ s.driveSlots x, t.txenPin i = false)
    ∧ (x.state.driving = true → ∀ i, s.receiveSlot x x.dir = some i → t.ckenPin i = false)
    ∧ (c ≠ .evicted → t.noticed x.owner .windowEnd = true)
    ∧ (c = .aborted → ∀ r, (t.res r).lease = (s.res r).lease)
    ∧ t.run.counters.windowsStopped = min 65535 (s.run.counters.windowsStopped + 1)

/-- RETIME of an IDLE window is refused with NOT_FOUND, from a port other than the owner with NOT_PERMITTED, a SUPERVISOR
too. By the owner: at once in OPEN and ARMED, the dwell left with it; pending in SETUP through PAUSED; refused with
WRONG_STATE in DONE and STOPPED (the sense of the answer's flag rests on log 12, four bytes for a lead and a dead time on
log 34). CLOSE_WINDOW by the owner or a
SUPERVISOR: a DONE or STOPPED window returns to IDLE and nothing else changes; an active one is refused with BUSY, an
IDLE one with NOT_FOUND, and from another port with NOT_PERMITTED. -/
def Obligations.RetimeAndCloseWindow : Prop :=
  (∀ (s : State) (p : PortId) (w : WinId) (x : Window) (r : Timing) (tag : Byte) (filler : List Byte) (cut : Bool),
      let params := u8 w.val ++ enTiming r
      r.lead ≤ 65535 → 1 ≤ r.dwell → r.dwell ≤ 16777215 → r.dead ≤ 65535 → s.admitted .retime p params filler = true →
      (s.win w = none → exec (.retime p (frameRest .retime tag params filler) cut) s =
        .next (s.refusedWith .retime p tag .notFound))
      ∧ (s.win w = some x → x.owner ≠ p → exec (.retime p (frameRest .retime tag params filler) cut) s =
        .next (s.refusedWith .retime p tag .notPermitted))
      ∧ (s.win w = some x → x.owner = p →
      (x.state = .opened ∨ x.state = .armed → exec (.retime p (frameRest .retime tag params filler) cut) s =
        .next (((s.working .retime p tag).setWin w (some { x with timing := r, dwellLeft := r.dwell })).answerOk .retime
          p tag (enFlag true)))
      ∧ (x.state.phase = true → exec (.retime p (frameRest .retime tag params filler) cut) s =
        .next (((s.working .retime p tag).setWin w (some { x with retime := some r })).answerOk .retime p tag
          (enFlag false)))
      ∧ (x.state = .done ∨ x.state = .stopped → exec (.retime p (frameRest .retime tag params filler) cut) s =
        .next (s.refusedWith .retime p tag .wrongState))))
  ∧ (∀ (s : State) (p : PortId) (w : WinId) (tag : Byte) (filler : List Byte) (cut : Bool),
      s.admitted .closeWindow p (u8 w.val) filler = true →
      (s.win w = none → exec (.closeWindow p (frameRest .closeWindow tag (u8 w.val) filler) cut) s =
        .next (s.refusedWith .closeWindow p tag .notFound))
      ∧ ∀ x, s.win w = some x →
        (x.owner ≠ p → (s.port p).role ≠ .supervisor →
          exec (.closeWindow p (frameRest .closeWindow tag (u8 w.val) filler) cut) s =
            .next (s.refusedWith .closeWindow p tag .notPermitted))
        ∧ (x.owner = p ∨ (s.port p).role = .supervisor →
          (x.state = .done ∨ x.state = .stopped →
            exec (.closeWindow p (frameRest .closeWindow tag (u8 w.val) filler) cut) s =
              .next (((s.working .closeWindow p tag).setWin w none).answerOk .closeWindow p tag []))
          ∧ (x.state ≠ .done → x.state ≠ .stopped →
            exec (.closeWindow p (frameRest .closeWindow tag (u8 w.val) filler) cut) s =
              .next (s.refusedWith .closeWindow p tag .busy))))

/-- A window in SETTLE at the earliest time it still waits for, an end of its dead time or of a quiet time of a slot it
will drive from (where it waits for none, at the present time; the timebase moved on: log 2): while the dead time or a
quiet time has not passed, or a named slot's latch is set, it only has the time; when all hold (R73) it enters LEAD (shown
for a lead above 0) with its lead timer running and the TXEN requests of its driving slots up. A window not in SETTLE is
left (log 3). -/
def Obligations.SettleTimeEntersLead : Prop :=
  ∀ (s : State) (w : WinId) (x : Window) (at' : Nat), s.rst = false → s.win w = some x →
    let waits := fun n => s.now < n ∧ ((∃ f, x.ownFall = some f ∧ n = f + x.timing.dead)
      ∨ ∃ i ∈ s.driveSlots x, ∃ f, Table.rd s.eng.fall i = some f ∧ n = f + (s.slotEntry i).quiet)
    let u : State := { s with now := at' }
    let ready := (∀ f, x.ownFall = some f → f + x.timing.dead ≤ at')
      ∧ (∀ i ∈ s.driveSlots x, ∀ f, Table.rd s.eng.fall i = some f → f + (s.slotEntry i).quiet ≤ at')
      ∧ ∀ r ∈ x.named, s.latched (resSlot r) = false
    (waits at' ∧ ∀ n, waits n → at' ≤ n) ∨ (at' = s.now ∧ ∀ n, ¬ waits n) →
    (x.state ≠ .settle → exec (.settleTimeReached w) s = .next s)
    ∧ (x.state = .settle → ¬ ready → exec (.settleTimeReached w) s = .next u)
    ∧ (x.state = .settle → ready → 0 < x.timing.lead →
      ∃ t, exec (.settleTimeReached w) s = .next t
        ∧ t.win w = some { x with state := .lead, timerEnd := some (at' + x.timing.lead) }
        ∧ (∀ i, Table.rd t.eng.txen i = (decide (i ∈ s.driveSlots x) || Table.rd s.eng.txen i))
        ∧ t = { s with now := at', eng := { s.eng with wins := t.eng.wins, txen := t.eng.txen } }
        ∧ ∀ v, v ≠ w → t.win v = s.win v)
    ∧ (x.state = .settle → ready → exec (.settleTimeReached w) s = .next (u.enterLead w))

/-- The lead timer of a window in LEAD with LNK up, or without STOP_ON_LOCKLOSS: DWELL, the dwell timer running for the
dwell left, CKEN up and counting enabled at its receiving slot, with the live values cleared when the repeat has not
dwelt and kept when it has, and with LNK down one lock loss counted by the lock check at entry (R75, R90, R114; shown
where no FIRST_DWELL signal is due); a FIRST_DWELL signal that is due sets its semaphore. With LNK down and
STOP_ON_LOCKLOSS the window is STOPPED with LOCKLOSS, its accumulator having that lock loss too (R84), and FIRST_DWELL is
not given. The timebase is moved on to the expiry (log 2); a window not in LEAD is left (log 3). -/
def Obligations.LeadExpiryEntersDwell : Prop :=
  ∀ (s : State) (w : WinId) (x : Window) (e : Nat) (i : SlotId), s.rst = false → s.win w = some x →
    let entered := if x.dwelt then (s.cap i).live else Live.cleared
    let checked := if s.lnkUp i then entered else { entered with lockLosses := min 65535 (entered.lockLosses + 1) }
    let goesOn := s.lnkUp i = true ∨ x.stopOnLockLoss = false
    (x.state ≠ .lead → exec (.leadExpiry w) s = .next s)
    ∧ (x.state = .lead → x.timerEnd = some e → s.receiveSlot x x.dir = some i → goesOn →
      x.firstDwelt = true ∨ x.setsAt .firstDwell = [] →
      ∃ t, exec (.leadExpiry w) s = .next t
        ∧ t.win w = some { x with
            state := .dwell, dwelt := true, firstDwelt := true, timerEnd := some (max s.now e + x.dwellLeft) }
        ∧ t.ckenPin i = true ∧ (∀ j, j ≠ i → t.ckenPin j = s.ckenPin j)
        ∧ t.cap i = { s.cap i with
            counting := true, receiving := some w, live := checked }
        ∧ (∀ j, j ≠ i → t.cap j = s.cap j) ∧ (∀ v, v ≠ w → t.win v = s.win v)
        ∧ t = { s with now := max s.now e, eng := { s.eng with wins := t.eng.wins, cken := t.eng.cken },
                       caps := t.caps })
    ∧ (x.state = .lead → x.timerEnd = some e → s.receiveSlot x x.dir = some i → s.lnkUp i = false →
      x.stopOnLockLoss = true → ∃ t y, exec (.leadExpiry w) s = .next t ∧ t.win w = some y ∧ y.state = .stopped
        ∧ y.endCause = some .lockLoss ∧ (t.cap i).live = checked ∧ (t.cap i).counting = false
        ∧ (∀ n, (t.sem n).set = (s.sem n).set ∧ (t.sem n).overrun = (s.sem n).overrun)
        ∧ ∀ a, x.acc x.dir = some a → ∃ b, y.acc x.dir = some b
            ∧ b.lockLosses = min 65535 (a.lockLosses + checked.lockLosses) ∧ b.repeats = a.repeats)
    ∧ (∀ n, x.state = .lead → x.timerEnd = some e → s.receiveSlot x x.dir = some i → goesOn →
      x.firstDwelt = false → x.setsAt .firstDwell = [n] → (s.sem n).armed = [] →
      ∃ t, exec (.leadExpiry w) s = .next t ∧ (t.sem n).set = true
        ∧ (t.sem n).overrun = ((s.sem n).overrun || (s.sem n).set)
        ∧ t.win w = some { x with
            state := .dwell, dwelt := true, firstDwelt := true, timerEnd := some (max s.now e + x.dwellLeft) })
    ∧ (x.state = .lead → x.timerEnd = some e → exec (.leadExpiry w) s =
      .next (({ s with now := max s.now e } : State).enterDwell w))

/-- The dwell timer of a window in DWELL (shown where no EACH_DWELL_END signal is due): HARVEST, the drive of its slots
and CKEN down, counting disabled, and its HARVEST transaction submitted. The timebase is moved on to the expiry (log 2);
a window not in DWELL is left (log 3). -/
def Obligations.DwellExpiryHarvests : Prop :=
  ∀ (s : State) (w : WinId) (x : Window) (k : Link) (e : Nat), s.rst = false → s.win w = some x →
    (x.state ≠ .dwell → exec (.dwellExpiry w) s = .next s)
    ∧ (x.state = .dwell → x.timerEnd = some e → s.link x.victim = some k → x.setsAt .eachDwellEnd = [] →
      ∃ t y, exec (.dwellExpiry w) s = .next t
        ∧ t.win w = some y ∧ y.state = .harvest ∧ y.dwellLeft = 0 ∧ y.timerEnd = none
        ∧ y.ownFall = some (max s.now e) ∧ y.aggressedMark = s.isAggressed x
        ∧ (∀ i ∈ s.driveSlots x, t.txenPin i = false)
        ∧ t.ckenPin (k.receiveEnd x.dir).slot = false ∧ (t.cap (k.receiveEnd x.dir).slot).counting = false
        ∧ (t.cap (k.receiveEnd x.dir).slot).live = (s.cap (k.receiveEnd x.dir).slot).live
        ∧ (∃ q, (q ∈ t.setup.queue ∨ ∃ g ∈ t.setup.order, q ∈ g.group) ∧ q.win = w ∧ q.kind = .harvest
            ∧ q.slot = (k.receiveEnd x.dir).slot ∧ q.port = (k.receiveEnd x.dir).port ∧ q.lanes = k.lanes)
        ∧ (∀ v, v ≠ w → t.win v = s.win v)
        ∧ t.dir = s.dir ∧ t.table = s.table ∧ t.post = s.post ∧ t.ports = s.ports ∧ t.sems = s.sems)
    ∧ (x.state = .dwell → x.timerEnd = some e → exec (.dwellExpiry w) s =
      .next (({ s with now := max s.now e } : State).endDwell w x))

/-! ## Semaphores (R99 to R107) -/

/-- SEM_CLEAR (R105). -/
def Obligations.SemClearClearsBothFlags : Prop :=
  ∀ (s : State) (p : PortId) (tag : Byte) (params filler : List Byte) (cut : Bool), s.taken p params filler = true →
    let answers := fun t => exec (.semClear p (frameRest .semClear tag params filler) cut) s = .next t
    (s.run.state = .loading → answers (s.refusedWith .semClear p tag .wrongState))
    ∧ (s.run.state ≠ .loading → (s.port p).role = .observer → answers (s.refusedWith .semClear p tag .notPermitted))
    ∧ (s.run.state ≠ .loading → (s.port p).role = .tester ∨ (s.port p).role = .supervisor →
      (params.length ≠ 1 ∨ (∃ b, params = [b] ∧ 7 < b.toNat) → answers (s.refusedWith .semClear p tag .badParam))
      ∧ ∀ k : SemId, params = u8 k.val → answers
          (((s.working .semClear p tag).modSem k (fun x => { x with set := false, overrun := false })).answerOk
            .semClear p tag (enFlag (s.sem k).set ++ enFlag (s.sem k).overrun)))

/-- SEM_SET of a semaphore with nothing armed: the set flag, and the overrun flag when it was set already; the answer gives
the flag before, no window, and the flags after. The start of an armed list: every LEAVE entry and the first CONSUME
entry are chosen, in the order of the list; the CONSUME entries behind it stay in their order. The set flag after the start
is clear where a CONSUME entry was chosen and set where none was, the overrun flag set where the flag was set before.
Every chosen window has left ARMED (R71): a victim WITHDRAWING ends it DONE with LINK_WITHDRAWN; else its withdrawing
aggressors leave with the naming of their GENs, and a latched slot among those it still names stops it with FAULT in HALT
mode, nothing of it in the Setup Queue; otherwise it is in SETUP. That the flags in the answer are
those after the chained sets rests on log 14, the order of those sets on log 14 and 29. -/
def Obligations.SemSetSetsAndChooses : Prop :=
  (∀ (s : State) (p : PortId) (k : SemId) (tag : Byte) (filler : List Byte) (cut : Bool),
      s.admitted .semSet p (u8 k.val) filler = true → (s.sem k).armed = [] →
      exec (.semSet p (frameRest .semSet tag (u8 k.val) filler) cut) s =
        .next (((s.working .semSet p tag).modSem k (fun x => { x with set := true, overrun := x.overrun || x.set })).answerOk
          .semSet p tag (enFlag (s.sem k).set ++ u8 0 ++ enFlag true ++ enFlag ((s.sem k).overrun || (s.sem k).set))))
  ∧ (∀ (s : State) (p : PortId) (k : SemId) (tag : Byte) (filler : List Byte) (cut : Bool),
      let set := (s.working .semSet p tag).takeSet k
      let after := set.1.doSets set.2.2
      s.admitted .semSet p (u8 k.val) filler = true →
      set.2.1 = (chooseEntries true (s.sem k).armed).1.map (fun e => e.win)
      ∧ exec (.semSet p (frameRest .semSet tag (u8 k.val) filler) cut) s =
        .next (after.answerOk .semSet p tag (enFlag (s.sem k).set ++ enList (fun w : WinId => u8 w.val) set.2.1
          ++ enFlag (after.sem k).set ++ enFlag (after.sem k).overrun))
      ∧ (set.1.sem k).set = decide (∀ e ∈ (s.sem k).armed, e.take = .leave)
      ∧ (set.1.sem k).overrun = ((s.sem k).overrun || (s.sem k).set)
      ∧ ((∀ e ∈ (chooseEntries true (s.sem k).armed).2, e.win ∉ set.2.1) →
          (set.1.sem k).armed = (chooseEntries true (s.sem k).armed).2)
      ∧ (∀ w ∈ set.2.1, ∀ y, after.win w = some y → y.state ≠ .armed)
      ∧ ∀ w ∈ set.2.1, ∀ x, s.win w = some x → x.state = .armed →
          let leaving := fun a : Aggressor => s.linkIs a.link .withdrawing
          let lost := fun r : ResId => x.aggressors.any (fun a => leaving a && decide ((s.aggressorSlot a).map genOf = some r))
          let left := x.named.filter (fun r => !lost r)
          let faulted := x.faultMode = .halt ∧ ∃ r ∈ left, s.latched (resSlot r) = true
          (s.linkIs x.victim .withdrawing = true → after.win w = some { x with
            state := .done, endCause := some .linkWithdrawn, armedAt := none, timerEnd := none, named := [] })
          ∧ (s.linkIs x.victim .withdrawing = false → faulted →
            (∃ y, after.win w = some y ∧ y.state = .stopped ∧ y.endCause = some .fault ∧ y.armedAt = none ∧ y.named = [])
            ∧ ((∀ q ∈ s.setup.queue, q.win ≠ w) → (∀ g ∈ s.setup.order, g.win ≠ w ∧ ∀ q ∈ g.group, q.win ≠ w) →
              (∀ q ∈ after.setup.queue, q.win ≠ w) ∧ ∀ g ∈ after.setup.order, g.win ≠ w))
          ∧ (s.linkIs x.victim .withdrawing = false → ¬ faulted → after.win w = some { x with
            state := .setup, armedAt := none, aggressors := x.aggressors.filter (fun a => !leaving a), named := left }))
  ∧ (∀ es : List ArmedEntry,
      let isLeave := fun e : ArmedEntry => decide (e.take = .leave)
      let isConsume := fun e : ArmedEntry => decide (e.take = .consume)
      let chosen := (chooseEntries true es).1
      let kept := (chooseEntries true es).2
      chosen.Sublist es ∧ kept.Sublist es
      ∧ chosen.filter isLeave = es.filter isLeave
      ∧ chosen.filter isConsume = (es.filter isConsume).take 1
      ∧ kept = (es.filter isConsume).drop 1)

/-! ## Error capture (R108 to R117) -/

/-- READ_CAPTURE by a holder or watcher of the slot's CHK: the record as it stands, then since-read clear; SET_CAPTURE
by the holder of a CHK that no window names: both codes replaced, the codes before in the answer; otherwise NOT_HELD
or BUSY. -/
def Obligations.CaptureRequestsActOnTheSlot : Prop :=
  ∀ (s : State) (p : PortId) (i : SlotId) (tag : Byte) (filler : List Byte) (cut : Bool), s.isFitted i = true →
    (s.admitted .readCapture p (u8 i.val) filler = true →
      (s.holds p (chkOf i) = true ∨ s.watches p (chkOf i) = true →
        exec (.readCapture p (frameRest .readCapture tag (u8 i.val) filler) cut) s =
          .next (((s.working .readCapture p tag).modCap i (fun c =>
            { c with live := { c.live with sinceRead := false } })).answerOk .readCapture p tag (enCapture (s.cap i))))
      ∧ (s.holds p (chkOf i) = false → s.watches p (chkOf i) = false →
        exec (.readCapture p (frameRest .readCapture tag (u8 i.val) filler) cut) s =
          .next (s.refusedWith .readCapture p tag .notHeld)))
    ∧ (∀ (f : Fin 5) (g : Fin 4), s.admitted .setCapture p (u8 i.val ++ u8 f.val ++ u8 g.val) filler = true →
      (s.holds p (chkOf i) = true → (s.res (chkOf i)).naming = none →
        exec (.setCapture p (frameRest .setCapture tag (u8 i.val ++ u8 f.val ++ u8 g.val) filler) cut) s =
          .next (((s.working .setCapture p tag).modCap i (fun c =>
            { c with filter := f.val, prescale := g.val })).answerOk .setCapture p tag
              (u8 (s.cap i).filter ++ u8 (s.cap i).prescale)))
      ∧ (s.holds p (chkOf i) = true → (s.res (chkOf i)).naming ≠ none →
        exec (.setCapture p (frameRest .setCapture tag (u8 i.val ++ u8 f.val ++ u8 g.val) filler) cut) s =
          .next (s.refusedWith .setCapture p tag .busy))
      ∧ (s.holds p (chkOf i) = false →
        exec (.setCapture p (frameRest .setCapture tag (u8 i.val ++ u8 f.val ++ u8 g.val) filler) cut) s =
          .next (s.refusedWith .setCapture p tag .notHeld)))

/-- An ERR pulse while counting is enabled: accepted at the minimum width of the filter code, it adds to the accepted pulses
and the residue, and the residue's p-th makes a counted strobe with its time and marks; ended below that width it adds to
the rejected pulses; while counting is disabled it does nothing. LNK falls while counting is enabled: one lock loss, and a
receiving window in DWELL with STOP_ON_LOCKLOSS is stopped with LOCKLOSS; with counting disabled, and at a rise, only
the level changes; a fall of a level that is down already does nothing (log 3). -/
def Obligations.PulsesAndLockLossesAreCounted : Prop :=
  (∀ (s : State) (i : SlotId) (width : Nat), s.rst = false →
      let v := (s.cap i).live
      let n := 2 ^ (s.cap i).prescale
      let least := minWidth (s.cap i).filter
      ((s.cap i).counting = true → least ≤ width → v.residue + 1 < n → exec (.errPulseAccept i width) s =
        .next (s.modLive i (fun _ => { v with accepted := min 4294967295 (v.accepted + 1), residue := v.residue + 1 })))
      ∧ ((s.cap i).counting = true → least ≤ width → n ≤ v.residue + 1 → exec (.errPulseAccept i width) s =
        .next (s.modLive i (fun _ => { v with
          accepted := min 4294967295 (v.accepted + 1)
          residue := 0
          strobes := min 4294967295 (v.strobes + 1)
          first := some (v.first.getD (s.stampAt i))
          last := some (s.stampAt i)
          sinceRead := true
          overcapture := v.overcapture || v.sinceRead })))
      ∧ ((s.cap i).counting = true → width < least → exec (.errPulseReject i width) s =
        .next (s.modLive i (fun _ => { v with rejected := min 4294967295 (v.rejected + 1) })))
      ∧ ((s.cap i).counting = false → exec (.errPulseAccept i width) s = .next s
          ∧ exec (.errPulseReject i width) s = .next s))
  ∧ (∀ (s : State) (i : SlotId), s.rst = false →
      exec (.lnkRise i) s = .next (s.setLnk i true)
      ∧ (s.lnkUp i = false → exec (.lnkFall i) s = .next s)
      ∧ (s.lnkUp i = true → (s.cap i).counting = false → exec (.lnkFall i) s = .next (s.setLnk i false))
      ∧ (s.lnkUp i = true → (s.cap i).counting = true → ∀ w x, (s.cap i).receiving = some w → s.win w = some x →
        (x.stopOnLockLoss = false → exec (.lnkFall i) s = .next ((s.setLnk i false).modLive i (fun v =>
          { v with lockLosses := min 65535 (v.lockLosses + 1) })))
        ∧ (x.stopOnLockLoss = true → x.state = .dwell → ∃ t y, exec (.lnkFall i) s = .next t
          ∧ t.lnkUp i = false ∧ t.win w = some y ∧ y.state = .stopped ∧ y.endCause = some .lockLoss
          ∧ (t.cap i).live.lockLosses = min 65535 ((s.cap i).live.lockLosses + 1))))

/-! ## The setup link (R118 to R128, R200) -/

/-- The start bit of an awaited reply ends the wait, and the reply is clocked in. The exchange in flight ends by its timeout
or with a bad reply, of two bytes or, for a HARVEST, of eighteen (a wrong CRC-8, a status that is not 0, for a HARVEST a
count in a paddle lane at or above the lane count): the transaction, of whatever kind, leaves the queue and the link is
idle; its window, if active, is STOPPED with PADDLE; waiting groups are admitted and the oldest QUEUED transaction goes in
flight. Of a transaction marked discard no window hears, whatever the reply. The timebase is moved on to the timeout
(log 2); a start bit or a timeout where no reply is awaited, and an end of no exchange, do nothing (log 3). -/
def Obligations.FailedExchangeStopsTheWindow : Prop :=
  (∀ s : State, s.rst = false →
      (∀ word deadline, s.setup.exchange = .awaiting word deadline → exec .replyStartBit s = .next { s with
        setup := { s.setup with exchange := .receiving word } })
      ∧ ((∀ word deadline, s.setup.exchange ≠ .awaiting word deadline) → exec .replyStartBit s = .next s))
  ∧ (∀ (s : State) (q : Txn) (rest : List Txn) (word : BitVec 16) (deadline : Nat), s.rst = false →
      s.setup.queue = q :: rest → q.inFlight = true →
      let without := fun u : State => u.setSetup { s.setup with queue := rest, exchange := .idle }
      let stopped := fun u : State => ((without u).stopWindow q.win .paddle).admitWaiting.kick
      let dropped := fun u : State => (without u).admitWaiting.kick
      let late : State := { s with now := max s.now deadline }
      let bad := fun reply : List Byte => reply.getLast? ≠ some (crc8 reply.dropLast) ∨ reply.head? ≠ some 0x00#8
        ∨ (q.kind = .harvest ∧ ∃ c ∈ (paddleCounts reply).drop q.lanes, c ≠ 0)
      (s.setup.exchange = .awaiting word deadline →
        (q.discard = false → exec .setupReplyTimeout s = .next (stopped late))
        ∧ (q.discard = true → exec .setupReplyTimeout s = .next (dropped late)))
      ∧ (s.setup.exchange = .receiving word → ∀ reply : List Byte,
        reply.length = (if q.kind = .harvest then 18 else 2) →
        (q.discard = false → bad reply → exec (.setupExchangeEnd reply) s = .next (stopped s))
        ∧ (q.discard = true → exec (.setupExchangeEnd reply) s = .next (dropped s)))
      ∧ (∀ x, s.win q.win = some x → x.state.active = true → ∀ u, u = s ∨ u = late →
          ∃ y, (stopped u).win q.win = some y ∧ y.state = .stopped ∧ y.endCause = some .paddle))
  ∧ (∀ s : State, s.rst = false →
      (s.setup.exchange = .idle → ∀ reply, exec (.setupExchangeEnd reply) s = .next s)
      ∧ ((∀ word deadline, s.setup.exchange ≠ .awaiting word deadline) → exec .setupReplyTimeout s = .next s))

/-- A CONFIGURE reply of status 0 with its CRC-8: while the window has more transactions the queue goes on and the
window stays in SETUP; the last one leaves SETUP. A good HARVEST reply makes the repeat result, which the window adds to
its accumulator; the last repeat of a FWD window ends it DONE with COMPLETE and leaves the accumulator as the holding of
the receiving CHK. After the FWD direction of a PAIRED window it goes to SETTLE for REV. Otherwise it has reached a
repeat boundary (R79): repeats done goes up, a pending retime applies, withdrawing aggressors are dropped with the naming
of their GENs, and it ends DONE with the first cause that holds, its results placed and its DONE signal given (shown with
no window armed on it), or goes to SETTLE in its first direction. The returns to SETTLE are shown where the dead time has
not passed; the capture record keeps its values (R126). -/
def Obligations.GoodRepliesCarryOn : Prop :=
  (∀ (s : State) (q : Txn) (rest : List Txn) (word : BitVec 16) (x : Window), s.rst = false →
    s.setup.queue = q :: rest → q.inFlight = true → q.discard = false → q.kind ≠ .harvest →
    s.setup.exchange = .receiving word → s.win q.win = some x → x.state = .setup →
    ((∃ u ∈ rest, u.win = q.win ∧ u.discard = false) → exec (.setupExchangeEnd [0x00#8, 0x00#8]) s =
      .next ((s.setSetup { s.setup with queue := rest, exchange := .idle }).admitWaiting.kick))
    ∧ ((∀ u ∈ rest, u.win = q.win → u.discard = true) → s.mayDrive x = false →
      exec (.setupExchangeEnd [0x00#8, 0x00#8]) s =
        .next ((((s.setSetup { s.setup with queue := rest, exchange := .idle }).setWin q.win
          (some { x with state := .settle, timerEnd := none })).admitWaiting).kick))) ∧ (
  ∀ (s : State) (q : Txn) (rest : List Txn) (word : BitVec 16) (x : Window) (k : Link) (reply : List Byte),
    let u := s.setSetup { s.setup with queue := rest, exchange := .idle }
    let r := repeatResult k x (s.cap (k.receiveEnd x.dir).slot) reply
    s.rst = false → s.setup.queue = q :: rest → q.inFlight = true → q.discard = false → q.kind = .harvest →
    s.setup.exchange = .receiving word → s.win q.win = some x → x.state = .harvest → s.link x.victim = some k →
    reply.length = 18 → judgeReply q reply = .ok →
    exec (.setupExchangeEnd reply) s = .next ((u.harvested q.win x r).admitWaiting.kick)
    ∧ (x.mode = .fwd → x.accRev = none → x.repeats = 1 → x.repeatsDone = 0 → x.dir = .fwd → x.signal = none →
      x.retime = none →
      ∃ t y, exec (.setupExchangeEnd reply) s = .next t ∧ t.win q.win = some y ∧ y.state = .done
        ∧ y.endCause = some .complete ∧ y.repeatsDone = 1
        ∧ y.accFwd = x.accFwd.map (fun a => a.add r 1 x.aggressedMark)
        ∧ t.noticed x.owner .windowEnd = true
        ∧ t.run.counters.windowsDone = min 65535 (s.run.counters.windowsDone + 1)
        ∧ ∀ a p since, y.accFwd = some a → (s.res (chkOf k.endB.slot)).lease = .held p since →
            (t.res (chkOf k.endB.slot)).lease = .heldUnposted p since a)) ∧ (
  ∀ (s : State) (q : Txn) (rest : List Txn) (word : BitVec 16) (x : Window) (k : Link) (reply : List Byte),
    let r := repeatResult k x (s.cap (k.receiveEnd x.dir).slot) reply
    let n := min 65535 (x.repeatsDone + 1)
    let timing := x.retime.getD x.timing
    let leaving := fun a : Aggressor => s.linkIs a.link .withdrawing
    let addedTo := fun y : Window => y.acc x.dir = (x.acc x.dir).map (fun a => a.add r n x.aggressedMark)
      ∧ ∀ d, d ≠ x.dir → y.acc d = x.acc d
    let cause : Option EndCause :=
      if x.repeats ≠ 0 ∧ n = x.repeats then some .complete
      else if x.boundaryStop = true then some .boundaryStop
      else if x.repeats = 0 ∧ s.run.state = .closing then some .runClosing
      else if s.linkIs x.victim .withdrawing = true then some .linkWithdrawn
      else none
    s.rst = false → s.setup.queue = q :: rest → q.inFlight = true → q.discard = false → q.kind = .harvest →
    s.setup.exchange = .receiving word → s.win q.win = some x → x.state = .harvest → s.link x.victim = some k →
    reply.length = 18 → judgeReply q reply = .ok →
    (x.mode = .paired → x.dir = .fwd → (∃ f, x.ownFall = some f ∧ s.now < f + x.timing.dead) →
      ∃ t y, exec (.setupExchangeEnd reply) s = .next t ∧ t.win q.win = some y ∧ y.state = .settle ∧ y.dir = .rev
        ∧ y.dwelt = false ∧ y.dwellLeft = x.timing.dwell ∧ y.repeatsDone = x.repeatsDone ∧ addedTo y ∧ t.caps = s.caps)
    ∧ (x.mode ≠ .paired ∨ x.dir = .rev →
      (cause = none → (∃ f, x.ownFall = some f ∧ s.now < f + timing.dead) →
        ∃ t y, exec (.setupExchangeEnd reply) s = .next t ∧ t.win q.win = some y ∧ y.state = .settle
          ∧ y.dir = x.mode.first ∧ y.repeatsDone = n ∧ y.timing = timing ∧ y.retime = none ∧ y.dwelt = false
          ∧ y.dwellLeft = timing.dwell ∧ addedTo y ∧ t.caps = s.caps
          ∧ y.aggressors = x.aggressors.filter (fun a => !leaving a)
          ∧ ∀ a ∈ x.aggressors, leaving a = true → ∀ i, s.aggressorSlot a = some i →
              genOf i ∉ y.named ∧ (t.res (genOf i)).naming = none)
      ∧ (∀ c, cause = some c →
        ∃ t y, exec (.setupExchangeEnd reply) s = .next t ∧ t.win q.win = some y ∧ y.state = .done
          ∧ y.endCause = some c ∧ y.repeatsDone = n ∧ y.timing = timing ∧ y.retime = none ∧ y.named = [] ∧ addedTo y
          ∧ t.noticed x.owner .windowEnd = true
          ∧ (∀ m, x.setsAt .done = [m] → (s.sem m).armed = [] → (t.sem m).set = true
              ∧ (t.sem m).overrun = ((s.sem m).overrun || (s.sem m).set))
          ∧ (x.setsAt .done = [] → t.sems = s.sems
              ∧ t.run.counters.windowsDone = min 65535 (s.run.counters.windowsDone + 1)
              ∧ (∀ m ∈ x.named, (t.res m).naming = none)
              ∧ ((x.mode = .paired → k.endA.slot ≠ k.endB.slot) → (∀ d, d ∉ x.mode.dirs → x.acc d = none) →
                ∀ d a p since, y.acc d = some a → 1 ≤ a.repeats ∨ a.flags.faulted = true →
                  (s.res (chkOf (k.receiveEnd d).slot)).lease = .held p since →
                  (t.res (chkOf (k.receiveEnd d).slot)).lease = .heldUnposted p since a)))))

/-- The lanes of a HARVEST reply (R127): the repeat result's lane counts are the reply's counts mapped to link lanes;
link lane j takes paddle lane j, but at end B of a reversed link paddle lane n - 1 - j; a count in a paddle lane of n to
3 makes the reply BAD_REPLY. The other fields of the result (R126): the pulses are the counted strobes times p,
saturating, the lock losses and the first error time those of the capture record, the dwell length the dwell in force. -/
def Obligations.PaddleLanesMapToLinkLanes : Prop :=
  ∀ (k : Link) (c0 c1 c2 c3 : Nat), 1 ≤ k.lanes → k.lanes ≤ 4 →
    (∀ (x : Window) (c : Capture) (reply : List Byte),
        let r := repeatResult k x c reply
        r.lanes = linkLanes k x.dir (paddleCounts reply)
        ∧ r.pulses = min 4294967295 (c.live.strobes * 2 ^ c.prescale) ∧ r.lockLosses = c.live.lockLosses
        ∧ r.first = c.live.first ∧ r.dwell = x.timing.dwell)
    ∧ (∀ d, (linkLanes k d [c0, c1, c2, c3]).length = k.lanes)
    ∧ (∀ j, j < k.lanes → (linkLanes k .rev [c0, c1, c2, c3])[j]? = [c0, c1, c2, c3][j]?)
    ∧ (k.reversed = false → ∀ j, j < k.lanes → (linkLanes k .fwd [c0, c1, c2, c3])[j]? = [c0, c1, c2, c3][j]?)
    ∧ (k.reversed = true → ∀ j, j < k.lanes →
        (linkLanes k .fwd [c0, c1, c2, c3])[j]? = [c0, c1, c2, c3][k.lanes - 1 - j]?)
    ∧ (∀ (t : Txn) (reply : List Byte) (j : Nat), t.kind = .harvest → t.lanes = k.lanes → reply.length = 18 →
        k.lanes ≤ j → j < 4 → (paddleCounts reply)[j]? ≠ some 0 → reply.head? = some 0x00#8 →
        judgeReply t reply = .badReply)

/-- MISMATCH (R128) of a repeat result, and what becomes of it: the result is added to the accumulator in full, its
lanes, pulses, dwell, lock losses and, where there was none, its first error, and the flag ORed into its flags; a record
with it is graded MARGINAL at best. -/
def Obligations.MismatchWhenCountsCannotBothBeRight : Prop :=
  (∀ (k : Link) (x : Window) (c : Capture) (reply : List Byte),
    let r := repeatResult k x c reply
    r.mismatch = true ↔ r.lanes.sum < r.pulses ∨ ∃ n ∈ r.lanes, r.pulses + (2 ^ c.prescale - 1) < n)
  ∧ (∀ (a : Accumulator) (r : RepeatResult) (n : Nat) (b : Bool),
    (a.add r n b).flags.mismatch = (a.flags.mismatch || r.mismatch)
    ∧ (a.add r n b).pulses = min 4294967295 (a.pulses + r.pulses)
    ∧ (a.add r n b).lanes = List.zipWith (fun u v => min 4294967295 (u + v)) a.lanes r.lanes
    ∧ (a.add r n b).dwell = min 4294967295 (a.dwell + r.dwell)
    ∧ (a.add r n b).lockLosses = min 65535 (a.lockLosses + r.lockLosses)
    ∧ (a.add r n b).repeats = min 255 (a.repeats + 1)
    ∧ (∀ e, a.firstError = some e → (a.add r n b).firstError = some e)
    ∧ (∀ t, a.firstError = none → r.first = some t → (a.add r n b).firstError = some { repeatNo := n, time := t })
    ∧ (a.firstError = none → r.first = none → (a.add r n b).firstError = none)
    ∧ (a.add r n b).flags = { a.flags with
        mismatch := a.flags.mismatch || r.mismatch, aggressed := a.flags.aggressed || b }
    ∧ (a.add r n b).link = a.link ∧ (a.add r n b).dir = a.dir ∧ (a.add r n b).retest = a.retest)
  ∧ (∀ (s : State) (k : Link) (v : VerdictRecord), v.flags.mismatch = true → s.grade k v ≠ .pass)

/-! ## Slot faults (R129 to R136) -/

/-- FLT rises on a fitted slot whose latch is clear: qualifying runs for the slot's qualify time, or the slot latches at
once at 0; on a latched or unfitted slot, and in LOADING on every slot, only the level changes; FLT falls: level down,
qualifying idle, the latch as it was. A rise of a level that is up already does nothing (log 3). -/
def Obligations.FltEdgesQualify : Prop :=
  ∀ (s : State) (i : SlotId), s.rst = false →
    exec (.fltDeassert i) s = .next (s.modFault i (fun f => { f with level := false, qualifying := none }))
    ∧ ((s.fault i).level = true → exec (.fltAssert i) s = .next s)
    ∧ ((s.fault i).level = false → s.run.state ≠ .loading → s.isFitted i = true → s.latched i = false →
      0 < (s.slotEntry i).qualify →
      exec (.fltAssert i) s = .next (s.modFault i (fun f =>
        { f with level := true, qualifying := some (s.now + (s.slotEntry i).qualify) })))
    ∧ ((s.fault i).level = false → s.run.state ≠ .loading → s.isFitted i = true → s.latched i = false →
      (s.slotEntry i).qualify = 0 →
      ∃ t, exec (.fltAssert i) s = .next t ∧ t.latched i = true ∧ (t.fault i).level = true)
    ∧ ((s.fault i).level = false → s.run.state = .loading ∨ s.isFitted i = false ∨ s.latched i = true →
      exec (.fltAssert i) s = .next (s.modFault i (fun f => { f with level := true })))

/-- The qualify deadline: the latch set with its time, the counts up, the pin TXEN cut, FAULT on every SUPERVISOR, every
holder and watcher of the slot's resources and every owner of an active window that names it; no other slot's fault
record, no watch and no holder changes. A window in SETUP through PAUSED that names the slot is STOPPED with FAULT in HALT
mode, FAULTED on its accumulators; in PAUSE mode it is PAUSED from LEAD or DWELL, its drive down, its dwell left saved and
INTERRUPTED set, and stays as it was in the other states; every other window is as it was. The timebase is moved on to the
deadline (log 2); with no deadline running nothing happens (log 3). -/
def Obligations.QualifiedFaultLatches : Prop :=
  ∀ (s : State) (i : SlotId), s.rst = false →
    ((s.fault i).qualifying = none → exec (.faultQualifyExpiry i) s = .next s)
    ∧ (∀ d, (s.fault i).qualifying = some d → ∃ t, exec (.faultQualifyExpiry i) s = .next t
      ∧ t.fault i = { s.fault i with
          latch := true, latchedAt := some (max s.now d / 1000), qualifying := none,
          count := min 255 ((s.fault i).count + 1) }
      ∧ (∀ j, j ≠ i → t.fault j = s.fault j)
      ∧ t.run.counters.faultLatchings = min 65535 (s.run.counters.faultLatchings + 1)
      ∧ t.txenPin i = false
      ∧ (∀ q, (s.port q).role = .supervisor ∨ s.holds q (genOf i) = true ∨ s.holds q (chkOf i) = true
          ∨ s.watches q (chkOf i) = true
          ∨ (∃ w x, s.win w = some x ∧ x.owner = q ∧ x.state.active = true ∧ x.namesSlot i = true) →
          t.noticed q .fault = true)
      ∧ (∀ r, (t.res r).lease.holder = (s.res r).lease.holder ∧ (t.res r).lease.watchers = (s.res r).lease.watchers)
      ∧ ∀ w x, s.win w = some x →
        let reacts := x.state.phase = true ∧ x.namesSlot i = true
        (¬ reacts → t.win w = some x)
        ∧ (reacts → x.faultMode = .halt → ∃ y, t.win w = some y ∧ y.state = .stopped ∧ y.endCause = some .fault
            ∧ ∀ b a, y.acc b = some a → a.flags.faulted = true)
        ∧ (reacts → x.faultMode = .pause → x.state ≠ .lead → x.state ≠ .dwell → t.win w = some x)
        ∧ (reacts → x.faultMode = .pause → x.state = .lead ∨ x.state = .dwell → ∃ y, t.win w = some y
            ∧ y.state = .paused ∧ y.timerEnd = none ∧ y.ownFall = some (max s.now d)
            ∧ (x.state = .lead → y.dwellLeft = x.dwellLeft)
            ∧ (∀ e, x.state = .dwell → x.timerEnd = some e → y.dwellLeft = e - max s.now d)
            ∧ (∀ a, y.acc x.dir = some a → a.flags.interrupted = true)
            ∧ (∀ j ∈ s.driveSlots x, t.txenPin j = false)
            ∧ ∀ j, s.receiveSlot x x.dir = some j → t.ckenPin j = false ∧ (t.cap j).counting = false
                ∧ (t.cap j).live = (s.cap j).live))

/-- CLEAR_FAULT: refused with FAULT_ACTIVE while FLT of a fitted slot is asserted; a set latch is cleared and handed to
the Lease Directory and the windows, the flag 1 in the answer; a clear latch leaves everything, the flag 0. Of the
windows that name the slot, with every other latch they name clear, a PAUSED one is in SETTLE again while its dead time
has not passed (R89), and one in PAUSED or SETTLE whose times have passed enters LEAD (shown for the only window that names
the slot, with a lead above 0); one with another latch set, and a window in no such state, stays as it was. The order of
several windows is the model's choice (log 30). -/
def Obligations.ClearFaultClearsTheLatch : Prop :=
  ∀ (s : State) (p : PortId) (i : SlotId) (tag : Byte) (filler : List Byte) (cut : Bool),
    s.admitted .clearFault p (u8 i.val) filler = true →
    (s.isFitted i = true → (s.fault i).level = true →
      exec (.clearFault p (frameRest .clearFault tag (u8 i.val) filler) cut) s =
        .next (s.refusedWith .clearFault p tag .faultActive))
    ∧ (s.isFitted i = false ∨ (s.fault i).level = false →
      (s.latched i = true → exec (.clearFault p (frameRest .clearFault tag (u8 i.val) filler) cut) s =
        .next (((((s.working .clearFault p tag).modFault i (fun f =>
          { f with latch := false, latchedAt := none })).grantPass).latchCleared i).answerOk .clearFault p tag
            (enFlag true))
        ∧ ∃ t, exec (.clearFault p (frameRest .clearFault tag (u8 i.val) filler) cut) s = .next t
          ∧ ∀ w x, s.win w = some x →
            let waiting := (x.state = .paused ∨ x.state = .settle) ∧ x.namesSlot i = true
            let othersClear := ∀ r ∈ x.named, resSlot r ≠ i → s.latched (resSlot r) = false
            (¬ waiting → x.state ≠ .armed → t.win w = some x)
            ∧ (waiting → ¬ othersClear → t.win w = some x)
            ∧ (waiting → othersClear → (∃ f, x.ownFall = some f ∧ s.now < f + x.timing.dead) →
              (x.state = .paused → t.win w = some { x with state := .settle, timerEnd := none })
              ∧ (x.state = .settle → t.win w = some x))
            ∧ (waiting → othersClear → (∀ v y, v ≠ w → s.win v = some y → y.namesSlot i = false) →
              (∀ f, x.ownFall = some f → f + x.timing.dead ≤ s.now) →
              (∀ j ∈ s.driveSlots x, ∀ f, Table.rd s.eng.fall j = some f → f + (s.slotEntry j).quiet ≤ s.now) →
              0 < x.timing.lead →
              t.win w = some { x with state := .lead, timerEnd := some (s.now + x.timing.lead) }
              ∧ ∀ j ∈ s.driveSlots x, Table.rd t.eng.txen j = true))
      ∧ (s.latched i = false → exec (.clearFault p (frameRest .clearFault tag (u8 i.val) filler) cut) s =
        .next ((s.working .clearFault p tag).answerOk .clearFault p tag (enFlag false))))

/-! ## Posting and the Verdict Table (R137 to R160) -/

/-- READ_VERDICT with flush 0, or with no result of its records in the queue, is answered at once and changes nothing
else; with flush 1 and such results it is not answered: the slot stays WORKING with them as its flush set, and those
in ordinary buffers become promoted. The layout of the answer rests on log 12. -/
def Obligations.ReadVerdictAnswersOrWaits : Prop :=
  ∀ (s : State) (p : PortId) (l : LinkId) (c : DirChoice) (n : Fin 3) (flush : Bool) (tag : Byte)
    (filler : List Byte) (cut : Bool),
    let params := u8 l.val ++ u8 n.val ++ enFlag flush
    let inSet := fun q : Posted => decide (q.result.link = l) && c.covers q.result.dir
    dirChoiceOf (BitVec.ofNat 8 n.val) = some c → (s.link l).isSome = true →
    s.admitted .readVerdict p params filler = true →
    (flush = false ∨ (∀ q ∈ s.posted, inSet q = false) →
      exec (.readVerdict p (frameRest .readVerdict tag params filler) cut) s =
        .next ((s.working .readVerdict p tag).answer p Req.readVerdict.code tag (s.verdictReply l c)))
    ∧ (flush = true → (∃ q ∈ s.posted, inSet q = true) →
      exec (.readVerdict p (frameRest .readVerdict tag params filler) cut) s =
        .next ((((s.working .readVerdict p tag).setPost { s.post with ordinary := s.post.ordinary.map (fun q =>
          if inSet q then { q with promoted := true } else q) })).setSlot p (.working Req.readVerdict.code tag
            (some { link := l, dirs := c, members := (s.posted.filter inSet).map (fun q => q.serial) }))))

/-- The commit in flight completes, its result in an ordinary buffer or in the recall buffer: for a link that is not
WITHDRAWN its totals are added to the record, or replace it for a RETEST result, its port is the last port, the record
regraded, the coverage count adjusted and the coverage-complete flag evaluated, with RUN_STATE on all four ports exactly
where it goes from clear to set (R32), and the first error is the record's, or where it has none the result's with the
merge number, of a RETEST result the result's with merge number 1 (R143, R144); for a WITHDRAWN link it is dropped and
counted, the table unchanged. Either way the result has left its buffer and every flush set; a READ_VERDICT whose set is
now empty is answered, the other response slots stand (R155; shown in a run that goes on, with no CHK in the expired
order). A recall buffer that the commit empties takes the CHKs of the expired order in turn, one without a holding
making way for the next (R55; shown with no window naming them and no entry waiting). In CLOSING the run is CLOSED when
no window is in a phase state, nothing is held and nothing else is posted, the pending withdrawals completed (R27, R28).
When the commit completes is free within its 2 µs (log 5). -/
def Obligations.CommitMergesOrDrops : Prop :=
  (∀ (s : State) (q : Posted) (fromRecall : Bool) (clock : CommitClock) (k : Link) (v : VerdictRecord),
    s.rst = false → s.run.state = .running → s.dir.expired = [] → s.post.commit = some clock →
    s.inFlight = some (q, fromRecall) → (s.posted.map (fun x => x.serial)).Nodup →
    s.link q.result.link = some k → s.record q.result.link q.result.dir = some v →
    (k.state ≠ .withdrawn → ∃ t y, exec .commitComplete s = .next t
      ∧ t.record q.result.link q.result.dir = some y
      ∧ y.lastPort = some q.port ∧ y.verdict = s.grade k y
      ∧ (q.result.retest = false →
          y.lanes = List.zipWith (fun a b => min 4294967295 (a + b)) v.lanes q.result.lanes
          ∧ y.pulses = min 4294967295 (v.pulses + q.result.pulses)
          ∧ y.dwell = min 4294967295 (v.dwell + q.result.dwell) ∧ y.merged = min 255 (v.merged + 1)
          ∧ y.lockLosses = min 65535 (v.lockLosses + q.result.lockLosses) ∧ y.flags = v.flags.union q.result.flags
          ∧ (∀ e, v.firstError = some e → y.firstError = some e)
          ∧ (v.firstError = none → y.firstError = q.result.firstError.map (fun f =>
              { merge := min 255 (v.merged + 1), repeatNo := f.repeatNo, time := f.time })))
      ∧ (q.result.retest = true → y.lanes = q.result.lanes ∧ y.pulses = q.result.pulses
          ∧ y.dwell = q.result.dwell ∧ y.merged = 1 ∧ y.lockLosses = q.result.lockLosses
          ∧ y.flags = q.result.flags
          ∧ y.firstError = q.result.firstError.map (fun f => { merge := 1, repeatNo := f.repeatNo, time := f.time }))
      ∧ (∀ l d, l ≠ q.result.link ∨ d ≠ q.result.dir → t.record l d = s.record l d)
      ∧ t.table.coverage = t.gradedCount ∧ t.completeEvaluated
      ∧ (∀ p, t.noticed p .runState = (s.noticed p .runState || (!s.run.complete && t.run.complete)))
      ∧ t.posted.map (fun x => x.serial) = (s.posted.map (fun x => x.serial)).filter (fun n => decide (n ≠ q.serial))
      ∧ t.dir = s.dir ∧ t.eng = s.eng ∧ t.map = s.map ∧ t.wd = s.wd)
    ∧ (k.state = .withdrawn → ∃ t, exec .commitComplete s = .next t
      ∧ t.table = s.table ∧ t.run.complete = s.run.complete ∧ (∀ p, (t.port p).notices = (s.port p).notices)
      ∧ t.run.counters.postsDropped = min 65535 (s.run.counters.postsDropped + 1)
      ∧ t.posted.map (fun x => x.serial) = (s.posted.map (fun x => x.serial)).filter (fun n => decide (n ≠ q.serial))
      ∧ t.dir = s.dir ∧ t.eng = s.eng ∧ t.map = s.map ∧ t.wd = s.wd)
    ∧ ∃ t, exec .commitComplete s = .next t ∧ ∀ p,
      (∀ code g f, (s.port p).slot = .working code g (some f) →
        ((∀ n ∈ f.members, n = q.serial) →
          (t.port p).slot = .answered (responseFrame (t.verdictReply f.link f.dirs) code g))
        ∧ ((∃ n ∈ f.members, n ≠ q.serial) → (t.port p).slot = .working code g (some { f with
            members := f.members.filter (fun n => decide (n ≠ q.serial)) })))
      ∧ ((∀ code g f, (s.port p).slot ≠ .working code g (some f)) → (t.port p).slot = (s.port p).slot))
  ∧ (∀ (s : State) (q : Posted) (clock : CommitClock) (empty : List ResId), s.rst = false → s.run.state = .running →
    s.dir.waits = [] → s.post.commit = some clock → s.inFlight = some (q, true) →
    (∀ r ∈ empty, (s.res r).naming = none ∧ ∃ p since, (s.res r).lease = .held p since) →
    (empty.Nodup → s.dir.expired = empty → ∃ t, exec .commitComplete s = .next t ∧ t.dir.expired = []
      ∧ t.post.recallBuf = none ∧ (∀ r, r ∉ empty → t.res r = s.res r)
      ∧ ∀ r ∈ empty, (t.res r).lease = .free ∧ (t.res r).recallState = .none
          ∧ ∀ p, s.holds p r = true → t.noticed p .leaseLost = true)
    ∧ (∀ r more p since a, (empty ++ r :: more).Nodup → s.dir.expired = empty ++ r :: more → (s.res r).naming = none →
      (s.res r).lease = .heldUnposted p since a →
      ∃ t z, exec .commitComplete s = .next t ∧ t.dir.expired = more
        ∧ t.post.recallBuf = some z ∧ z.port = p ∧ z.result = { a with flags := { a.flags with recalled := true } }
        ∧ (∀ x, x ∉ empty → x ≠ r → t.res x = s.res x)
        ∧ ∀ x, x ∈ empty ∨ x = r → (t.res x).lease = .free ∧ (t.res x).recallState = .none
            ∧ ∀ y, s.holds y x = true → t.noticed y .leaseLost = true))
  ∧ (∀ (s : State) (q : Posted) (fromRecall : Bool) (clock : CommitClock), s.rst = false → s.run.state = .closing →
    s.dir.expired = [] → s.post.commit = some clock → s.inFlight = some (q, fromRecall) →
    (s.posted.map (fun x => x.serial)).Nodup →
    let atRest := (∀ w x, s.win w = some x → x.state.phase = false) ∧ (∀ r, (s.res r).lease.holder = none)
      ∧ ∀ x ∈ s.posted, x.serial = q.serial
    ∃ t, exec .commitComplete s = .next t
      ∧ (atRest ∨ s.linkIs q.result.link .withdrawn = false → t.completeEvaluated ∧ t.completeNoticed s)
      ∧ (¬ atRest → t.run.state = .closing ∧ t.run.time = s.run.time ∧ t.wd = s.wd)
      ∧ (atRest → t.run.state = .closed ∧ t.run.time = .stopped s.runTimeMs ∧ t.wd.list = []
        ∧ (∀ e ∈ s.wd.list, (s.link e.link).isSome = true → t.linkIs e.link .withdrawn = true)
        ∧ ∀ p, t.noticed p .runState = true))

/-- The Commit Engine's choice, when it is idle: the recall buffer's result, else the oldest promoted ordinary one,
else the oldest ordinary one (shown with results of distinct serials). -/
def Obligations.EngineTakesRecallThenPromotedThenOldest : Prop :=
  ∀ s : State, s.post.commit = none →
    (∀ q, s.post.recallBuf = some q → (s.takeCommit).post.recallBuf = some { q with inFlight := true })
    ∧ (∀ older q younger, s.post.recallBuf = none → s.post.ordinary = older ++ q :: younger →
      (s.post.ordinary.map (fun x => x.serial)).Nodup →
      (q.promoted = true ∧ (∀ x ∈ older, x.promoted = false))
        ∨ (older = [] ∧ ∀ x ∈ s.post.ordinary, x.promoted = false) →
      (s.takeCommit).post.ordinary = older ++ { q with inFlight := true } :: younger
      ∧ (s.takeCommit).post.commit.isSome = true)
    ∧ (s.post.recallBuf = none → s.post.ordinary = [] → s.takeCommit = s)

/-- The grading ladder (R148): each verdict by the first of its cases that holds; a regrade of a record gives it that
verdict and leaves its other fields and every other record. -/
def Obligations.GradingLadder : Prop :=
  (∀ (s : State) (k : Link) (v : VerdictRecord),
    let lim := Table.rd s.map.limits k.limitSet
    let above := fun limit : Nat => 0 < v.dwell ∧ ∃ e ∈ v.lanes, limit < e * 1000000 / v.dwell
    let failing := v.flags.faulted = true ∨ lim.lockLimit < v.lockLosses ∨ above lim.failLimit
    let fittedNeighbour := ∃ n ∈ k.neighbours, ∃ m, s.linkNat n = some m ∧ m.state = .fitted
    (k.state = .withdrawn → s.grade k v = .withdrawn)
    ∧ (k.state ≠ .withdrawn → v.merged = 0 → s.grade k v = .untested)
    ∧ (k.state ≠ .withdrawn → v.merged ≠ 0 → failing → s.grade k v = .fail)
    ∧ (k.state ≠ .withdrawn → v.merged ≠ 0 → ¬ failing → v.dwell < lim.minDwell → s.grade k v = .incomplete)
    ∧ (k.state ≠ .withdrawn → v.merged ≠ 0 → ¬ failing → lim.minDwell ≤ v.dwell →
      (above lim.passLimit ∨ v.flags.mismatch = true ∨ v.flags.interrupted = true → s.grade k v = .marginal)
      ∧ (¬ above lim.passLimit → v.flags.mismatch = false → v.flags.interrupted = false →
        (fittedNeighbour → v.flags.aggressed = false → s.grade k v = .incomplete)
        ∧ (¬ fittedNeighbour ∨ v.flags.aggressed = true → s.grade k v = .pass))))
  ∧ (∀ (s : State) (l : LinkId) (d : Dir) (k : Link) (v : VerdictRecord), s.link l = some k → s.record l d = some v →
    (s.regrade l d).record l d = some { v with verdict := s.grade k v }
    ∧ (∀ m c, m ≠ l ∨ c ≠ d → (s.regrade l d).record m c = s.record m c)
    ∧ s.regrade l d = { s with table := (s.regrade l d).table })

/-! ## Slot lamps (R191 to R197) -/

/-- SET_LAMP of a fitted slot: its mode, blink and invert replaced, the settings before and the lamp's level after in the
answer; an unfitted slot is refused with BAD_PARAM. A blink clock changes its half-period: at the end of the present one,
or at once where the change is overdue (log 2); the other clock and everything else stay. The byte of a level in the
answer rests on log 33. What a lamp shows: the source of its mode, for VERDICT from the records of the links not WITHDRAWN
that have an end at its slot; a lit source blinking at the global rate by the blink flag in the modes it applies to; the
level of the source on its clock, inverted by the invert flag; unlit in LOADING and on an unfitted slot (R192 to R194). -/
def Obligations.SetLampAndBlinkClocks : Prop :=
  (∀ (s : State) (p : PortId) (i : SlotId) (m : Fin 8) (mode : LampMode) (blink invert : Bool) (tag : Byte)
      (filler : List Byte) (cut : Bool),
      let params := u8 i.val ++ u8 m.val ++ enFlag blink ++ enFlag invert
      let recs := Table.put s.lamps.recs i { mode := mode, blink := blink, invert := invert }
      lampModeOf (BitVec.ofNat 8 m.val) = some mode → s.admitted .setLamp p params filler = true →
      (s.isFitted i = true → exec (.setLamp p (frameRest .setLamp tag params filler) cut) s =
        .next (((s.working .setLamp p tag).setLamps { s.lamps with recs := recs }).answerOk .setLamp p tag
          (u8 (s.lamp i).mode.num ++ enFlag (s.lamp i).blink ++ enFlag (s.lamp i).invert
            ++ enFlag ((s.setLamps { s.lamps with recs := recs }).lampLit i))))
      ∧ (s.isFitted i = false → exec (.setLamp p (frameRest .setLamp tag params filler) cut) s =
        .next (s.refusedWith .setLamp p tag .badParam)))
  ∧ (∀ s : State, s.rst = false →
      (s.lamps.slowOn = decide (s.nowMs / 250 % 2 = 0) → exec (.blinkClockToggle .slow) s = .next { s with
        now := max s.now ((s.nowMs / 250 + 1) * 250 * 1000)
        lamps := { s.lamps with slowOn := !s.lamps.slowOn } })
      ∧ (s.lamps.fastOn = decide (s.nowMs / 100 % 2 = 0) → exec (.blinkClockToggle .fast) s = .next { s with
        now := max s.now ((s.nowMs / 100 + 1) * 100 * 1000)
        lamps := { s.lamps with fastOn := !s.lamps.fastOn } })
      ∧ (s.lamps.slowOn ≠ decide (s.nowMs / 250 % 2 = 0) → exec (.blinkClockToggle .slow) s = .next { s with
        lamps := { s.lamps with slowOn := !s.lamps.slowOn } })
      ∧ (s.lamps.fastOn ≠ decide (s.nowMs / 100 % 2 = 0) → exec (.blinkClockToggle .fast) s = .next { s with
        lamps := { s.lamps with fastOn := !s.lamps.fastOn } }))
  ∧ (∀ (s : State) (i : SlotId),
      let active := s.txenPin i = true ∨ s.ckenPin i = true
      let held := (s.res (genOf i)).lease.holder ≠ none ∨ (s.res (chkOf i)).lease.holder ≠ none
      let inSet := fun v : Verdict => ∃ l k d x, s.link l = some k ∧ k.state ≠ .withdrawn
        ∧ (k.endA.slot = i ∨ k.endB.slot = i) ∧ s.record l d = some x ∧ x.verdict = v
      s.lampSource i .off = .unlit ∧ s.lampSource i .on = .lit
      ∧ (s.lnkUp i = true → s.lampSource i .link = .lit
          ∧ (active → s.lampSource i .linkAct = .blinking .fast) ∧ (¬ active → s.lampSource i .linkAct = .lit))
      ∧ (s.lnkUp i = false → s.lampSource i .link = .unlit ∧ s.lampSource i .linkAct = .unlit)
      ∧ (active → s.lampSource i .activity = .lit) ∧ (¬ active → s.lampSource i .activity = .unlit)
      ∧ ((s.fault i).level = true → s.lampSource i .fault = .blinking .fast)
      ∧ ((s.fault i).level = false → s.latched i = true → s.lampSource i .fault = .lit)
      ∧ ((s.fault i).level = false → s.latched i = false → s.lampSource i .fault = .unlit)
      ∧ (held → s.lampSource i .held = .lit) ∧ (¬ held → s.lampSource i .held = .unlit)
      ∧ (inSet .fail → s.lampSource i .verdict = .blinking .fast)
      ∧ (¬ inSet .fail → inSet .marginal → s.lampSource i .verdict = .blinking .slow)
      ∧ ((∃ v, inSet v) → (∀ v, inSet v → v = .pass) → s.lampSource i .verdict = .lit)
      ∧ ((∀ v, ¬ inSet v) → s.lampSource i .verdict = .unlit)
      ∧ (¬ inSet .fail → ¬ inSet .marginal → (∃ v, inSet v ∧ v ≠ .pass) → s.lampSource i .verdict = .unlit)
      ∧ (let src := s.lampSource i (s.lamp i).mode
         let flagged := (s.lamp i).blink = true ∧ (s.lamp i).mode ≠ .verdict ∧ (s.lamp i).mode ≠ .linkAct
           ∧ (s.lamp i).mode ≠ .fault
         (src = .unlit → s.lampLevel i = (s.lamp i).invert)
         ∧ (src = .lit → ¬ flagged → s.lampLevel i = !(s.lamp i).invert)
         ∧ (src = .lit → flagged → s.lampLevel i = xor (s.clockOn s.lamps.rate) (s.lamp i).invert)
         ∧ (∀ rate, src = .blinking rate → s.lampLevel i = xor (s.clockOn rate) (s.lamp i).invert))
      ∧ (s.run.state ≠ .loading → s.isFitted i = true → s.lampLit i = s.lampLevel i)
      ∧ (s.run.state = .loading ∨ s.isFitted i = false → s.lampLit i = false))

/-- SET_BLINK (R197): not in LOADING, a SUPERVISOR alone, a rate of SLOW (0) or FAST (1); the rate replaced and the one
before in the answer; the lamps in VERDICT, LINK_ACT and FAULT show what they showed, and a lamp that blinks by its
blink flag follows the chosen clock. -/
def Obligations.SetBlinkReplacesTheRate : Prop :=
  ∀ (s : State) (p : PortId) (tag : Byte) (params filler : List Byte) (cut : Bool), s.taken p params filler = true →
    let answers := fun t => exec (.setBlink p (frameRest .setBlink tag params filler) cut) s = .next t
    (s.run.state = .loading → answers (s.refusedWith .setBlink p tag .wrongState))
    ∧ (s.run.state ≠ .loading → (s.port p).role ≠ .supervisor → answers (s.refusedWith .setBlink p tag .notPermitted))
    ∧ (s.run.state ≠ .loading → (s.port p).role = .supervisor →
      (params.length ≠ 1 ∨ (∃ b, params = [b] ∧ 1 < b.toNat) → answers (s.refusedWith .setBlink p tag .badParam))
      ∧ ∀ rate : BlinkRate, params = u8 (BlinkRate.num rate) →
        answers (((s.working .setBlink p tag).setLamps { s.lamps with rate := rate }).answerOk .setBlink p tag
          (u8 (BlinkRate.num s.lamps.rate)))
        ∧ ∀ i, ((s.lamp i).mode = .verdict ∨ (s.lamp i).mode = .linkAct ∨ (s.lamp i).mode = .fault →
              (s.setLamps { s.lamps with rate := rate }).lampLit i = s.lampLit i)
            ∧ ((s.lamp i).mode.blinks = true → (s.lamp i).blink = true → s.lampSource i (s.lamp i).mode = .lit →
              (s.setLamps { s.lamps with rate := rate }).lampLevel i = xor (s.clockOn rate) (s.lamp i).invert))

end
end

