-- ==== Sys2Proof/Laws/State.lean ====
section
/-! SUPPORT. Sys2Proof/Laws/State.lean: one lemma per field per update of State, each true by rfl. -/

namespace Sys2Proof.Machine

variable (s : State)

/-! ## modPort -/

@[simp] theorem modPort_rst (p : PortId) (f : AgentPort → AgentPort) : (s.modPort p f).rst = s.rst := rfl
@[simp] theorem modPort_now (p : PortId) (f : AgentPort → AgentPort) : (s.modPort p f).now = s.now := rfl
@[simp] theorem modPort_run (p : PortId) (f : AgentPort → AgentPort) : (s.modPort p f).run = s.run := rfl
@[simp] theorem modPort_map (p : PortId) (f : AgentPort → AgentPort) : (s.modPort p f).map = s.map := rfl
@[simp] theorem modPort_loader (p : PortId) (f : AgentPort → AgentPort) : (s.modPort p f).loader = s.loader := rfl
@[simp] theorem modPort_dir (p : PortId) (f : AgentPort → AgentPort) : (s.modPort p f).dir = s.dir := rfl
@[simp] theorem modPort_eng (p : PortId) (f : AgentPort → AgentPort) : (s.modPort p f).eng = s.eng := rfl
@[simp] theorem modPort_sems (p : PortId) (f : AgentPort → AgentPort) : (s.modPort p f).sems = s.sems := rfl
@[simp] theorem modPort_caps (p : PortId) (f : AgentPort → AgentPort) : (s.modPort p f).caps = s.caps := rfl
@[simp] theorem modPort_setup (p : PortId) (f : AgentPort → AgentPort) : (s.modPort p f).setup = s.setup := rfl
@[simp] theorem modPort_faults (p : PortId) (f : AgentPort → AgentPort) : (s.modPort p f).faults = s.faults := rfl
@[simp] theorem modPort_post (p : PortId) (f : AgentPort → AgentPort) : (s.modPort p f).post = s.post := rfl
@[simp] theorem modPort_table (p : PortId) (f : AgentPort → AgentPort) : (s.modPort p f).table = s.table := rfl
@[simp] theorem modPort_wd (p : PortId) (f : AgentPort → AgentPort) : (s.modPort p f).wd = s.wd := rfl
@[simp] theorem modPort_ports (p : PortId) (f : AgentPort → AgentPort) : (s.modPort p f).ports = Table.upd s.ports p f := rfl
@[simp] theorem modPort_lamps (p : PortId) (f : AgentPort → AgentPort) : (s.modPort p f).lamps = s.lamps := rfl
@[simp] theorem modPort_lnk (p : PortId) (f : AgentPort → AgentPort) : (s.modPort p f).lnk = s.lnk := rfl
@[simp] theorem modPort_freeIndex (p : PortId) (f : AgentPort → AgentPort) : (s.modPort p f).freeIndex = s.freeIndex := rfl
@[simp] theorem modPort_pending (p : PortId) (f : AgentPort → AgentPort) : (s.modPort p f).pending = s.pending := rfl

/-! ## modRes -/

@[simp] theorem modRes_rst (r : ResId) (f : Resource → Resource) : (s.modRes r f).rst = s.rst := rfl
@[simp] theorem modRes_now (r : ResId) (f : Resource → Resource) : (s.modRes r f).now = s.now := rfl
@[simp] theorem modRes_run (r : ResId) (f : Resource → Resource) : (s.modRes r f).run = s.run := rfl
@[simp] theorem modRes_map (r : ResId) (f : Resource → Resource) : (s.modRes r f).map = s.map := rfl
@[simp] theorem modRes_loader (r : ResId) (f : Resource → Resource) : (s.modRes r f).loader = s.loader := rfl
@[simp] theorem modRes_dir (r : ResId) (f : Resource → Resource) : (s.modRes r f).dir = { s.dir with res := Table.upd s.dir.res r f } := rfl
@[simp] theorem modRes_eng (r : ResId) (f : Resource → Resource) : (s.modRes r f).eng = s.eng := rfl
@[simp] theorem modRes_sems (r : ResId) (f : Resource → Resource) : (s.modRes r f).sems = s.sems := rfl
@[simp] theorem modRes_caps (r : ResId) (f : Resource → Resource) : (s.modRes r f).caps = s.caps := rfl
@[simp] theorem modRes_setup (r : ResId) (f : Resource → Resource) : (s.modRes r f).setup = s.setup := rfl
@[simp] theorem modRes_faults (r : ResId) (f : Resource → Resource) : (s.modRes r f).faults = s.faults := rfl
@[simp] theorem modRes_post (r : ResId) (f : Resource → Resource) : (s.modRes r f).post = s.post := rfl
@[simp] theorem modRes_table (r : ResId) (f : Resource → Resource) : (s.modRes r f).table = s.table := rfl
@[simp] theorem modRes_wd (r : ResId) (f : Resource → Resource) : (s.modRes r f).wd = s.wd := rfl
@[simp] theorem modRes_ports (r : ResId) (f : Resource → Resource) : (s.modRes r f).ports = s.ports := rfl
@[simp] theorem modRes_lamps (r : ResId) (f : Resource → Resource) : (s.modRes r f).lamps = s.lamps := rfl
@[simp] theorem modRes_lnk (r : ResId) (f : Resource → Resource) : (s.modRes r f).lnk = s.lnk := rfl
@[simp] theorem modRes_freeIndex (r : ResId) (f : Resource → Resource) : (s.modRes r f).freeIndex = s.freeIndex := rfl
@[simp] theorem modRes_pending (r : ResId) (f : Resource → Resource) : (s.modRes r f).pending = s.pending := rfl

/-! ## setLease -/

@[simp] theorem setLease_rst (r : ResId) (l : Lease) : (s.setLease r l).rst = s.rst := rfl
@[simp] theorem setLease_now (r : ResId) (l : Lease) : (s.setLease r l).now = s.now := rfl
@[simp] theorem setLease_run (r : ResId) (l : Lease) : (s.setLease r l).run = s.run := rfl
@[simp] theorem setLease_map (r : ResId) (l : Lease) : (s.setLease r l).map = s.map := rfl
@[simp] theorem setLease_loader (r : ResId) (l : Lease) : (s.setLease r l).loader = s.loader := rfl
@[simp] theorem setLease_dir (r : ResId) (l : Lease) : (s.setLease r l).dir = { s.dir with res := Table.upd s.dir.res r (fun x => { x with lease := l }) } := rfl
@[simp] theorem setLease_eng (r : ResId) (l : Lease) : (s.setLease r l).eng = s.eng := rfl
@[simp] theorem setLease_sems (r : ResId) (l : Lease) : (s.setLease r l).sems = s.sems := rfl
@[simp] theorem setLease_caps (r : ResId) (l : Lease) : (s.setLease r l).caps = s.caps := rfl
@[simp] theorem setLease_setup (r : ResId) (l : Lease) : (s.setLease r l).setup = s.setup := rfl
@[simp] theorem setLease_faults (r : ResId) (l : Lease) : (s.setLease r l).faults = s.faults := rfl
@[simp] theorem setLease_post (r : ResId) (l : Lease) : (s.setLease r l).post = s.post := rfl
@[simp] theorem setLease_table (r : ResId) (l : Lease) : (s.setLease r l).table = s.table := rfl
@[simp] theorem setLease_wd (r : ResId) (l : Lease) : (s.setLease r l).wd = s.wd := rfl
@[simp] theorem setLease_ports (r : ResId) (l : Lease) : (s.setLease r l).ports = s.ports := rfl
@[simp] theorem setLease_lamps (r : ResId) (l : Lease) : (s.setLease r l).lamps = s.lamps := rfl
@[simp] theorem setLease_lnk (r : ResId) (l : Lease) : (s.setLease r l).lnk = s.lnk := rfl
@[simp] theorem setLease_freeIndex (r : ResId) (l : Lease) : (s.setLease r l).freeIndex = s.freeIndex := rfl
@[simp] theorem setLease_pending (r : ResId) (l : Lease) : (s.setLease r l).pending = s.pending := rfl

/-! ## setNaming -/

@[simp] theorem setNaming_rst (r : ResId) (w : Option WinId) : (s.setNaming r w).rst = s.rst := rfl
@[simp] theorem setNaming_now (r : ResId) (w : Option WinId) : (s.setNaming r w).now = s.now := rfl
@[simp] theorem setNaming_run (r : ResId) (w : Option WinId) : (s.setNaming r w).run = s.run := rfl
@[simp] theorem setNaming_map (r : ResId) (w : Option WinId) : (s.setNaming r w).map = s.map := rfl
@[simp] theorem setNaming_loader (r : ResId) (w : Option WinId) : (s.setNaming r w).loader = s.loader := rfl
@[simp] theorem setNaming_dir (r : ResId) (w : Option WinId) : (s.setNaming r w).dir = { s.dir with res := Table.upd s.dir.res r (fun x => { x with naming := w }) } := rfl
@[simp] theorem setNaming_eng (r : ResId) (w : Option WinId) : (s.setNaming r w).eng = s.eng := rfl
@[simp] theorem setNaming_sems (r : ResId) (w : Option WinId) : (s.setNaming r w).sems = s.sems := rfl
@[simp] theorem setNaming_caps (r : ResId) (w : Option WinId) : (s.setNaming r w).caps = s.caps := rfl
@[simp] theorem setNaming_setup (r : ResId) (w : Option WinId) : (s.setNaming r w).setup = s.setup := rfl
@[simp] theorem setNaming_faults (r : ResId) (w : Option WinId) : (s.setNaming r w).faults = s.faults := rfl
@[simp] theorem setNaming_post (r : ResId) (w : Option WinId) : (s.setNaming r w).post = s.post := rfl
@[simp] theorem setNaming_table (r : ResId) (w : Option WinId) : (s.setNaming r w).table = s.table := rfl
@[simp] theorem setNaming_wd (r : ResId) (w : Option WinId) : (s.setNaming r w).wd = s.wd := rfl
@[simp] theorem setNaming_ports (r : ResId) (w : Option WinId) : (s.setNaming r w).ports = s.ports := rfl
@[simp] theorem setNaming_lamps (r : ResId) (w : Option WinId) : (s.setNaming r w).lamps = s.lamps := rfl
@[simp] theorem setNaming_lnk (r : ResId) (w : Option WinId) : (s.setNaming r w).lnk = s.lnk := rfl
@[simp] theorem setNaming_freeIndex (r : ResId) (w : Option WinId) : (s.setNaming r w).freeIndex = s.freeIndex := rfl
@[simp] theorem setNaming_pending (r : ResId) (w : Option WinId) : (s.setNaming r w).pending = s.pending := rfl

/-! ## setWaits -/

@[simp] theorem setWaits_rst (ws : List WaitEntry) : (s.setWaits ws).rst = s.rst := rfl
@[simp] theorem setWaits_now (ws : List WaitEntry) : (s.setWaits ws).now = s.now := rfl
@[simp] theorem setWaits_run (ws : List WaitEntry) : (s.setWaits ws).run = s.run := rfl
@[simp] theorem setWaits_map (ws : List WaitEntry) : (s.setWaits ws).map = s.map := rfl
@[simp] theorem setWaits_loader (ws : List WaitEntry) : (s.setWaits ws).loader = s.loader := rfl
@[simp] theorem setWaits_dir (ws : List WaitEntry) : (s.setWaits ws).dir = { s.dir with waits := ws } := rfl
@[simp] theorem setWaits_eng (ws : List WaitEntry) : (s.setWaits ws).eng = s.eng := rfl
@[simp] theorem setWaits_sems (ws : List WaitEntry) : (s.setWaits ws).sems = s.sems := rfl
@[simp] theorem setWaits_caps (ws : List WaitEntry) : (s.setWaits ws).caps = s.caps := rfl
@[simp] theorem setWaits_setup (ws : List WaitEntry) : (s.setWaits ws).setup = s.setup := rfl
@[simp] theorem setWaits_faults (ws : List WaitEntry) : (s.setWaits ws).faults = s.faults := rfl
@[simp] theorem setWaits_post (ws : List WaitEntry) : (s.setWaits ws).post = s.post := rfl
@[simp] theorem setWaits_table (ws : List WaitEntry) : (s.setWaits ws).table = s.table := rfl
@[simp] theorem setWaits_wd (ws : List WaitEntry) : (s.setWaits ws).wd = s.wd := rfl
@[simp] theorem setWaits_ports (ws : List WaitEntry) : (s.setWaits ws).ports = s.ports := rfl
@[simp] theorem setWaits_lamps (ws : List WaitEntry) : (s.setWaits ws).lamps = s.lamps := rfl
@[simp] theorem setWaits_lnk (ws : List WaitEntry) : (s.setWaits ws).lnk = s.lnk := rfl
@[simp] theorem setWaits_freeIndex (ws : List WaitEntry) : (s.setWaits ws).freeIndex = s.freeIndex := rfl
@[simp] theorem setWaits_pending (ws : List WaitEntry) : (s.setWaits ws).pending = s.pending := rfl

/-! ## setExpired -/

@[simp] theorem setExpired_rst (rs : List ResId) : (s.setExpired rs).rst = s.rst := rfl
@[simp] theorem setExpired_now (rs : List ResId) : (s.setExpired rs).now = s.now := rfl
@[simp] theorem setExpired_run (rs : List ResId) : (s.setExpired rs).run = s.run := rfl
@[simp] theorem setExpired_map (rs : List ResId) : (s.setExpired rs).map = s.map := rfl
@[simp] theorem setExpired_loader (rs : List ResId) : (s.setExpired rs).loader = s.loader := rfl
@[simp] theorem setExpired_dir (rs : List ResId) : (s.setExpired rs).dir = { s.dir with expired := rs } := rfl
@[simp] theorem setExpired_eng (rs : List ResId) : (s.setExpired rs).eng = s.eng := rfl
@[simp] theorem setExpired_sems (rs : List ResId) : (s.setExpired rs).sems = s.sems := rfl
@[simp] theorem setExpired_caps (rs : List ResId) : (s.setExpired rs).caps = s.caps := rfl
@[simp] theorem setExpired_setup (rs : List ResId) : (s.setExpired rs).setup = s.setup := rfl
@[simp] theorem setExpired_faults (rs : List ResId) : (s.setExpired rs).faults = s.faults := rfl
@[simp] theorem setExpired_post (rs : List ResId) : (s.setExpired rs).post = s.post := rfl
@[simp] theorem setExpired_table (rs : List ResId) : (s.setExpired rs).table = s.table := rfl
@[simp] theorem setExpired_wd (rs : List ResId) : (s.setExpired rs).wd = s.wd := rfl
@[simp] theorem setExpired_ports (rs : List ResId) : (s.setExpired rs).ports = s.ports := rfl
@[simp] theorem setExpired_lamps (rs : List ResId) : (s.setExpired rs).lamps = s.lamps := rfl
@[simp] theorem setExpired_lnk (rs : List ResId) : (s.setExpired rs).lnk = s.lnk := rfl
@[simp] theorem setExpired_freeIndex (rs : List ResId) : (s.setExpired rs).freeIndex = s.freeIndex := rfl
@[simp] theorem setExpired_pending (rs : List ResId) : (s.setExpired rs).pending = s.pending := rfl

/-! ## setWin -/

@[simp] theorem setWin_rst (w : WinId) (x : Option Window) : (s.setWin w x).rst = s.rst := rfl
@[simp] theorem setWin_now (w : WinId) (x : Option Window) : (s.setWin w x).now = s.now := rfl
@[simp] theorem setWin_run (w : WinId) (x : Option Window) : (s.setWin w x).run = s.run := rfl
@[simp] theorem setWin_map (w : WinId) (x : Option Window) : (s.setWin w x).map = s.map := rfl
@[simp] theorem setWin_loader (w : WinId) (x : Option Window) : (s.setWin w x).loader = s.loader := rfl
@[simp] theorem setWin_dir (w : WinId) (x : Option Window) : (s.setWin w x).dir = s.dir := rfl
@[simp] theorem setWin_eng (w : WinId) (x : Option Window) : (s.setWin w x).eng = { s.eng with wins := Table.put s.eng.wins w x } := rfl
@[simp] theorem setWin_sems (w : WinId) (x : Option Window) : (s.setWin w x).sems = s.sems := rfl
@[simp] theorem setWin_caps (w : WinId) (x : Option Window) : (s.setWin w x).caps = s.caps := rfl
@[simp] theorem setWin_setup (w : WinId) (x : Option Window) : (s.setWin w x).setup = s.setup := rfl
@[simp] theorem setWin_faults (w : WinId) (x : Option Window) : (s.setWin w x).faults = s.faults := rfl
@[simp] theorem setWin_post (w : WinId) (x : Option Window) : (s.setWin w x).post = s.post := rfl
@[simp] theorem setWin_table (w : WinId) (x : Option Window) : (s.setWin w x).table = s.table := rfl
@[simp] theorem setWin_wd (w : WinId) (x : Option Window) : (s.setWin w x).wd = s.wd := rfl
@[simp] theorem setWin_ports (w : WinId) (x : Option Window) : (s.setWin w x).ports = s.ports := rfl
@[simp] theorem setWin_lamps (w : WinId) (x : Option Window) : (s.setWin w x).lamps = s.lamps := rfl
@[simp] theorem setWin_lnk (w : WinId) (x : Option Window) : (s.setWin w x).lnk = s.lnk := rfl
@[simp] theorem setWin_freeIndex (w : WinId) (x : Option Window) : (s.setWin w x).freeIndex = s.freeIndex := rfl
@[simp] theorem setWin_pending (w : WinId) (x : Option Window) : (s.setWin w x).pending = s.pending := rfl

/-! ## modWin -/

@[simp] theorem modWin_rst (w : WinId) (f : Window → Window) : (s.modWin w f).rst = s.rst := rfl
@[simp] theorem modWin_now (w : WinId) (f : Window → Window) : (s.modWin w f).now = s.now := rfl
@[simp] theorem modWin_run (w : WinId) (f : Window → Window) : (s.modWin w f).run = s.run := rfl
@[simp] theorem modWin_map (w : WinId) (f : Window → Window) : (s.modWin w f).map = s.map := rfl
@[simp] theorem modWin_loader (w : WinId) (f : Window → Window) : (s.modWin w f).loader = s.loader := rfl
@[simp] theorem modWin_dir (w : WinId) (f : Window → Window) : (s.modWin w f).dir = s.dir := rfl
@[simp] theorem modWin_eng (w : WinId) (f : Window → Window) : (s.modWin w f).eng = { s.eng with wins := Table.upd s.eng.wins w (Option.map f) } := rfl
@[simp] theorem modWin_sems (w : WinId) (f : Window → Window) : (s.modWin w f).sems = s.sems := rfl
@[simp] theorem modWin_caps (w : WinId) (f : Window → Window) : (s.modWin w f).caps = s.caps := rfl
@[simp] theorem modWin_setup (w : WinId) (f : Window → Window) : (s.modWin w f).setup = s.setup := rfl
@[simp] theorem modWin_faults (w : WinId) (f : Window → Window) : (s.modWin w f).faults = s.faults := rfl
@[simp] theorem modWin_post (w : WinId) (f : Window → Window) : (s.modWin w f).post = s.post := rfl
@[simp] theorem modWin_table (w : WinId) (f : Window → Window) : (s.modWin w f).table = s.table := rfl
@[simp] theorem modWin_wd (w : WinId) (f : Window → Window) : (s.modWin w f).wd = s.wd := rfl
@[simp] theorem modWin_ports (w : WinId) (f : Window → Window) : (s.modWin w f).ports = s.ports := rfl
@[simp] theorem modWin_lamps (w : WinId) (f : Window → Window) : (s.modWin w f).lamps = s.lamps := rfl
@[simp] theorem modWin_lnk (w : WinId) (f : Window → Window) : (s.modWin w f).lnk = s.lnk := rfl
@[simp] theorem modWin_freeIndex (w : WinId) (f : Window → Window) : (s.modWin w f).freeIndex = s.freeIndex := rfl
@[simp] theorem modWin_pending (w : WinId) (f : Window → Window) : (s.modWin w f).pending = s.pending := rfl

/-! ## setTxen -/

@[simp] theorem setTxen_rst (i : SlotId) (up : Bool) : (s.setTxen i up).rst = s.rst := rfl
@[simp] theorem setTxen_now (i : SlotId) (up : Bool) : (s.setTxen i up).now = s.now := rfl
@[simp] theorem setTxen_run (i : SlotId) (up : Bool) : (s.setTxen i up).run = s.run := rfl
@[simp] theorem setTxen_map (i : SlotId) (up : Bool) : (s.setTxen i up).map = s.map := rfl
@[simp] theorem setTxen_loader (i : SlotId) (up : Bool) : (s.setTxen i up).loader = s.loader := rfl
@[simp] theorem setTxen_dir (i : SlotId) (up : Bool) : (s.setTxen i up).dir = s.dir := rfl
@[simp] theorem setTxen_eng (i : SlotId) (up : Bool) : (s.setTxen i up).eng = { s.eng with txen := Table.put s.eng.txen i up } := rfl
@[simp] theorem setTxen_sems (i : SlotId) (up : Bool) : (s.setTxen i up).sems = s.sems := rfl
@[simp] theorem setTxen_caps (i : SlotId) (up : Bool) : (s.setTxen i up).caps = s.caps := rfl
@[simp] theorem setTxen_setup (i : SlotId) (up : Bool) : (s.setTxen i up).setup = s.setup := rfl
@[simp] theorem setTxen_faults (i : SlotId) (up : Bool) : (s.setTxen i up).faults = s.faults := rfl
@[simp] theorem setTxen_post (i : SlotId) (up : Bool) : (s.setTxen i up).post = s.post := rfl
@[simp] theorem setTxen_table (i : SlotId) (up : Bool) : (s.setTxen i up).table = s.table := rfl
@[simp] theorem setTxen_wd (i : SlotId) (up : Bool) : (s.setTxen i up).wd = s.wd := rfl
@[simp] theorem setTxen_ports (i : SlotId) (up : Bool) : (s.setTxen i up).ports = s.ports := rfl
@[simp] theorem setTxen_lamps (i : SlotId) (up : Bool) : (s.setTxen i up).lamps = s.lamps := rfl
@[simp] theorem setTxen_lnk (i : SlotId) (up : Bool) : (s.setTxen i up).lnk = s.lnk := rfl
@[simp] theorem setTxen_freeIndex (i : SlotId) (up : Bool) : (s.setTxen i up).freeIndex = s.freeIndex := rfl
@[simp] theorem setTxen_pending (i : SlotId) (up : Bool) : (s.setTxen i up).pending = s.pending := rfl

/-! ## setCken -/

@[simp] theorem setCken_rst (i : SlotId) (up : Bool) : (s.setCken i up).rst = s.rst := rfl
@[simp] theorem setCken_now (i : SlotId) (up : Bool) : (s.setCken i up).now = s.now := rfl
@[simp] theorem setCken_run (i : SlotId) (up : Bool) : (s.setCken i up).run = s.run := rfl
@[simp] theorem setCken_map (i : SlotId) (up : Bool) : (s.setCken i up).map = s.map := rfl
@[simp] theorem setCken_loader (i : SlotId) (up : Bool) : (s.setCken i up).loader = s.loader := rfl
@[simp] theorem setCken_dir (i : SlotId) (up : Bool) : (s.setCken i up).dir = s.dir := rfl
@[simp] theorem setCken_eng (i : SlotId) (up : Bool) : (s.setCken i up).eng = { s.eng with cken := Table.put s.eng.cken i up } := rfl
@[simp] theorem setCken_sems (i : SlotId) (up : Bool) : (s.setCken i up).sems = s.sems := rfl
@[simp] theorem setCken_caps (i : SlotId) (up : Bool) : (s.setCken i up).caps = s.caps := rfl
@[simp] theorem setCken_setup (i : SlotId) (up : Bool) : (s.setCken i up).setup = s.setup := rfl
@[simp] theorem setCken_faults (i : SlotId) (up : Bool) : (s.setCken i up).faults = s.faults := rfl
@[simp] theorem setCken_post (i : SlotId) (up : Bool) : (s.setCken i up).post = s.post := rfl
@[simp] theorem setCken_table (i : SlotId) (up : Bool) : (s.setCken i up).table = s.table := rfl
@[simp] theorem setCken_wd (i : SlotId) (up : Bool) : (s.setCken i up).wd = s.wd := rfl
@[simp] theorem setCken_ports (i : SlotId) (up : Bool) : (s.setCken i up).ports = s.ports := rfl
@[simp] theorem setCken_lamps (i : SlotId) (up : Bool) : (s.setCken i up).lamps = s.lamps := rfl
@[simp] theorem setCken_lnk (i : SlotId) (up : Bool) : (s.setCken i up).lnk = s.lnk := rfl
@[simp] theorem setCken_freeIndex (i : SlotId) (up : Bool) : (s.setCken i up).freeIndex = s.freeIndex := rfl
@[simp] theorem setCken_pending (i : SlotId) (up : Bool) : (s.setCken i up).pending = s.pending := rfl

/-! ## setFall -/

@[simp] theorem setFall_rst (i : SlotId) (t : Nat) : (s.setFall i t).rst = s.rst := rfl
@[simp] theorem setFall_now (i : SlotId) (t : Nat) : (s.setFall i t).now = s.now := rfl
@[simp] theorem setFall_run (i : SlotId) (t : Nat) : (s.setFall i t).run = s.run := rfl
@[simp] theorem setFall_map (i : SlotId) (t : Nat) : (s.setFall i t).map = s.map := rfl
@[simp] theorem setFall_loader (i : SlotId) (t : Nat) : (s.setFall i t).loader = s.loader := rfl
@[simp] theorem setFall_dir (i : SlotId) (t : Nat) : (s.setFall i t).dir = s.dir := rfl
@[simp] theorem setFall_eng (i : SlotId) (t : Nat) : (s.setFall i t).eng = { s.eng with fall := Table.put s.eng.fall i (some t) } := rfl
@[simp] theorem setFall_sems (i : SlotId) (t : Nat) : (s.setFall i t).sems = s.sems := rfl
@[simp] theorem setFall_caps (i : SlotId) (t : Nat) : (s.setFall i t).caps = s.caps := rfl
@[simp] theorem setFall_setup (i : SlotId) (t : Nat) : (s.setFall i t).setup = s.setup := rfl
@[simp] theorem setFall_faults (i : SlotId) (t : Nat) : (s.setFall i t).faults = s.faults := rfl
@[simp] theorem setFall_post (i : SlotId) (t : Nat) : (s.setFall i t).post = s.post := rfl
@[simp] theorem setFall_table (i : SlotId) (t : Nat) : (s.setFall i t).table = s.table := rfl
@[simp] theorem setFall_wd (i : SlotId) (t : Nat) : (s.setFall i t).wd = s.wd := rfl
@[simp] theorem setFall_ports (i : SlotId) (t : Nat) : (s.setFall i t).ports = s.ports := rfl
@[simp] theorem setFall_lamps (i : SlotId) (t : Nat) : (s.setFall i t).lamps = s.lamps := rfl
@[simp] theorem setFall_lnk (i : SlotId) (t : Nat) : (s.setFall i t).lnk = s.lnk := rfl
@[simp] theorem setFall_freeIndex (i : SlotId) (t : Nat) : (s.setFall i t).freeIndex = s.freeIndex := rfl
@[simp] theorem setFall_pending (i : SlotId) (t : Nat) : (s.setFall i t).pending = s.pending := rfl

/-! ## modSem -/

@[simp] theorem modSem_rst (k : SemId) (f : Semaphore → Semaphore) : (s.modSem k f).rst = s.rst := rfl
@[simp] theorem modSem_now (k : SemId) (f : Semaphore → Semaphore) : (s.modSem k f).now = s.now := rfl
@[simp] theorem modSem_run (k : SemId) (f : Semaphore → Semaphore) : (s.modSem k f).run = s.run := rfl
@[simp] theorem modSem_map (k : SemId) (f : Semaphore → Semaphore) : (s.modSem k f).map = s.map := rfl
@[simp] theorem modSem_loader (k : SemId) (f : Semaphore → Semaphore) : (s.modSem k f).loader = s.loader := rfl
@[simp] theorem modSem_dir (k : SemId) (f : Semaphore → Semaphore) : (s.modSem k f).dir = s.dir := rfl
@[simp] theorem modSem_eng (k : SemId) (f : Semaphore → Semaphore) : (s.modSem k f).eng = s.eng := rfl
@[simp] theorem modSem_sems (k : SemId) (f : Semaphore → Semaphore) : (s.modSem k f).sems = Table.upd s.sems k f := rfl
@[simp] theorem modSem_caps (k : SemId) (f : Semaphore → Semaphore) : (s.modSem k f).caps = s.caps := rfl
@[simp] theorem modSem_setup (k : SemId) (f : Semaphore → Semaphore) : (s.modSem k f).setup = s.setup := rfl
@[simp] theorem modSem_faults (k : SemId) (f : Semaphore → Semaphore) : (s.modSem k f).faults = s.faults := rfl
@[simp] theorem modSem_post (k : SemId) (f : Semaphore → Semaphore) : (s.modSem k f).post = s.post := rfl
@[simp] theorem modSem_table (k : SemId) (f : Semaphore → Semaphore) : (s.modSem k f).table = s.table := rfl
@[simp] theorem modSem_wd (k : SemId) (f : Semaphore → Semaphore) : (s.modSem k f).wd = s.wd := rfl
@[simp] theorem modSem_ports (k : SemId) (f : Semaphore → Semaphore) : (s.modSem k f).ports = s.ports := rfl
@[simp] theorem modSem_lamps (k : SemId) (f : Semaphore → Semaphore) : (s.modSem k f).lamps = s.lamps := rfl
@[simp] theorem modSem_lnk (k : SemId) (f : Semaphore → Semaphore) : (s.modSem k f).lnk = s.lnk := rfl
@[simp] theorem modSem_freeIndex (k : SemId) (f : Semaphore → Semaphore) : (s.modSem k f).freeIndex = s.freeIndex := rfl
@[simp] theorem modSem_pending (k : SemId) (f : Semaphore → Semaphore) : (s.modSem k f).pending = s.pending := rfl

/-! ## modCap -/

@[simp] theorem modCap_rst (i : SlotId) (f : Capture → Capture) : (s.modCap i f).rst = s.rst := rfl
@[simp] theorem modCap_now (i : SlotId) (f : Capture → Capture) : (s.modCap i f).now = s.now := rfl
@[simp] theorem modCap_run (i : SlotId) (f : Capture → Capture) : (s.modCap i f).run = s.run := rfl
@[simp] theorem modCap_map (i : SlotId) (f : Capture → Capture) : (s.modCap i f).map = s.map := rfl
@[simp] theorem modCap_loader (i : SlotId) (f : Capture → Capture) : (s.modCap i f).loader = s.loader := rfl
@[simp] theorem modCap_dir (i : SlotId) (f : Capture → Capture) : (s.modCap i f).dir = s.dir := rfl
@[simp] theorem modCap_eng (i : SlotId) (f : Capture → Capture) : (s.modCap i f).eng = s.eng := rfl
@[simp] theorem modCap_sems (i : SlotId) (f : Capture → Capture) : (s.modCap i f).sems = s.sems := rfl
@[simp] theorem modCap_caps (i : SlotId) (f : Capture → Capture) : (s.modCap i f).caps = Table.upd s.caps i f := rfl
@[simp] theorem modCap_setup (i : SlotId) (f : Capture → Capture) : (s.modCap i f).setup = s.setup := rfl
@[simp] theorem modCap_faults (i : SlotId) (f : Capture → Capture) : (s.modCap i f).faults = s.faults := rfl
@[simp] theorem modCap_post (i : SlotId) (f : Capture → Capture) : (s.modCap i f).post = s.post := rfl
@[simp] theorem modCap_table (i : SlotId) (f : Capture → Capture) : (s.modCap i f).table = s.table := rfl
@[simp] theorem modCap_wd (i : SlotId) (f : Capture → Capture) : (s.modCap i f).wd = s.wd := rfl
@[simp] theorem modCap_ports (i : SlotId) (f : Capture → Capture) : (s.modCap i f).ports = s.ports := rfl
@[simp] theorem modCap_lamps (i : SlotId) (f : Capture → Capture) : (s.modCap i f).lamps = s.lamps := rfl
@[simp] theorem modCap_lnk (i : SlotId) (f : Capture → Capture) : (s.modCap i f).lnk = s.lnk := rfl
@[simp] theorem modCap_freeIndex (i : SlotId) (f : Capture → Capture) : (s.modCap i f).freeIndex = s.freeIndex := rfl
@[simp] theorem modCap_pending (i : SlotId) (f : Capture → Capture) : (s.modCap i f).pending = s.pending := rfl

/-! ## modLive -/

@[simp] theorem modLive_rst (i : SlotId) (f : Live → Live) : (s.modLive i f).rst = s.rst := rfl
@[simp] theorem modLive_now (i : SlotId) (f : Live → Live) : (s.modLive i f).now = s.now := rfl
@[simp] theorem modLive_run (i : SlotId) (f : Live → Live) : (s.modLive i f).run = s.run := rfl
@[simp] theorem modLive_map (i : SlotId) (f : Live → Live) : (s.modLive i f).map = s.map := rfl
@[simp] theorem modLive_loader (i : SlotId) (f : Live → Live) : (s.modLive i f).loader = s.loader := rfl
@[simp] theorem modLive_dir (i : SlotId) (f : Live → Live) : (s.modLive i f).dir = s.dir := rfl
@[simp] theorem modLive_eng (i : SlotId) (f : Live → Live) : (s.modLive i f).eng = s.eng := rfl
@[simp] theorem modLive_sems (i : SlotId) (f : Live → Live) : (s.modLive i f).sems = s.sems := rfl
@[simp] theorem modLive_caps (i : SlotId) (f : Live → Live) : (s.modLive i f).caps = Table.upd s.caps i (fun c => { c with live := f c.live }) := rfl
@[simp] theorem modLive_setup (i : SlotId) (f : Live → Live) : (s.modLive i f).setup = s.setup := rfl
@[simp] theorem modLive_faults (i : SlotId) (f : Live → Live) : (s.modLive i f).faults = s.faults := rfl
@[simp] theorem modLive_post (i : SlotId) (f : Live → Live) : (s.modLive i f).post = s.post := rfl
@[simp] theorem modLive_table (i : SlotId) (f : Live → Live) : (s.modLive i f).table = s.table := rfl
@[simp] theorem modLive_wd (i : SlotId) (f : Live → Live) : (s.modLive i f).wd = s.wd := rfl
@[simp] theorem modLive_ports (i : SlotId) (f : Live → Live) : (s.modLive i f).ports = s.ports := rfl
@[simp] theorem modLive_lamps (i : SlotId) (f : Live → Live) : (s.modLive i f).lamps = s.lamps := rfl
@[simp] theorem modLive_lnk (i : SlotId) (f : Live → Live) : (s.modLive i f).lnk = s.lnk := rfl
@[simp] theorem modLive_freeIndex (i : SlotId) (f : Live → Live) : (s.modLive i f).freeIndex = s.freeIndex := rfl
@[simp] theorem modLive_pending (i : SlotId) (f : Live → Live) : (s.modLive i f).pending = s.pending := rfl

/-! ## modFault -/

@[simp] theorem modFault_rst (i : SlotId) (f : FaultRecord → FaultRecord) : (s.modFault i f).rst = s.rst := rfl
@[simp] theorem modFault_now (i : SlotId) (f : FaultRecord → FaultRecord) : (s.modFault i f).now = s.now := rfl
@[simp] theorem modFault_run (i : SlotId) (f : FaultRecord → FaultRecord) : (s.modFault i f).run = s.run := rfl
@[simp] theorem modFault_map (i : SlotId) (f : FaultRecord → FaultRecord) : (s.modFault i f).map = s.map := rfl
@[simp] theorem modFault_loader (i : SlotId) (f : FaultRecord → FaultRecord) : (s.modFault i f).loader = s.loader := rfl
@[simp] theorem modFault_dir (i : SlotId) (f : FaultRecord → FaultRecord) : (s.modFault i f).dir = s.dir := rfl
@[simp] theorem modFault_eng (i : SlotId) (f : FaultRecord → FaultRecord) : (s.modFault i f).eng = s.eng := rfl
@[simp] theorem modFault_sems (i : SlotId) (f : FaultRecord → FaultRecord) : (s.modFault i f).sems = s.sems := rfl
@[simp] theorem modFault_caps (i : SlotId) (f : FaultRecord → FaultRecord) : (s.modFault i f).caps = s.caps := rfl
@[simp] theorem modFault_setup (i : SlotId) (f : FaultRecord → FaultRecord) : (s.modFault i f).setup = s.setup := rfl
@[simp] theorem modFault_faults (i : SlotId) (f : FaultRecord → FaultRecord) : (s.modFault i f).faults = Table.upd s.faults i f := rfl
@[simp] theorem modFault_post (i : SlotId) (f : FaultRecord → FaultRecord) : (s.modFault i f).post = s.post := rfl
@[simp] theorem modFault_table (i : SlotId) (f : FaultRecord → FaultRecord) : (s.modFault i f).table = s.table := rfl
@[simp] theorem modFault_wd (i : SlotId) (f : FaultRecord → FaultRecord) : (s.modFault i f).wd = s.wd := rfl
@[simp] theorem modFault_ports (i : SlotId) (f : FaultRecord → FaultRecord) : (s.modFault i f).ports = s.ports := rfl
@[simp] theorem modFault_lamps (i : SlotId) (f : FaultRecord → FaultRecord) : (s.modFault i f).lamps = s.lamps := rfl
@[simp] theorem modFault_lnk (i : SlotId) (f : FaultRecord → FaultRecord) : (s.modFault i f).lnk = s.lnk := rfl
@[simp] theorem modFault_freeIndex (i : SlotId) (f : FaultRecord → FaultRecord) : (s.modFault i f).freeIndex = s.freeIndex := rfl
@[simp] theorem modFault_pending (i : SlotId) (f : FaultRecord → FaultRecord) : (s.modFault i f).pending = s.pending := rfl

/-! ## setLinkState -/

@[simp] theorem setLinkState_rst (l : LinkId) (st : LinkState) : (s.setLinkState l st).rst = s.rst := rfl
@[simp] theorem setLinkState_now (l : LinkId) (st : LinkState) : (s.setLinkState l st).now = s.now := rfl
@[simp] theorem setLinkState_run (l : LinkId) (st : LinkState) : (s.setLinkState l st).run = s.run := rfl
@[simp] theorem setLinkState_map (l : LinkId) (st : LinkState) : (s.setLinkState l st).map = { s.map with links := Table.upd s.map.links l (Option.map (fun k => { k with state := st })) } := rfl
@[simp] theorem setLinkState_loader (l : LinkId) (st : LinkState) : (s.setLinkState l st).loader = s.loader := rfl
@[simp] theorem setLinkState_dir (l : LinkId) (st : LinkState) : (s.setLinkState l st).dir = s.dir := rfl
@[simp] theorem setLinkState_eng (l : LinkId) (st : LinkState) : (s.setLinkState l st).eng = s.eng := rfl
@[simp] theorem setLinkState_sems (l : LinkId) (st : LinkState) : (s.setLinkState l st).sems = s.sems := rfl
@[simp] theorem setLinkState_caps (l : LinkId) (st : LinkState) : (s.setLinkState l st).caps = s.caps := rfl
@[simp] theorem setLinkState_setup (l : LinkId) (st : LinkState) : (s.setLinkState l st).setup = s.setup := rfl
@[simp] theorem setLinkState_faults (l : LinkId) (st : LinkState) : (s.setLinkState l st).faults = s.faults := rfl
@[simp] theorem setLinkState_post (l : LinkId) (st : LinkState) : (s.setLinkState l st).post = s.post := rfl
@[simp] theorem setLinkState_table (l : LinkId) (st : LinkState) : (s.setLinkState l st).table = s.table := rfl
@[simp] theorem setLinkState_wd (l : LinkId) (st : LinkState) : (s.setLinkState l st).wd = s.wd := rfl
@[simp] theorem setLinkState_ports (l : LinkId) (st : LinkState) : (s.setLinkState l st).ports = s.ports := rfl
@[simp] theorem setLinkState_lamps (l : LinkId) (st : LinkState) : (s.setLinkState l st).lamps = s.lamps := rfl
@[simp] theorem setLinkState_lnk (l : LinkId) (st : LinkState) : (s.setLinkState l st).lnk = s.lnk := rfl
@[simp] theorem setLinkState_freeIndex (l : LinkId) (st : LinkState) : (s.setLinkState l st).freeIndex = s.freeIndex := rfl
@[simp] theorem setLinkState_pending (l : LinkId) (st : LinkState) : (s.setLinkState l st).pending = s.pending := rfl

/-! ## setSync -/

@[simp] theorem setSync_rst (p : PortId) (x : SyncSlot) : (s.setSync p x).rst = s.rst := rfl
@[simp] theorem setSync_now (p : PortId) (x : SyncSlot) : (s.setSync p x).now = s.now := rfl
@[simp] theorem setSync_run (p : PortId) (x : SyncSlot) : (s.setSync p x).run = s.run := rfl
@[simp] theorem setSync_map (p : PortId) (x : SyncSlot) : (s.setSync p x).map = s.map := rfl
@[simp] theorem setSync_loader (p : PortId) (x : SyncSlot) : (s.setSync p x).loader = s.loader := rfl
@[simp] theorem setSync_dir (p : PortId) (x : SyncSlot) : (s.setSync p x).dir = s.dir := rfl
@[simp] theorem setSync_eng (p : PortId) (x : SyncSlot) : (s.setSync p x).eng = s.eng := rfl
@[simp] theorem setSync_sems (p : PortId) (x : SyncSlot) : (s.setSync p x).sems = s.sems := rfl
@[simp] theorem setSync_caps (p : PortId) (x : SyncSlot) : (s.setSync p x).caps = s.caps := rfl
@[simp] theorem setSync_setup (p : PortId) (x : SyncSlot) : (s.setSync p x).setup = s.setup := rfl
@[simp] theorem setSync_faults (p : PortId) (x : SyncSlot) : (s.setSync p x).faults = s.faults := rfl
@[simp] theorem setSync_post (p : PortId) (x : SyncSlot) : (s.setSync p x).post = s.post := rfl
@[simp] theorem setSync_table (p : PortId) (x : SyncSlot) : (s.setSync p x).table = s.table := rfl
@[simp] theorem setSync_wd (p : PortId) (x : SyncSlot) : (s.setSync p x).wd = { s.wd with sync := Table.put s.wd.sync p x } := rfl
@[simp] theorem setSync_ports (p : PortId) (x : SyncSlot) : (s.setSync p x).ports = s.ports := rfl
@[simp] theorem setSync_lamps (p : PortId) (x : SyncSlot) : (s.setSync p x).lamps = s.lamps := rfl
@[simp] theorem setSync_lnk (p : PortId) (x : SyncSlot) : (s.setSync p x).lnk = s.lnk := rfl
@[simp] theorem setSync_freeIndex (p : PortId) (x : SyncSlot) : (s.setSync p x).freeIndex = s.freeIndex := rfl
@[simp] theorem setSync_pending (p : PortId) (x : SyncSlot) : (s.setSync p x).pending = s.pending := rfl

/-! ## setWithdrawList -/

@[simp] theorem setWithdrawList_rst (ws : List WithdrawEntry) : (s.setWithdrawList ws).rst = s.rst := rfl
@[simp] theorem setWithdrawList_now (ws : List WithdrawEntry) : (s.setWithdrawList ws).now = s.now := rfl
@[simp] theorem setWithdrawList_run (ws : List WithdrawEntry) : (s.setWithdrawList ws).run = s.run := rfl
@[simp] theorem setWithdrawList_map (ws : List WithdrawEntry) : (s.setWithdrawList ws).map = s.map := rfl
@[simp] theorem setWithdrawList_loader (ws : List WithdrawEntry) : (s.setWithdrawList ws).loader = s.loader := rfl
@[simp] theorem setWithdrawList_dir (ws : List WithdrawEntry) : (s.setWithdrawList ws).dir = s.dir := rfl
@[simp] theorem setWithdrawList_eng (ws : List WithdrawEntry) : (s.setWithdrawList ws).eng = s.eng := rfl
@[simp] theorem setWithdrawList_sems (ws : List WithdrawEntry) : (s.setWithdrawList ws).sems = s.sems := rfl
@[simp] theorem setWithdrawList_caps (ws : List WithdrawEntry) : (s.setWithdrawList ws).caps = s.caps := rfl
@[simp] theorem setWithdrawList_setup (ws : List WithdrawEntry) : (s.setWithdrawList ws).setup = s.setup := rfl
@[simp] theorem setWithdrawList_faults (ws : List WithdrawEntry) : (s.setWithdrawList ws).faults = s.faults := rfl
@[simp] theorem setWithdrawList_post (ws : List WithdrawEntry) : (s.setWithdrawList ws).post = s.post := rfl
@[simp] theorem setWithdrawList_table (ws : List WithdrawEntry) : (s.setWithdrawList ws).table = s.table := rfl
@[simp] theorem setWithdrawList_wd (ws : List WithdrawEntry) : (s.setWithdrawList ws).wd = { s.wd with list := ws } := rfl
@[simp] theorem setWithdrawList_ports (ws : List WithdrawEntry) : (s.setWithdrawList ws).ports = s.ports := rfl
@[simp] theorem setWithdrawList_lamps (ws : List WithdrawEntry) : (s.setWithdrawList ws).lamps = s.lamps := rfl
@[simp] theorem setWithdrawList_lnk (ws : List WithdrawEntry) : (s.setWithdrawList ws).lnk = s.lnk := rfl
@[simp] theorem setWithdrawList_freeIndex (ws : List WithdrawEntry) : (s.setWithdrawList ws).freeIndex = s.freeIndex := rfl
@[simp] theorem setWithdrawList_pending (ws : List WithdrawEntry) : (s.setWithdrawList ws).pending = s.pending := rfl

/-! ## setSetup -/

@[simp] theorem setSetup_rst (x : SetupLink) : (s.setSetup x).rst = s.rst := rfl
@[simp] theorem setSetup_now (x : SetupLink) : (s.setSetup x).now = s.now := rfl
@[simp] theorem setSetup_run (x : SetupLink) : (s.setSetup x).run = s.run := rfl
@[simp] theorem setSetup_map (x : SetupLink) : (s.setSetup x).map = s.map := rfl
@[simp] theorem setSetup_loader (x : SetupLink) : (s.setSetup x).loader = s.loader := rfl
@[simp] theorem setSetup_dir (x : SetupLink) : (s.setSetup x).dir = s.dir := rfl
@[simp] theorem setSetup_eng (x : SetupLink) : (s.setSetup x).eng = s.eng := rfl
@[simp] theorem setSetup_sems (x : SetupLink) : (s.setSetup x).sems = s.sems := rfl
@[simp] theorem setSetup_caps (x : SetupLink) : (s.setSetup x).caps = s.caps := rfl
@[simp] theorem setSetup_setup (x : SetupLink) : (s.setSetup x).setup = x := rfl
@[simp] theorem setSetup_faults (x : SetupLink) : (s.setSetup x).faults = s.faults := rfl
@[simp] theorem setSetup_post (x : SetupLink) : (s.setSetup x).post = s.post := rfl
@[simp] theorem setSetup_table (x : SetupLink) : (s.setSetup x).table = s.table := rfl
@[simp] theorem setSetup_wd (x : SetupLink) : (s.setSetup x).wd = s.wd := rfl
@[simp] theorem setSetup_ports (x : SetupLink) : (s.setSetup x).ports = s.ports := rfl
@[simp] theorem setSetup_lamps (x : SetupLink) : (s.setSetup x).lamps = s.lamps := rfl
@[simp] theorem setSetup_lnk (x : SetupLink) : (s.setSetup x).lnk = s.lnk := rfl
@[simp] theorem setSetup_freeIndex (x : SetupLink) : (s.setSetup x).freeIndex = s.freeIndex := rfl
@[simp] theorem setSetup_pending (x : SetupLink) : (s.setSetup x).pending = s.pending := rfl

/-! ## setPost -/

@[simp] theorem setPost_rst (x : PostQueue) : (s.setPost x).rst = s.rst := rfl
@[simp] theorem setPost_now (x : PostQueue) : (s.setPost x).now = s.now := rfl
@[simp] theorem setPost_run (x : PostQueue) : (s.setPost x).run = s.run := rfl
@[simp] theorem setPost_map (x : PostQueue) : (s.setPost x).map = s.map := rfl
@[simp] theorem setPost_loader (x : PostQueue) : (s.setPost x).loader = s.loader := rfl
@[simp] theorem setPost_dir (x : PostQueue) : (s.setPost x).dir = s.dir := rfl
@[simp] theorem setPost_eng (x : PostQueue) : (s.setPost x).eng = s.eng := rfl
@[simp] theorem setPost_sems (x : PostQueue) : (s.setPost x).sems = s.sems := rfl
@[simp] theorem setPost_caps (x : PostQueue) : (s.setPost x).caps = s.caps := rfl
@[simp] theorem setPost_setup (x : PostQueue) : (s.setPost x).setup = s.setup := rfl
@[simp] theorem setPost_faults (x : PostQueue) : (s.setPost x).faults = s.faults := rfl
@[simp] theorem setPost_post (x : PostQueue) : (s.setPost x).post = x := rfl
@[simp] theorem setPost_table (x : PostQueue) : (s.setPost x).table = s.table := rfl
@[simp] theorem setPost_wd (x : PostQueue) : (s.setPost x).wd = s.wd := rfl
@[simp] theorem setPost_ports (x : PostQueue) : (s.setPost x).ports = s.ports := rfl
@[simp] theorem setPost_lamps (x : PostQueue) : (s.setPost x).lamps = s.lamps := rfl
@[simp] theorem setPost_lnk (x : PostQueue) : (s.setPost x).lnk = s.lnk := rfl
@[simp] theorem setPost_freeIndex (x : PostQueue) : (s.setPost x).freeIndex = s.freeIndex := rfl
@[simp] theorem setPost_pending (x : PostQueue) : (s.setPost x).pending = s.pending := rfl

/-! ## setRun -/

@[simp] theorem setRun_rst (x : RunRecord) : (s.setRun x).rst = s.rst := rfl
@[simp] theorem setRun_now (x : RunRecord) : (s.setRun x).now = s.now := rfl
@[simp] theorem setRun_run (x : RunRecord) : (s.setRun x).run = x := rfl
@[simp] theorem setRun_map (x : RunRecord) : (s.setRun x).map = s.map := rfl
@[simp] theorem setRun_loader (x : RunRecord) : (s.setRun x).loader = s.loader := rfl
@[simp] theorem setRun_dir (x : RunRecord) : (s.setRun x).dir = s.dir := rfl
@[simp] theorem setRun_eng (x : RunRecord) : (s.setRun x).eng = s.eng := rfl
@[simp] theorem setRun_sems (x : RunRecord) : (s.setRun x).sems = s.sems := rfl
@[simp] theorem setRun_caps (x : RunRecord) : (s.setRun x).caps = s.caps := rfl
@[simp] theorem setRun_setup (x : RunRecord) : (s.setRun x).setup = s.setup := rfl
@[simp] theorem setRun_faults (x : RunRecord) : (s.setRun x).faults = s.faults := rfl
@[simp] theorem setRun_post (x : RunRecord) : (s.setRun x).post = s.post := rfl
@[simp] theorem setRun_table (x : RunRecord) : (s.setRun x).table = s.table := rfl
@[simp] theorem setRun_wd (x : RunRecord) : (s.setRun x).wd = s.wd := rfl
@[simp] theorem setRun_ports (x : RunRecord) : (s.setRun x).ports = s.ports := rfl
@[simp] theorem setRun_lamps (x : RunRecord) : (s.setRun x).lamps = s.lamps := rfl
@[simp] theorem setRun_lnk (x : RunRecord) : (s.setRun x).lnk = s.lnk := rfl
@[simp] theorem setRun_freeIndex (x : RunRecord) : (s.setRun x).freeIndex = s.freeIndex := rfl
@[simp] theorem setRun_pending (x : RunRecord) : (s.setRun x).pending = s.pending := rfl

/-! ## setMap -/

@[simp] theorem setMap_rst (x : LinkMap) : (s.setMap x).rst = s.rst := rfl
@[simp] theorem setMap_now (x : LinkMap) : (s.setMap x).now = s.now := rfl
@[simp] theorem setMap_run (x : LinkMap) : (s.setMap x).run = s.run := rfl
@[simp] theorem setMap_map (x : LinkMap) : (s.setMap x).map = x := rfl
@[simp] theorem setMap_loader (x : LinkMap) : (s.setMap x).loader = s.loader := rfl
@[simp] theorem setMap_dir (x : LinkMap) : (s.setMap x).dir = s.dir := rfl
@[simp] theorem setMap_eng (x : LinkMap) : (s.setMap x).eng = s.eng := rfl
@[simp] theorem setMap_sems (x : LinkMap) : (s.setMap x).sems = s.sems := rfl
@[simp] theorem setMap_caps (x : LinkMap) : (s.setMap x).caps = s.caps := rfl
@[simp] theorem setMap_setup (x : LinkMap) : (s.setMap x).setup = s.setup := rfl
@[simp] theorem setMap_faults (x : LinkMap) : (s.setMap x).faults = s.faults := rfl
@[simp] theorem setMap_post (x : LinkMap) : (s.setMap x).post = s.post := rfl
@[simp] theorem setMap_table (x : LinkMap) : (s.setMap x).table = s.table := rfl
@[simp] theorem setMap_wd (x : LinkMap) : (s.setMap x).wd = s.wd := rfl
@[simp] theorem setMap_ports (x : LinkMap) : (s.setMap x).ports = s.ports := rfl
@[simp] theorem setMap_lamps (x : LinkMap) : (s.setMap x).lamps = s.lamps := rfl
@[simp] theorem setMap_lnk (x : LinkMap) : (s.setMap x).lnk = s.lnk := rfl
@[simp] theorem setMap_freeIndex (x : LinkMap) : (s.setMap x).freeIndex = s.freeIndex := rfl
@[simp] theorem setMap_pending (x : LinkMap) : (s.setMap x).pending = s.pending := rfl

/-! ## setLoader -/

@[simp] theorem setLoader_rst (x : Loader) : (s.setLoader x).rst = s.rst := rfl
@[simp] theorem setLoader_now (x : Loader) : (s.setLoader x).now = s.now := rfl
@[simp] theorem setLoader_run (x : Loader) : (s.setLoader x).run = s.run := rfl
@[simp] theorem setLoader_map (x : Loader) : (s.setLoader x).map = s.map := rfl
@[simp] theorem setLoader_loader (x : Loader) : (s.setLoader x).loader = x := rfl
@[simp] theorem setLoader_dir (x : Loader) : (s.setLoader x).dir = s.dir := rfl
@[simp] theorem setLoader_eng (x : Loader) : (s.setLoader x).eng = s.eng := rfl
@[simp] theorem setLoader_sems (x : Loader) : (s.setLoader x).sems = s.sems := rfl
@[simp] theorem setLoader_caps (x : Loader) : (s.setLoader x).caps = s.caps := rfl
@[simp] theorem setLoader_setup (x : Loader) : (s.setLoader x).setup = s.setup := rfl
@[simp] theorem setLoader_faults (x : Loader) : (s.setLoader x).faults = s.faults := rfl
@[simp] theorem setLoader_post (x : Loader) : (s.setLoader x).post = s.post := rfl
@[simp] theorem setLoader_table (x : Loader) : (s.setLoader x).table = s.table := rfl
@[simp] theorem setLoader_wd (x : Loader) : (s.setLoader x).wd = s.wd := rfl
@[simp] theorem setLoader_ports (x : Loader) : (s.setLoader x).ports = s.ports := rfl
@[simp] theorem setLoader_lamps (x : Loader) : (s.setLoader x).lamps = s.lamps := rfl
@[simp] theorem setLoader_lnk (x : Loader) : (s.setLoader x).lnk = s.lnk := rfl
@[simp] theorem setLoader_freeIndex (x : Loader) : (s.setLoader x).freeIndex = s.freeIndex := rfl
@[simp] theorem setLoader_pending (x : Loader) : (s.setLoader x).pending = s.pending := rfl

/-! ## setTable -/

@[simp] theorem setTable_rst (x : VerdictTable) : (s.setTable x).rst = s.rst := rfl
@[simp] theorem setTable_now (x : VerdictTable) : (s.setTable x).now = s.now := rfl
@[simp] theorem setTable_run (x : VerdictTable) : (s.setTable x).run = s.run := rfl
@[simp] theorem setTable_map (x : VerdictTable) : (s.setTable x).map = s.map := rfl
@[simp] theorem setTable_loader (x : VerdictTable) : (s.setTable x).loader = s.loader := rfl
@[simp] theorem setTable_dir (x : VerdictTable) : (s.setTable x).dir = s.dir := rfl
@[simp] theorem setTable_eng (x : VerdictTable) : (s.setTable x).eng = s.eng := rfl
@[simp] theorem setTable_sems (x : VerdictTable) : (s.setTable x).sems = s.sems := rfl
@[simp] theorem setTable_caps (x : VerdictTable) : (s.setTable x).caps = s.caps := rfl
@[simp] theorem setTable_setup (x : VerdictTable) : (s.setTable x).setup = s.setup := rfl
@[simp] theorem setTable_faults (x : VerdictTable) : (s.setTable x).faults = s.faults := rfl
@[simp] theorem setTable_post (x : VerdictTable) : (s.setTable x).post = s.post := rfl
@[simp] theorem setTable_table (x : VerdictTable) : (s.setTable x).table = x := rfl
@[simp] theorem setTable_wd (x : VerdictTable) : (s.setTable x).wd = s.wd := rfl
@[simp] theorem setTable_ports (x : VerdictTable) : (s.setTable x).ports = s.ports := rfl
@[simp] theorem setTable_lamps (x : VerdictTable) : (s.setTable x).lamps = s.lamps := rfl
@[simp] theorem setTable_lnk (x : VerdictTable) : (s.setTable x).lnk = s.lnk := rfl
@[simp] theorem setTable_freeIndex (x : VerdictTable) : (s.setTable x).freeIndex = s.freeIndex := rfl
@[simp] theorem setTable_pending (x : VerdictTable) : (s.setTable x).pending = s.pending := rfl

/-! ## setLamps -/

@[simp] theorem setLamps_rst (x : LampUnit) : (s.setLamps x).rst = s.rst := rfl
@[simp] theorem setLamps_now (x : LampUnit) : (s.setLamps x).now = s.now := rfl
@[simp] theorem setLamps_run (x : LampUnit) : (s.setLamps x).run = s.run := rfl
@[simp] theorem setLamps_map (x : LampUnit) : (s.setLamps x).map = s.map := rfl
@[simp] theorem setLamps_loader (x : LampUnit) : (s.setLamps x).loader = s.loader := rfl
@[simp] theorem setLamps_dir (x : LampUnit) : (s.setLamps x).dir = s.dir := rfl
@[simp] theorem setLamps_eng (x : LampUnit) : (s.setLamps x).eng = s.eng := rfl
@[simp] theorem setLamps_sems (x : LampUnit) : (s.setLamps x).sems = s.sems := rfl
@[simp] theorem setLamps_caps (x : LampUnit) : (s.setLamps x).caps = s.caps := rfl
@[simp] theorem setLamps_setup (x : LampUnit) : (s.setLamps x).setup = s.setup := rfl
@[simp] theorem setLamps_faults (x : LampUnit) : (s.setLamps x).faults = s.faults := rfl
@[simp] theorem setLamps_post (x : LampUnit) : (s.setLamps x).post = s.post := rfl
@[simp] theorem setLamps_table (x : LampUnit) : (s.setLamps x).table = s.table := rfl
@[simp] theorem setLamps_wd (x : LampUnit) : (s.setLamps x).wd = s.wd := rfl
@[simp] theorem setLamps_ports (x : LampUnit) : (s.setLamps x).ports = s.ports := rfl
@[simp] theorem setLamps_lamps (x : LampUnit) : (s.setLamps x).lamps = x := rfl
@[simp] theorem setLamps_lnk (x : LampUnit) : (s.setLamps x).lnk = s.lnk := rfl
@[simp] theorem setLamps_freeIndex (x : LampUnit) : (s.setLamps x).freeIndex = s.freeIndex := rfl
@[simp] theorem setLamps_pending (x : LampUnit) : (s.setLamps x).pending = s.pending := rfl

/-! ## setLnk -/

@[simp] theorem setLnk_rst (i : SlotId) (up : Bool) : (s.setLnk i up).rst = s.rst := rfl
@[simp] theorem setLnk_now (i : SlotId) (up : Bool) : (s.setLnk i up).now = s.now := rfl
@[simp] theorem setLnk_run (i : SlotId) (up : Bool) : (s.setLnk i up).run = s.run := rfl
@[simp] theorem setLnk_map (i : SlotId) (up : Bool) : (s.setLnk i up).map = s.map := rfl
@[simp] theorem setLnk_loader (i : SlotId) (up : Bool) : (s.setLnk i up).loader = s.loader := rfl
@[simp] theorem setLnk_dir (i : SlotId) (up : Bool) : (s.setLnk i up).dir = s.dir := rfl
@[simp] theorem setLnk_eng (i : SlotId) (up : Bool) : (s.setLnk i up).eng = s.eng := rfl
@[simp] theorem setLnk_sems (i : SlotId) (up : Bool) : (s.setLnk i up).sems = s.sems := rfl
@[simp] theorem setLnk_caps (i : SlotId) (up : Bool) : (s.setLnk i up).caps = s.caps := rfl
@[simp] theorem setLnk_setup (i : SlotId) (up : Bool) : (s.setLnk i up).setup = s.setup := rfl
@[simp] theorem setLnk_faults (i : SlotId) (up : Bool) : (s.setLnk i up).faults = s.faults := rfl
@[simp] theorem setLnk_post (i : SlotId) (up : Bool) : (s.setLnk i up).post = s.post := rfl
@[simp] theorem setLnk_table (i : SlotId) (up : Bool) : (s.setLnk i up).table = s.table := rfl
@[simp] theorem setLnk_wd (i : SlotId) (up : Bool) : (s.setLnk i up).wd = s.wd := rfl
@[simp] theorem setLnk_ports (i : SlotId) (up : Bool) : (s.setLnk i up).ports = s.ports := rfl
@[simp] theorem setLnk_lamps (i : SlotId) (up : Bool) : (s.setLnk i up).lamps = s.lamps := rfl
@[simp] theorem setLnk_lnk (i : SlotId) (up : Bool) : (s.setLnk i up).lnk = Table.put s.lnk i up := rfl
@[simp] theorem setLnk_freeIndex (i : SlotId) (up : Bool) : (s.setLnk i up).freeIndex = s.freeIndex := rfl
@[simp] theorem setLnk_pending (i : SlotId) (up : Bool) : (s.setLnk i up).pending = s.pending := rfl

/-! ## count -/

@[simp] theorem count_rst (f : RunCounters → RunCounters) : (s.count f).rst = s.rst := rfl
@[simp] theorem count_now (f : RunCounters → RunCounters) : (s.count f).now = s.now := rfl
@[simp] theorem count_run (f : RunCounters → RunCounters) : (s.count f).run = { s.run with counters := f s.run.counters } := rfl
@[simp] theorem count_map (f : RunCounters → RunCounters) : (s.count f).map = s.map := rfl
@[simp] theorem count_loader (f : RunCounters → RunCounters) : (s.count f).loader = s.loader := rfl
@[simp] theorem count_dir (f : RunCounters → RunCounters) : (s.count f).dir = s.dir := rfl
@[simp] theorem count_eng (f : RunCounters → RunCounters) : (s.count f).eng = s.eng := rfl
@[simp] theorem count_sems (f : RunCounters → RunCounters) : (s.count f).sems = s.sems := rfl
@[simp] theorem count_caps (f : RunCounters → RunCounters) : (s.count f).caps = s.caps := rfl
@[simp] theorem count_setup (f : RunCounters → RunCounters) : (s.count f).setup = s.setup := rfl
@[simp] theorem count_faults (f : RunCounters → RunCounters) : (s.count f).faults = s.faults := rfl
@[simp] theorem count_post (f : RunCounters → RunCounters) : (s.count f).post = s.post := rfl
@[simp] theorem count_table (f : RunCounters → RunCounters) : (s.count f).table = s.table := rfl
@[simp] theorem count_wd (f : RunCounters → RunCounters) : (s.count f).wd = s.wd := rfl
@[simp] theorem count_ports (f : RunCounters → RunCounters) : (s.count f).ports = s.ports := rfl
@[simp] theorem count_lamps (f : RunCounters → RunCounters) : (s.count f).lamps = s.lamps := rfl
@[simp] theorem count_lnk (f : RunCounters → RunCounters) : (s.count f).lnk = s.lnk := rfl
@[simp] theorem count_freeIndex (f : RunCounters → RunCounters) : (s.count f).freeIndex = s.freeIndex := rfl
@[simp] theorem count_pending (f : RunCounters → RunCounters) : (s.count f).pending = s.pending := rfl

/-! ## advanceTo -/

@[simp] theorem advanceTo_rst (t : Nat) : (s.advanceTo t).rst = s.rst := rfl
@[simp] theorem advanceTo_now (t : Nat) : (s.advanceTo t).now = max s.now t := rfl
@[simp] theorem advanceTo_run (t : Nat) : (s.advanceTo t).run = s.run := rfl
@[simp] theorem advanceTo_map (t : Nat) : (s.advanceTo t).map = s.map := rfl
@[simp] theorem advanceTo_loader (t : Nat) : (s.advanceTo t).loader = s.loader := rfl
@[simp] theorem advanceTo_dir (t : Nat) : (s.advanceTo t).dir = s.dir := rfl
@[simp] theorem advanceTo_eng (t : Nat) : (s.advanceTo t).eng = s.eng := rfl
@[simp] theorem advanceTo_sems (t : Nat) : (s.advanceTo t).sems = s.sems := rfl
@[simp] theorem advanceTo_caps (t : Nat) : (s.advanceTo t).caps = s.caps := rfl
@[simp] theorem advanceTo_setup (t : Nat) : (s.advanceTo t).setup = s.setup := rfl
@[simp] theorem advanceTo_faults (t : Nat) : (s.advanceTo t).faults = s.faults := rfl
@[simp] theorem advanceTo_post (t : Nat) : (s.advanceTo t).post = s.post := rfl
@[simp] theorem advanceTo_table (t : Nat) : (s.advanceTo t).table = s.table := rfl
@[simp] theorem advanceTo_wd (t : Nat) : (s.advanceTo t).wd = s.wd := rfl
@[simp] theorem advanceTo_ports (t : Nat) : (s.advanceTo t).ports = s.ports := rfl
@[simp] theorem advanceTo_lamps (t : Nat) : (s.advanceTo t).lamps = s.lamps := rfl
@[simp] theorem advanceTo_lnk (t : Nat) : (s.advanceTo t).lnk = s.lnk := rfl
@[simp] theorem advanceTo_freeIndex (t : Nat) : (s.advanceTo t).freeIndex = s.freeIndex := rfl
@[simp] theorem advanceTo_pending (t : Nat) : (s.advanceTo t).pending = s.pending := rfl

/-! ## nextFree -/

@[simp] theorem nextFree_rst : (s.nextFree).rst = s.rst := rfl
@[simp] theorem nextFree_now : (s.nextFree).now = s.now := rfl
@[simp] theorem nextFree_run : (s.nextFree).run = s.run := rfl
@[simp] theorem nextFree_map : (s.nextFree).map = s.map := rfl
@[simp] theorem nextFree_loader : (s.nextFree).loader = s.loader := rfl
@[simp] theorem nextFree_dir : (s.nextFree).dir = s.dir := rfl
@[simp] theorem nextFree_eng : (s.nextFree).eng = s.eng := rfl
@[simp] theorem nextFree_sems : (s.nextFree).sems = s.sems := rfl
@[simp] theorem nextFree_caps : (s.nextFree).caps = s.caps := rfl
@[simp] theorem nextFree_setup : (s.nextFree).setup = s.setup := rfl
@[simp] theorem nextFree_faults : (s.nextFree).faults = s.faults := rfl
@[simp] theorem nextFree_post : (s.nextFree).post = s.post := rfl
@[simp] theorem nextFree_table : (s.nextFree).table = s.table := rfl
@[simp] theorem nextFree_wd : (s.nextFree).wd = s.wd := rfl
@[simp] theorem nextFree_ports : (s.nextFree).ports = s.ports := rfl
@[simp] theorem nextFree_lamps : (s.nextFree).lamps = s.lamps := rfl
@[simp] theorem nextFree_lnk : (s.nextFree).lnk = s.lnk := rfl
@[simp] theorem nextFree_freeIndex : (s.nextFree).freeIndex = s.freeIndex + 1 := rfl
@[simp] theorem nextFree_pending : (s.nextFree).pending = s.pending := rfl

/-! ## raiseKinds -/

@[simp] theorem raiseKinds_rst (p : PortId) (ks : NoticeSet) : (s.raiseKinds p ks).rst = s.rst := rfl
@[simp] theorem raiseKinds_now (p : PortId) (ks : NoticeSet) : (s.raiseKinds p ks).now = s.now := rfl
@[simp] theorem raiseKinds_run (p : PortId) (ks : NoticeSet) : (s.raiseKinds p ks).run = s.run := rfl
@[simp] theorem raiseKinds_map (p : PortId) (ks : NoticeSet) : (s.raiseKinds p ks).map = s.map := rfl
@[simp] theorem raiseKinds_loader (p : PortId) (ks : NoticeSet) : (s.raiseKinds p ks).loader = s.loader := rfl
@[simp] theorem raiseKinds_dir (p : PortId) (ks : NoticeSet) : (s.raiseKinds p ks).dir = s.dir := rfl
@[simp] theorem raiseKinds_eng (p : PortId) (ks : NoticeSet) : (s.raiseKinds p ks).eng = s.eng := rfl
@[simp] theorem raiseKinds_sems (p : PortId) (ks : NoticeSet) : (s.raiseKinds p ks).sems = s.sems := rfl
@[simp] theorem raiseKinds_caps (p : PortId) (ks : NoticeSet) : (s.raiseKinds p ks).caps = s.caps := rfl
@[simp] theorem raiseKinds_setup (p : PortId) (ks : NoticeSet) : (s.raiseKinds p ks).setup = s.setup := rfl
@[simp] theorem raiseKinds_faults (p : PortId) (ks : NoticeSet) : (s.raiseKinds p ks).faults = s.faults := rfl
@[simp] theorem raiseKinds_post (p : PortId) (ks : NoticeSet) : (s.raiseKinds p ks).post = s.post := rfl
@[simp] theorem raiseKinds_table (p : PortId) (ks : NoticeSet) : (s.raiseKinds p ks).table = s.table := rfl
@[simp] theorem raiseKinds_wd (p : PortId) (ks : NoticeSet) : (s.raiseKinds p ks).wd = s.wd := rfl
@[simp] theorem raiseKinds_ports (p : PortId) (ks : NoticeSet) : (s.raiseKinds p ks).ports = Table.upd s.ports p (fun x => x.setSets (x.notices ||| ks) x.enables) := rfl
@[simp] theorem raiseKinds_lamps (p : PortId) (ks : NoticeSet) : (s.raiseKinds p ks).lamps = s.lamps := rfl
@[simp] theorem raiseKinds_lnk (p : PortId) (ks : NoticeSet) : (s.raiseKinds p ks).lnk = s.lnk := rfl
@[simp] theorem raiseKinds_freeIndex (p : PortId) (ks : NoticeSet) : (s.raiseKinds p ks).freeIndex = s.freeIndex := rfl
@[simp] theorem raiseKinds_pending (p : PortId) (ks : NoticeSet) : (s.raiseKinds p ks).pending = s.pending := rfl

/-! ## raise -/

@[simp] theorem raise_rst (p : PortId) (k : Notice) : (s.raise p k).rst = s.rst := rfl
@[simp] theorem raise_now (p : PortId) (k : Notice) : (s.raise p k).now = s.now := rfl
@[simp] theorem raise_run (p : PortId) (k : Notice) : (s.raise p k).run = s.run := rfl
@[simp] theorem raise_map (p : PortId) (k : Notice) : (s.raise p k).map = s.map := rfl
@[simp] theorem raise_loader (p : PortId) (k : Notice) : (s.raise p k).loader = s.loader := rfl
@[simp] theorem raise_dir (p : PortId) (k : Notice) : (s.raise p k).dir = s.dir := rfl
@[simp] theorem raise_eng (p : PortId) (k : Notice) : (s.raise p k).eng = s.eng := rfl
@[simp] theorem raise_sems (p : PortId) (k : Notice) : (s.raise p k).sems = s.sems := rfl
@[simp] theorem raise_caps (p : PortId) (k : Notice) : (s.raise p k).caps = s.caps := rfl
@[simp] theorem raise_setup (p : PortId) (k : Notice) : (s.raise p k).setup = s.setup := rfl
@[simp] theorem raise_faults (p : PortId) (k : Notice) : (s.raise p k).faults = s.faults := rfl
@[simp] theorem raise_post (p : PortId) (k : Notice) : (s.raise p k).post = s.post := rfl
@[simp] theorem raise_table (p : PortId) (k : Notice) : (s.raise p k).table = s.table := rfl
@[simp] theorem raise_wd (p : PortId) (k : Notice) : (s.raise p k).wd = s.wd := rfl
@[simp] theorem raise_ports (p : PortId) (k : Notice) : (s.raise p k).ports = Table.upd s.ports p (fun x => x.setSets (x.notices ||| k.one) x.enables) := rfl
@[simp] theorem raise_lamps (p : PortId) (k : Notice) : (s.raise p k).lamps = s.lamps := rfl
@[simp] theorem raise_lnk (p : PortId) (k : Notice) : (s.raise p k).lnk = s.lnk := rfl
@[simp] theorem raise_freeIndex (p : PortId) (k : Notice) : (s.raise p k).freeIndex = s.freeIndex := rfl
@[simp] theorem raise_pending (p : PortId) (k : Notice) : (s.raise p k).pending = s.pending := rfl

end Sys2Proof.Machine
end

