-- ==== Sys2Proof/Laws/Table.lean ====
section
/-! SUPPORT. Sys2Proof/Laws/Table.lean: reading a table after it was written, and reading the hub's records after
their updates. -/

namespace Sys2Proof

namespace Table

variable {n : Nat} {α β : Type}

@[simp] theorem rd_put_same (t : Table n α) (i : Fin n) (a : α) : rd (put t i a) i = a := by
  simp [rd, put, Vector.get_eq_getElem]

@[simp] theorem rd_put_other (t : Table n α) {i j : Fin n} (h : j ≠ i) (a : α) : rd (put t i a) j = rd t j := by
  have h' : i.val ≠ j.val := fun e => h (Fin.ext e.symm)
  simp [rd, put, Vector.get_eq_getElem, Vector.getElem_set_ne, h']

theorem rd_put (t : Table n α) (i j : Fin n) (a : α) : rd (put t i a) j = if j = i then a else rd t j := by
  by_cases h : j = i
  · subst h; simp
  · simp [h]

@[simp] theorem rd_upd_same (t : Table n α) (i : Fin n) (f : α → α) : rd (upd t i f) i = f (rd t i) := by
  simp [upd]

@[simp] theorem rd_upd_other (t : Table n α) {i j : Fin n} (h : j ≠ i) (f : α → α) : rd (upd t i f) j = rd t j := by
  simp [upd, h]

theorem rd_upd (t : Table n α) (i j : Fin n) (f : α → α) :
    rd (upd t i f) j = if j = i then f (rd t i) else rd t j := by simp [upd, rd_put]

/-- Two tables that read the same at every number are equal. -/
theorem ext_rd {t u : Table n α} (h : ∀ i, rd t i = rd u i) : t = u := by
  apply Vector.ext
  intro i hi
  simpa [rd, Vector.get] using h ⟨i, hi⟩

/-- Writing what stands there already changes nothing. -/
theorem put_rd (t : Table n α) (i : Fin n) : put t i (rd t i) = t := by
  simp [put, rd, Vector.get]

theorem upd_id {t : Table n α} {i : Fin n} {f : α → α} (h : f (rd t i) = rd t i) : upd t i f = t := by
  rw [upd, h, put_rd]

@[simp] theorem rd_each (f : α → β) (t : Table n α) (i : Fin n) : rd (each f t) i = f (rd t i) := by
  simp [rd, each, Vector.get_eq_getElem, Vector.getElem_mk]

@[simp] theorem rd_build (f : Fin n → α) (i : Fin n) : rd (build f) i = f i := by
  simp [rd, build, Vector.get_eq_getElem, Vector.getElem_mk]

@[simp] theorem rd_fill (a : α) (i : Fin n) : rd (fill n a) i = a := by
  simp [rd, fill, Vector.get_eq_getElem]

end Table

namespace Machine

variable (s : State)

theorem port_modPort (p q : PortId) (f : AgentPort → AgentPort) :
    (s.modPort p f).port q = if q = p then f (s.port p) else s.port q := Table.rd_upd ..

theorem res_modRes (r q : ResId) (f : Resource → Resource) :
    (s.modRes r f).res q = if q = r then f (s.res r) else s.res q := Table.rd_upd ..

theorem sem_modSem (k j : SemId) (f : Semaphore → Semaphore) :
    (s.modSem k f).sem j = if j = k then f (s.sem k) else s.sem j := Table.rd_upd ..

theorem cap_modCap (i j : SlotId) (f : Capture → Capture) :
    (s.modCap i f).cap j = if j = i then f (s.cap i) else s.cap j := Table.rd_upd ..

theorem fault_modFault (i j : SlotId) (f : FaultRecord → FaultRecord) :
    (s.modFault i f).fault j = if j = i then f (s.fault i) else s.fault j := Table.rd_upd ..

theorem win_setWin (w v : WinId) (x : Option Window) : (s.setWin w x).win v = if v = w then x else s.win v :=
  Table.rd_put ..

theorem win_modWin (w v : WinId) (f : Window → Window) :
    (s.modWin w f).win v = if v = w then (s.win w).map f else s.win v := Table.rd_upd ..

theorem syncSlot_setSync (p q : PortId) (x : SyncSlot) :
    (s.setSync p x).syncSlot q = if q = p then x else s.syncSlot q := Table.rd_put ..

theorem lnkUp_setLnk (i j : SlotId) (up : Bool) : (s.setLnk i up).lnkUp j = if j = i then up else s.lnkUp j :=
  Table.rd_put ..

theorem link_setLinkState (l m : LinkId) (st : LinkState) :
    (s.setLinkState l st).link m = if m = l then (s.link l).map (fun k => { k with state := st }) else s.link m :=
  Table.rd_upd ..

/-- The last write of a response slot stands. -/
theorem setSlot_setSlot (p : PortId) (a b : ResponseSlot) : (s.setSlot p a).setSlot p b = s.setSlot p b := by
  unfold State.setSlot State.modPort
  congr 1
  apply Table.ext_rd
  intro q
  simp only [Table.rd_upd]
  split <;> simp_all

/-- PATN_N follows the sets by the one operation that changes them. -/
@[simp] theorem setSets_attention (x : AgentPort) (a b : NoticeSet) :
    (x.setSets a b).attention = decide ((x.setSets a b).masked ≠ 0) := rfl

/-! ## Small computed reads -/

/-- A vacant table holds no record. -/
@[simp] theorem record_vacant (l : LinkId) (d : Dir) : (s.setTable VerdictTable.vacant).record l d = none := by
  cases d <;> exact Table.rd_fill ..

theorem dwellToRun_in_dwell {x : Window} (h : x.state = .dwell) (now : Nat) :
    x.dwellToRun now = leftUntil now x.timerEnd := if_pos h

theorem dwellToRun_elsewhere {x : Window} (h : x.state ≠ .dwell) (now : Nat) : x.dwellToRun now = x.dwellLeft := if_neg h

theorem fltRose_in_loading (i : SlotId) (h : s.run.state = .loading) : s.fltRose i = s := if_pos h

theorem fltRose_elsewhere (i : SlotId) (h : s.run.state ≠ .loading) : s.fltRose i = s.qualify i := if_neg h

theorem flashAddress_area {addr : Nat} (h : s.loader.stage = .area addr) (ha : addr ≤ 16777210) :
    s.flashAddress = some addr := by
  unfold State.flashAddress; rw [h]; exact if_pos ha

theorem flashOut_of_address {addr : Nat} (h : s.flashAddress = some addr) : s.flashOut = readCommand addr := by
  unfold State.flashOut; rw [h]

end Machine

end Sys2Proof
end

