-- ==== Sys2Proof/Laws/Coverage.lean ====
section
/-! SUPPORT. Sys2Proof/Laws/Coverage.lean: all that the evaluation of the coverage-complete flag does (R32): the flag, and
RUN_STATE on all four ports exactly where it goes from clear to set. -/

namespace Sys2Proof.Machine

/-- A kind raised on every port: each port has it, and nothing else of the hub changes (R184). -/
theorem raiseAll_eq (s : State) (k : Notice) : s.raiseAll k =
    { s with ports := Table.each (fun x => x.setSets (x.notices ||| k.one) x.enables) s.ports } := by
  have hp : allPorts = [0, 1, 2, 3] := by decide
  have h : ∀ (t : Table 4 AgentPort) (f : AgentPort → AgentPort),
      Table.upd (Table.upd (Table.upd (Table.upd t 0 f) 1 f) 2 f) 3 f = Table.each f t := by
    intro t f
    apply Table.ext_rd
    intro i
    simp only [Table.rd_upd, Table.rd_each]
    match i with
    | 0 => simp
    | 1 => simp
    | 2 => simp
    | 3 => simp
  simp [State.raiseAll, State.raiseOn, State.raise, State.raiseKinds, State.modPort, hp, PortSet.has, h]

theorem noticed_raiseAll (s : State) (k m : Notice) (p : PortId) :
    (s.raiseAll k).noticed p m = (s.noticed p m || decide (k = m)) := by
  have h : ∀ k m : Notice, k.one.getLsbD m.bit = decide (k = m) := by
    intro k m; cases k <;> cases m <;> decide
  simp [raiseAll_eq, State.noticed, State.port, AgentPort.setSets, h]

/-- The evaluation changes the flag and the ports alone, and the flag is then as R32 has it. -/
theorem evalCoverage_eq (s : State) : s.evalCoverage = { s with
    run := { s.run with complete := decide (0 < s.targetLinks ∧ s.table.coverage = 2 * s.targetLinks) }
    ports := s.evalCoverage.ports } := by
  by_cases h : (decide (0 < s.targetLinks ∧ s.table.coverage = 2 * s.targetLinks) && !s.run.complete) = true <;>
    simp only [State.evalCoverage, h, if_true] <;> rfl

theorem evalCoverage_evaluated (s : State) : s.evalCoverage.completeEvaluated := by
  rw [evalCoverage_eq]; rfl

/-- RUN_STATE exactly where the flag goes from clear to set (R32). -/
theorem noticed_evalCoverage (s : State) (k : Notice) (p : PortId) : s.evalCoverage.noticed p k =
    (s.noticed p k || (decide (k = .runState) && !s.run.complete && s.evalCoverage.run.complete)) := by
  have h : s.evalCoverage.run.complete = decide (0 < s.targetLinks ∧ s.table.coverage = 2 * s.targetLinks) := by
    rw [evalCoverage_eq]
  have hn : ∀ x, (s.setRun x).noticed p k = s.noticed p k := fun _ => rfl
  rw [h]
  unfold State.evalCoverage
  by_cases hc : 0 < s.targetLinks ∧ s.table.coverage = 2 * s.targetLinks <;> cases hr : s.run.complete <;>
    simp [hc, noticed_raiseAll, hn, eq_comm]

theorem evalCoverage_noticed (s : State) : s.evalCoverage.completeNoticed s := by
  intro h0 h1 p
  simp [noticed_evalCoverage, h0, h1]

end Sys2Proof.Machine
end

