-- ==== Sys2Proof/Laws/Moves.lean ====
section
/-! SUPPORT. Sys2Proof/Laws/Moves.lean: what any operation of the hub can do to a state, said once: it leaves the queue
and RST_N, does not turn the timebase back, and keeps the invariants. One lemma per operation, in the files' order. -/

namespace Sys2Proof.Machine

/-- From `s` the hub can move to `t` inside a command. -/
structure Moves (s t : State) : Prop where
  pending : t.pending = s.pending
  rst : t.rst = s.rst
  now : s.now ≤ t.now
  sound : s.Sound → t.Sound

namespace Moves

variable {s t u : State}

theorem refl (s : State) : Moves s s := ⟨rfl, rfl, Nat.le_refl _, id⟩

theorem trans (a : Moves s t) (b : Moves t u) : Moves s u :=
  ⟨b.pending.trans a.pending, b.rst.trans a.rst, Nat.le_trans a.now b.now, fun h => b.sound (a.sound h)⟩

theorem ite {c : Prop} [Decidable c] (a : Moves s t) (b : Moves s u) : Moves s (if c then t else u) := by
  split
  · exact a
  · exact b

theorem foldl {α : Type} {f : State → α → State} (l : List α) (h : Moves s t)
    (hf : ∀ v a, Moves s v → Moves s (f v a)) : Moves s (l.foldl f t) := by
  induction l generalizing t with
  | nil => exact h
  | cons a l ih => exact ih (hf t a h)

/-! ## Updates -/

theorem modPort {p : PortId} {f : AgentPort → AgentPort} (h : Moves s t)
    (hf : ∀ x, x.attention = decide (x.masked ≠ 0) → (f x).attention = decide ((f x).masked ≠ 0)) :
    Moves s (t.modPort p f) where
  pending := h.pending
  rst := h.rst
  now := h.now
  sound hs := by
    have k := h.sound hs
    refine ⟨fun q => ?_, k.setup, k.lists, k.gens, k.run, k.sems⟩
    rw [port_modPort]
    split
    · next e => subst e; exact hf _ (k.attention q)
    · exact k.attention q

theorem modRes {r : ResId} {f : Resource → Resource} (h : Moves s t)
    (hf : isGen r = true → ((t.res r).lease = .free ∨ ∃ p a, (t.res r).lease = .held p a) →
      ((f (t.res r)).lease = .free ∨ ∃ p a, (f (t.res r)).lease = .held p a)) :
    Moves s (t.modRes r f) where
  pending := h.pending
  rst := h.rst
  now := h.now
  sound hs := by
    have k := h.sound hs
    refine ⟨k.attention, k.setup, k.lists, fun q hq => ?_, k.run, k.sems⟩
    rw [res_modRes]
    split
    · next e => subst e; exact hf hq (k.gens q hq)
    · exact k.gens q hq

/-- A change of a resource record that leaves its lease. -/
theorem modResKeep {r : ResId} {f : Resource → Resource} (h : Moves s t) (hf : ∀ x, (f x).lease = x.lease) :
    Moves s (t.modRes r f) := h.modRes (fun _ hx => by rw [hf]; exact hx)

theorem setWaits {ws : List WaitEntry} (h : Moves s t) (hl : t.dir.waits.length ≤ 8 → ws.length ≤ 8) :
    Moves s (t.setWaits ws) where
  pending := h.pending
  rst := h.rst
  now := h.now
  sound hs := by
    have k := h.sound hs
    exact ⟨k.attention, k.setup, ⟨hl k.lists.1, k.lists.2⟩, k.gens, k.run, k.sems⟩

/-- A wait list whose bound is known from the state the command began in. -/
theorem setWaitsOf {ws : List WaitEntry} (h : Moves s t) (hl : s.Sound → ws.length ≤ 8) : Moves s (t.setWaits ws) where
  pending := h.pending
  rst := h.rst
  now := h.now
  sound hs := by
    have k := h.sound hs
    exact ⟨k.attention, k.setup, ⟨hl hs, k.lists.2⟩, k.gens, k.run, k.sems⟩

theorem setWithdrawList {ws : List WithdrawEntry} (h : Moves s t) (hl : t.wd.list.length ≤ 8 → ws.length ≤ 8) :
    Moves s (t.setWithdrawList ws) where
  pending := h.pending
  rst := h.rst
  now := h.now
  sound hs := by
    have k := h.sound hs
    exact ⟨k.attention, k.setup, ⟨k.lists.1, hl k.lists.2⟩, k.gens, k.run, k.sems⟩

theorem setSetup {x : SetupLink} (h : Moves s t) (hx : t.setup.ordered → x.ordered) : Moves s (t.setSetup x) where
  pending := h.pending
  rst := h.rst
  now := h.now
  sound hs := by
    have k := h.sound hs
    exact ⟨k.attention, hx k.setup, k.lists, k.gens, k.run, k.sems⟩

theorem setRun {x : RunRecord} (h : Moves s t) (hx : t.run.bounded → x.bounded) : Moves s (t.setRun x) where
  pending := h.pending
  rst := h.rst
  now := h.now
  sound hs := by
    have k := h.sound hs
    exact ⟨k.attention, k.setup, k.lists, k.gens, hx k.run, k.sems⟩

theorem modSem {k : SemId} {f : Semaphore → Semaphore} (h : Moves s t)
    (hf : ((t.sem k).set = true → (t.sem k).armed = []) → (f (t.sem k)).set = true → (f (t.sem k)).armed = []) :
    Moves s (t.modSem k f) where
  pending := h.pending
  rst := h.rst
  now := h.now
  sound hs := by
    have m := h.sound hs
    refine ⟨m.attention, m.setup, m.lists, m.gens, m.run, fun j => ?_⟩
    rw [sem_modSem]
    split
    · next e => subst e; exact hf (m.sems j)
    · exact m.sems j

/-- An update of fields that no invariant reads. -/
theorem other (h : Moves s t) (hp : u.pending = t.pending) (hr : u.rst = t.rst) (hn : t.now ≤ u.now)
    (h1 : u.ports = t.ports) (h2 : u.setup = t.setup) (h3 : u.dir.waits = t.dir.waits) (h4 : u.wd.list = t.wd.list)
    (h5 : u.dir.res = t.dir.res) (h6 : u.run = t.run) (h7 : u.sems = t.sems) : Moves s u where
  pending := hp.trans h.pending
  rst := hr.trans h.rst
  now := Nat.le_trans h.now hn
  sound hs := by
    have k := h.sound hs
    refine ⟨?_, h2 ▸ k.setup, ?_, ?_, h6 ▸ k.run, ?_⟩
    · intro p
      have e : u.port p = t.port p := by simp only [State.port, h1]
      rw [e]; exact k.attention p
    · exact ⟨h3 ▸ k.lists.1, h4 ▸ k.lists.2⟩
    · intro r hr'; have := k.gens r hr'; simpa only [State.res, h5] using this
    · intro j; have := k.sems j; simpa only [State.sem, h7] using this

theorem setExpired {rs} (h : Moves s t) : Moves s (t.setExpired rs) :=
  h.other rfl rfl (Nat.le_refl _) rfl rfl rfl rfl rfl rfl rfl
theorem setWin {w x} (h : Moves s t) : Moves s (t.setWin w x) :=
  h.other rfl rfl (Nat.le_refl _) rfl rfl rfl rfl rfl rfl rfl
theorem modWin {w f} (h : Moves s t) : Moves s (t.modWin w f) :=
  h.other rfl rfl (Nat.le_refl _) rfl rfl rfl rfl rfl rfl rfl
theorem setTxen {i b} (h : Moves s t) : Moves s (t.setTxen i b) :=
  h.other rfl rfl (Nat.le_refl _) rfl rfl rfl rfl rfl rfl rfl
theorem setCken {i b} (h : Moves s t) : Moves s (t.setCken i b) :=
  h.other rfl rfl (Nat.le_refl _) rfl rfl rfl rfl rfl rfl rfl
theorem setFall {i b} (h : Moves s t) : Moves s (t.setFall i b) :=
  h.other rfl rfl (Nat.le_refl _) rfl rfl rfl rfl rfl rfl rfl
theorem modCap {i f} (h : Moves s t) : Moves s (t.modCap i f) :=
  h.other rfl rfl (Nat.le_refl _) rfl rfl rfl rfl rfl rfl rfl
theorem modLive {i f} (h : Moves s t) : Moves s (t.modLive i f) :=
  h.other rfl rfl (Nat.le_refl _) rfl rfl rfl rfl rfl rfl rfl
theorem modFault {i f} (h : Moves s t) : Moves s (t.modFault i f) :=
  h.other rfl rfl (Nat.le_refl _) rfl rfl rfl rfl rfl rfl rfl
theorem setLinkState {l st} (h : Moves s t) : Moves s (t.setLinkState l st) :=
  h.other rfl rfl (Nat.le_refl _) rfl rfl rfl rfl rfl rfl rfl
theorem setSync {p x} (h : Moves s t) : Moves s (t.setSync p x) :=
  h.other rfl rfl (Nat.le_refl _) rfl rfl rfl rfl rfl rfl rfl
theorem setPost {x} (h : Moves s t) : Moves s (t.setPost x) :=
  h.other rfl rfl (Nat.le_refl _) rfl rfl rfl rfl rfl rfl rfl
theorem setMap {x} (h : Moves s t) : Moves s (t.setMap x) :=
  h.other rfl rfl (Nat.le_refl _) rfl rfl rfl rfl rfl rfl rfl
theorem setLoader {x} (h : Moves s t) : Moves s (t.setLoader x) :=
  h.other rfl rfl (Nat.le_refl _) rfl rfl rfl rfl rfl rfl rfl
theorem setTable {x} (h : Moves s t) : Moves s (t.setTable x) :=
  h.other rfl rfl (Nat.le_refl _) rfl rfl rfl rfl rfl rfl rfl
theorem setLamps {x} (h : Moves s t) : Moves s (t.setLamps x) :=
  h.other rfl rfl (Nat.le_refl _) rfl rfl rfl rfl rfl rfl rfl
theorem setLnk {i b} (h : Moves s t) : Moves s (t.setLnk i b) :=
  h.other rfl rfl (Nat.le_refl _) rfl rfl rfl rfl rfl rfl rfl
theorem nextFree (h : Moves s t) : Moves s t.nextFree :=
  h.other rfl rfl (Nat.le_refl _) rfl rfl rfl rfl rfl rfl rfl
theorem advanceTo {a} (h : Moves s t) : Moves s (t.advanceTo a) :=
  h.other rfl rfl (Nat.le_max_left _ _) rfl rfl rfl rfl rfl rfl rfl

/-! ## Notices, counts, the run state -/

theorem setSets {p : PortId} {f g : AgentPort → NoticeSet} (h : Moves s t) :
    Moves s (t.modPort p (fun x => x.setSets (f x) (g x))) := h.modPort (fun _ _ => rfl)

theorem foldl_mem {α : Type} {f : State → α → State} (l : List α) (h : Moves s t)
    (hf : ∀ v a, a ∈ l → Moves s v → Moves s (f v a)) : Moves s (l.foldl f t) := by
  induction l generalizing t with
  | nil => exact h
  | cons a l ih => exact ih (hf t a (by simp) h) (fun v b hb => hf v b (by simp [hb]))

theorem raiseKinds {p ks} (h : Moves s t) : Moves s (t.raiseKinds p ks) := h.setSets
theorem raise {p k} (h : Moves s t) : Moves s (t.raise p k) := h.raiseKinds
theorem raiseOn {ps k} (h : Moves s t) : Moves s (t.raiseOn ps k) := h.foldl _ (fun _ _ hv => hv.raise.ite hv)
theorem raiseAll {k} (h : Moves s t) : Moves s (t.raiseAll k) := h.raiseOn
theorem setSlot {p x} (h : Moves s t) : Moves s (t.setSlot p x) := h.modPort (fun _ hx => hx)
theorem answer {p c g r} (h : Moves s t) : Moves s (t.answer p c g r) := h.setSlot
theorem deselect {p} (h : Moves s t) : Moves s (t.deselect p) := h.modPort (fun _ hx => hx)

/-- The run record with other fields than number and counters changed. -/
theorem setRunKeep {x : RunRecord} (h : Moves s t) (h1 : x.number = t.run.number) (h2 : x.counters = t.run.counters) :
    Moves s (t.setRun x) := h.setRun (fun k => by unfold RunRecord.bounded at k ⊢; rw [h1, h2]; exact k)

theorem enterRunState {r} (h : Moves s t) : Moves s (t.enterRunState r) :=
  (h.setRunKeep (x := { t.run with state := r }) rfl rfl).raiseAll

theorem sat_le (a n : Nat) : satAdd max16 a n ≤ 65535 := Nat.min_le_left _ _

/-- One run counter raised, the others as they are. -/
theorem count {f : RunCounters → RunCounters} (h : Moves s t)
    (hf : ∀ x : RunRecord, x.bounded → ({ x with counters := f x.counters } : RunRecord).bounded) :
    Moves s (t.count f) := h.setRun (fun k => hf _ k)

theorem countStopped {n} (h : Moves s t) :
    Moves s (t.count (fun c => { c with windowsStopped := satAdd max16 c.windowsStopped n })) :=
  h.count (fun _ k => ⟨k.1, k.2.1, k.2.2.1, k.2.2.2.1, k.2.2.2.2.1, k.2.2.2.2.2.1, sat_le _ _, k.2.2.2.2.2.2.2⟩)
theorem countDone {n} (h : Moves s t) :
    Moves s (t.count (fun c => { c with windowsDone := satAdd max16 c.windowsDone n })) :=
  h.count (fun _ k => ⟨k.1, k.2.1, k.2.2.1, k.2.2.2.1, k.2.2.2.2.1, sat_le _ _, k.2.2.2.2.2.2⟩)
theorem countDropped {n} (h : Moves s t) :
    Moves s (t.count (fun c => { c with postsDropped := satAdd max16 c.postsDropped n })) :=
  h.count (fun _ k => ⟨k.1, k.2.1, k.2.2.1, k.2.2.2.1, sat_le _ _, k.2.2.2.2.2⟩)
theorem countSuperseded {n} (h : Moves s t) :
    Moves s (t.count (fun c => { c with postsSuperseded := satAdd max16 c.postsSuperseded n })) :=
  h.count (fun _ k => ⟨k.1, k.2.1, k.2.2.1, sat_le _ _, k.2.2.2.2⟩)
theorem countDiscarded {n} (h : Moves s t) :
    Moves s (t.count (fun c => { c with resultsDiscarded := satAdd max16 c.resultsDiscarded n })) :=
  h.count (fun _ k => ⟨k.1, k.2.1, sat_le _ _, k.2.2.2⟩)
theorem countLost {n} (h : Moves s t) :
    Moves s (t.count (fun c => { c with resultsLost := satAdd max16 c.resultsLost n })) :=
  h.count (fun _ k => ⟨k.1, sat_le _ _, k.2.2⟩)
theorem countLatchings {n} (h : Moves s t) :
    Moves s (t.count (fun c => { c with faultLatchings := satAdd max16 c.faultLatchings n })) :=
  h.count (fun _ k => ⟨k.1, k.2.1, k.2.2.1, k.2.2.2.1, k.2.2.2.2.1, k.2.2.2.2.2.1, k.2.2.2.2.2.2.1, sat_le _ _⟩)

/-! ## Leases, by what happens to a lease -/

theorem setLease {r l} (h : Moves s t)
    (hl : isGen r = true → ((t.res r).lease = .free ∨ ∃ p a, (t.res r).lease = .held p a) →
      (l = .free ∨ ∃ p a, l = .held p a)) : Moves s (t.setLease r l) := h.modRes hl
theorem setFree {r} (h : Moves s t) : Moves s (t.setLease r .free) := h.setLease (fun _ _ => Or.inl rfl)
theorem setHeld {r p a} (h : Moves s t) : Moves s (t.setLease r (.held p a)) :=
  h.setLease (fun _ _ => Or.inr ⟨p, a, rfl⟩)
theorem setNaming {r w} (h : Moves s t) : Moves s (t.setNaming r w) := h.modResKeep (fun _ => rfl)

end Moves

end Sys2Proof.Machine
end

