-- ==== Sys2Proof/Laws/Setup.lean ====
section
/-! SUPPORT. Sys2Proof/Laws/Setup.lean: the operations of the Setup Queue keep it ordered (R118, R120, R121, R124). -/

namespace Sys2Proof.Machine

/-- No transaction of a list is in flight. -/
def noneFlies (q : List Txn) : Prop := ∀ t ∈ q, t.inFlight = false

theorem ordered_iff (x : SetupLink) : x.ordered ↔
    x.queue.length ≤ queuePlaces ∧ (∀ g ∈ x.order, noneFlies g.group)
    ∧ ((x.exchange = .idle ∧ noneFlies x.queue)
      ∨ (x.exchange ≠ .idle ∧ ∃ h rest, x.queue = h :: rest ∧ h.inFlight = true ∧ noneFlies rest)) := by
  unfold SetupLink.ordered noneFlies
  rcases x with ⟨q, o, e⟩
  cases q with
  | nil => simp
  | cons h rest =>
    cases hf : h.inFlight <;> by_cases he : e = .idle <;> simp [hf, he] <;> tauto

theorem Moves.kick {s t : State} (h : Moves s t) : Moves s t.kick := by
  unfold State.kick
  split
  · exact h
  · next a rest hq =>
    split
    · exact h
    · next ha =>
      refine h.setSetup (fun k => ?_)
      rw [ordered_iff] at k ⊢
      obtain ⟨k1, k2, k3⟩ := k
      refine ⟨by simpa [hq] using k1, k2, Or.inr ⟨by simp, _, rest, rfl, rfl, ?_⟩⟩
      rcases k3 with ⟨_, k3⟩ | ⟨_, a', r', e, f, _⟩
      · exact fun b hb => k3 b (by simp [hq, hb])
      · simp [hq] at e; obtain ⟨rfl, rfl⟩ := e; exact absurd f ha

/-- What admission leaves: places kept, the order a part of the old one, the queue grown by waiting groups. -/
theorem admitGroups_spec (order : List WaitingGroup) (q : List Txn) (hq : q.length ≤ queuePlaces)
    (ho : ∀ g ∈ order, noneFlies g.group) :
    (admitGroups q order).1.length ≤ queuePlaces
    ∧ (∀ g ∈ (admitGroups q order).2, noneFlies g.group)
    ∧ ∃ more, (admitGroups q order).1 = q ++ more ∧ noneFlies more := by
  induction order generalizing q with
  | nil => exact ⟨hq, ho, [], by simp [admitGroups], by simp [noneFlies]⟩
  | cons g rest ih =>
    unfold admitGroups
    split
    · next hf =>
      obtain ⟨a, b, more, e, n⟩ := ih (q ++ g.group) (by simpa using hf) (fun x hx => ho x (by simp [hx]))
      refine ⟨a, b, g.group ++ more, by rw [e]; simp, ?_⟩
      intro t ht
      rcases List.mem_append.1 ht with h | h
      · exact ho g (by simp) t h
      · exact n t h
    · exact ⟨hq, ho, [], by simp, by simp [noneFlies]⟩

theorem noneFlies_append {a b : List Txn} (ha : noneFlies a) (hb : noneFlies b) : noneFlies (a ++ b) :=
  fun t ht => (List.mem_append.1 ht).elim (ha t) (hb t)

/-- A queue that grows at its young end stays ordered. -/
theorem ordered_grow {x : SetupLink} {more : List Txn} {order : List WaitingGroup} (k : x.ordered)
    (hm : noneFlies more) (hl : (x.queue ++ more).length ≤ queuePlaces) (ho : ∀ g ∈ order, noneFlies g.group) :
    ({ x with queue := x.queue ++ more, order := order } : SetupLink).ordered := by
  rw [ordered_iff] at k ⊢
  obtain ⟨_, _, k3⟩ := k
  refine ⟨hl, ho, ?_⟩
  rcases k3 with ⟨e, n⟩ | ⟨e, a, rest, q, f, n⟩
  · exact Or.inl ⟨e, noneFlies_append n hm⟩
  · exact Or.inr ⟨e, a, rest ++ more, by simp [q], f, noneFlies_append n hm⟩

theorem Moves.admitWaiting {s t : State} (h : Moves s t) : Moves s t.admitWaiting := by
  refine h.setSetup (fun k => ?_)
  have k' := (ordered_iff _).1 k
  obtain ⟨a, b, more, e, n⟩ := admitGroups_spec t.setup.order t.setup.queue k'.1 k'.2.1
  have := ordered_grow k n (by rw [← e]; exact a) b
  rw [e]; exact this

theorem Moves.submit {s t : State} {w : WinId} {group : List Txn} (h : Moves s t) (hg : noneFlies group) :
    Moves s (t.submit w group) := by
  refine Moves.kick ?_
  split
  · next hc =>
    simp only [Bool.and_eq_true, decide_eq_true_eq] at hc
    refine h.setSetup (fun k => ?_)
    have := ordered_grow (order := t.setup.order) k hg (by simpa using hc.2) ((ordered_iff _).1 k).2.1
    exact this
  · refine h.setSetup (fun k => ?_)
    have ho : ∀ g ∈ t.setup.order ++ [({ win := w, group := group } : WaitingGroup)], noneFlies g.group := by
      intro g hm
      rcases List.mem_append.1 hm with h1 | h1
      · exact ((ordered_iff _).1 k).2.1 g h1
      · simp at h1; subst h1; exact hg
    have := ordered_grow (more := []) (order := _) k (by simp [noneFlies]) (by simpa using ((ordered_iff _).1 k).1) ho
    simpa using this

theorem noneFlies_stopped {q : List Txn} (w : WinId) (h : noneFlies q) : noneFlies (q.filterMap (Txn.stopped w)) := by
  intro t ht
  obtain ⟨a, ha, e⟩ := List.mem_filterMap.1 ht
  unfold Txn.stopped at e
  have hf := h a ha
  split at e
  · simp [hf] at e
  · simp at e; subst e; exact hf

theorem Moves.dropOutstanding {s t : State} {w : WinId} (h : Moves s t) : Moves s (t.dropOutstanding w) := by
  refine Moves.kick (Moves.admitWaiting (h.setSetup (fun k => ?_)))
  rw [ordered_iff] at k ⊢
  obtain ⟨k1, k2, k3⟩ := k
  refine ⟨Nat.le_trans (List.length_filterMap_le _ _) k1, fun g hg => k2 g (List.mem_of_mem_filter hg), ?_⟩
  rcases k3 with ⟨e, n⟩ | ⟨e, a, rest, q, f, n⟩
  · exact Or.inl ⟨e, noneFlies_stopped w n⟩
  · refine Or.inr ⟨e, ?_⟩
    by_cases hw : a.win = w
    · exact ⟨{ a with discard := true }, rest.filterMap (Txn.stopped w), by simp [q, Txn.stopped, hw, f], f,
        noneFlies_stopped w n⟩
    · exact ⟨a, rest.filterMap (Txn.stopped w), by simp [q, Txn.stopped, hw], f, noneFlies_stopped w n⟩

/-- The transaction in flight leaves the queue and the link is idle. -/
theorem ordered_complete {x : SetupLink} {a : Txn} {rest : List Txn} (k : x.ordered) (hq : x.queue = a :: rest) :
    ({ x with queue := rest, exchange := .idle } : SetupLink).ordered := by
  rw [ordered_iff] at k ⊢
  obtain ⟨k1, k2, k3⟩ := k
  refine ⟨by simp [hq] at k1; simp; omega, k2, Or.inl ⟨rfl, ?_⟩⟩
  rcases k3 with ⟨_, n⟩ | ⟨_, b, r', q, _, n⟩
  · exact fun t ht => n t (by simp [hq, ht])
  · rw [hq] at q; simp at q; obtain ⟨-, rfl⟩ := q; exact n

end Sys2Proof.Machine
end

