-- ==== Sys2Proof/Laws/MovesLow.lean ====
section
/-! SUPPORT. Sys2Proof/Laws/MovesLow.lean: what the operations of Flags, Ports, Posts, Withdraws and SetupLink can do
(`Moves`), and the own rules of their requests. -/

namespace Sys2Proof.Machine

/-- The own rule of a request moves the hub. -/
def BodyMoves (b : Body) : Prop := ∀ p tag ps s t, Moves s t → Moves s (b p tag ps t).1

namespace Moves

variable {s t u : State}

/-! ## Flags -/

theorem modRecord {l d f} (h : Moves s t) : Moves s (t.modRecord l d f) := by
  cases d <;> exact h.setTable
theorem regrade {l d} (h : Moves s t) : Moves s (t.regrade l d) := by
  unfold State.regrade; split
  · exact h.modRecord
  · exact h
theorem regradeListing {l} (h : Moves s t) : Moves s (t.regradeListing l) :=
  h.foldl _ (fun v m hv => by
    split
    · exact hv.regrade.regrade.ite hv
    · exact hv)
theorem recount (h : Moves s t) : Moves s t.recount := h.setTable
theorem evalCoverage (h : Moves s t) : Moves s t.evalCoverage := by
  unfold State.evalCoverage
  have h1 : ∀ b, Moves s (t.setRun { t.run with complete := b }) := fun b => h.setRunKeep rfl rfl
  exact (h1 _).raiseAll.ite (h1 _)

/-! ## Ports -/

theorem dropFrame {p j} (h : Moves s t) : Moves s (t.dropFrame p j) := h.raise.ite h
theorem takeFrame {p j run} (h : Moves s t) (hr : ∀ c g ps v, Moves s v → Moves s (run c g ps v)) :
    Moves s (t.takeFrame p j run) := by
  unfold State.takeFrame
  split
  · exact h.setSlot
  · exact h.setSlot
  · exact h.answer
  · exact hr _ _ _ _ h.setSlot
theorem transact {p rx cut run} (h : Moves s t) (hr : ∀ c g ps v, Moves s v → Moves s (run c g ps v)) :
    Moves s (t.transact p rx cut run) := by
  unfold State.transact
  dsimp only
  split
  · exact h.deselect
  · split
    · exact h.deselect
    · exact h.deselect.takeFrame hr
    · exact h.deselect.dropFrame
    · exact (h.deselect.takeFrame hr).ite h.deselect.dropFrame
    · exact h.deselect.dropFrame
theorem serve {r b p g ps} (h : Moves s t) (hb : BodyMoves b) : Moves s (t.serve r b p g ps) := by
  unfold State.serve
  have hm := hb p g ps s t h
  split
  · split
    · split
      · next e => rw [e] at hm; exact Moves.answer hm
      · next e => rw [e] at hm; exact hm
    · exact h.answer
  · exact h.answer
theorem request {r b p rest cut} (h : Moves s t) (hb : BodyMoves b) : Moves s (t.request r b p rest cut) :=
  h.transact (fun _ _ _ _ hv => hv.serve hb)

/-! ## Posts -/

theorem flushPort {gone p} (h : Moves s t) : Moves s (t.flushPort gone p) := by
  unfold State.flushPort
  split
  · exact h.answer.ite h.setSlot
  · exact h
  · exact h
  · exact h
theorem flushGone {gone} (h : Moves s t) : Moves s (t.flushGone gone) := h.foldl _ (fun _ _ hv => hv.flushPort)
theorem takeCommit (h : Moves s t) : Moves s t.takeCommit := by
  unfold State.takeCommit
  split
  · exact h.setPost.nextFree
  · exact h
  · exact h
theorem arrive {a put} (h : Moves s t) : Moves s (t.arrive a put) :=
  ((h.setPost.countSuperseded).ite (h.setPost.countSuperseded).flushGone).takeCommit
theorem arriveOrdinary {a p} (h : Moves s t) : Moves s (t.arriveOrdinary a p) := h.arrive
theorem arriveRecall {a p} (h : Moves s t) : Moves s (t.arriveRecall a p) := h.arrive
theorem postHolding {r} (h : Moves s t) : Moves s (t.postHolding r) := by
  unfold State.postHolding
  split
  · exact h.setHeld.arriveOrdinary
  · exact h
  · exact h
  · exact h
theorem mergePosted {q} (h : Moves s t) : Moves s (t.mergePosted q) := h.countDropped.ite h.modRecord.regrade

/-! ## Withdraws -/

theorem syncGone {l p} (h : Moves s t) : Moves s (t.syncGone l p) := by
  unfold State.syncGone
  split
  · exact (h.setSync.raise.ite h.setSync).ite h
  · exact h
  · exact h
theorem completeWithdraw {b l} (h : Moves s t) : Moves s (t.completeWithdraw b l) := by
  have h1 : Moves s (t.setWithdrawList (t.wd.list.filter (fun e => decide (e.link ≠ l)))) :=
    h.setWithdrawList (fun k => Nat.le_trans (List.length_filter_le _ _) k)
  unfold State.completeWithdraw
  dsimp only
  refine Moves.foldl _ ?_ (fun _ _ hv => hv.syncGone)
  split
  · exact h1.setLinkState.modRecord.modRecord.regradeListing.recount.evalCoverage
  · exact h1.setLinkState.modRecord.modRecord.regradeListing.recount
theorem removeInterest {keep} (h : Moves s t) : Moves s (t.removeInterest keep) := by
  refine Moves.foldl _ (h.setWithdrawList (fun k => by simpa using k)) (fun v e hv => ?_)
  exact hv.completeWithdraw.ite hv
theorem enterClosed (h : Moves s t) : Moves s t.enterClosed := by
  unfold State.enterClosed
  exact (((h.setRunKeep (x := { t.run with time := .stopped t.runTimeMs }) rfl rfl).enterRunState).foldl _
    (fun _ _ hv => hv.completeWithdraw)).evalCoverage
theorem checkClosing (h : Moves s t) : Moves s t.checkClosing := h.enterClosed.ite h

/-! ## SetupLink -/

theorem pulseAccept {i w} (h : Moves s t) : Moves s (t.pulseAccept i w) := h.modLive.ite h
theorem pulseReject {i w} (h : Moves s t) : Moves s (t.pulseReject i w) := h.modLive.ite h
theorem replyStart (h : Moves s t) : Moves s t.replyStart := by
  unfold State.replyStart
  split
  · next hx =>
    refine h.setSetup (fun k => ?_)
    obtain ⟨a, b, c, d⟩ := k
    exact ⟨a, b, c, by rw [hx] at d; simpa using d⟩
  · exact h
  · exact h
theorem syncTimeout {p} (h : Moves s t) : Moves s (t.syncTimeout p) := by
  unfold State.syncTimeout
  split
  · exact h.advanceTo.setSync.raise
  · exact h
  · exact h

end Moves

/-! ## Own rules -/

theorem Moves.refuse {s t : State} {st : Status} (h : Moves s t) : Moves s (refuse t st).1 := h
theorem Moves.accept {s t : State} {d : List Byte} (h : Moves s t) : Moves s (accept t d).1 := h

theorem bodyReadNotices_moves : BodyMoves bodyReadNotices := fun p _ ps s t h => by
  unfold bodyReadNotices; split <;> exact h

theorem bodyClearNotices_moves : BodyMoves bodyClearNotices := fun p _ ps s t h => by
  unfold bodyClearNotices; split
  · split
    · exact Moves.setSets h
    · exact h
  · exact h

theorem bodySetNotices_moves : BodyMoves bodySetNotices := fun p _ ps s t h => by
  unfold bodySetNotices; split
  · split
    · exact h.raiseKinds
    · exact h
  · exact h

theorem bodySetNoticeEnable_moves : BodyMoves bodySetNoticeEnable := fun p _ ps s t h => by
  unfold bodySetNoticeEnable; split
  · split
    · exact Moves.setSets h
    · exact h
  · exact h

theorem bodyReadVerdict_moves : BodyMoves bodyReadVerdict := fun p tag ps s t h => by
  unfold bodyReadVerdict; split
  · split
    · split
      · dsimp only; split
        · exact h.setPost.setSlot
        · exact h
      · exact h
    · exact h
  · exact h

theorem bodyWithdraw_moves : BodyMoves bodyWithdraw := fun p tag ps s t h => by
  unfold bodyWithdraw; split
  · split
    · exact h
    · next l _ =>
      split
      · exact h
      · split
        · exact h
        · next hl =>
          dsimp only
          refine Moves.accept ?_
          have h1 : ∀ e, Moves s ((t.setLinkState l .withdrawing).setWithdrawList (t.wd.list ++ [e])) := fun e =>
            h.setLinkState.setWithdrawList (fun _ => by simp; omega)
          split
          · exact (h1 _).raiseOn.regradeListing.recount.evalCoverage.completeWithdraw
          · exact (h1 _).raiseOn.regradeListing.recount.evalCoverage
  · exact h

theorem bodyRestore_moves : BodyMoves bodyRestore := fun p tag ps s t h => by
  unfold bodyRestore; split
  · split
    · exact h
    · split
      · exact h
      · split
        · exact h
        · exact h
        · dsimp only
          exact Moves.accept h.setLinkState.modRecord.modRecord.regradeListing.recount.evalCoverage
  · exact h

theorem bodyAckWithdraw_moves : BodyMoves bodyAckWithdraw := fun p tag ps s t h => by
  unfold bodyAckWithdraw; split
  · split
    · exact h
    · split
      · exact h
      · split
        · exact h
        · split
          · exact h
          · dsimp only
            refine Moves.accept ?_
            have h1 : ∀ f : WithdrawEntry → WithdrawEntry, Moves s (t.setWithdrawList (t.wd.list.map f)) :=
              fun f => h.setWithdrawList (fun k => by simpa using k)
            split
            · exact (h1 _).completeWithdraw
            · exact h1 _
  · exact h

theorem bodySync_moves : BodyMoves bodySync := fun p tag ps s t h => by
  have hn : Moves s (bodySync.syncNow p t).1 := by
    unfold bodySync.syncNow; split
    · exact h.setSync
    · exact h.setSync
  unfold bodySync; split
  · split
    · exact h
    · exact hn
    · exact hn
  · exact h

theorem bodyReadWithdraws_moves : BodyMoves bodyReadWithdraws := fun p _ ps s t h => by
  unfold bodyReadWithdraws; split <;> exact h

theorem bodyReadCapture_moves : BodyMoves bodyReadCapture := fun p tag ps s t h => by
  unfold bodyReadCapture; split
  · split
    · exact h
    · split
      · exact Moves.accept h.modLive
      · exact h
  · exact h

theorem bodySetCapture_moves : BodyMoves bodySetCapture := fun p tag ps s t h => by
  unfold bodySetCapture; split
  · split
    · split
      · exact h
      · split
        · exact h
        · exact Moves.accept h.modCap
    · exact h
  · exact h

end Sys2Proof.Machine
end

