-- ==== Sys2Proof/Laws/MovesWindows.lean ====
section
/-! SUPPORT. Sys2Proof/Laws/MovesWindows.lean: what the operations of Windows, WindowRequests and Semaphores can do
(`Moves`), and the own rules of their requests. -/

namespace Sys2Proof.Machine

theorem isGen_chkOf (i : SlotId) : isGen (chkOf i) = false := by simp [isGen, chkOf]

theorem configure_flies {s : State} {w : WinId} {x : Window} {r : ResId} {t : Txn} (h : s.configure w x r = some t) :
    t.inFlight = false := by
  unfold State.configure at h
  dsimp only at h
  split at h
  · cases h
  · split at h
    · split at h
      · cases h; rfl
      · split at h
        · obtain ⟨m, -, e⟩ := Option.map_eq_some_iff.1 h; subst e; rfl
        · cases h
    · split at h
      · cases h; rfl
      · cases h

theorem noneFlies_configure (s : State) (w : WinId) (x : Window) (rs : List ResId) :
    noneFlies (rs.filterMap (s.configure w x)) := by
  intro t ht
  obtain ⟨r, -, e⟩ := List.mem_filterMap.1 ht
  exact configure_flies e

theorem noneFlies_harvest (s : State) (w : WinId) (x : Window) : noneFlies (s.harvestGroup w x) := by
  unfold State.harvestGroup noneFlies
  split <;> simp

/-- Once every CONSUME entry has been chosen that can be, the entries kept are CONSUME entries behind it. -/
theorem chooseEntries_kept (l : List ArmedEntry)
    (h : (chooseEntries true l).1.any (fun e => decide (e.take = .consume)) = false) : (chooseEntries true l).2 = [] := by
  induction l with
  | nil => rfl
  | cons e rest ih =>
    unfold chooseEntries at h ⊢
    by_cases he : e.take = .leave
    · simp [he] at h ⊢; exact ih (by simpa using h)
    · have : e.take = .consume := by cases hh : e.take <;> simp_all
      simp [this] at h

namespace Moves

variable {s t u : State}

theorem fallTxen {i} (h : Moves s t) : Moves s (t.fallTxen i) := h.setTxen.setFall.ite h.setTxen
theorem dropDrive {w x} (h : Moves s t) : Moves s (t.dropDrive w x) := by
  unfold State.dropDrive
  split
  · dsimp only
    refine Moves.modWin ?_
    have h1 : Moves s ((t.driveSlots x).foldl State.fallTxen t) := h.foldl _ (fun _ _ hv => hv.fallTxen)
    split
    · exact h1.setCken
    · exact h1
  · exact h
theorem disableCapture {x} (h : Moves s t) : Moves s (t.disableCapture x) := by
  unfold State.disableCapture; split
  · exact h.modCap
  · exact h
theorem placeDir {x d} (h : Moves s t) : Moves s (t.placeDir x d) := by
  unfold State.placeDir
  split
  · refine Moves.ite (h.modRes (fun hg => ?_)) h
    rw [isGen_chkOf] at hg; cases hg
  · exact h
theorem placeResults {x} (h : Moves s t) : Moves s (t.placeResults x) := h.placeDir.placeDir
theorem unnameAll {w x} (h : Moves s t) : Moves s (t.unnameAll w x) :=
  (h.foldl _ (fun _ _ hv => hv.setNaming)).modWin
theorem disarm {w} (h : Moves s t) : Moves s (t.disarm w) where
  pending := h.pending
  rst := h.rst
  now := h.now
  sound hs := by
    have k := h.sound hs
    refine ⟨k.attention, k.setup, k.lists, k.gens, k.run, fun j hj => ?_⟩
    have := k.sems j
    simp only [State.sem, State.disarm, Table.rd_each] at hj ⊢
    rw [show (Table.rd t.sems j).armed = [] from this hj]
    rfl
theorem stopWindow {w c} (h : Moves s t) : Moves s (t.stopWindow w c) := by
  unfold State.stopWindow
  split
  · exact h
  · next x _ =>
    split
    · dsimp only
      refine Moves.countStopped ?_
      have h1 : Moves s ((((t.dropDrive w x).disableCapture x).modWin w (fun y => y.halted c t.now)).dropOutstanding w
        |>.disarm w |>.modWin w (fun y => (y.keepLockLosses (t.lossesOf x)).markCause c)) :=
        h.dropDrive.disableCapture.modWin.dropOutstanding.disarm.modWin
      have h2 : ∀ y, Moves s (if c = EndCause.aborted then _ else State.placeResults _ y) := fun y =>
        Moves.ite h1 (h1.placeResults (x := y))
      split
      · split
        · exact (h2 _).unnameAll
        · exact h1
      · split
        · exact (h2 _).unnameAll.raise
        · exact h1.raise
    · exact h
theorem endDone {w c} (h : Moves s t) : Moves s (t.endDone w c).1 := by
  unfold State.endDone
  split
  · exact h
  · exact h.modWin.placeResults.unnameAll.raise.countDone
theorem enterSetup {w} (h : Moves s t) : Moves s (t.enterSetup w) := by
  unfold State.enterSetup
  split
  · exact h.modWin.submit (noneFlies_configure _ _ _ _)
  · exact h
theorem dropAggressors {w} (h : Moves s t) : Moves s (t.dropAggressors w) := by
  unfold State.dropAggressors
  split
  · exact h
  · exact (h.foldl _ (fun _ _ hv => hv.setNaming)).modWin
theorem armedStart {w} (h : Moves s t) : Moves s (t.armedStart w).1 := by
  unfold State.armedStart
  split
  · exact h
  · split
    · exact h
    · split
      · exact h.endDone
      · dsimp only
        split
        · split
          · exact h.dropAggressors.stopWindow
          · exact h.dropAggressors.enterSetup
        · exact h.dropAggressors
theorem handOver {es} (h : Moves s t) : Moves s (t.handOver es).1 := by
  induction es generalizing t with
  | nil => exact h
  | cons e rest ih => exact ih h.armedStart
/-- A start of the armed list settles its semaphore, whatever was done to it just before (R101). -/
theorem startListAfter {k f} (h : Moves s t) : Moves s ((t.modSem k f).startList k).1 := by
  unfold State.startList
  dsimp only
  refine Moves.handOver ?_
  have he : (t.modSem k f).sem k = f (t.sem k) := by simp [sem_modSem]
  refine ⟨h.pending, h.rst, h.now, fun hs => ?_⟩
  have m := h.sound hs
  refine ⟨m.attention, m.setup, m.lists, m.gens, m.run, fun j hj => ?_⟩
  rw [sem_modSem] at hj ⊢
  split
  · next hjk =>
    simp only [hjk, if_true, Bool.and_eq_true, Bool.not_eq_true'] at hj
    exact chooseEntries_kept _ hj.2
  · next hjk =>
    simp only [hjk, if_false] at hj
    rw [sem_modSem] at hj ⊢
    simp only [hjk, if_false] at hj ⊢
    exact m.sems j hj
theorem takeSet {k} (h : Moves s t) : Moves s (t.takeSet k).1 := h.startListAfter
theorem takeSets {n ks} (h : Moves s t) : Moves s (State.takeSets n t ks) := by
  induction n generalizing t ks with
  | zero => exact h
  | succ n ih =>
    cases ks with
    | nil => exact h
    | cons k rest => exact ih h.takeSet
theorem doSets {ks} (h : Moves s t) : Moves s (t.doSets ks) := h.takeSets
theorem signal {w e} (h : Moves s t) : Moves s (t.signal w e) := by
  unfold State.signal; split
  · exact h.doSets
  · exact h
theorem finish {w c} (h : Moves s t) : Moves s (t.finish w c) := h.endDone.doSets
theorem lockCheck {w x i} (h : Moves s t) : Moves s (t.lockCheck w x i) := by
  unfold State.lockCheck
  exact h.ite (h.modLive.stopWindow.ite h.modLive)
theorem enterDwell {w} (h : Moves s t) : Moves s (t.enterDwell w) := by
  unfold State.enterDwell
  split
  · exact h
  · split
    · exact h
    · dsimp only
      split
      · exact (h.setCken.modCap.modWin.lockCheck.signal).ite h.setCken.modCap.modWin.lockCheck
      · exact h.setCken.modCap.modWin.lockCheck
theorem enterLead {w} (h : Moves s t) : Moves s (t.enterLead w) := by
  unfold State.enterLead
  split
  · exact h
  · have h1 : ∀ l : List SlotId, Moves s (l.foldl (fun u i => u.setTxen i true) t) :=
      fun l => h.foldl l (fun _ _ hv => hv.setTxen)
    exact ((h1 _).modWin.enterDwell).ite (h1 _).modWin
theorem tryLead {w} (h : Moves s t) : Moves s (t.tryLead w) := by
  unfold State.tryLead; split
  · exact h.enterLead.ite h
  · exact h
theorem enterSettle {w} (h : Moves s t) : Moves s (t.enterSettle w) := h.modWin.tryLead
theorem tryResume {w} (h : Moves s t) : Moves s (t.tryResume w) := by
  unfold State.tryResume; split
  · exact h.enterSettle.ite h
  · exact h
theorem pauseWindow {w x} (h : Moves s t) : Moves s (t.pauseWindow w x) :=
  h.dropDrive.disableCapture.modWin.tryResume
theorem faultWindow {i w} (h : Moves s t) : Moves s (t.faultWindow i w) := by
  unfold State.faultWindow
  split
  · exact h
  · split
    · split
      · exact h.stopWindow
      · exact h.pauseWindow.ite h
    · exact h
theorem faultWindows {i} (h : Moves s t) : Moves s (t.faultWindows i) := h.foldl _ (fun _ _ hv => hv.faultWindow)
theorem latchCleared {i} (h : Moves s t) : Moves s (t.latchCleared i) := h.foldl _ (fun v w hv => by
  split
  · exact (hv.tryResume.ite hv.tryLead).ite hv
  · exact hv)
theorem endDwell {w x} (h : Moves s t) : Moves s (t.endDwell w x) :=
  (h.dropDrive.disableCapture.modWin.signal.modWin).submit (noneFlies_harvest _ _ _)
theorem boundary {w} (h : Moves s t) : Moves s (t.boundary w) := by
  unfold State.boundary
  dsimp only
  split
  · exact h.modWin.dropAggressors
  · split
    · exact h.modWin.dropAggressors.finish
    · exact h.modWin.dropAggressors.modWin.enterSettle
theorem harvested {w x r} (h : Moves s t) : Moves s (t.harvested w x r) := by
  unfold State.harvested
  exact h.modWin.modWin.enterSettle.ite h.modWin.boundary
theorem hear {x o b} (h : Moves s t) : Moves s (t.hear x o b) := by
  unfold State.hear
  split
  · exact h
  · split
    · exact h.stopWindow
    · split
      · exact h.ite h.enterSettle
      · split
        · split
          · exact h.harvested
          · exact h
        · exact h
theorem endExchange {f g} (h : Moves s t) : Moves s (t.endExchange f g) := by
  unfold State.endExchange
  split
  · next a rest hq =>
    split
    · unfold State.completeTxn
      have h1 : Moves s (t.setSetup { t.setup with queue := rest, exchange := .idle }) :=
        h.setSetup (fun k => ordered_complete k hq)
      exact (Moves.ite h1 h1.hear).admitWaiting.kick
    · exact h
  · exact h
theorem exchangeEnd {b} (h : Moves s t) : Moves s (t.exchangeEnd b) := by
  unfold State.exchangeEnd
  dsimp only
  split
  · exact h
  · exact h.endExchange
  · exact h.endExchange
theorem replyTimeout (h : Moves s t) : Moves s t.replyTimeout := by
  unfold State.replyTimeout
  split
  · exact h.advanceTo.endExchange
  · exact h
  · exact h
theorem settleReached {w} (h : Moves s t) : Moves s (t.settleReached w) := by
  unfold State.settleReached
  split
  · split
    · split
      · exact h.advanceTo.tryLead
      · exact h.tryLead
    · exact h
  · exact h
theorem leadExpired {w} (h : Moves s t) : Moves s (t.leadExpired w) := by
  unfold State.leadExpired
  split
  · exact h.advanceTo.enterDwell.ite h
  · exact h
theorem dwellExpired {w} (h : Moves s t) : Moves s (t.dwellExpired w) := by
  unfold State.dwellExpired
  split
  · exact h.advanceTo.endDwell.ite h
  · exact h
theorem lnkFell {i} (h : Moves s t) : Moves s (t.lnkFell i) := by
  unfold State.lnkFell
  dsimp only
  split
  · split
    · split
      · exact h.modLive.stopWindow.ite h.modLive
      · exact h.modLive
    · exact h.modLive
  · exact h
theorem openWindow {p w k o rs} (h : Moves s t) : Moves s (t.openWindow p w k o rs) :=
  ((h.foldl _ (fun _ _ hv => hv.postHolding)).setWin).foldl _ (fun _ _ hv => hv.setNaming)
theorem startWindow {w x} (h : Moves s t) : Moves s (t.startWindow w x) := by
  unfold State.startWindow
  split
  · exact h.enterSetup
  · next k take _ =>
    dsimp only
    split
    · exact (h.modWin.startListAfter).doSets
    · next hk =>
      refine h.modWin.modSem (fun _ hset => absurd ?_ hk)
      simpa [sem_modSem] using hset

end Moves

/-! ## Own rules -/

/-- A request on a window moves the hub when its own part does. -/
theorem Moves.withWindow {s t : State} {b : Byte} {f : WinId → Window → State × Option Reply} (h : Moves s t)
    (hf : ∀ w x, Moves s (f w x).1) : Moves s (t.withWindow b f).1 := by
  unfold State.withWindow
  split
  · exact h
  · split
    · exact h
    · exact hf _ _

theorem bodyOpenWindow_moves : BodyMoves bodyOpenWindow := fun p _ ps s t h => by
  unfold bodyOpenWindow
  split
  · exact h
  · split
    · exact h
    · split
      · exact h
      · dsimp only
        split
        · exact h
        · exact h
        · exact Moves.accept h.openWindow

theorem bodyStart_moves : BodyMoves bodyStart := fun p _ ps s t h => by
  unfold bodyStart
  split
  · refine h.withWindow (fun w x => ?_)
    split
    · exact h
    · split
      · exact h
      · split
        · exact h
        · split
          · exact h
          · exact Moves.accept h.startWindow
  · exact h

theorem bodyStop_moves : BodyMoves bodyStop := fun p _ ps s t h => by
  unfold bodyStop
  split
  · split
    · exact h
    · refine h.withWindow (fun w x => ?_)
      split
      · exact h
      · split
        · exact h
        · exact Moves.accept (h.modWin.ite h.stopWindow)
  · exact h

theorem bodyRetime_moves : BodyMoves bodyRetime := fun p _ ps s t h => by
  unfold bodyRetime
  split
  · split
    · refine h.withWindow (fun w x => ?_)
      split
      · exact h
      · split
        · exact Moves.accept h.modWin
        · split
          · exact Moves.accept h.modWin
          · exact h
    · exact h
  · exact h

theorem bodyCloseWindow_moves : BodyMoves bodyCloseWindow := fun p _ ps s t h => by
  unfold bodyCloseWindow
  split
  · refine h.withWindow (fun w x => ?_)
    split
    · exact h
    · split
      · exact h
      · exact Moves.accept h.setWin
  · exact h

theorem bodyReadWindow_moves : BodyMoves bodyReadWindow := fun p _ ps s t h => by
  unfold bodyReadWindow
  split
  · split
    · exact h
    · split <;> exact h
  · exact h

theorem bodySemSet_moves : BodyMoves bodySemSet := fun p _ ps s t h => by
  unfold bodySemSet
  split
  · split
    · exact h
    · exact Moves.accept h.takeSet.doSets
  · exact h

theorem bodySemClear_moves : BodyMoves bodySemClear := fun p _ ps s t h => by
  unfold bodySemClear
  split
  · split
    · exact h
    · exact Moves.accept (h.modSem (fun _ hx => by simp at hx))
  · exact h

theorem bodySemRead_moves : BodyMoves bodySemRead := fun p _ ps s t h => by
  unfold bodySemRead; split <;> exact h

end Sys2Proof.Machine
end

