-- ==== Sys2Proof/Laws/MovesHigh.lean ====
section
/-! SUPPORT. Sys2Proof/Laws/MovesHigh.lean: what the operations of Leases, Faults, Commits, Lamps, Loader, Run, Leaving
and Transactions can do (`Moves`), the own rules of their requests, and so what every command but the two edges of
RST_N can do. -/

namespace Sys2Proof.Machine

namespace Moves

variable {s t u : State}

/-! ## Leases -/

theorem grantOne {p m r} (h : Moves s t) (hg : m = .watch → isGen r = false) : Moves s (t.grantOne p m r) := by
  unfold State.grantOne
  split
  · exact h.raiseOn.modRes (fun _ _ => Or.inr ⟨_, _, rfl⟩)
  · exact h.setLease (fun hr => by rw [hg rfl] at hr; cases hr)
theorem grant {p m rs} (h : Moves s t) (hg : m = .watch → ∀ r ∈ rs, isGen r = false) : Moves s (t.grant p m rs) :=
  h.foldl_mem rs (fun _ r hr hv => hv.grantOne (fun e => hg e r hr))
theorem grantable_gens {p m rs es} (h : t.grantable p m rs es = true) : m = .watch → ∀ r ∈ rs, isGen r = false := by
  rintro rfl r hr
  have := List.all_eq_true.1 h r hr
  simp only [State.leasable, Bool.and_eq_true, Bool.not_eq_true'] at this
  exact this.1.2.1
theorem startRecall {r} (h : Moves s t) : Moves s (t.startRecall r) := by
  unfold State.startRecall; split
  · refine Moves.raise (Moves.modResKeep h ?_); intro; rfl
  · exact h
theorem recallCheck {e} (h : Moves s t) : Moves s (t.recallCheck e) := h.foldl _ (fun _ _ hv => hv.startRecall.ite hv)
/-- The grant pass keeps no more entries than it visits. -/
theorem grantFrom {kept es} (h : Moves s t) (hl : s.Sound → (kept ++ es).length ≤ 8) :
    Moves s (t.grantFrom kept es) := by
  induction es generalizing t kept with
  | nil => exact h.setWaitsOf (fun k => by simpa using hl k)
  | cons e rest ih =>
    unfold State.grantFrom
    split
    · next hg =>
      exact ih (h.grant (grantable_gens hg)).raise (fun k => by have := hl k; simp at this ⊢; omega)
    · exact ih h.recallCheck (fun k => by have := hl k; simp at this ⊢; omega)
theorem grantPass (h : Moves s t) : Moves s t.grantPass := h.grantFrom (fun k => by simpa using (h.sound k).lists.1)
theorem freeRes {r} (h : Moves s t) : Moves s (t.freeRes r) := (h.modRes (fun _ _ => Or.inl rfl)).setExpired
theorem stopNaming {r} (h : Moves s t) : Moves s (t.stopNaming r) := by
  unfold State.stopNaming; split
  · exact h.stopWindow
  · exact h
theorem forcedRelease {r} (h : Moves s t) : Moves s (t.forcedRelease r) := by
  unfold State.forcedRelease
  split
  · exact h
  · dsimp only
    refine Moves.grantPass (Moves.raise (Moves.freeRes ?_))
    split
    · exact h.stopNaming.setHeld.arriveRecall
    · exact h.stopNaming
    · exact h.stopNaming
    · exact h.stopNaming
theorem takeExpired (h : Moves s t) : Moves s t.takeExpired := h.foldl _ (fun _ _ hv => hv.forcedRelease.ite hv)
theorem waitOrConflict {p g m w rs} (h : Moves s t) : Moves s (t.waitOrConflict p g m w rs).1 := by
  unfold State.waitOrConflict
  split
  · split
    · exact h
    · exact h
  · split
    · exact h
    · next hl =>
      refine Moves.recallCheck (h.setWaits (fun _ => ?_))
      simp; omega
theorem leaseRequest {p g m w rs} (h : Moves s t) : Moves s (t.leaseRequest p g m w rs).1 := by
  unfold State.leaseRequest
  split
  · exact h
  · split
    · exact h
    · split
      · exact h
      · split
        · next hg => exact Moves.accept (h.grant (grantable_gens hg))
        · exact h.waitOrConflict
theorem releaseOne {p r} (h : Moves s t) : Moves s (t.releaseOne p r) := by
  unfold State.releaseOne
  split
  · exact h.postHolding.freeRes
  · exact h.freeRes
  · next ws hw =>
    refine h.setLease (fun _ hp => ?_)
    rw [hw] at hp
    rcases hp with hp | ⟨_, _, hp⟩ <;> cases hp
  · exact h
theorem cancelWaits (h : Moves s t) : Moves s t.cancelWaits :=
  (h.foldl _ (fun _ _ hv => hv.raise.ite hv)).setWaits (fun _ => by simp)
theorem revokeWatches (h : Moves s t) : Moves s t.revokeWatches := h.foldl _ (fun v r hv => by
  split
  · exact hv.setFree.raiseOn
  · exact hv
  · exact hv
  · exact hv)
theorem abortRes {r} (h : Moves s t) : Moves s (t.abortRes r) := by
  unfold State.abortRes
  dsimp only
  refine Moves.freeRes ?_
  have h1 : Moves s (match (t.res r).lease.holding with
    | some _ => t.count (fun c => { c with resultsDiscarded := satAdd max16 c.resultsDiscarded 1 })
    | none => t) := by
    split
    · exact h.countDiscarded
    · exact h
  split
  · exact h1.raiseOn.raise
  · exact h1.raiseOn
theorem abortLeases (h : Moves s t) : Moves s t.abortLeases := (h.foldl _ (fun _ _ hv => hv.abortRes)).cancelWaits
theorem limitCrossed {r} (h : Moves s t) : Moves s (t.limitCrossed r) := by
  unfold State.limitCrossed
  split
  · refine Moves.grantPass (Moves.modResKeep h.advanceTo ?_); intro; rfl
  · exact h
theorem recallReached {r} (h : Moves s t) : Moves s (t.recallReached r) := by
  unfold State.recallReached
  split
  · dsimp only
    split
    · exact h.advanceTo.forcedRelease.checkClosing
    · refine Moves.setExpired (Moves.modResKeep h.advanceTo ?_); intro; rfl
  · exact h
  · exact h

/-! ## Faults, Commits, Lamps -/

theorem latch {i} (h : Moves s t) : Moves s (t.latch i) := by
  unfold State.latch
  exact (Moves.ite h.setFall h).modFault.countLatchings.raiseOn.faultWindows
theorem qualify {i} (h : Moves s t) : Moves s (t.qualify i) := by
  unfold State.qualify
  exact (h.latch.ite h.modFault).ite h
theorem fltRose {i} (h : Moves s t) : Moves s (t.fltRose i) := h.ite h.qualify
theorem clearLatch {i} (h : Moves s t) : Moves s (t.clearLatch i) := h.modFault.grantPass.latchCleared
theorem qualified {i} (h : Moves s t) : Moves s (t.qualified i) := by
  unfold State.qualified; split
  · exact h.advanceTo.latch
  · exact h
theorem completeCommit (h : Moves s t) : Moves s t.completeCommit := by
  unfold State.completeCommit
  split
  · next q b _ _ =>
    dsimp only
    have h1 : Moves s ((t.mergePosted q).freeBuffer q b) := h.mergePosted.setPost
    have h2 := (Moves.ite (c := t.linkIs q.result.link .withdrawn = true) h1 h1.recount.evalCoverage).flushGone
      (gone := [q.serial])
    exact (Moves.ite h2.takeExpired h2).checkClosing.takeCommit
  · exact h
theorem blinkToggle {r} (h : Moves s t) : Moves s (t.blinkToggle r) := (Moves.ite h.advanceTo h).setLamps

/-! ## Loader -/

theorem modReport {f} (h : Moves s t) : Moves s (t.modReport f) := h.setLoader
theorem noteError {e i} (h : Moves s t) : Moves s (t.noteError e i) := h.modReport
theorem toStage {x} (h : Moves s t) : Moves s (t.toStage x) := h.setLoader
theorem loadStart (h : Moves s t) : Moves s t.loadStart :=
  h.other rfl rfl (Nat.le_refl _) rfl rfl rfl rfl rfl rfl rfl
theorem badArea {e i} (h : Moves s t) : Moves s (t.badArea e i) := h.modReport.noteError
theorem skipArea (h : Moves s t) : Moves s t.skipArea := h.modReport
theorem takeFields {x i} (h : Moves s t) : Moves s (t.takeFields x i) := by
  unfold State.takeFields
  exact h.setMap.modReport.ite h.setMap.modReport.noteError
theorem takeOnce {i a b c x f} (h : Moves s t) : Moves s (t.takeOnce i a b c x f) := by
  unfold State.takeOnce
  exact h.skipArea.noteError.ite (h.badArea.ite (h.badArea.ite h.takeFields.modReport))
theorem takeArea {a i k p} (h : Moves s t) : Moves s (t.takeArea a i k p) := by
  unfold State.takeArea
  exact h.takeOnce.ite (h.takeOnce.ite (h.takeOnce.ite (h.setLoader.ite h.skipArea)))
theorem visitArea {a b} (h : Moves s t) : Moves s (t.visitArea a b).1 := by
  unfold State.visitArea
  dsimp only
  split
  · exact h.badArea
  · split
    · exact h.badArea
    · split
      · exact h.badArea
      · exact h.takeArea
theorem rejectRecord {e i} (h : Moves s t) : Moves s (t.rejectRecord e i) := h.modReport.noteError
theorem readRecord {i r} (h : Moves s t) : Moves s (t.readRecord i r) := by
  unfold State.readRecord
  split
  · exact h.setMap.modReport
  · exact h.rejectRecord
theorem readRecords {i n p} (h : Moves s t) : Moves s (t.readRecords i n p) := by
  induction n generalizing t p with
  | zero =>
    cases p with
    | nil => exact h
    | cons a l => exact h.rejectRecord
  | succ n ih => exact ih h.readRecord
theorem resolveLink {l} (h : Moves s t) : Moves s (t.resolveLink l) := by
  unfold State.resolveLink
  split
  · exact h
  · exact h.setMap.modReport.ite h.setMap.modReport.noteError
theorem resolveNeighbours (h : Moves s t) : Moves s t.resolveNeighbours := h.foldl _ (fun _ _ hv => hv.resolveLink)
theorem rebuildTable (h : Moves s t) : Moves s t.rebuildTable := h.setTable
theorem takePortSettings (h : Moves s t) : Moves s t.takePortSettings :=
  h.foldl _ (fun _ _ hv => hv.modPort (fun _ _ => rfl))
theorem takeCaptureSettings (h : Moves s t) : Moves s t.takeCaptureSettings := h.foldl _ (fun _ _ hv => hv.modCap)
theorem takeLampSettings (h : Moves s t) : Moves s t.takeLampSettings := h.setLamps
theorem takeFaultSettings (h : Moves s t) : Moves s t.takeFaultSettings := h.foldl _ (fun _ _ hv => hv.qualify)
theorem loadEnd {c} (h : Moves s t) : Moves s (t.loadEnd c) := by
  unfold State.loadEnd
  dsimp only
  refine Moves.enterRunState (Moves.evalCoverage (Moves.takeFaultSettings (Moves.takeLampSettings
    (Moves.takeCaptureSettings (Moves.takePortSettings (Moves.rebuildTable (Moves.setLoader ?_)))))))
  split
  · exact h.setMap.noteError.modReport
  · exact h
theorem linkPassEnd (h : Moves s t) : Moves s t.linkPassEnd := by
  have k := h.resolveNeighbours
  unfold State.linkPassEnd
  generalize t.resolveNeighbours = u at k ⊢
  exact k.loadEnd
theorem walkEnd (h : Moves s t) : Moves s t.walkEnd := (h.linkPassEnd.ite h.toStage).ite h.loadEnd
theorem follow {a i n} (h : Moves s t) : Moves s (t.follow a i n) := by
  unfold State.follow
  exact h.walkEnd.ite (h.noteError.walkEnd.ite (h.noteError.walkEnd.ite h.modReport.toStage))
theorem headerRead {b} (h : Moves s t) : Moves s (t.headerRead b) := by
  unfold State.headerRead
  exact h.ite (h.modReport.follow.ite h.loadEnd)
theorem areaVisited {b} (h : Moves s t) : Moves s (t.areaVisited b) := by
  unfold State.areaVisited
  split
  · exact h.visitArea.follow
  · exact h
  · exact h
  · exact h
theorem linksRead {b} (h : Moves s t) : Moves s (t.linksRead b) := by
  unfold State.linksRead
  split
  · dsimp only
    exact (h.readRecords.setLoader.linkPassEnd).ite h.readRecords.setLoader
  · exact h

/-! ## Run, Leaving -/

theorem clearWork (h : Moves s t) : Moves s t.clearWork where
  pending := h.pending
  rst := h.rst
  now := h.now
  sound hs := by
    have k := h.sound hs
    refine ⟨k.attention, k.setup, k.lists, k.gens, k.run, fun j hj => ?_⟩
    simp [State.sem, State.clearWork, Semaphore.clear] at hj
theorem startTable (h : Moves s t) : Moves s t.startTable := by
  unfold State.startTable
  dsimp only
  refine Moves.setTable (h.foldl _ (fun v l hv => ?_))
  split
  · exact hv.ite hv.modRecord.modRecord
  · exact hv
theorem startRun (h : Moves s t) : Moves s t.startRun := by
  unfold State.startRun
  dsimp only
  refine ((Moves.startTable (h.setRun (fun k => ?_))).clearWork.enterRunState).evalCoverage
  exact ⟨Nat.min_le_left _ _, by simp [RunCounters.zero]⟩
theorem reloadMap (h : Moves s t) : Moves s t.reloadMap := by
  unfold State.reloadMap
  dsimp only
  refine ((Moves.setRun h.enterRunState (fun k => ?_)).clearWork).loadStart
  exact ⟨k.1, by simp [RunCounters.zero]⟩
theorem stopWindows {c f} (h : Moves s t) : Moves s (t.stopWindows c f) := h.foldl _ (fun v w hv => by
  split
  · exact hv.stopWindow.ite hv
  · exact hv)
theorem closeRun (h : Moves s t) : Moves s t.closeRun :=
  h.enterRunState.cancelWaits.revokeWatches.stopWindows.checkClosing
theorem abortRun (h : Moves s t) : Moves s t.abortRun := by
  unfold State.abortRun
  dsimp only
  have h1 := (h.enterRunState (r := .closing)).ite (c := t.run.state = .running) h
  generalize (if t.run.state = .running then t.enterRunState .closing else t) = u at h1 ⊢
  have h2 := h1.setRunKeep (x := { u.run with aborted := true }) rfl rfl
  generalize u.setRun { u.run with aborted := true } = v at h2 ⊢
  exact h2.stopWindows.abortLeases.removeInterest.checkClosing
theorem leaveWindows {p} (h : Moves s t) : Moves s (t.leaveWindows p) :=
  (h.foldl _ (fun _ _ hv => hv.stopWindow)).foldl _ (fun _ _ hv => hv.setWin)
theorem leaveWaits {p e} (h : Moves s t) : Moves s (t.leaveWaits p e) := by
  unfold State.leaveWaits
  have h1 : ∀ f : WaitEntry → Bool, Moves s (t.setWaits (t.dir.waits.filter f)) :=
    fun f => h.setWaits (fun k => Nat.le_trans (List.length_filter_le _ _) k)
  exact (h1 _).raise.ite (h1 _)
theorem leaveWatch {p r} (h : Moves s t) : Moves s (t.leaveWatch p r) := by
  unfold State.leaveWatch
  split
  · next ws hw =>
    refine h.setLease (fun _ hp => ?_)
    rw [hw] at hp
    rcases hp with hp | ⟨_, _, hp⟩ <;> cases hp
  · exact h
  · exact h
  · exact h
theorem leaveRes {p r} (h : Moves s t) : Moves s (t.leaveRes p r) := by
  unfold State.leaveRes
  exact (h.freeRes.countLost.ite h.postHolding.freeRes).ite h
theorem leaveLeases {p e} (h : Moves s t) : Moves s (t.leaveLeases p e) :=
  ((h.leaveWaits.foldl _ (fun _ _ hv => hv.leaveWatch)).foldl _ (fun _ _ hv => hv.leaveRes)).grantPass
theorem leaveWithdraws {p} (h : Moves s t) : Moves s (t.leaveWithdraws p) := h.setSync.removeInterest
theorem leavePort {p e} (h : Moves s t) : Moves s (t.leavePort p e) :=
  h.leaveWindows.leaveLeases.leaveWithdraws.checkClosing

end Moves

/-! ## Own rules -/

theorem bodyLease_moves : BodyMoves bodyLease := fun p tag ps s t h => by
  unfold bodyLease
  split
  · exact h
  · split
    · split
      · exact h.leaseRequest
      · exact h
    · exact h

theorem bodyRelease_moves : BodyMoves bodyRelease := fun p tag ps s t h => by
  unfold bodyRelease
  split
  · split
    · exact h
    · split
      · exact h
      · split
        · exact h
        · split
          · exact h
          · exact Moves.accept (h.foldl _ (fun _ _ hv => hv.releaseOne)).grantPass.checkClosing
  · exact h

theorem bodyPost_moves : BodyMoves bodyPost := fun p tag ps s t h => by
  unfold bodyPost
  split
  · split
    · exact h
    · split
      · exact h
      · split
        · exact h
        · split
          · exact h
          · exact Moves.accept h.postHolding
  · exact h

theorem bodyDiscard_moves : BodyMoves bodyDiscard := fun p tag ps s t h => by
  unfold bodyDiscard
  split
  · split
    · exact h
    · split
      · exact Moves.accept h.setHeld.countDiscarded
      · exact h
      · exact h
      · exact h
  · exact h

theorem bodyRecall_moves : BodyMoves bodyRecall := fun p tag ps s t h => by
  unfold bodyRecall
  split
  · split
    · exact h
    · split
      · exact h
      · split
        · exact Moves.accept h.startRecall
        · exact h
  · exact h

theorem bodyCancelWait_moves : BodyMoves bodyCancelWait := fun p tag ps s t h => by
  unfold bodyCancelWait
  split
  · split
    · exact Moves.accept (h.setWaits (fun k => Nat.le_trans (List.length_filter_le _ _) k)).grantPass
    · exact h
  · exact h

theorem bodyReadLeases_moves : BodyMoves bodyReadLeases := fun p tag ps s t h => by
  unfold bodyReadLeases
  split
  · split
    · split <;> exact h
    · exact h
  · split <;> exact h
  · exact h

theorem bodyReadFaults_moves : BodyMoves bodyReadFaults := fun p _ ps s t h => by
  unfold bodyReadFaults; split <;> exact h

theorem bodyClearFault_moves : BodyMoves bodyClearFault := fun p tag ps s t h => by
  unfold bodyClearFault
  split
  · split
    · exact h
    · split
      · exact h
      · split
        · exact Moves.accept h.clearLatch
        · exact h
  · exact h

theorem bodySetLamp_moves : BodyMoves bodySetLamp := fun p tag ps s t h => by
  unfold bodySetLamp
  split
  · split
    · exact Moves.accept h.setLamps
    · exact h
  · exact h

theorem bodySetBlink_moves : BodyMoves bodySetBlink := fun p tag ps s t h => by
  unfold bodySetBlink
  split
  · split
    · exact Moves.accept h.setLamps
    · exact h
  · exact h

theorem bodyReadRun_moves : BodyMoves bodyReadRun := fun p tag ps s t h => by
  unfold bodyReadRun
  split
  · split
    · exact h
    · split <;> exact h
  · exact h

theorem bodyReadLink_moves : BodyMoves bodyReadLink := fun p tag ps s t h => by
  unfold bodyReadLink
  split
  · split <;> exact h
  · split
    · split <;> exact h
    · exact h
  · split
    · exact h
    · split <;> exact h
  · exact h

theorem bodyRunStart_moves : BodyMoves bodyRunStart := fun p tag ps s t h => by
  unfold bodyRunStart
  split
  · exact Moves.accept h.startRun
  · exact h

theorem bodyReload_moves : BodyMoves bodyReload := fun p tag ps s t h => by
  unfold bodyReload
  split
  · exact Moves.accept h.reloadMap
  · exact h

theorem bodyRunClose_moves : BodyMoves bodyRunClose := fun p tag ps s t h => by
  unfold bodyRunClose
  split
  · exact Moves.accept h.closeRun
  · exact h

theorem bodyRunAbort_moves : BodyMoves bodyRunAbort := fun p tag ps s t h => by
  unfold bodyRunAbort
  split
  · exact Moves.accept h.abortRun
  · exact h

theorem bodyDetach_moves : BodyMoves bodyDetach := fun p tag ps s t h => by
  unfold bodyDetach
  split
  · exact Moves.accept (Moves.setSets h.leavePort)
  · exact h

theorem bodyEvict_moves : BodyMoves bodyEvict := fun p tag ps s t h => by
  unfold bodyEvict
  split
  · split
    · exact h
    · split
      · exact h
      · exact Moves.accept h.leavePort.raise
  · exact h

theorem body_moves (r : Req) : BodyMoves r.body := by
  cases r
  case readRun => exact bodyReadRun_moves
  case runStart => exact bodyRunStart_moves
  case runClose => exact bodyRunClose_moves
  case runAbort => exact bodyRunAbort_moves
  case reload => exact bodyReload_moves
  case readLink => exact bodyReadLink_moves
  case withdraw => exact bodyWithdraw_moves
  case restore => exact bodyRestore_moves
  case ackWithdraw => exact bodyAckWithdraw_moves
  case sync => exact bodySync_moves
  case readWithdraws => exact bodyReadWithdraws_moves
  case lease => exact bodyLease_moves
  case release => exact bodyRelease_moves
  case post => exact bodyPost_moves
  case discard => exact bodyDiscard_moves
  case recallResource => exact bodyRecall_moves
  case cancelWait => exact bodyCancelWait_moves
  case readLeases => exact bodyReadLeases_moves
  case openWindow => exact bodyOpenWindow_moves
  case start => exact bodyStart_moves
  case stop => exact bodyStop_moves
  case retime => exact bodyRetime_moves
  case closeWindow => exact bodyCloseWindow_moves
  case readWindow => exact bodyReadWindow_moves
  case semSet => exact bodySemSet_moves
  case semClear => exact bodySemClear_moves
  case semRead => exact bodySemRead_moves
  case readCapture => exact bodyReadCapture_moves
  case setCapture => exact bodySetCapture_moves
  case readVerdict => exact bodyReadVerdict_moves
  case readFaults => exact bodyReadFaults_moves
  case clearFault => exact bodyClearFault_moves
  case setLamp => exact bodySetLamp_moves
  case setBlink => exact bodySetBlink_moves
  case readNotices => exact bodyReadNotices_moves
  case clearNotices => exact bodyClearNotices_moves
  case setNotices => exact bodySetNotices_moves
  case setNoticeEnable => exact bodySetNoticeEnable_moves
  case detach => exact bodyDetach_moves
  case evict => exact bodyEvict_moves

theorem Moves.dispatch {s t : State} {p c g ps} (h : Moves s t) : Moves s (t.dispatch p c g ps) := by
  unfold State.dispatch
  split
  · exact h.serve (body_moves _)
  · exact h.answer

/-! ## Commands -/

theorem Moves.live {s t : State} {f : State → State} (h : Moves s t) (hf : ∀ v, Moves s v → Moves s (f v)) :
    Moves s (t.live f) := Moves.ite h (hf t h)

/-- Every command but the two edges of RST_N answers a next state to which the hub can move. -/
theorem exec_moves (i : Instr) (s : State) (h1 : i ≠ .reset) (h2 : i ≠ .resetRelease) :
    ∃ t, exec i s = .next t ∧ Moves s t := by
  cases i
  case reset => exact absurd rfl h1
  case resetRelease => exact absurd rfl h2
  case headerRead => exact ⟨_, rfl, (Moves.refl s).live (fun _ hv => hv.headerRead)⟩
  case areaVisit => exact ⟨_, rfl, (Moves.refl s).live (fun _ hv => hv.areaVisited)⟩
  case linksAreaRead => exact ⟨_, rfl, (Moves.refl s).live (fun _ hv => hv.linksRead)⟩
  case transactionEnd => exact ⟨_, rfl, (Moves.refl s).transact (fun _ _ _ _ hv => hv.dispatch)⟩
  case readRun => exact ⟨_, rfl, (Moves.refl s).request bodyReadRun_moves⟩
  case runStart => exact ⟨_, rfl, (Moves.refl s).request bodyRunStart_moves⟩
  case runClose => exact ⟨_, rfl, (Moves.refl s).request bodyRunClose_moves⟩
  case runAbort => exact ⟨_, rfl, (Moves.refl s).request bodyRunAbort_moves⟩
  case reload => exact ⟨_, rfl, (Moves.refl s).request bodyReload_moves⟩
  case readLink => exact ⟨_, rfl, (Moves.refl s).request bodyReadLink_moves⟩
  case withdraw => exact ⟨_, rfl, (Moves.refl s).request bodyWithdraw_moves⟩
  case restore => exact ⟨_, rfl, (Moves.refl s).request bodyRestore_moves⟩
  case ackWithdraw => exact ⟨_, rfl, (Moves.refl s).request bodyAckWithdraw_moves⟩
  case sync => exact ⟨_, rfl, (Moves.refl s).request bodySync_moves⟩
  case readWithdraws => exact ⟨_, rfl, (Moves.refl s).request bodyReadWithdraws_moves⟩
  case lease => exact ⟨_, rfl, (Moves.refl s).request bodyLease_moves⟩
  case release => exact ⟨_, rfl, (Moves.refl s).request bodyRelease_moves⟩
  case post => exact ⟨_, rfl, (Moves.refl s).request bodyPost_moves⟩
  case discard => exact ⟨_, rfl, (Moves.refl s).request bodyDiscard_moves⟩
  case recallResource => exact ⟨_, rfl, (Moves.refl s).request bodyRecall_moves⟩
  case cancelWait => exact ⟨_, rfl, (Moves.refl s).request bodyCancelWait_moves⟩
  case readLeases => exact ⟨_, rfl, (Moves.refl s).request bodyReadLeases_moves⟩
  case openWindow => exact ⟨_, rfl, (Moves.refl s).request bodyOpenWindow_moves⟩
  case start => exact ⟨_, rfl, (Moves.refl s).request bodyStart_moves⟩
  case stop => exact ⟨_, rfl, (Moves.refl s).request bodyStop_moves⟩
  case retime => exact ⟨_, rfl, (Moves.refl s).request bodyRetime_moves⟩
  case closeWindow => exact ⟨_, rfl, (Moves.refl s).request bodyCloseWindow_moves⟩
  case readWindow => exact ⟨_, rfl, (Moves.refl s).request bodyReadWindow_moves⟩
  case semSet => exact ⟨_, rfl, (Moves.refl s).request bodySemSet_moves⟩
  case semClear => exact ⟨_, rfl, (Moves.refl s).request bodySemClear_moves⟩
  case semRead => exact ⟨_, rfl, (Moves.refl s).request bodySemRead_moves⟩
  case readCapture => exact ⟨_, rfl, (Moves.refl s).request bodyReadCapture_moves⟩
  case setCapture => exact ⟨_, rfl, (Moves.refl s).request bodySetCapture_moves⟩
  case readVerdict => exact ⟨_, rfl, (Moves.refl s).request bodyReadVerdict_moves⟩
  case readFaults => exact ⟨_, rfl, (Moves.refl s).request bodyReadFaults_moves⟩
  case clearFault => exact ⟨_, rfl, (Moves.refl s).request bodyClearFault_moves⟩
  case setLamp => exact ⟨_, rfl, (Moves.refl s).request bodySetLamp_moves⟩
  case setBlink => exact ⟨_, rfl, (Moves.refl s).request bodySetBlink_moves⟩
  case readNotices => exact ⟨_, rfl, (Moves.refl s).request bodyReadNotices_moves⟩
  case clearNotices => exact ⟨_, rfl, (Moves.refl s).request bodyClearNotices_moves⟩
  case setNotices => exact ⟨_, rfl, (Moves.refl s).request bodySetNotices_moves⟩
  case setNoticeEnable => exact ⟨_, rfl, (Moves.refl s).request bodySetNoticeEnable_moves⟩
  case detach => exact ⟨_, rfl, (Moves.refl s).request bodyDetach_moves⟩
  case evict => exact ⟨_, rfl, (Moves.refl s).request bodyEvict_moves⟩
  case leaseLimitCrossed => exact ⟨_, rfl, (Moves.refl s).live (fun _ hv => hv.limitCrossed)⟩
  case recallDeadline => exact ⟨_, rfl, (Moves.refl s).live (fun _ hv => hv.recallReached)⟩
  case setupReplyTimeout => exact ⟨_, rfl, (Moves.refl s).live (fun _ hv => hv.replyTimeout)⟩
  case setupExchangeEnd => exact ⟨_, rfl, (Moves.refl s).live (fun _ hv => hv.exchangeEnd)⟩
  case settleTimeReached => exact ⟨_, rfl, (Moves.refl s).live (fun _ hv => hv.settleReached)⟩
  case leadExpiry => exact ⟨_, rfl, (Moves.refl s).live (fun _ hv => hv.leadExpired)⟩
  case dwellExpiry => exact ⟨_, rfl, (Moves.refl s).live (fun _ hv => hv.dwellExpired)⟩
  case fltAssert => exact ⟨_, rfl, (Moves.refl s).ite ((Moves.refl s).modFault.live (fun _ hv => hv.fltRose))⟩
  case fltDeassert => exact ⟨_, rfl, (Moves.refl s).modFault⟩
  case faultQualifyExpiry => exact ⟨_, rfl, (Moves.refl s).live (fun _ hv => hv.qualified)⟩
  case errPulseAccept => exact ⟨_, rfl, (Moves.refl s).live (fun _ hv => hv.pulseAccept)⟩
  case errPulseReject => exact ⟨_, rfl, (Moves.refl s).live (fun _ hv => hv.pulseReject)⟩
  case lnkFall => exact ⟨_, rfl, ((Moves.refl s).setLnk.live (fun _ hv => hv.lnkFell)).ite (Moves.refl s)⟩
  case lnkRise => exact ⟨_, rfl, (Moves.refl s).setLnk⟩
  case commitComplete => exact ⟨_, rfl, (Moves.refl s).live (fun _ hv => hv.completeCommit)⟩
  case syncTimeout => exact ⟨_, rfl, (Moves.refl s).live (fun _ hv => hv.syncTimeout)⟩
  case blinkClockToggle => exact ⟨_, rfl, (Moves.refl s).live (fun _ hv => hv.blinkToggle)⟩
  case pselNAssertion =>
    refine ⟨_, rfl, (Moves.refl s).modPort (fun x hx => ?_)⟩
    split <;> exact hx
  case replyStartBit => exact ⟨_, rfl, (Moves.refl s).live (fun _ hv => hv.replyStart)⟩

end Sys2Proof.Machine
end

