-- ==== Sys2Proof/Laws/Requests.lean ====
section
/-! SUPPORT. Sys2Proof/Laws/Requests.lean: what the taking of a request does, once for all requests: a good frame is
judged good, a taken request goes to its own rule, an accepted one gets the answer of that rule. -/

namespace Sys2Proof.Machine

variable {s : State} {r : Req} {p : PortId} {tag : Byte} {params filler : List Byte} {cut : Bool} {body : Body}

theorem code_ne_zero (r : Req) : r.code ≠ 0#8 := by cases r <;> decide

theorem reqOf_code (r : Req) : reqOf r.code = some r := by cases r <;> decide

/-- A request frame sent whole is judged a good frame (R177, R181 step 1). -/
theorem judge_frameRest (h : params.length < 256) :
    judge (r.code :: frameRest r tag params filler) cut = .frame r.code tag params := by
  have hl : (BitVec.ofNat 8 params.length).toNat = params.length := by
    simp; omega
  have h1 : params.length + 1 ≤ (params ++ crc8 (r.code :: tag :: BitVec.ofNat 8 params.length :: params) :: filler).length := by
    simp
  simp only [judge, frameRest, code_ne_zero, if_false, hl, h1, if_true]
  simp [judgeFrame, hl]

/-- What a taken transaction carries goes to `takeFrame`. -/
theorem transact_takes {rx : List Byte} {run : Byte → Byte → List Byte → State → State}
    (h : s.takes p rx.length = true) :
    s.transact p rx cut run = (s.deselect p).takeFrame p (judge rx cut) run := by
  simp only [State.takes, Bool.and_eq_true, Bool.not_eq_true'] at h
  obtain ⟨h0, h⟩ := h
  unfold State.transact
  simp only [h0]
  split at h <;> simp_all

/-- A taken request goes to its run state, role and own checks (R178, R181). -/
theorem request_takes (hp : params.length < 256)
    (h : s.takes p ((frameRest r tag params filler).length + 1) = true) :
    s.request r body p (frameRest r tag params filler) cut = (s.working r p tag).serve r body p tag params := by
  unfold State.request
  rw [transact_takes (by simpa using h), judge_frameRest hp]
  rfl

@[simp] theorem working_run : (s.working r p tag).run = s.run := rfl

theorem port_working (q : PortId) :
    ((s.working r p tag).port q).role = (s.port q).role := by
  simp only [State.working, State.inWork, State.deselect, State.setSlot, port_modPort]
  split <;> simp_all

/-- An accepted request is carried out by its own rule, and what that rule answers is placed in the slot (R181
step 5). -/
theorem request_accepts (hp : params.length < 256)
    (h : s.accepts r p ((frameRest r tag params filler).length + 1) = true) {t : State} {y : Reply}
    (hb : body p tag params (s.working r p tag) = (t, some y)) :
    s.request r body p (frameRest r tag params filler) cut = t.answer p r.code tag y := by
  simp only [State.accepts, Bool.and_eq_true] at h
  obtain ⟨⟨h1, h2⟩, h3⟩ := h
  rw [request_takes hp h1]
  simp only [State.serve, working_run, h2, port_working, h3, if_true, hb]

/-- An accepted request whose own rule gives no answer yet leaves the slot as that rule set it (R182). -/
theorem request_waits (hp : params.length < 256)
    (h : s.accepts r p ((frameRest r tag params filler).length + 1) = true) {t : State}
    (hb : body p tag params (s.working r p tag) = (t, none)) :
    s.request r body p (frameRest r tag params filler) cut = t := by
  simp only [State.accepts, Bool.and_eq_true] at h
  obtain ⟨⟨h1, h2⟩, h3⟩ := h
  rw [request_takes hp h1]
  simp only [State.serve, working_run, h2, port_working, h3, if_true, hb]

/-- A taken request that the run state does not admit is answered WRONG_STATE and changes nothing else (R22). -/
theorem request_wrongState (hp : params.length < 256)
    (h : s.takes p ((frameRest r tag params filler).length + 1) = true) (ha : r.admits s.run.state = false) :
    s.request r body p (frameRest r tag params filler) cut = s.refusedWith r p tag .wrongState := by
  rw [request_takes hp h]
  simp [State.serve, ha, State.refusedWith]

/-- A taken request that the role does not permit is answered NOT_PERMITTED and changes nothing else (R183). -/
theorem request_notPermitted (hp : params.length < 256)
    (h : s.takes p ((frameRest r tag params filler).length + 1) = true) (ha : r.admits s.run.state = true)
    (hr : r.permits (s.port p).role = false) :
    s.request r body p (frameRest r tag params filler) cut = s.refusedWith r p tag .notPermitted := by
  rw [request_takes hp h]
  simp [State.serve, ha, port_working, hr, State.refusedWith]

/-! ## The state in which a request's own rule acts: all but the port's slot and transaction as before -/

@[simp] theorem working_rst : (s.working r p tag).rst = s.rst := rfl
@[simp] theorem working_now : (s.working r p tag).now = s.now := rfl
@[simp] theorem working_map : (s.working r p tag).map = s.map := rfl
@[simp] theorem working_loader : (s.working r p tag).loader = s.loader := rfl
@[simp] theorem working_dir : (s.working r p tag).dir = s.dir := rfl
@[simp] theorem working_eng : (s.working r p tag).eng = s.eng := rfl
@[simp] theorem working_sems : (s.working r p tag).sems = s.sems := rfl
@[simp] theorem working_caps : (s.working r p tag).caps = s.caps := rfl
@[simp] theorem working_setup : (s.working r p tag).setup = s.setup := rfl
@[simp] theorem working_faults : (s.working r p tag).faults = s.faults := rfl
@[simp] theorem working_post : (s.working r p tag).post = s.post := rfl
@[simp] theorem working_table : (s.working r p tag).table = s.table := rfl
@[simp] theorem working_wd : (s.working r p tag).wd = s.wd := rfl
@[simp] theorem working_lamps : (s.working r p tag).lamps = s.lamps := rfl
@[simp] theorem working_lnk : (s.working r p tag).lnk = s.lnk := rfl
@[simp] theorem working_freeIndex : (s.working r p tag).freeIndex = s.freeIndex := rfl
@[simp] theorem working_pending : (s.working r p tag).pending = s.pending := rfl
@[simp] theorem working_res (q : ResId) : (s.working r p tag).res q = s.res q := rfl
@[simp] theorem working_win (w : WinId) : (s.working r p tag).win w = s.win w := rfl
@[simp] theorem working_sem (k : SemId) : (s.working r p tag).sem k = s.sem k := rfl
@[simp] theorem working_cap (i : SlotId) : (s.working r p tag).cap i = s.cap i := rfl
@[simp] theorem working_fault (i : SlotId) : (s.working r p tag).fault i = s.fault i := rfl
@[simp] theorem working_link (l : LinkId) : (s.working r p tag).link l = s.link l := rfl
@[simp] theorem working_isFitted (i : SlotId) : (s.working r p tag).isFitted i = s.isFitted i := rfl
@[simp] theorem working_latched (i : SlotId) : (s.working r p tag).latched i = s.latched i := rfl
@[simp] theorem working_lamp (i : SlotId) : (s.working r p tag).lamp i = s.lamp i := rfl
@[simp] theorem working_syncSlot (q : PortId) : (s.working r p tag).syncSlot q = s.syncSlot q := rfl
@[simp] theorem working_holds (q : PortId) (x : ResId) : (s.working r p tag).holds q x = s.holds q x := rfl
@[simp] theorem working_watches (q : PortId) (x : ResId) : (s.working r p tag).watches q x = s.watches q x := rfl
@[simp] theorem working_nowMs : (s.working r p tag).nowMs = s.nowMs := rfl

/-- The record of the port itself in that state. -/
theorem working_port : (s.working r p tag).port p =
    { s.port p with transaction := .none, slot := .working r.code tag none } := by
  simp [State.working, State.inWork, State.setSlot, State.deselect, port_modPort]

/-- Every other port's record is untouched. -/
theorem working_port_other {q : PortId} (h : q ≠ p) : (s.working r p tag).port q = s.port q := by
  simp [State.working, State.inWork, State.setSlot, State.deselect, port_modPort, h]

/-! ## The same for the commands -/

theorem runStates_contains (r : Req) (st : RunState) : r.runStates.contains st = r.admits st := by
  cases r <;> cases st <;> rfl

theorem roles_contains (r : Req) (x : Role) : r.roles.contains x = r.permits x := by
  cases r <;> cases x <;> rfl

/-- Every request command is its transaction, carried out by the request's own rule. -/
theorem exec_command (rest : List Byte) : exec (r.command p rest cut) s = .next (s.request r r.body p rest cut) := by
  cases r <;> rfl

theorem frameRest_length : (frameRest r tag params filler).length + 1 = params.length + 4 + filler.length := by
  simp [frameRest]
  omega

theorem takes_of_taken (h : s.taken p params filler = true) :
    params.length < 256 ∧ s.takes p ((frameRest r tag params filler).length + 1) = true := by
  simpa [State.taken, frameRest_length] using h

theorem accepts_of_admitted (h : s.admitted r p params filler = true) :
    params.length < 256 ∧ s.accepts r p ((frameRest r tag params filler).length + 1) = true := by
  simp only [State.admitted, Bool.and_eq_true, runStates_contains, roles_contains] at h
  obtain ⟨⟨h1, h2⟩, h3⟩ := h
  obtain ⟨h4, h5⟩ := takes_of_taken (r := r) (tag := tag) h1
  exact ⟨h4, by simp [State.accepts, h5, h2, h3]⟩

/-- An admitted request's command answers what the request's own rule answers (R181 step 5). -/
theorem exec_admitted (h : s.admitted r p params filler = true) {t : State} {y : Reply}
    (hb : r.body p tag params (s.working r p tag) = (t, some y)) :
    exec (r.command p (frameRest r tag params filler) cut) s = .next (t.answer p r.code tag y) := by
  obtain ⟨h1, h2⟩ := accepts_of_admitted (tag := tag) h
  rw [exec_command, request_accepts h1 h2 hb]

/-- An admitted request whose own rule gives no answer yet (R182). -/
theorem exec_admitted_waits (h : s.admitted r p params filler = true) {t : State}
    (hb : r.body p tag params (s.working r p tag) = (t, none)) :
    exec (r.command p (frameRest r tag params filler) cut) s = .next t := by
  obtain ⟨h1, h2⟩ := accepts_of_admitted (tag := tag) h
  rw [exec_command, request_waits h1 h2 hb]

/-- A taken request whose run state and role let it pass is admitted. -/
theorem admitted_of_taken (h : s.taken p params filler = true) (h1 : r.admits s.run.state = true)
    (h2 : r.permits (s.port p).role = true) : s.admitted r p params filler = true := by
  rw [State.admitted, runStates_contains, roles_contains, h, h1, h2]
  rfl

/-- A taken request's command in a run state that does not admit it (R22). -/
theorem exec_wrongState (h : s.taken p params filler = true) (h1 : r.admits s.run.state = false) :
    exec (r.command p (frameRest r tag params filler) cut) s = .next (s.refusedWith r p tag .wrongState) := by
  obtain ⟨a, b⟩ := takes_of_taken (r := r) (tag := tag) h
  rw [exec_command, request_wrongState a b h1]

/-- A taken request's command from a port whose role does not permit it (R183). -/
theorem exec_notPermitted (h : s.taken p params filler = true) (h1 : r.admits s.run.state = true)
    (h2 : r.permits (s.port p).role = false) :
    exec (r.command p (frameRest r tag params filler) cut) s = .next (s.refusedWith r p tag .notPermitted) := by
  obtain ⟨a, b⟩ := takes_of_taken (r := r) (tag := tag) h
  rw [exec_command, request_notPermitted a b h1 h2]

/-! ## Parameters -/

/-- A number sent in a byte is read back. -/
theorem idxOf_byte {n : Nat} (h : n ≤ 256) (k : Fin n) : idxOf n (BitVec.ofNat 8 k.val) = some k := by
  have hk := k.isLt
  have e : (BitVec.ofNat 8 k.val).toNat = k.val := by
    rw [BitVec.toNat_ofNat]; omega
  simp [idxOf, finOf, e]

theorem toNat_byte {k : Nat} (h : k < 256) : (BitVec.ofNat 8 k).toNat = k := by
  rw [BitVec.toNat_ofNat]; omega

/-- A kind set sent in two bytes is read back. -/
theorem kindSetOf_bytes (ks : NoticeSet) :
    kindSetOf (BitVec.ofNat 8 (ks.toNat / 256)) (BitVec.ofNat 8 ks.toNat) = some ks := by
  have h := ks.isLt
  have e : num16 (BitVec.ofNat 8 (ks.toNat / 256)) (BitVec.ofNat 8 ks.toNat) = ks.toNat := by
    unfold num16
    rw [toNat_byte (by omega), BitVec.toNat_ofNat]
    omega
  unfold kindSetOf
  rw [e, if_pos (by omega)]
  simp

theorem flagOf_byte (b : Bool) : flagOf (BitVec.ofNat 8 (if b then 1 else 0)) = some b := by cases b <;> rfl

end Sys2Proof.Machine
end

