-- ==== Sys2Proof/Laws/Params.lean ====
section
/-! SUPPORT. Sys2Proof/Laws/Params.lean: each field of a request's parameters as sent is read back (R198). -/

namespace Sys2Proof.Machine

/-- A step of a reader whose first read succeeds. -/
theorem bind_of_some {α β : Type} {x : Option α} {a : α} (h : x = some a) (f : α → Option β) : (x >>= f) = f a := by
  rw [h]; rfl

theorem get32_u32 {n : Nat} (h : n ≤ 4294967295) (rest : List Byte) : get32 (u32 n ++ rest) = some (n, rest) := by
  simp only [u32, u16, List.cons_append, List.nil_append, get32, num32, num16]
  rw [toNat_byte (by omega)]
  simp only [BitVec.toNat_ofNat]
  congr 2
  omega

theorem getTiming_enTiming {t : Timing} (h1 : t.lead ≤ 65535) (h2 : 1 ≤ t.dwell ∧ t.dwell ≤ 16777215)
    (h3 : t.dead ≤ 65535) (rest : List Byte) : getTiming (enTiming t ++ rest) = some (t, rest) := by
  simp only [getTiming, enTiming, List.append_assoc]
  rw [get32_u32 (by omega)]
  simp only [Option.bind_eq_bind, Option.bind_some]
  rw [get32_u32 (by omega)]
  simp only [Option.bind_some]
  rw [get32_u32 (by omega)]
  simp only [Option.bind_some]
  rw [if_pos ⟨h1, h2, h3⟩]

theorem getAggressors_enSeq : ∀ (l : List Aggressor) (rest : List Byte),
    getAggressors l.length (enSeq enAggressor l ++ rest) = some (l, rest)
  | [], _ => rfl
  | a :: l, rest => by
    have h := getAggressors_enSeq l rest
    rcases a with ⟨x, d⟩
    simp only [enSeq, enAggressor, u8, List.cons_append, List.nil_append, List.length_cons, getAggressors,
      idxOf_byte (show 128 ≤ 256 by omega), h]
    cases d <;> rfl

theorem getSource_enSource (x : StartSource) (rest : List Byte) : getSource (enSource x ++ rest) = some (x, rest) := by
  cases x with
  | immediate => rfl
  | semaphore k t =>
    simp only [enSource, u8, List.cons_append, List.nil_append, getSource, idxOf_byte (show 8 ≤ 256 by omega)]
    cases t <;> rfl

theorem getSignal_enSignal (x : Option Signal) (rest : List Byte) :
    getSignal (enSignal x ++ rest) = some (x, rest) := by
  cases x with
  | none => rfl
  | some g =>
    rcases g with ⟨e, k⟩
    cases e <;> simp only [enSignal, SignalEvent.num, u8, List.cons_append, List.nil_append, getSignal] <;>
      simp [idxOf_byte (show 8 ≤ 256 by omega)]

/-- A slot number that names a fitted slot. -/
theorem slotIdOf_byte {s : State} {i : SlotId} (h : s.isFitted i = true) :
    s.slotIdOf (BitVec.ofNat 8 i.val) = some i := by
  simp [State.slotIdOf, idxOf_byte (show 16 ≤ 256 by omega), h]

end Sys2Proof.Machine
end

