-- ==== Sys2Proof/Laws/Stops.lean ====
section
/-! SUPPORT. Sys2Proof/Laws/Stops.lean: what the stop of an active window does (R84), said once: `stopWindow_spec`, and
the lemmas of the operations it is made of. -/

namespace Sys2Proof.Machine

theorem win_modWin_some {s : State} {w : WinId} {x : Window} (h : s.win w = some x) (f : Window → Window) :
    (s.modWin w f).win w = some (f x) := by
  rw [win_modWin, if_pos rfl, h]; rfl

/-- A window that is not IDLE changed is that window put. -/
theorem modWin_eq_setWin {s : State} {w : WinId} {x : Window} (h : s.win w = some x) (f : Window → Window) :
    s.modWin w f = s.setWin w (some (f x)) := by
  unfold State.modWin State.setWin Table.upd
  congr 3
  unfold State.win at h; rw [h]; rfl

/-! ## The drive -/

/-- Falls of the TXEN requests of some slots. -/
theorem foldl_fallTxen (l : List SlotId) : ∀ s : State, ∃ fall txen,
    l.foldl State.fallTxen s = { s with eng := { s.eng with txen := txen, fall := fall } }
      ∧ ∀ i, Table.rd txen i = (Table.rd s.eng.txen i && !decide (i ∈ l)) := by
  induction l with
  | nil => intro s; exact ⟨s.eng.fall, s.eng.txen, rfl, by simp⟩
  | cons a l ih =>
    intro s
    obtain ⟨fall, txen, h1, h2⟩ := ih (s.fallTxen a)
    have e1 : s.fallTxen a =
        { s with eng := { s.eng with txen := (s.fallTxen a).eng.txen, fall := (s.fallTxen a).eng.fall } } := by
      unfold State.fallTxen; split <;> rfl
    have e2 : ∀ i, Table.rd (s.fallTxen a).eng.txen i = (Table.rd s.eng.txen i && !decide (i = a)) := by
      intro i
      by_cases hi : i = a
      · subst hi; unfold State.fallTxen; split <;> simp [State.setFall, State.setTxen]
      · unfold State.fallTxen; split <;> simp [State.setFall, State.setTxen, hi]
    refine ⟨fall, txen, ?_, fun i => ?_⟩
    · rw [List.foldl_cons, h1, e1]
    · rw [h2, e2]
      by_cases h : i = a <;> simp [h]

/-- Step 1 of a stop or a pause: the requests fall, nothing but the Window Engine's records changes. -/
theorem dropDrive_eq (s : State) (w : WinId) (x : Window) : ∃ fall txen cken wins,
    s.dropDrive w x = { s with eng := { wins := wins, txen := txen, fall := fall, cken := cken } }
      ∧ (∀ i, Table.rd txen i = (Table.rd s.eng.txen i && !(x.state.driving && decide (i ∈ s.driveSlots x))))
      ∧ (∀ i, Table.rd cken i =
          (Table.rd s.eng.cken i && !(x.state.driving && decide (s.receiveSlot x x.dir = some i))))
      ∧ wins = (if x.state.driving then s.modWin w (fun y => { y with ownFall := some s.now }) else s).eng.wins := by
  unfold State.dropDrive
  split
  · next h =>
    obtain ⟨fall, txen, h1, h2⟩ := foldl_fallTxen (s.driveSlots x) s
    rw [h1]
    cases hr : s.receiveSlot x x.dir with
    | none => exact ⟨fall, txen, s.eng.cken, _, rfl, fun i => by rw [h2]; simp [h], fun i => by simp, rfl⟩
    | some j =>
      refine ⟨fall, txen, Table.put s.eng.cken j false, _, rfl, fun i => by rw [h2]; simp [h], fun i => ?_, rfl⟩
      by_cases hi : i = j
      · subst hi; simp [h]
      · simp [hi, Ne.symm hi]
  · next h => exact ⟨_, _, _, _, rfl, fun i => by simp [h], fun i => by simp [h], rfl⟩

theorem disableCapture_eq (s : State) (x : Window) : ∃ caps,
    s.disableCapture x = { s with caps := caps }
      ∧ ∀ i, Table.rd caps i = if s.receiveSlot x x.dir = some i then (s.cap i).disable else s.cap i := by
  unfold State.disableCapture
  cases hr : s.receiveSlot x x.dir with
  | none => exact ⟨s.caps, rfl, fun i => by simp [State.cap]⟩
  | some j =>
    refine ⟨_, rfl, fun i => ?_⟩
    rw [Table.rd_upd]
    by_cases h : i = j
    · subst h; simp [State.cap]
    · simp [h, State.cap, Ne.symm h]

/-! ## The setup link -/

theorem admitGroups_mem (order : List WaitingGroup) : ∀ q : List Txn,
    (∀ t ∈ (admitGroups q order).1, t ∈ q ∨ ∃ g ∈ order, t ∈ g.group) ∧ (∀ g ∈ (admitGroups q order).2, g ∈ order) := by
  induction order with
  | nil => simp [admitGroups]
  | cons g rest ih =>
    intro q
    unfold admitGroups
    split
    · obtain ⟨a, b⟩ := ih (q ++ g.group)
      refine ⟨fun t ht => ?_, fun h hh => List.mem_cons_of_mem _ (b h hh)⟩
      rcases a t ht with h | ⟨h, h1, h2⟩
      · rcases List.mem_append.mp h with h | h
        · exact Or.inl h
        · exact Or.inr ⟨g, by simp, h⟩
      · exact Or.inr ⟨h, by simp [h1], h2⟩
    · exact ⟨fun t ht => Or.inl ht, fun h hh => hh⟩

/-- The link starts at most the oldest transaction; windows, order and marks are as before. -/
theorem kick_eq (s : State) : ∃ x, s.kick = s.setSetup x ∧ x.order = s.setup.order
    ∧ x.queue.length = s.setup.queue.length
    ∧ (∀ t ∈ x.queue, ∃ u ∈ s.setup.queue, t = { u with inFlight := t.inFlight }) := by
  unfold State.kick
  split
  · next h => exact ⟨s.setup, rfl, rfl, rfl, fun t ht => by rw [h] at ht; simp at ht⟩
  · next t rest h =>
    split
    · exact ⟨s.setup, rfl, rfl, rfl, fun t ht => ⟨t, ht, rfl⟩⟩
    · refine ⟨_, rfl, rfl, by simp [h], fun u hu => ?_⟩
      simp only [List.mem_cons] at hu
      rcases hu with hu | hu
      · exact ⟨t, by simp [h], by rw [hu]⟩
      · exact ⟨u, by simp [h, hu], rfl⟩

/-- What a stop leaves on the setup link (R124). -/
theorem dropOutstanding_eq (s : State) (w : WinId) : ∃ x, s.dropOutstanding w = s.setSetup x
    ∧ (∀ g ∈ x.order, g.win ≠ w)
    ∧ (∀ q ∈ x.queue, q.win = w → q.discard = true ∨ ∃ g ∈ s.setup.order, g.win ≠ w ∧ ∃ u ∈ g.group, u.win = w) := by
  unfold State.dropOutstanding
  obtain ⟨x, h1, h2, h3, h4⟩ := kick_eq ((s.setSetup { s.setup with
    queue := s.setup.queue.filterMap (Txn.stopped w)
    order := s.setup.order.filter (fun g => decide (g.win ≠ w)) }).admitWaiting)
  obtain ⟨a, b⟩ := admitGroups_mem (s.setup.order.filter (fun g => decide (g.win ≠ w)))
    (s.setup.queue.filterMap (Txn.stopped w))
  refine ⟨x, by rw [h1]; rfl, fun g hg => ?_, fun q hq hw => ?_⟩
  · rw [h2] at hg
    have := b g hg
    simp at this
    exact this.2
  · obtain ⟨u, hu, e⟩ := h4 q hq
    have e1 : q.win = u.win := by rw [e]
    have e2 : q.discard = u.discard := by rw [e]
    rcases a u hu with h | ⟨g, hg, hm⟩
    · left
      rw [e2]
      simp only [List.mem_filterMap] at h
      obtain ⟨v, hv, h⟩ := h
      unfold Txn.stopped at h
      split at h
      · split at h
        · injection h with h; rw [← h]
        · cases h
      · injection h with h; subst h; rw [e1] at hw; contradiction
    · right
      simp at hg
      exact ⟨g, hg.1, hg.2, u, hm, by rw [← e1, hw]⟩

/-! ## The resources -/

/-- Placing results changes leases alone: holder and grant time stay (R83). -/
theorem placeResults_eq (s : State) (x : Window) : ∃ res,
    s.placeResults x = { s with dir := { s.dir with res := res } }
      ∧ ∀ r, ∃ l, Table.rd res r = { s.res r with lease := l } ∧ l.holder = (s.res r).lease.holder
          ∧ l.watchers = (s.res r).lease.watchers ∧ l.since = (s.res r).lease.since := by
  have one : ∀ (s : State) d, ∃ res, s.placeDir x d = { s with dir := { s.dir with res := res } }
      ∧ ∀ r, ∃ l, Table.rd res r = { s.res r with lease := l } ∧ l.holder = (s.res r).lease.holder
          ∧ l.watchers = (s.res r).lease.watchers ∧ l.since = (s.res r).lease.since := by
    intro s d
    unfold State.placeDir
    split
    · next a i _ _ =>
      split
      · refine ⟨_, rfl, fun r => ?_⟩
        rw [Table.rd_upd]
        split
        · next e =>
          subst e
          refine ⟨_, rfl, ?_⟩
          show _ = (Table.rd s.dir.res _).lease.holder ∧ _
          cases h : (s.res (chkOf i)).lease <;> simp [State.res] at h <;> simp [h, Lease.place, Lease.holder,
            Lease.watchers, Lease.since]
        · exact ⟨_, rfl, rfl, rfl, rfl⟩
      · exact ⟨_, rfl, fun r => ⟨_, rfl, rfl, rfl, rfl⟩⟩
    · exact ⟨_, rfl, fun r => ⟨_, rfl, rfl, rfl, rfl⟩⟩
  obtain ⟨r1, h1, k1⟩ := one s .fwd
  obtain ⟨r2, h2, k2⟩ := one { s with dir := { s.dir with res := r1 } } .rev
  refine ⟨r2, ?_, fun r => ?_⟩
  · unfold State.placeResults
    rw [h1, h2]
  · obtain ⟨l1, a1, b1, c1, d1⟩ := k1 r
    obtain ⟨l2, a2, b2, c2, d2⟩ := k2 r
    have e : ({ s with dir := { s.dir with res := r1 } } : State).res r = { s.res r with lease := l1 } := a1
    rw [e] at a2 b2 c2 d2
    exact ⟨l2, a2, b2.trans b1, c2.trans c1, d2.trans d1⟩

theorem foldl_setNaming (v : Option WinId) (l : List ResId) : ∀ s : State, ∃ res,
    l.foldl (fun t r => t.setNaming r v) s = { s with dir := { s.dir with res := res } }
      ∧ ∀ r, Table.rd res r = { s.res r with naming := if r ∈ l then v else (s.res r).naming } := by
  induction l with
  | nil => intro s; exact ⟨s.dir.res, rfl, fun r => rfl⟩
  | cons a l ih =>
    intro s
    obtain ⟨res, h1, h2⟩ := ih (s.setNaming a v)
    refine ⟨res, by rw [List.foldl_cons, h1]; rfl, fun r => ?_⟩
    rw [h2]
    unfold State.setNaming
    rw [res_modRes]
    by_cases h : r = a
    · subst h; simp
    · simp [h]

/-! ## The whole -/

/-- What the stop of the active window `x` in `w` makes of the hub. -/
structure Stopped (s : State) (w : WinId) (x : Window) (c : EndCause) (t : State) : Prop where
  frame : t = { s with
    run := { s.run with counters := { s.run.counters with
      windowsStopped := min 65535 (s.run.counters.windowsStopped + 1) } }
    dir := { s.dir with res := t.dir.res }
    eng := t.eng
    sems := t.sems
    caps := t.caps
    setup := t.setup
    ports := t.ports }
  window : ∃ y, t.win w = some y ∧ y.state = .stopped ∧ y.endCause = some c ∧ y.timerEnd = none ∧ y.named = []
    ∧ y.owner = x.owner
  others : ∀ v, v ≠ w → t.win v = s.win v
  queue : ∀ q ∈ t.setup.queue, q.win = w → q.discard = true ∨ ∃ g ∈ s.setup.order, g.win ≠ w ∧ ∃ u ∈ g.group, u.win = w
  order : ∀ g ∈ t.setup.order, g.win ≠ w
  sems : ∀ k, t.sem k = { s.sem k with armed := (s.sem k).armed.filter (fun e => decide (e.win ≠ w)) }
  caps : ∀ i, t.cap i = if s.receiveSlot x x.dir = some i then (s.cap i).disable else s.cap i
  txen : ∀ i, Table.rd t.eng.txen i = (Table.rd s.eng.txen i && !(x.state.driving && decide (i ∈ s.driveSlots x)))
  cken : ∀ i, Table.rd t.eng.cken i =
    (Table.rd s.eng.cken i && !(x.state.driving && decide (s.receiveSlot x x.dir = some i)))
  resources : ∀ r, (t.res r).lease.holder = (s.res r).lease.holder
    ∧ (t.res r).lease.watchers = (s.res r).lease.watchers ∧ (t.res r).lease.since = (s.res r).lease.since
    ∧ (t.res r).recallState = (s.res r).recallState ∧ (t.res r).crossed = (s.res r).crossed
    ∧ (t.res r).naming = (if r ∈ x.named then none else (s.res r).naming)
  aborted : c = .aborted → ∀ r, (t.res r).lease = (s.res r).lease
  ports : ∀ q, t.port q = if q = x.owner ∧ c ≠ .evicted
    then (s.port q).setSets ((s.port q).notices ||| Notice.windowEnd.one) (s.port q).enables else s.port q

theorem stopWindow_spec {s : State} {w : WinId} {x : Window} (c : EndCause) (h : s.win w = some x)
    (ha : x.state.active = true) : Stopped s w x c (s.stopWindow w c) := by
  generalize ht : s.stopWindow w c = t
  unfold State.stopWindow at ht
  rw [h] at ht
  dsimp only at ht
  rw [if_pos ha] at ht
  obtain ⟨fall, txen, cken, wins, h1, h2, h3, h4⟩ := dropDrive_eq s w x
  rw [h1] at ht
  obtain ⟨caps, h5, h6⟩ := disableCapture_eq
    ({ s with eng := { wins := wins, txen := txen, fall := fall, cken := cken } } : State) x
  rw [h5] at ht
  have hw : ∃ x', Table.rd wins w = some x' ∧ x'.named = x.named ∧ x'.owner = x.owner := by
    rw [h4]
    split
    · exact ⟨_, win_modWin_some h _, rfl, rfl⟩
    · exact ⟨x, h, rfl, rfl⟩
  have ho : ∀ v, v ≠ w → Table.rd wins v = s.win v := by
    intro v hv
    rw [h4]
    split
    · exact (win_modWin s w v _).trans (if_neg hv)
    · rfl
  obtain ⟨x', hw, n1, n2⟩ := hw
  generalize hs1 : ({ s with eng := { wins := wins, txen := txen, fall := fall, cken := cken }, caps := caps } : State)
    = s1 at ht
  have hw1 : s1.win w = some x' := by rw [← hs1]; exact hw
  obtain ⟨st, k1, k2, k3⟩ := dropOutstanding_eq (s1.modWin w (fun y => y.halted c s.now)) w
  rw [k1] at ht
  generalize hs2 : ((s1.modWin w (fun y => y.halted c s.now)).setSetup st).disarm w = s2 at ht
  have hw2 : s2.win w = some (x'.halted c s.now) := by rw [← hs2]; exact win_modWin_some hw1 _
  generalize hs3 : s2.modWin w (fun y => (y.keepLockLosses (s.lossesOf x)).markCause c) = s3 at ht
  have hw3 : s3.win w = some (((x'.halted c s.now).keepLockLosses (s.lossesOf x)).markCause c) := by
    rw [← hs3]; exact win_modWin_some hw2 _
  generalize hy : (((x'.halted c s.now).keepLockLosses (s.lossesOf x)).markCause c) = y at hw3
  have hyf : y.state = .stopped ∧ y.endCause = some c ∧ y.timerEnd = none ∧ y.named = x.named ∧ y.owner = x.owner := by
    rw [← hy, ← n1, ← n2]
    have a : ∀ z : Window, z.state = .stopped ∧ z.endCause = some c ∧ z.timerEnd = none ∧ z.named = x'.named
        ∧ z.owner = x'.owner → ∀ d f, ((z.modAcc d f).state = .stopped ∧ (z.modAcc d f).endCause = some c
          ∧ (z.modAcc d f).timerEnd = none ∧ (z.modAcc d f).named = x'.named ∧ (z.modAcc d f).owner = x'.owner) := by
      intro z hz d f; cases d <;> exact hz
    have b : ∀ z : Window, z.state = .stopped ∧ z.endCause = some c ∧ z.timerEnd = none ∧ z.named = x'.named
        ∧ z.owner = x'.owner → ((z.markCause c).state = .stopped ∧ (z.markCause c).endCause = some c
          ∧ (z.markCause c).timerEnd = none ∧ (z.markCause c).named = x'.named ∧ (z.markCause c).owner = x'.owner) := by
      intro z hz
      generalize c = e at hz ⊢
      cases e <;> exact hz
    apply b
    unfold Window.keepLockLosses
    split
    · exact a (x'.halted c s.now) ⟨rfl, rfl, rfl, rfl, rfl⟩ _ _
    · exact ⟨rfl, rfl, rfl, rfl, rfl⟩
  rw [hw3] at ht
  dsimp only at ht
  have hs3e : s3 = { s with
      eng := { wins := s3.eng.wins, txen := txen, fall := fall, cken := cken }
      caps := caps
      setup := st
      sems := Table.each (fun k => { k with armed := k.armed.filter (fun e => decide (e.win ≠ w)) }) s.sems } := by
    rw [← hs3, ← hs2, ← hs1]; rfl
  have ho3 : ∀ v, v ≠ w → Table.rd s3.eng.wins v = s.win v := by
    intro v hv
    rw [← hs3]
    refine (win_modWin s2 w v _).trans ((if_neg hv).trans ?_)
    rw [← hs2]
    refine (win_modWin s1 w v _).trans ((if_neg hv).trans ?_)
    rw [← hs1]
    exact ho v hv
  have pl : ∃ res, (if c = EndCause.aborted then s3 else s3.placeResults y) = { s3 with dir := { s3.dir with res := res } }
      ∧ (c = .aborted → res = s3.dir.res)
      ∧ ∀ r, ∃ l, Table.rd res r = { s3.res r with lease := l } ∧ l.holder = (s3.res r).lease.holder
          ∧ l.watchers = (s3.res r).lease.watchers ∧ l.since = (s3.res r).lease.since := by
    split
    · exact ⟨s3.dir.res, rfl, fun _ => rfl, fun r => ⟨_, rfl, rfl, rfl, rfl⟩⟩
    · next hc =>
      obtain ⟨res, e1, e2⟩ := placeResults_eq s3 y
      exact ⟨res, e1, fun h => absurd h hc, e2⟩
  obtain ⟨res, p1, p2, p3⟩ := pl
  rw [p1] at ht
  obtain ⟨res', m1, m2⟩ := foldl_setNaming none y.named { s3 with dir := { s3.dir with res := res } }
  unfold State.unnameAll at ht
  rw [m1] at ht
  generalize hs5 : (({ s3 with dir := { s3.dir with res := res' } } : State).modWin w (fun z => { z with named := [] }))
    = s5 at ht
  have hw5 : s5.win w = some { y with named := [] } := by rw [← hs5]; exact win_modWin_some hw3 _
  have ho5 : ∀ v, v ≠ w → s5.win v = s.win v := by
    intro v hv
    rw [← hs5]
    exact (win_modWin _ w v _).trans ((if_neg hv).trans (ho3 v hv))
  have hs5e : s5 = { s with
      dir := { s.dir with res := res' }
      eng := { wins := s5.eng.wins, txen := txen, fall := fall, cken := cken }
      caps := caps
      setup := st
      sems := Table.each (fun k => { k with armed := k.armed.filter (fun e => decide (e.win ≠ w)) }) s.sems } := by
    rw [← hs5, hs3e]; rfl
  have rs : ∀ r, s3.res r = s.res r := by intro r; rw [hs3e]; rfl
  have rr : ∀ r, ∃ l, Table.rd res' r = { s.res r with lease := l, naming := if r ∈ x.named then none else (s.res r).naming }
      ∧ l.holder = (s.res r).lease.holder ∧ l.watchers = (s.res r).lease.watchers
      ∧ l.since = (s.res r).lease.since ∧ (c = .aborted → l = (s.res r).lease) := by
    intro r
    obtain ⟨l, q1, q2, q3, q4⟩ := p3 r
    rw [rs] at q1 q2 q3 q4
    refine ⟨l, ?_, q2, q3, q4, fun hc => ?_⟩
    · rw [m2]
      show ({ Table.rd res r with naming := if r ∈ y.named then none else (Table.rd res r).naming } : Resource) = _
      rw [q1, hyf.2.2.2.1]
    · have : Table.rd res r = s.res r := by rw [p2 hc]; exact rs r
      rw [this] at q1
      rw [q1]
  generalize hs6 : (if c = EndCause.evicted then s5 else s5.raise x.owner .windowEnd) = s6 at ht
  have hs6e : s6 = { s5 with ports := s6.ports } := by rw [← hs6]; split <;> rfl
  have te : t = { s with
      run := { s.run with counters := { s.run.counters with
        windowsStopped := min 65535 (s.run.counters.windowsStopped + 1) } }
      dir := { s.dir with res := res' }
      eng := { wins := s5.eng.wins, txen := txen, fall := fall, cken := cken }
      caps := caps
      setup := st
      sems := Table.each (fun k => { k with armed := k.armed.filter (fun e => decide (e.win ≠ w)) }) s.sems
      ports := s6.ports } := by
    rw [← ht, hs6e, hs5e]; rfl
  refine ⟨?_, ?_, ?_, ?_, ?_, ?_, ?_, ?_, ?_, ?_, ?_, ?_⟩
  · rw [te]
  · rw [te]; exact ⟨_, hw5, hyf.1, hyf.2.1, hyf.2.2.1, rfl, hyf.2.2.2.2⟩
  · rw [te]; exact ho5
  · rw [te]; rw [← hs1] at k3; exact k3
  · rw [te]; exact k2
  · rw [te]; intro k; exact Table.rd_each _ _ _
  · rw [te]; exact h6
  · rw [te]; exact h2
  · rw [te]; exact h3
  · intro r
    obtain ⟨l, q1, q2, q3, q4, _⟩ := rr r
    have : t.res r = { s.res r with lease := l, naming := if r ∈ x.named then none else (s.res r).naming } := by
      rw [te]; exact q1
    rw [this]
    exact ⟨q2, q3, q4, rfl, rfl, rfl⟩
  · intro hc r
    obtain ⟨l, q1, _, _, _, q5⟩ := rr r
    have : t.res r = { s.res r with lease := l, naming := if r ∈ x.named then none else (s.res r).naming } := by
      rw [te]; exact q1
    rw [this]
    exact q5 hc
  · intro q
    have e5 : s5.port q = s.port q := by rw [hs5e]; rfl
    have : t.port q = s6.port q := by rw [te]; rfl
    rw [this, ← hs6]
    by_cases hc : c = .evicted
    · simp [hc, e5]
    · rw [if_neg hc]
      by_cases hq : q = x.owner
      · rw [if_pos ⟨hq, hc⟩]
        refine (port_modPort s5 x.owner q _).trans ?_
        rw [if_pos hq, ← hq, e5]
      · rw [if_neg (by simp [hq])]
        refine (port_modPort s5 x.owner q _).trans ?_
        rw [if_neg hq, e5]

end Sys2Proof.Machine
end

