-- ==== Sys2Proof/WellFormed.lean ====
section
/-! DEFINITION. Sys2Proof/WellFormed.lean: the commands as the hardware can bring them: a read or a reply has the
bytes its layout gives it, a request's transaction holds its whole frame. `exec` has a meaning for every command,
well-formed or not. -/

namespace Sys2Proof

/-- The payload length that the header of an area gives (R199). -/
def payloadLength (bytes : List Byte) : Nat := (bytes.getD 1 0).toNat * 256 + (bytes.getD 2 0).toNat

/-- The bytes read of an area: all of it; its six header bytes, where its payload is not read; nothing, where its
header would not lie within the flash (R9). -/
def areaBytesOk (bytes : List Byte) : Bool :=
  bytes.isEmpty || decide (bytes.length = 6)
    || (decide (payloadLength bytes ≤ 4096) && decide (bytes.length = payloadLength bytes + 7))

/-- The bytes after a request's code hold its tag, its length and as many parameter bytes, and the CRC-8 (R198). -/
def requestBytesOk : List Byte → Bool
  | _ :: len :: more => decide (len.toNat + 1 ≤ more.length)
  | _ => false

/-- The command is one that the hardware can bring. -/
def Instr.wellFormed : Instr → Bool
  | .headerRead bytes => decide (bytes.length = 7)
  | .areaVisit bytes => areaBytesOk bytes
  | .linksAreaRead bytes => decide (payloadLength bytes ≤ 4096) && decide (bytes.length = payloadLength bytes + 7)
  | .setupExchangeEnd reply => decide (reply.length = 2) || decide (reply.length = 18)
  | .readRun _ rest _ => requestBytesOk rest
  | .runStart _ rest _ => requestBytesOk rest
  | .runClose _ rest _ => requestBytesOk rest
  | .runAbort _ rest _ => requestBytesOk rest
  | .reload _ rest _ => requestBytesOk rest
  | .readLink _ rest _ => requestBytesOk rest
  | .withdraw _ rest _ => requestBytesOk rest
  | .restore _ rest _ => requestBytesOk rest
  | .ackWithdraw _ rest _ => requestBytesOk rest
  | .sync _ rest _ => requestBytesOk rest
  | .readWithdraws _ rest _ => requestBytesOk rest
  | .lease _ rest _ => requestBytesOk rest
  | .release _ rest _ => requestBytesOk rest
  | .post _ rest _ => requestBytesOk rest
  | .discard _ rest _ => requestBytesOk rest
  | .recallResource _ rest _ => requestBytesOk rest
  | .cancelWait _ rest _ => requestBytesOk rest
  | .readLeases _ rest _ => requestBytesOk rest
  | .openWindow _ rest _ => requestBytesOk rest
  | .start _ rest _ => requestBytesOk rest
  | .stop _ rest _ => requestBytesOk rest
  | .retime _ rest _ => requestBytesOk rest
  | .closeWindow _ rest _ => requestBytesOk rest
  | .readWindow _ rest _ => requestBytesOk rest
  | .semSet _ rest _ => requestBytesOk rest
  | .semClear _ rest _ => requestBytesOk rest
  | .semRead _ rest _ => requestBytesOk rest
  | .readCapture _ rest _ => requestBytesOk rest
  | .setCapture _ rest _ => requestBytesOk rest
  | .readVerdict _ rest _ => requestBytesOk rest
  | .readFaults _ rest _ => requestBytesOk rest
  | .clearFault _ rest _ => requestBytesOk rest
  | .setLamp _ rest _ => requestBytesOk rest
  | .setBlink _ rest _ => requestBytesOk rest
  | .readNotices _ rest _ => requestBytesOk rest
  | .clearNotices _ rest _ => requestBytesOk rest
  | .setNotices _ rest _ => requestBytesOk rest
  | .setNoticeEnable _ rest _ => requestBytesOk rest
  | .detach _ rest _ => requestBytesOk rest
  | .evict _ rest _ => requestBytesOk rest
  | .reset => true
  | .resetRelease => true
  | .transactionEnd _ _ _ => true
  | .leaseLimitCrossed _ => true
  | .recallDeadline _ => true
  | .setupReplyTimeout => true
  | .settleTimeReached _ => true
  | .leadExpiry _ => true
  | .dwellExpiry _ => true
  | .fltAssert _ => true
  | .fltDeassert _ => true
  | .faultQualifyExpiry _ => true
  | .errPulseAccept _ _ => true
  | .errPulseReject _ _ => true
  | .lnkFall _ => true
  | .lnkRise _ => true
  | .commitComplete => true
  | .syncTimeout _ => true
  | .blinkClockToggle _ => true
  | .pselNAssertion _ => true
  | .replyStartBit => true

end Sys2Proof
end

