-- ==== Sys2Proof/Tests/Slice0.lean ====
section
/-! SUPPORT. Sys2Proof/Tests/Slice0.lean: the tests of the model: what well-formedness refuses, a step of the commands
on small states, and for every statement with hypotheses a state and operands that meet them. -/

namespace Sys2Proof.Tests

set_option Elab.async false

open Sys2Proof Sys2Proof.Machine

/-! ## The states -/

/-- L0 from slot 0 to slot 1, two lanes, with L127 as its neighbour. -/
def linkA : Link :=
  { endA := ⟨0, 0⟩, endB := ⟨1, 14⟩, lanes := 2, reversed := false, limitSet := 0, neighbours := [127],
    state := .fitted }

/-- L127 from slot 2 to slot 15, four lanes, reversed. -/
def linkB : Link :=
  { endA := ⟨2, 14⟩, endB := ⟨15, 0⟩, lanes := 4, reversed := true, limitSet := 3, neighbours := [0],
    state := .fitted }

/-- A record for each of the two links. -/
def records : Table 128 (Option VerdictRecord) :=
  Table.put (Table.put (Table.fill 128 none) 0 (some (.untested 2))) 127 (some (.untested 4))

/-- A hub in RUNNING with sixteen fitted slots and the two links; P0 is SUPERVISOR, P2 OBSERVER, P1 and P3 TESTER. -/
def hub : State := { State.reset with
  rst := false
  now := 5000000
  run := { State.reset.run with state := .running, number := 1, time := .counting 0 }
  map := { LinkMap.empty with
    fitted := 16
    links := Table.put (Table.put (Table.fill 128 none) 0 (some linkA)) 127 (some linkB) }
  loader := { State.reset.loader with report := { LoadReport.cleared with slotsTaken := true, accepted := 2 } }
  table := { fwd := records, rev := records, coverage := 0 }
  ports := Table.upd State.reset.ports 2 (fun x => { x with role := .observer }) }

/-- The hub in another run state. -/
def inRun (st : RunState) : State := { hub with run := { hub.run with state := st } }

/-- The hub with fewer fitted slots. -/
def fewSlots : State := { hub with map := { hub.map with fitted := 4 } }

/-- A state of L0. -/
def linkIn (st : LinkState) (s : State) : State := s.setLinkState 0 st

/-- An OPEN_WINDOW on L0, FWD, without aggressors. -/
def params0 : OpenParams :=
  { victim := 0, mode := .fwd, aggressors := [], pattern := 15,
    timing := { lead := 10, dwell := 1000, dead := 0 }, repeats := 1, source := .immediate, signal := none,
    retest := false, stopOnLockLoss := true, faultMode := .halt }

/-- A result of L0 in FWD. -/
def result0 : Accumulator := { Accumulator.empty 0 .fwd 2 false with repeats := 1, dwell := 1000 }

/-- P1 holds GEN 0 and CHK 1 (resources 0 and 17). -/
def leased : State := (hub.setLease 0 (.held 1 4000)).setLease 17 (.held 1 4000)

/-- The window that P1 opens with those leases. -/
def window0 (st : WinState) : Window := { openedWindow 1 linkA params0 [0, 17] with state := st }

/-- The hub with a window in W0 that names the leases. -/
def withWindow (x : Window) : State := ((leased.setWin 0 (some x)).setNaming 0 (some 0)).setNaming 17 (some 0)

/-- The window in a state, its timer at an expiry. -/
def windowIn (st : WinState) (timerEnd : Option Nat) : State := withWindow { window0 st with timerEnd := timerEnd }

/-- A transaction of W0. -/
def txn (kind : TxnKind) : Txn :=
  { kind := kind, slot := 1, port := 14, lanes := 2, pattern := 15, win := 0, inFlight := true, discard := false }

/-- The window with a transaction in flight. -/
def exchanging (st : WinState) (t : Txn) (x : Exchange) : State :=
  { windowIn st none with setup := { queue := [t], order := [], exchange := x } }

/-- A posted result. -/
def posted0 (serial : Nat) : Posted :=
  { result := result0, port := 1, promoted := false, inFlight := false, serial := serial }

/-- The hub with results in ordinary buffers. -/
def queued (qs : List Posted) : State := hub.setPost { hub.post with ordinary := qs, nextSerial := 9 }

/-- The hub with the oldest result in flight. -/
def committing : State :=
  hub.setPost { ordinary := [{ posted0 3 with inFlight := true }], recallBuf := none,
                commit := some { takenAt := 5000000, delay := 2 }, nextSerial := 9 }

/-- A waiting entry of P3 for GEN 4. -/
def entry3 (m : LeaseMode) (r : ResId) : WaitEntry :=
  { port := 3, tag := 0x2A#8, mode := m, resources := [r], queuedAt := 4000 }

/-! ## A step on them -/

/-- The state after a command. -/
def after (c : Instr) (s : State) : State :=
  match exec c s with
  | .next t => t
  | .fault _ => s
  | .refused _ => s

/-- The state after a request with tag 7 sent whole. -/
def send (r : Req) (p : PortId) (params : List Byte) (s : State) : State :=
  after (r.command p (frameRest r 7 params []) false) s

/-- What stands in the response slot of a port: the status byte and the data. -/
def got (s : State) (p : PortId) : List Byte :=
  match (s.port p).slot with
  | .answered frame => frame.take 1 ++ (frame.drop 5).dropLast
  | .ready => []
  | .working _ _ _ => []

/-! ## Well-formedness -/

theorem test_wf_header : (Instr.headerRead [1, 2, 3, 4, 5, 6, 7]).wellFormed = true
    ∧ (Instr.headerRead [1, 2, 3, 4, 5, 6]).wellFormed = false := by decide +kernel
theorem test_wf_area : (Instr.areaVisit []).wellFormed = true ∧ (Instr.areaVisit [1, 0, 1, 0, 0, 0, 9, 9]).wellFormed = true
    ∧ (Instr.areaVisit [1, 0, 132, 0, 0, 0]).wellFormed = true
    ∧ (Instr.areaVisit [1, 0, 1, 0, 0, 0, 9]).wellFormed = false := by decide +kernel
theorem test_wf_links : (Instr.linksAreaRead [4, 0, 0, 0, 0, 0, 9]).wellFormed = true
    ∧ (Instr.linksAreaRead [4, 0, 0, 0, 0, 0]).wellFormed = false := by decide +kernel
theorem test_wf_reply : (Instr.setupExchangeEnd [0, 0]).wellFormed = true
    ∧ (Instr.setupExchangeEnd [0, 0, 0]).wellFormed = false := by decide +kernel
theorem test_wf_request : (Instr.lease 0 (frameRest .lease 7 [0, 0, 1, 0] []) false).wellFormed = true
    ∧ (Instr.lease 0 [7, 4, 0, 0, 1, 0] false).wellFormed = false ∧ (Instr.sync 0 [7] false).wellFormed = false := by
  decide +kernel

/-! ## Layouts worked out in the manual -/

theorem test_request_word :
    ({ txn .harvest with lanes := 2, port := 5, pattern := 3, inFlight := false } : Txn).word = 0xD53B#16 := by decide +kernel
theorem test_crc8 : crc8 [0x01, 0x05, 0x01, 0x00] = 0xC3#8 := by decide +kernel

/-! ## Reset and the load -/

theorem test_reset : (after .reset leased).dir = State.reset.dir ∧ (after .reset leased).run = State.reset.run
    ∧ (after .reset (hub.setLnk 15 true)).lnkUp 15 = true := by decide +kernel
theorem test_resetRelease : (after .resetRelease State.reset).loader.stage = .header
    ∧ (after .resetRelease State.reset).rst = false := by decide +kernel

/-- The hub while it loads. -/
def loading (st : LoaderStage) (noted : List NotedArea) : State :=
  { inRun .loading with
    map := { LinkMap.empty with fitted := 16 }
    loader := { stage := st, noted := noted, report := { LoadReport.cleared with slotsTaken := true, visited := 1 } } }

theorem test_headerRead :
    (after (.headerRead [0xC5, 0x16, 9, 0, 1, 0, crc8 [0xC5, 0x16, 9, 0, 1, 0]]) (loading .header [])).loader.stage
      = .area 256
    ∧ (after (.headerRead [0xC5, 0x17, 9, 0, 1, 0, 0]) (loading .header [])).run.state = .unloaded := by decide +kernel

theorem test_flashOut : (after .resetRelease State.reset).flashOut = [0x03, 0, 0, 0]
    ∧ (loading (.area 0x010203) []).flashOut = [0x03, 1, 2, 3] ∧ (loading (.area 16777211) []).flashSelected = false
    ∧ (loading .links [{ addr := 512, index := 2 }]).flashOut = [0x03, 0, 2, 0] ∧ hub.flashSelected = false := by
  decide +kernel

/-- A PORTS area at 256 that leads on to 512. -/
def portsArea : List Byte :=
  let head := [0x02, 0, 24, 0, 2, 0, 0, 0x07, 0xFF, 1, 0, 2, 0x07, 0xFF, 0, 0, 1, 0, 0, 0, 5, 1, 0, 1, 0, 0, 0, 0, 0, 0]
  head ++ [crc8 head]

theorem test_areaVisit : (after (.areaVisit portsArea) (loading (.area 256) [])).loader.stage = .area 512
    ∧ (Table.rd (after (.areaVisit portsArea) (loading (.area 256) [])).map.ports 1) =
        { role := .observer, enableDefault := 0x7FF, leaseLimit := 0 }
    ∧ (after (.areaVisit (portsArea.set 5 1)) (loading (.area 256) [])).loader.report.bad = 1 := by decide +kernel

/-- A link record: L127 from port 0 of slot 0 to port 14 of slot 15, four lanes, limit set 3. -/
def record0 : List Byte := [127, 0, 0, 15, 14, 4, 0x83, 1, 5, 0, 0, 0]

theorem test_linksAreaRead :
    let t := after (.linksAreaRead ([4, 0, 12, 0, 0, 0] ++ record0 ++ [0])) (loading .links [{ addr := 512, index := 2 }])
    t.run.state = .ready ∧ t.loader.report.accepted = 1 ∧ t.loader.report.dropped = 1
      ∧ t.link 127 = some { endA := ⟨0, 0⟩, endB := ⟨15, 14⟩, lanes := 4, reversed := true, limitSet := 3,
                            neighbours := [], state := .fitted } := by decide +kernel

/-! ## Ports -/

theorem test_transactionEnd : got (after (.transactionEnd 3 [0x99, 7, 0, crc8 [0x99, 7, 0]] false) hub) 3 = [0x11]
    ∧ got (after (.transactionEnd 3 [0x42, 7, 0, 1] false) hub) 3 = [0x10]
    ∧ (after (.transactionEnd 3 [0x42, 7] true) hub).ports = hub.ports := by decide +kernel
theorem test_pselNAssertion : ((after (.pselNAssertion 1) hub).port 1).transaction = .selected .ready := by decide +kernel
theorem test_notices : got (send .setNotices 2 [0x04, 0x01] hub) 2 = [0, 4, 1, 0, 0]
    ∧ got (send .setNoticeEnable 2 [0x07, 0xFF] hub) 2 = [0, 0, 0, 7, 0xFF]
    ∧ got (send .clearNotices 2 [0x04, 0x00] (hub.raise 2 .evicted)) 2 = [0, 4, 0, 0, 0]
    ∧ got (send .setNotices 2 [0x08, 0x00] hub) 2 = [0x12]
    ∧ got (send .readNotices 2 [] (hub.raise 2 .fault)) 2 = [0, 0, 0x20, 0, 0, 0, 0] := by decide +kernel
theorem test_detach : got (send .detach 1 [] (windowIn .opened none)) 1 = [0, 1, 1, 2, 0, 0]
    ∧ (send .detach 1 [] (windowIn .opened none)).dir.res = hub.dir.res := by decide +kernel
theorem test_evict : got (send .evict 0 [1] leased) 0 = [0, 0, 0, 2, 0, 0] ∧ got (send .evict 0 [0] leased) 0 = [0x12]
    ∧ (send .evict 0 [1] leased).noticed 1 .evicted = true := by decide +kernel

/-! ## The run -/

theorem test_readRun : got (send .readRun 2 [1] (inRun .loading)) 2 = 0 :: enReport hub.loader.report
    ∧ got (send .readRun 2 [2] hub) 2 = [0x12] := by decide +kernel
theorem test_runStart : got (send .runStart 0 [] (inRun .closed)) 0 = [0, 0, 2]
    ∧ (send .runStart 0 [] (inRun .closed)).run.state = .running ∧ got (send .runStart 0 [] hub) 0 = [0x14] := by decide +kernel
theorem test_runClose : got (send .runClose 0 [] hub) 0 = [0, 5] ∧ got (send .runClose 0 [] leased) 0 = [0, 4]
    ∧ got (send .runClose 1 [] hub) 1 = [0x13] := by decide +kernel
theorem test_runAbort : got (send .runAbort 0 [] leased) 0 = [0, 5]
    ∧ (send .runAbort 0 [] leased).run.aborted = true := by decide +kernel
theorem test_reload : (send .reload 0 [] (inRun .closed)).loader.stage = .header
    ∧ (send .reload 0 [] (inRun .closed)).table = VerdictTable.vacant
    ∧ (send .reload 0 [] (inRun .closed)).run.number = 1 := by decide +kernel
theorem test_readLink : got (send .readLink 2 [0, 127, 1] hub) 2 = [0, 1, 2, 14, 15, 0, 4, 1, 3, 0, 1, 0]
    ∧ got (send .readLink 2 [0, 1, 1] hub) 2 = [0, 0] ∧ got (send .readLink 2 [0, 127, 2] hub) 2 = [0x12] := by decide +kernel

/-! ## Withdrawing -/

theorem test_withdraw : got (send .withdraw 0 [0] (windowIn .opened none)) 0 = [0, 0, 2] := by decide +kernel
theorem test_restore : (send .restore 0 [0] (linkIn .withdrawn hub)).linkIs 0 .fitted = true
    ∧ got (send .restore 0 [0] (linkIn .withdrawing hub)) 0 = [0x26] := by decide +kernel

/-- The hub with L0 WITHDRAWING and P1 in its interest set. -/
def withdrawing0 : State :=
  (linkIn .withdrawing hub).setWithdrawList [{ link := 0, issuer := 0, issuedAt := 4000, interest := 0b0010 }]

theorem test_ackWithdraw : got (send .ackWithdraw 1 [0] withdrawing0) 1 = [0, 0]
    ∧ (send .ackWithdraw 1 [0] withdrawing0).linkIs 0 .withdrawn = true
    ∧ got (send .ackWithdraw 3 [0] withdrawing0) 3 = [0x34] := by decide +kernel
theorem test_sync : got (send .sync 3 [] withdrawing0) 3 = [1, 1] ∧ got (send .sync 3 [] hub) 3 = [0] := by decide +kernel
theorem test_readWithdraws : got (send .readWithdraws 3 [] withdrawing0) 3 =
    [0, 1, 0, 0, 0, 0, 3, 0xE8, 1, 1, 0, 0, 0, 0, 0] := by decide +kernel
theorem test_syncTimeout :
    (after (.syncTimeout 3) (hub.setSync 3 (.waiting [0] 5001))).syncSlot 3 = .complete [0] false := by decide +kernel

/-! ## Leases and posts -/

theorem test_lease : got (send .lease 1 [0, 0, 2, 0, 17] hub) 1 = [0]
    ∧ (send .lease 1 [0, 0, 2, 0, 17] hub).holds 1 17 = true
    ∧ got (send .lease 3 [0, 0, 1, 17] leased) 3 = [0x20, 17, 0] ∧ got (send .lease 3 [0, 1, 1, 17] leased) 3 = [1]
    ∧ got (send .lease 2 [0, 0, 1, 0] hub) 2 = [0x13] ∧ got (send .lease 1 [0, 0, 1, 0] leased) 1 = [0x23] := by decide +kernel
theorem test_release : got (send .release 1 [1, 17] leased) 1 = [0, 0]
    ∧ (send .release 1 [1, 17] leased).holds 1 17 = false ∧ got (send .release 3 [1, 17] leased) 3 = [0x22] := by decide +kernel
theorem test_post : got (send .post 1 [17] (leased.setLease 17 (.heldUnposted 1 4000 result0))) 1 = [0, 1]
    ∧ got (send .post 1 [17] leased) 1 = [0, 0] ∧ got (send .post 1 [0] leased) 1 = [0x12] := by decide +kernel
theorem test_discard : got (send .discard 0 [17] (leased.setLease 17 (.heldUnposted 1 4000 result0))) 0 = [0]
    ∧ got (send .discard 0 [17] leased) 0 = [0x34] := by decide +kernel
theorem test_recall : got (send .recallResource 0 [17] leased) 0 = [0, 1]
    ∧ ((send .recallResource 0 [17] leased).res 17).recallState = .recalling 5500 := by decide +kernel
theorem test_cancelWait :
    (send .cancelWait 3 [0x2A] (hub.setWaits [entry3 .hold 4])).dir.waits = []
    ∧ got (send .cancelWait 3 [0x2B] (hub.setWaits [entry3 .hold 4])) 3 = [0x34] := by decide +kernel
theorem test_readLeases : got (send .readLeases 2 [0, 1] leased) 2 =
    [0, 2, 0, 2, 1, 1, 0, 1, 0, 0, 3, 0xE8, 0, 0, 0, 0, 0, 0, 17, 2, 1, 1, 0, 1, 0, 0, 3, 0xE8, 0, 0, 0, 0, 0, 0, 0] := by
  decide +kernel
theorem test_recallDeadline :
    (after (.recallDeadline 17) (leased.modRes 17 (fun x => { x with recallState := .recalling 5001 }))).res 17
      = Resource.free := by decide +kernel

/-- P1 holds CHK 1 with a holding. -/
def unposted1 : State := leased.setLease 17 (.heldUnposted 1 4000 result0)

/-- A hub in which P1 has a lease limit of 100 ms. -/
def limited : State :=
  { leased with map := { leased.map with ports := Table.upd leased.map.ports 1 (fun x => { x with leaseLimit := 100 }) } }

theorem test_leaseLimitCrossed : ((after (.leaseLimitCrossed 17) limited).res 17).crossed = true
    ∧ ((after (.leaseLimitCrossed 17) leased).res 17).crossed = false := by decide +kernel

/-! ## Windows -/

theorem test_openWindow : got (send .openWindow 1 (enOpenParams params0) leased) 1 = [0, 0, 0]
    ∧ (send .openWindow 1 (enOpenParams params0) leased).win 0 = some (window0 .opened)
    ∧ got (send .openWindow 3 (enOpenParams params0) leased) 3 = [0x22] := by decide +kernel
theorem test_start : (send .start 1 [0] (windowIn .opened none)).setup.queue.map (fun t => t.kind) =
      [.configureGen, .configureChk]
    ∧ got (send .start 3 [0] (windowIn .opened none)) 3 = [0x13] := by decide +kernel
theorem test_stop : got (send .stop 1 [0, 0] (windowIn .armed none)) 1 = [0, 10]
    ∧ got (send .stop 1 [0, 1] (windowIn .dwell (some 5000100))) 1 = [0, 6] := by decide +kernel
theorem test_retime : got (send .retime 1 [0, 0, 0, 0, 1, 0, 0, 0, 1, 0, 0, 0, 0] (windowIn .opened none)) 1 = [0, 1]
    ∧ got (send .retime 1 [0, 0, 0, 0, 1, 0, 0, 0, 0, 0, 0, 0, 0] (windowIn .opened none)) 1 = [0x12]
    ∧ got (send .retime 1 [0, 0, 1, 0, 0, 0, 0, 0, 1, 0, 0, 0, 0] (windowIn .opened none)) 1 = [0x12] := by decide +kernel
theorem test_closeWindow : (send .closeWindow 1 [0] (windowIn .done none)).win 0 = none
    ∧ got (send .closeWindow 1 [0] (windowIn .opened none)) 1 = [0x26] := by decide +kernel
theorem test_readWindow : got (send .readWindow 2 [7] hub) 2 = [0, 0]
    ∧ (got (send .readWindow 2 [0] (windowIn .opened none)) 2).take 5 = [0, 1, 1, 0, 0] := by decide +kernel
theorem test_dwellLeft_runs_in_DWELL : (windowIn .dwell (some 5000100)).enWindow 0 { window0 .dwell with timerEnd := some 5000100 }
    = (windowIn .dwell (some 5000100)).enWindow 0 { window0 .dwell with dwellLeft := 7, timerEnd := some 5000100 } := by
  decide +kernel
theorem test_settleTimeReached :
    ((after (.settleTimeReached 0) (windowIn .settle none)).win 0).map (fun x => (x.state, x.timerEnd)) =
      some (.lead, some 5000010) := by decide +kernel
theorem test_leadExpiry :
    ((after (.leadExpiry 0) ((windowIn .lead (some 5000010)).setLnk 1 true)).win 0).map (fun x => (x.state, x.timerEnd)) =
      some (.dwell, some 5001010)
    ∧ ((after (.leadExpiry 0) (windowIn .lead (some 5000010))).win 0).map (fun x => x.endCause) = some (some .lockLoss) := by
  decide +kernel
theorem test_dwellExpiry :
    (after (.dwellExpiry 0) (windowIn .dwell (some 5001010))).setup.queue.map (fun t => (t.kind, t.slot, t.inFlight)) =
      [(.harvest, 1, true)] := by decide +kernel

/-! ## The setup link -/

theorem test_replyStartBit :
    (after .replyStartBit (exchanging .setup (txn .configureGen) (.awaiting 0 5000102))).setup.exchange = .receiving 0 := by
  decide +kernel
theorem test_setupReplyTimeout :
    ((after .setupReplyTimeout (exchanging .setup (txn .configureGen) (.awaiting 0 5000102))).win 0).map
      (fun x => x.endCause) = some (some .paddle) := by decide +kernel

/-- A HARVEST reply with one error in lane 0. -/
def reply0 : List Byte :=
  let bytes := [0, 0, 0, 0, 1, 0, 0, 0, 0, 0, 0, 0, 0, 0, 0, 0, 0]
  bytes ++ [crc8 bytes]

theorem test_setupExchangeEnd :
    let t := after (.setupExchangeEnd reply0) (exchanging .harvest (txn .harvest) (.receiving 0))
    (t.win 0).map (fun x => (x.state, x.endCause)) = some (.done, some .complete)
      ∧ (t.res 17).lease.holding.map (fun a => (a.lanes, a.dwell, a.repeats)) = some ([1, 0], 1000, 1) := by decide +kernel

/-! ## Semaphores, capture, faults -/

theorem test_semSet : got (send .semSet 1 [7] (hub.modSem 7 (fun x => { x with set := true }))) 1 = [0, 1, 0, 1, 1] := by
  decide +kernel
theorem test_semClear : got (send .semClear 1 [7] (hub.modSem 7 (fun x => { x with set := true }))) 1 = [0, 1, 0]
    ∧ got (send .semClear 2 [7] hub) 2 = [0x13] := by decide +kernel
theorem test_semRead : (got (send .semRead 2 [] (hub.modSem 0 (fun x => { x with overrun := true }))) 2).take 4 =
    [0, 0, 1, 0] := by decide +kernel
theorem test_readCapture :
    ((send .readCapture 1 [1] (leased.modLive 1 (fun v => { v with sinceRead := true }))).cap 1).live.sinceRead = false
    ∧ got (send .readCapture 3 [1] leased) 3 = [0x22] := by decide +kernel
theorem test_setCapture : got (send .setCapture 1 [1, 4, 3] leased) 1 = [0, 0, 0]
    ∧ got (send .setCapture 1 [1, 5, 3] leased) 1 = [0x12] ∧ got (send .setCapture 1 [1, 4, 3] (windowIn .opened none)) 1 = [0x26] := by
  decide +kernel

/-- Counting enabled at slot 1 with filter code 4 and prescale code 1. -/
def counting1 : State :=
  (windowIn .dwell (some 5000100)).modCap 1 (fun c => { c with filter := 4, prescale := 1, counting := true, receiving := some 0 })

theorem test_errPulseAccept : ((after (.errPulseAccept 1 160) counting1).cap 1).live.residue = 1
    ∧ (after (.errPulseAccept 1 159) counting1).caps = counting1.caps := by decide +kernel
theorem test_errPulseReject : ((after (.errPulseReject 1 159) counting1).cap 1).live.rejected = 1
    ∧ (after (.errPulseReject 1 160) counting1).caps = counting1.caps := by decide +kernel
theorem test_lnkFall : ((after (.lnkFall 1) (counting1.setLnk 1 true)).win 0).map (fun x => x.endCause) =
    some (some .lockLoss) := by decide +kernel
theorem test_lnkRise : (after (.lnkRise 15) hub).lnkUp 15 = true := by decide +kernel
theorem test_fltAssert : ((after (.fltAssert 15) hub).fault 15).qualifying = some 5000100 := by decide +kernel
theorem test_fltAssert_in_LOADING : ((after (.fltAssert 15) (inRun .loading)).fault 15).qualifying = none
    ∧ ((after (.fltAssert 15) (inRun .loading)).fault 15).level = true := by decide +kernel
theorem test_fltDeassert : ((after (.fltDeassert 15)
    (hub.modFault 15 (fun f => { f with level := true, qualifying := some 5000100 }))).fault 15).qualifying = none := by decide +kernel
theorem test_faultQualifyExpiry :
    let t := after (.faultQualifyExpiry 1)
      ((windowIn .dwell (some 5001000)).modFault 1 (fun f => { f with level := true, qualifying := some 5000100 }))
    t.latched 1 = true ∧ (t.win 0).map (fun x => x.endCause) = some (some .fault) ∧ t.noticed 0 .fault = true
      ∧ t.noticed 1 .fault = true ∧ t.noticed 3 .fault = false := by decide +kernel
theorem test_readFaults : (got (send .readFaults 2 [] hub) 2).take 11 = [0, 1, 0, 0, 0, 0, 0, 0, 0, 0, 100] := by decide +kernel
theorem test_clearFault : got (send .clearFault 0 [15] (hub.modFault 15 (fun f => { f with latch := true }))) 0 = [0, 1]
    ∧ got (send .clearFault 0 [15] (hub.modFault 15 (fun f => { f with level := true }))) 0 = [0x31] := by decide +kernel

/-! ## Verdicts and lamps -/

theorem test_readVerdict : (got (send .readVerdict 2 [127, 0, 0] hub) 2).take 5 = [0, 127, 0, 0, 4]
    ∧ ((send .readVerdict 2 [0, 2, 1] committing).port 2).slot =
        .working 0x60 7 (some { link := 0, dirs := .both, members := [3] }) := by decide +kernel
theorem test_commitComplete : ((after .commitComplete committing).record 0 .fwd).map (fun v => (v.dwell, v.merged)) =
    some (1000, 1) ∧ (after .commitComplete committing).post.ordinary = [] := by decide +kernel
theorem test_setLamp : got (send .setLamp 0 [15, 1, 0, 0] hub) 0 = [0, 0, 0, 0, 1] := by decide +kernel
theorem test_setBlink : got (send .setBlink 0 [1] hub) 0 = [0, 0] ∧ got (send .setBlink 0 [2] hub) 0 = [0x12] := by decide +kernel
theorem test_blinkClockToggle : (after (.blinkClockToggle .slow) hub).lamps.slowOn = false
    ∧ (after (.blinkClockToggle .slow) hub).now = 5250000 := by decide +kernel

/-! ## What the statements suppose can be met: one theorem for each statement with hypotheses -/

/-- The hub with the qualifying deadlines of two slots. -/
def qualifying (a b : Option Nat) : State :=
  (hub.modFault 0 (fun f => { f with level := true, qualifying := a })).modFault 15
    (fun f => { f with level := true, qualifying := b })

theorem test_meets_StepRunsFrontCommand :
    ({ hub with pending := [.reset, .lnkRise 15] } : State).pending = .reset :: [.lnkRise 15] := rfl

theorem test_meets_IdleHubTicksOrBringsDueEvent : State.reset.pending = [] ∧ State.reset.rst = true ∧ hub.pending = []
    ∧ hub.rst = false ∧ hub.dueEvents = [] ∧ (qualifying none (some 5000001)).dueEvents = []
    ∧ (qualifying none (some 5000000)).dueEvents = [.faultQualifyExpiry 15]
    ∧ (qualifying (some 0) (some 5000000)).dueEvents = [.faultQualifyExpiry 0, .faultQualifyExpiry 15] := by decide +kernel

theorem test_meets_CommandsKeepQueueAndTime : Instr.lnkRise 0 ≠ .reset ∧ Instr.lnkRise 0 ≠ .resetRelease := by decide

theorem test_meets_StepKeepsHubSound : ∃ s t : State, s.Sound ∧ step s = .next t := by
  refine ⟨hub, _, ⟨?_, ?_, ?_, ?_, ?_, ?_⟩, rfl⟩
  · unfold State.attentionFollows; decide +kernel
  · unfold SetupLink.ordered; decide +kernel
  · unfold State.listsBounded; decide +kernel
  · exact fun r _ => Or.inl (congrArg Resource.lease (show hub.res r = Resource.free by revert r; decide +kernel))
  · unfold RunRecord.bounded; decide +kernel
  · unfold State.semaphoresSettled; decide +kernel

theorem test_meets_ResetAndReleaseOfTheHub : State.reset.rst = true ∧ hub.rst = false ∧ (State.reset.fault 15).level = false
    ∧ (State.reset.setLnk 15 true).rst = true ∧ (State.reset.setLnk 15 true).lnkUp 15 = true
    ∧ hub.loader.stage = .idle ∧ (loading .header []).loader.stage = .header
    ∧ (loading (.area 16777210) []).loader.stage = .area (num32 0 0xFF 0xFF 0xFA) ∧ num32 0 0xFF 0xFF 0xFA ≤ 16777210
    ∧ (loading (.area 1) []).loader.stage = .area (num32 0 0 0 1) := by decide +kernel

/-- The hub with a response slot of P1. -/
def slotOf1 (x : ResponseSlot) : State := hub.setSlot 1 x

theorem test_meets_TransactionsGoByTheStateAtSelect : (hub.port 1).transaction = .none ∧ hub.rst = false
    ∧ (hub.port 1).atSelect = some .ready ∧ (hub.port 1).slot = .ready ∧ (judge [0x42#8, 7#8] true).complete = false
    ∧ ((slotOf1 (.working 0x42 7 none)).port 1).atSelect = some .working
    ∧ (judge [0x42#8, 7#8, 0#8, 0#8] false).complete = true
    ∧ ((slotOf1 (.answered [0, 7, 0x42, 0, 0, 0])).port 1).atSelect = some .answered
    ∧ [0x42#8, 7#8, 0#8, 0#8, 0#8].length < 6 ∧ (judge [0x42#8, 7#8, 0#8, 0#8, 0#8] false).complete = true
    ∧ 6 ≤ (List.replicate 6 0#8).length ∧ (judge (List.replicate 6 0#8) false).complete = false := by decide +kernel

theorem test_meets_FramesAreJudgedAtDeselect : (0x01#8 ≠ 0x00#8 ∧ ([] : List Byte).length = (0x00#8).toNat)
    ∧ (0xFF#8 ≠ 0x00#8 ∧ (List.replicate 255 0#8).length = (0xFF#8).toNat)
    ∧ (List.replicate 255 0#8).length < (0xFF#8).toNat + 1 ∧ ([] : List Byte).length < (0x00#8).toNat + 1 := by
  decide +kernel

theorem test_meets_BadFramesAndUnknownCodesAreAnswered : hub.takes 1 4 = true
    ∧ judge [0x42#8, 7#8, 0#8, 0#8] false = .badFrame 0x42#8 7#8
    ∧ judge [0x99#8, 7#8, 0#8, crc8 [0x99#8, 7#8, 0#8]] false = .frame 0x99#8 7#8 []
    ∧ ∀ r : Req, r.code ≠ 0x99#8 := by
  refine ⟨by decide +kernel, by decide +kernel, by decide +kernel, fun r => by cases r <;> decide⟩

theorem test_meets_RequestsPassRunStateThenRole : hub.taken 1 [] [] = true
    ∧ hub.taken 1 (List.replicate 255 0#8) [] = true ∧ hub.run.state ∉ Req.runStart.runStates
    ∧ hub.run.state ∈ Req.runClose.runStates ∧ (hub.port 1).role ∉ Req.runClose.roles
    ∧ hub.run.state ∈ Req.lease.runStates ∧ (hub.port 1).role ∈ Req.lease.roles := by decide +kernel

theorem test_meets_decodes : hub.admitted .runClose 0 [0#8] [] = true ∧ ¬ hub.decodes 0 .runClose [0#8]
    ∧ hub.admitted .lease 1 [] [] = true ∧ (hub.port 1).role ≠ .observer ∧ ¬ hub.decodes 1 .lease []
    ∧ hub.admitted .openWindow 1 [] [] = true ∧ ¬ hub.decodes 1 .openWindow []
    ∧ hub.decodes 1 .lease (u8 1 ++ enFlag true ++ enResources [31])
    ∧ hub.decodes 1 .openWindow (enOpenParams params0) := by
  refine ⟨by decide +kernel, (by decide : ¬ ([0#8] : List Byte) = []), by decide +kernel, by decide +kernel, ?_,
    by decide +kernel, ?_, ⟨.watch, true, [31], ⟨by decide, by decide, by decide, by decide +kernel⟩, by decide, rfl⟩,
    params0, ⟨by decide, linkA, by decide +kernel, by decide, by decide, by decide, by decide +kernel⟩, rfl⟩
  · rintro ⟨m, wait, rs, _, _, h⟩
    exact absurd h (by simp [u8])
  · rintro ⟨o, _, h⟩
    exact absurd h (by simp [enOpenParams, u8])

theorem test_bad_parameters : got (send .lease 1 [0, 0, 2, 17, 17] hub) 1 = [Status.badParam.code]
    ∧ got (send .lease 1 [1, 0, 1, 0] hub) 1 = [Status.badParam.code]
    ∧ got (send .openWindow 1 (enOpenParams { params0 with aggressors := [{ link := 0, drive := .a }] }) hub) 1 =
      [Status.badParam.code] := by decide +kernel

theorem test_meets_RefusalChangesNothing : hub.taken 0 [] [] = true ∧ Status.wrongState ≠ .ok
    ∧ Status.wrongState ≠ .queued
    ∧ ∃ t frame, exec (Req.runStart.command 0 (frameRest .runStart 7 [] []) false) hub = .next t
      ∧ (t.port 0).slot = .answered frame ∧ frame.head? = some Status.wrongState.code := by
  refine ⟨by decide +kernel, by decide, by decide, _, responseFrame (.bare .wrongState) 0x02 7, rfl, ?_, ?_⟩
  · decide +kernel
  · decide +kernel

theorem test_meets_ReadsAnswerAndChangeNothing : hub.admitted .readRun 2 [0x00#8] [] = true
    ∧ hub.admitted .readRun 2 [0x01#8] [] = true
    ∧ hub.admitted .readLink 2 [0x00#8, BitVec.ofNat 8 112, BitVec.ofNat 8 16] [] = true
    ∧ hub.admitted .readLink 2 [0x00#8, BitVec.ofNat 8 127, BitVec.ofNat 8 1] [] = true
    ∧ hub.admitted .readLink 2 [0x01#8, BitVec.ofNat 8 15] [] = true ∧ hub.admitted .readLink 2 [0x02#8] [] = true
    ∧ hub.admitted .readLink 2 [0x03#8] [] = true ∧ hub.admitted .readLeases 2 [0x00#8, BitVec.ofNat 8 3] [] = true
    ∧ hub.admitted .readLeases 2 [0x01#8, BitVec.ofNat 8 0, BitVec.ofNat 8 32] [] = true
    ∧ hub.admitted .readLeases 2 [0x01#8, BitVec.ofNat 8 31, BitVec.ofNat 8 1] [] = true
    ∧ hub.admitted .readWindow 2 (u8 7) [] = true ∧ hub.admitted .readWithdraws 2 [] [] = true
    ∧ hub.admitted .semRead 2 [] [] = true ∧ hub.admitted .readFaults 2 [] [] = true
    ∧ hub.admitted .readNotices 2 [] [] = true := by decide +kernel

theorem test_meets_NoticeRequestsChangeTheOwnPort : hub.admitted .clearNotices 2 (enKinds 0) [] = true
    ∧ hub.admitted .setNotices 2 (enKinds 0x7FF) [] = true
    ∧ hub.admitted .setNoticeEnable 2 (enKinds 0x400) [] = true := by decide +kernel

theorem test_meets_DetachAndEvictLeaveNothingHeld : leased.admitted .detach 1 [] [] = true ∧ (3 : PortId) ≠ 0
    ∧ leased.admitted .evict 0 (u8 3) [] = true := by decide +kernel

theorem test_meets_RunStartBeginsARun : (inRun .ready).admitted .runStart 0 [] [] = true
    ∧ (inRun .closed).admitted .runStart 0 [] [] = true := by decide +kernel

/-- The hub with a watch, a waiting entry, a holding and a window that P1 has opened. -/
def busy (st : WinState) : State :=
  ((windowIn st none).setWaits [entry3 .hold 0]).setLease 31 (.watched 0b1000)

theorem test_meets_RunCloseEndsWaitsWatchesAndUnstartedWindows : (busy .opened).admitted .runClose 0 [] [] = true
    ∧ (busy .opened).win 0 = some (window0 .opened) ∧ (busy .armed).win 0 = some (window0 .armed)
    ∧ (busy .dwell).win 0 = some (window0 .dwell) ∧ (busy .dwell).dir.waits = [entry3 .hold 0]
    ∧ (busy .dwell).watches 3 31 = true ∧ (∀ w, hub.win w = none) ∧ (∀ r, (hub.res r).lease.holder = none)
    ∧ hub.post.ordinary = [] ∧ hub.post.recallBuf = none ∧ hub.post.commit = none := by decide +kernel

theorem test_runClose_closes : (send .runClose 0 [] hub).run.state = .closed
    ∧ (send .runClose 0 [] leased).run.state = .closing ∧ (send .runClose 0 [] committing).run.state = .closing := by
  decide +kernel

theorem test_meets_RunAbortFreesEverything : (busy .dwell).admitted .runAbort 0 [] [] = true
    ∧ ({ busy .done with run := (inRun .closing).run } : State).admitted .runAbort 0 [] [] = true
    ∧ (busy .dwell).win 0 = some (window0 .dwell) ∧ (window0 .dwell).state.active = true
    ∧ (busy .done).win 0 = some (window0 .done) ∧ (window0 .done).state.active = false
    ∧ (busy .dwell).holds 1 0 = true ∧ (busy .dwell).watches 3 31 = true := by decide +kernel

theorem test_meets_ReloadStartsALoad : (inRun .unloaded).admitted .reload 0 [] [] = true
    ∧ (inRun .ready).admitted .reload 0 [] [] = true ∧ (inRun .closed).admitted .reload 0 [] [] = true := by
  decide +kernel

/-- The hub in a load with a cleared report. -/
def loadingFresh (st : LoaderStage) : State :=
  { loading st [] with loader := { stage := st, noted := [], report := LoadReport.cleared } }

theorem test_meets_HeaderReadBeginsTheWalk : (loadingFresh .header).rst = false
    ∧ (loadingFresh .header).loader.stage = .header ∧ 0 < num32 0 0 0 1 ∧ 0 < num32 0 0xFF 0xFF 0xFF
    ∧ (loadingFresh .header).loader.report.visited < 32 ∧ (loadingFresh .header).loader.report.slotsTaken = false
    ∧ (0x16#8 : Byte) ≠ 0xC5#8 ∧ (0xC5#8 : Byte) ≠ 0x16#8 ∧ (0#8 : Byte) ≠ crc8 [0xC5#8, 0x16#8, 0, 0, 0, 1] := by
  decide +kernel

theorem test_meets_AreaVisitJudgesAndFollows :
    let s := loadingFresh (.area 7)
    let t := loading (.area 16777209) []
    let slots := fun n : Byte => n :: List.replicate 131 0#8
    s.rst = false ∧ s.loader.stage = .area 7 ∧ 7 + 6 + 132 ≤ 16777215 ∧ 7 < num32 0 0 0 8 ∧ s.loader.report.visited < 32
      ∧ num32 0 0 0 7 ≠ 0 ∧ num32 0 0 0 7 ≤ 7 ∧ num32 0 0 0 0 = 0
      ∧ t.loader.stage = .area 16777209 ∧ 16777209 + 6 + 0 ≤ 16777215 ∧ 16777209 < num32 0 0xFF 0xFF 0xFA
      ∧ (loading (.area 16777211) []).loader.stage = .area 16777211 ∧ (16777210 : Nat) < 16777211 ∧ (16777210 : Nat) ≤ 16777210
      ∧ 16777215 < 16777210 + 6 + num16 0 0 ∧ 4096 < num16 0x10 0x01
      ∧ (List.replicate 4096 0#8).length ≤ 4096 ∧ (0#8 : Byte) ≠ crc8 [0x04#8, 0, 0, 0, 0, 8]
      ∧ (0x00#8).toNat = 0 ∧ 4 < (0x05#8).toNat ∧ (slots 1).length = 132 ∧ num8At (slots 1) 0 = 1
      ∧ num8At (slots 16) 0 = 16 ∧ num8At (slots 0) 0 = 0 ∧ 16 < num8At (slots 17) 0
      ∧ s.loader.report.slotsTaken = false ∧ t.loader.report.slotsTaken = true
      ∧ ([] : List Byte).length ≠ 132 ∧ (List.replicate 24 0#8).length = 24 ∧ s.loader.report.portsTaken = false
      ∧ (List.replicate 36 0#8).length = 36 ∧ s.loader.report.limitsTaken = false
      ∧ t.loader.noted = [] ∧ t.loader.report.accepted = 0 := by decide +kernel

theorem test_areaVisit_ends_the_walk :
    let skippedTo := fun (n : Byte) => [0x05#8, 0, 0, 0, 0, n, crc8 [0x05#8, 0, 0, 0, 0, n]]
    let noted := loading (.area 7) [{ addr := 512, index := 2 }]
    let late := { noted with loader := { noted.loader with report := { noted.loader.report with visited := 32 } } }
    (after (.areaVisit (skippedTo 0)) noted).loader.stage = .links
      ∧ (after (.areaVisit (skippedTo 7)) noted).loader.report.firstError = some (.chainBackward, 1)
      ∧ (after (.areaVisit (skippedTo 9)) late).loader.report.firstError = some (.chainTooLong, 32)
      ∧ (after (.areaVisit (skippedTo 0)) (loadingFresh (.area 7))).loader.report.fatal = some .noSlots
      ∧ (after (.areaVisit (skippedTo 0)) (loading (.area 7) [])).loader.report.fatal = some .noLinks
      ∧ (after (.areaVisit []) (loading (.area 16777211) [])).loader.report.firstError = some (.areaLength, 1) := by
  decide +kernel

theorem test_meets_LinkRecordsAreTestedInOrder :
    let m := hub.map
    128 ≤ (128#8).toNat ∧ (127#8).toNat = (127 : LinkId).val ∧ (Table.rd m.links 127).isSome = true
      ∧ (126#8).toNat = (126 : LinkId).val ∧ (Table.rd m.links 126).isSome = false
      ∧ m.fitted ≤ (16#8).toNat ∧ (15#8).toNat < m.fitted ∧ m.fitted ≤ 16 ∧ 15 ≤ (15#8).toNat
      ∧ (14#8).toNat = (14 : Fin 15).val ∧ (⟨15, 14⟩ : EndPoint) ≠ ⟨0, 1⟩
      ∧ m.usesEndPoint ⟨0, 0⟩ = true ∧ m.usesEndPoint ⟨15, 14⟩ = false ∧ m.usesEndPoint ⟨0, 1⟩ = false
      ∧ (0#8).toNat = 0 ∧ 4 < (5#8).toNat ∧ 1 ≤ (1#8).toNat ∧ (4#8).toNat ≤ 4 ∧ 4 ≤ (0x84#8).toNat % 128
      ∧ (0x83#8).toNat % 128 = (3 : Fin 4).val := by decide +kernel

theorem test_meets_LinksAreaReadFillsTheMap :
    let a : NotedArea := { addr := 512, index := 2 }
    let s := loading .links [a, a]
    s.rst = false ∧ s.loader.stage = .links ∧ s.loader.noted = a :: [a] ∧ [a] ≠ [] ∧ record0.length = 12
      ∧ (s.map.judgeRecord record0).isOk = true
      ∧ (match s.map.judgeRecord (record0.set 0 128) with | .error e => decide (e = .idRange) | .ok _ => false) = true
      ∧ (loading .links [a]).loader.noted = a :: [] ∧ (loading .links [a]).loader.report.slotsTaken = true
      ∧ (∀ record ∈ [record0, record0.set 0 128], record.length = 12) ∧ (List.replicate 11 0#8).length < 12
      ∧ ([record0, record0.set 0 128].flatten ++ List.replicate 11 0#8).length ≤ 4096
      ∧ ((List.replicate 341 record0).flatten ++ [0#8, 0#8, 0#8, 0#8]).length ≤ 4096 := by
  decide +kernel

theorem test_linksAreaRead_of_several_records :
    let t := after (.linksAreaRead ([4, 0, 27, 0, 0, 0] ++ record0 ++ record0 ++ [9, 9, 9] ++ [0]))
      (loading .links [{ addr := 512, index := 2 }])
    let u := after (.linksAreaRead [4, 0, 1, 0, 0, 0, 9, 0]) (loading .links [{ addr := 512, index := 2 }])
    t.run.state = .ready ∧ t.loader.report.accepted = 1 ∧ t.loader.report.rejected = 2
      ∧ u.run.state = .unloaded ∧ u.loader.report.accepted = 0 ∧ u.loader.report.fatal = some .noLinks := by
  decide +kernel

/-- The hub with a full Withdraw List. -/
def fullList : State :=
  hub.setWithdrawList (List.replicate 8 { link := 127, issuer := 0, issuedAt := 0, interest := 1 })

theorem test_meets_WithdrawWaitsForBlockedPorts : hub.admitted .withdraw 0 (u8 0) [] = true ∧ hub.linkIs 0 .fitted = true
    ∧ hub.linkIs 127 .fitted = true ∧ hub.admitted .withdraw 0 (u8 127) [] = true
    ∧ (hub.setWithdrawList (fullList.wd.list.take 7)).wd.list.length < 8 ∧ hub.interestOf 0 = 0
    ∧ (windowIn .dwell none).interestOf 0 ≠ 0
    ∧ hub.link 126 = none ∧ hub.admitted .withdraw 0 (u8 126) [] = true
    ∧ (linkIn .withdrawing hub).linkIs 0 .withdrawing = true ∧ (linkIn .withdrawn hub).linkIs 0 .withdrawn = true
    ∧ 8 ≤ fullList.wd.list.length := by decide +kernel

theorem test_meets_isBlocked : (windowIn .dwell none).isBlocked 1 0 ∧ ¬ hub.isBlocked 1 0 ∧ unposted1.isBlocked 1 0 := by
  refine ⟨Or.inl ⟨0, window0 .dwell, ?_, ?_, ?_, Or.inl ?_⟩, ?_, Or.inr ⟨17, 4000, result0, ?_, rfl⟩⟩
  · decide +kernel
  · decide
  · decide
  · decide
  · have hw : ∀ w, hub.win w = none := by decide +kernel
    have hr : ∀ r, (hub.res r).lease = .free := by decide +kernel
    rintro (⟨w, x, h, _⟩ | ⟨r, since, a, h, _⟩)
    · rw [hw w] at h; cases h
    · rw [hr r] at h; cases h
  · decide +kernel

theorem test_withdraw_regrades_and_syncs :
    let pass := hub.modRecord 127 .fwd (fun v => { v with merged := 1, dwell := 2000000, verdict := .incomplete })
    let t := send .withdraw 0 [0] pass
    let u := send .ackWithdraw 1 [0] (withdrawing0.setSync 3 (.waiting [0] 5009))
    (t.record 127 .fwd).map (fun v => v.verdict) = some .pass ∧ t.table.coverage = 1
      ∧ ((send .restore 0 [0] (t.setSlot 0 .ready)).record 127 .fwd).map (fun v => v.verdict) = some .incomplete
      ∧ u.syncSlot 3 = .complete [] true ∧ u.noticed 3 .syncDone = true := by decide +kernel

theorem test_meets_RestoreFitsAWithdrawnLink : (linkIn .withdrawn hub).admitted .restore 0 (u8 0) [] = true
    ∧ (linkIn .withdrawn hub).link 0 = some { linkA with state := .withdrawn } ∧ hub.link 0 = some linkA
    ∧ (linkIn .withdrawing hub).link 0 = some { linkA with state := .withdrawing } := by decide +kernel

/-- The entry of `withdrawing0`, with its interest set. -/
def entry0 (ps : PortSet) : WithdrawEntry := { link := 0, issuer := 0, issuedAt := 4000, interest := ps }

/-- L0 WITHDRAWING while P1 has its window. -/
def blocked1 (ps : PortSet) : State := (linkIn .withdrawing (windowIn .dwell none)).setWithdrawList [entry0 ps]

theorem test_meets_AckWithdrawLeavesInterestSet : withdrawing0.admitted .ackWithdraw 1 (u8 0) [] = true
    ∧ (withdrawing0.link 0).isSome = true
    ∧ withdrawing0.wd.list.find? (fun x => decide (x.link = 0)) = some (entry0 2)
    ∧ PortSet.has (entry0 2).interest 1 = true ∧ PortSet.drop (entry0 2).interest 1 = 0
    ∧ PortSet.drop (entry0 10).interest 1 ≠ 0 ∧ (∀ w, withdrawing0.win w = none)
    ∧ (∀ r, (withdrawing0.res r).lease = .free) ∧ (blocked1 2).win 0 = some (window0 .dwell)
    ∧ (blocked1 2).admitted .ackWithdraw 1 (u8 0) [] = true ∧ PortSet.has (entry0 2).interest 3 = false
    ∧ hub.admitted .ackWithdraw 1 (u8 0) [] = true ∧ (∀ x ∈ hub.wd.list, x.link ≠ 0) := by decide +kernel

theorem test_meets_SyncAwaitsTheWithdrawList : hub.admitted .sync 3 [] [] = true ∧ hub.syncSlot 3 = .none
    ∧ hub.wd.list = [] ∧ withdrawing0.wd.list ≠ []
    ∧ (hub.setSync 3 (.waiting [0] 5001)).admitted .sync 3 [] [] = true
    ∧ (hub.setSync 3 (.waiting [0] 5001)).syncSlot 3 = .waiting [0] 5001 ∧ hub.rst = false := by decide +kernel

theorem test_meets_GrantableLeaseIsGranted :
    let rs : List ResId := [0, 15, 16, 31]
    rs.length ≤ 8 ∧ rs.Nodup ∧ (∀ r ∈ rs, hub.isFitted (resSlot r) = true) ∧ (∀ r ∈ rs, (hub.res r).lease.holder = none)
      ∧ hub.dir.waits = []
      ∧ hub.admitted .lease 1 (0x00#8 :: enFlag true ++ enResources rs) [] = true ∧ (hub.port 1).role ≠ .observer
      ∧ (∀ r ∈ rs, isGen r = true → hub.latched (resSlot r) = false)
      ∧ hub.admitted .lease 2 (0x01#8 :: enFlag false ++ enResources [16, 31]) [] = true
      ∧ (∀ r ∈ ([16, 31] : List ResId), isGen r = false ∧ hub.watches 2 r = false) := by decide +kernel

theorem test_meets_UngrantableLeaseConflictsOrWaits :
    let s := (leased.setWaits [entry3 .hold 4]).modFault 15 (fun f => { f with latch := true })
    (∀ q ∈ ([1, 17] : List ResId), s.isFitted (resSlot q) = true ∧ s.holds 3 q = false) ∧ (s.port 3).role ≠ .observer
      ∧ (s.res 1).lease.holder = none ∧ s.latched (resSlot 1) = false ∧ (∀ e ∈ s.dir.waits, (1 : ResId) ∉ e.resources)
      ∧ (s.res 17).lease.holder ≠ none ∧ isGen 15 = true ∧ s.latched (resSlot 15) = true
      ∧ (∃ e ∈ s.dir.waits, (4 : ResId) ∈ e.resources) ∧ (s.res 4).lease.holder = none ∧ s.latched (resSlot 4) = false
      ∧ isGen 17 = false ∧ s.watches 3 17 = false
      ∧ s.admitted .lease 3 (u8 0 ++ enFlag false ++ enResources [1, 17]) [] = true
      ∧ s.admitted .lease 3 (u8 1 ++ enFlag true ++ enResources [17]) [] = true
      ∧ (∀ e ∈ s.dir.waits, e.port = 3 → e.tag ≠ 7#8) ∧ s.dir.waits.length < 8
      ∧ (s.dir.waits.filter (fun e => decide (e.port = 3))).length < 2
      ∧ 8 ≤ (s.setWaits (List.replicate 8 (entry3 .hold 4))).dir.waits.length
      ∧ (limited.res 17).lease.holder = some 1 ∧ (limited.res 17).lease.since = some 4000
      ∧ (Table.rd limited.map.ports 1).leaseLimit < limited.nowMs - 4000 ∧ (Table.rd limited.map.ports 1).leaseLimit ≠ 0
      ∧ (limited.res 17).recallState = .none ∧ (limited.res 0).lease.holder = some 1 ∧ limited.latched (resSlot 0) = false
      ∧ s.admitted .lease 2 (0x00#8 :: enFlag true ++ enResources [1]) [] = true ∧ (s.port 2).role = .observer
      ∧ (entry3 .hold 4).port = 3 ∧ (entry3 .hold 4).tag = 0x2A#8
      ∧ s.admitted .lease 1 (u8 0 ++ enFlag false ++ enResources [0, 1]) [] = true ∧ s.holds 1 0 = true
      ∧ (hub.setLease 31 (.watched 0b1000)).watches 3 31 = true
      ∧ limited.admitted .lease 3 (u8 0 ++ enFlag true ++ enResources [0, 17]) [] = true
      ∧ (leased.res 17).lease.since = some 4000 ∧ ¬ (Table.rd leased.map.ports 1).leaseLimit ≠ 0 := by decide +kernel

theorem test_lease_recalls_an_overdue_holder :
    ((send .lease 3 [0, 1, 1, 17] limited).res 17).recallState = .recalling 5500
    ∧ (send .lease 3 [0, 1, 1, 17] limited).noticed 1 .recalled = true
    ∧ ((send .lease 3 [0, 1, 1, 17] leased).res 17).recallState = .none := by decide +kernel

theorem test_meets_GrantPassGrantsOldestFirst :
    let s := hub.setWaits [entry3 .hold 4]
    let u := leased.setWaits [{ entry3 .hold 17 with resources := [17, 4] }, entry3 .hold 4, entry3 .watch 31]
    s.dir.waits = entry3 .hold 4 :: [] ∧ (entry3 .hold 4).mode = .hold
      ∧ (∀ r ∈ (entry3 .hold 4).resources, (s.res r).lease.holder = none ∧ (isGen r = true → s.latched (resSlot r) = false))
      ∧ entry3 .watch 31 ∈ (hub.setWaits [entry3 .watch 31]).dir.waits ∧ (entry3 .watch 31).mode = .watch
      ∧ isGen 31 = false ∧ hub.watches 3 31 = false ∧ (hub.res 31).lease.holder = none
      ∧ entry3 .hold 17 ∈ (limited.setWaits [entry3 .hold 17]).grantPass.dir.waits ∧ (1 : PortId) ≠ (entry3 .hold 17).port
      ∧ (∀ e ∈ s.dir.waits, (31 : ResId) ∉ e.resources)
      ∧ u.grantPass.dir.waits = ((u.dir.waits.zip [true, true, false]).filter (fun x => x.2)).map (fun x => x.1)
      ∧ (u.grantPass.res 4).lease = .free ∧ u.grantPass.watches 3 31 = true := by
  decide +kernel

theorem test_grantPass_of_WATCH_and_recall :
    let t := (hub.setWaits [entry3 .watch 31]).grantPass
    let u := (hub.setWaits [entry3 .watch 31, { entry3 .hold 31 with port := 1 }]).grantPass
    t.watches 3 31 = true ∧ t.dir.waits = [] ∧ (u.res 31).lease = .held 1 5000 ∧ u.noticed 3 .leaseLost = true
      ∧ ((limited.setWaits [entry3 .hold 17]).grantPass.res 17).recallState = .recalling 5500 := by decide +kernel

/-- A recall of a resource until 5001 ms. -/
def recalling (r : ResId) (s : State) : State := s.modRes r (fun x => { x with recallState := .recalling 5001 })

/-- A CLOSING run in which one resource is still held, under recall. -/
def closingOn (r : ResId) : State := recalling r ((inRun .closing).setLease r (.held 1 4000))

theorem test_meets_ReleaseFreesWhatIsNamed :
    let full := unposted1.setPost { unposted1.post with ordinary := [posted0 0, posted0 1, posted0 2, posted0 3] }
    ([0, 17] : List ResId).Nodup ∧ (∀ r ∈ ([0, 17] : List ResId), leased.isFitted (resSlot r) = true)
      ∧ leased.admitted .release 1 (enResources [0, 17]) [] = true ∧ (∀ r ∈ ([0, 17] : List ResId), leased.holds 1 r = true)
      ∧ leased.admitted .release 3 (enResources [0, 17]) [] = true ∧ leased.holds 3 17 = false ∧ leased.watches 3 17 = false
      ∧ ((windowIn .opened none).res 17).naming ≠ none ∧ (leased.res 17).naming = none
      ∧ (full.res 17).lease.holding.isSome = true ∧ 4 - full.post.ordinary.length = 0
      ∧ (leased.res 17).lease.holding.isSome = false ∧ leased.dir.waits = [] ∧ leased.run.state = .running
      ∧ (hub.setLease 31 (.watched 0b1000)).watches 3 31 = true
      ∧ (unposted1.res 17).lease.holding = some result0 ∧ unposted1.post.ordinary.length = 0 ∧ result0.retest = false
      ∧ unposted1.admitted .release 1 (enResources [0, 17]) [] = true ∧ unposted1.dir.waits = []
      ∧ unposted1.run.state = .running ∧ (closingOn 17).admitted .release 1 (enResources [17]) [] = true
      ∧ (closingOn 17).run.state = .closing ∧ (closingOn 17).dir.waits = [] := by decide +kernel

theorem test_release_posts_and_closes :
    let t := send .release 1 (enResources [0, 17]) unposted1
    (t.res 17).lease = .free ∧ t.post.ordinary.map (fun q => (q.port, q.result)) = [(1, result0)]
      ∧ (send .release 1 (enResources [17]) (closingOn 17)).run.state = .closed
      ∧ (send .release 1 (enResources [17]) ((closingOn 17).setLease 0 (.held 1 4000))).run.state = .closing := by
  decide +kernel

theorem test_meets_PostMovesAndDiscardDropsTheHolding : hub.isFitted 1 = true ∧ hub.isFitted 15 = true
    ∧ unposted1.admitted .post 1 (u8 (chkOf 1).val) [] = true
    ∧ (unposted1.res (chkOf 1)).lease = .heldUnposted 1 4000 result0 ∧ unposted1.post.ordinary.length < 4
    ∧ 4 ≤ (queued [posted0 0, posted0 1, posted0 2, posted0 3]).post.ordinary.length
    ∧ (leased.res (chkOf 1)).lease = .held 1 4000 ∧ leased.holds 1 (chkOf 15) = false
    ∧ unposted1.admitted .discard 0 (u8 (chkOf 1).val) [] = true ∧ (hub.res (chkOf 1)).lease.holder = none := by
  decide +kernel

/-- P1 holds CHK 1 with a RETEST holding; two results of its link-direction are posted, one in flight, one promoted by a
flush of P3 that waits for it. -/
def retested : State :=
  ((leased.setLease 17 (.heldUnposted 1 4000 { result0 with retest := true })).setPost
    { ordinary := [{ posted0 1 with inFlight := true }, { posted0 2 with promoted := true }], recallBuf := none,
      commit := some { takenAt := 5000000, delay := 2 }, nextSerial := 9 }).setSlot 3
    (.working 0x60 7 (some { link := 0, dirs := .fwd, members := [2] }))

theorem test_post_of_RETEST_supersedes :
    let t := send .post 1 [17] retested
    t.post.ordinary.map (fun q => (q.serial, q.result.retest)) = [(1, false), (9, true)]
      ∧ t.run.counters.postsSuperseded = 1
      ∧ (t.port 3).slot = .answered (responseFrame (t.verdictReply 0 .fwd) 0x60 7) := by decide +kernel

theorem test_meets_RecallStartsAtMostOneRecall : leased.taken 0 (u8 17) [] = true ∧ (inRun .closed).run.state ≠ .running
    ∧ (inRun .closed).run.state ≠ .closing ∧ leased.run.state = .running ∧ (leased.port 1).role ≠ .supervisor
    ∧ (leased.port 0).role = .supervisor ∧ fewSlots.isFitted (resSlot 31) = false
    ∧ leased.isFitted (resSlot 17) = true ∧ (leased.res 31).lease.holder = none ∧ (leased.res 17).lease.holder = some 1
    ∧ (leased.res 17).recallState = .none
    ∧ ((leased.modRes 17 (fun x => { x with recallState := .recalling 5001 })).res 17).recallState ≠ .none := by
  decide +kernel

theorem test_meets_CancelWaitAndCrossedLimitTakeGrantPass :
    let s := hub.setWaits [entry3 .hold 4]
    s.admitted .cancelWait 3 [0x2A#8] [] = true ∧ (∃ e ∈ s.dir.waits, e.port = 3 ∧ e.tag = 0x2A#8)
      ∧ (∀ e ∈ s.dir.waits, e.port = 3 → e.tag ≠ 0x2B#8) ∧ limited.rst = false
      ∧ (limited.res 17).lease.holder = some 1 ∧ (limited.res 17).lease.since = some 4000
      ∧ (Table.rd limited.map.ports 1).leaseLimit ≠ 0 ∧ (limited.res 17).crossed = false
      ∧ (((limited.modRes 17 (fun x => { x with crossed := true })).res 17).crossed = true)
      ∧ (limited.res 31).lease.holder = none ∧ (Table.rd leased.map.ports 1).leaseLimit = 0 := by decide +kernel

theorem test_meets_RecallDeadlineForcesRelease :
    let full := unposted1.setPost { unposted1.post with recallBuf := some (posted0 1) }
    leased.rst = false ∧ ((recalling 0 leased).res 0).lease = .held 1 4000
      ∧ ((recalling 0 leased).res 0).recallState = .recalling 5001 ∧ (leased.res 0).naming = none ∧ leased.dir.waits = []
      ∧ leased.run.state = .running ∧ isGen 0 = true ∧ leased.post.recallBuf = none
      ∧ ((recalling 17 unposted1).res 17).lease = .heldUnposted 1 4000 result0 ∧ isGen 17 = false
      ∧ ((recalling 0 (windowIn .dwell none)).res 0).naming = some 0
      ∧ (recalling 0 (windowIn .dwell none)).win 0 = some (window0 .dwell) ∧ (window0 .dwell).state.active = true
      ∧ (recalling 17 full).post.recallBuf ≠ none ∧ (leased.res 0).recallState = .none
      ∧ (windowIn .dwell none).post.recallBuf = none ∧ (windowIn .dwell none).receiveSlot (window0 .dwell) .fwd = some 1
      ∧ chkOf 1 = 17 ∧ (window0 .dwell).acc .rev = none ∧ (closingOn 0).run.state = .closing
      ∧ (∀ q : ResId, q ≠ 17 → ((closingOn 17).res q).lease = .free) ∧ ((closingOn 17).res 17).lease = .held 1 4000 := by
  decide +kernel

theorem test_recallDeadline_stops_and_closes :
    let done := { window0 .dwell with accFwd := some result0 }
    let t := after (.recallDeadline 17) (recalling 17 (withWindow done))
    t.post.recallBuf.map (fun q => (q.port, q.result.flags.recalled, q.result.repeats)) = some (1, true, 1)
      ∧ (t.win 0).map (fun x => x.endCause) = some (some .recalled)
      ∧ (after (.recallDeadline 17) (closingOn 17)).run.state = .closed
      ∧ (after (.recallDeadline 17) ((closingOn 17).setLease 0 (.held 1 4000))).run.state = .closing := by decide +kernel

/-- The parameters at the ends of their ranges. -/
def paramsWide : OpenParams :=
  { params0 with
    aggressors := List.replicate 4 { link := 127, drive := .b }
    timing := { lead := 65535, dwell := 16777215, dead := 65535 }
    repeats := 255
    source := .semaphore 7 .leave
    signal := some { event := .done, sem := 7 } }

theorem test_meets_OpenWindowParametersAreReadBack : params0.inRange = true ∧ paramsWide.inRange = true
    ∧ ({ params0 with timing := { lead := 0, dwell := 1, dead := 0 }, repeats := 0 } : OpenParams).inRange = true := by
  decide +kernel

theorem test_meets_OpenWindowFillsTheLowestIdleWindow :
    let named := inNumberOrder (leased.gensOf linkA params0 ++ chksOf linkA params0)
    let allUsed := { leased with eng := { leased.eng with wins := Table.fill 8 (some (window0 .done)) } }
    let sixUsed := { leased with eng := { allUsed.eng with wins := Table.put allUsed.eng.wins 7 none } }
    params0.inRange = true ∧ leased.admitted .openWindow 1 (enOpenParams params0) [] = true
      ∧ leased.link params0.victim = some linkA ∧ leased.openParamsFit linkA params0 = true ∧ linkA.state = .fitted
      ∧ (∀ a ∈ params0.aggressors, leased.linkIs a.link .fitted = true) ∧ named = [0, 17]
      ∧ (∀ r ∈ named, leased.holds 1 r = true ∧ (leased.res r).recallState = .none ∧ (leased.res r).naming = none)
      ∧ leased.win 0 = none ∧ (∀ v, v < (0 : WinId) → leased.win v ≠ none)
      ∧ sixUsed.win 7 = none ∧ (∀ v, v < (7 : WinId) → sixUsed.win v ≠ none)
      ∧ hub.holds 1 17 = false ∧ ((recalling 17 leased).res 17).recallState ≠ .none
      ∧ ((windowIn .opened none).res 17).naming ≠ none ∧ (∀ w, allUsed.win w ≠ none)
      ∧ (linkIn .withdrawing leased).link 0 = some { linkA with state := .withdrawing }
      ∧ (unposted1.res 17).lease.holding.isSome = true ∧ result0.retest = false
      ∧ (unposted1.res 17).lease.holding = some result0 ∧ unposted1.admitted .openWindow 1 (enOpenParams params0) [] = true
      ∧ ({ result0 with retest := true } : Accumulator).retest = true
      ∧ named.filterMap (fun r => (leased.res r).lease.holding) = []
      ∧ (send .openWindow 1 (enOpenParams params0) unposted1).post.ordinary.map (fun q => q.result) = [result0]
      ∧ retested.admitted .openWindow 1 (enOpenParams params0) [] = true ∧ retested.post.commit ≠ none
      ∧ named.filterMap (fun r => (retested.res r).lease.holding) = [{ result0 with retest := true }]
      ∧ (send .openWindow 1 (enOpenParams params0) retested).post.ordinary.map (fun q => q.serial) = [1, 9] := by
  decide +kernel

/-- The window of P1 with another start source. -/
def semWindow : Window := { window0 .opened with source := .semaphore 7 .consume }

theorem test_meets_StartSetsUpOrArms :
    let s := windowIn .opened none
    s.admitted .start 1 (u8 0) [] = true ∧ hub.win 7 = none ∧ hub.admitted .start 1 (u8 7) [] = true
      ∧ s.win 0 = some (window0 .opened) ∧ (window0 .opened).owner = 1 ∧ (window0 .opened).owner ≠ 3
      ∧ s.admitted .start 3 (u8 0) [] = true ∧ (window0 .setup).state ≠ .opened
      ∧ s.linkIs (window0 .opened).victim .fitted = true
      ∧ (∀ a ∈ (window0 .opened).aggressors, s.linkIs a.link .fitted = true)
      ∧ (linkIn .withdrawing s).linkIs 0 .fitted = false
      ∧ (∀ r ∈ (window0 .opened).named, s.latched (resSlot r) = false)
      ∧ (s.modFault 1 (fun f => { f with latch := true })).latched (resSlot 17) = true
      ∧ (window0 .opened).source = .immediate ∧ s.setup.order = [] ∧ s.setup.queue.length + 2 ≤ 16
      ∧ semWindow.source = .semaphore 7 .consume ∧ (s.sem 7).set = false ∧ (s.sem 7).armed = []
      ∧ ((s.modSem 7 (fun x => { x with set := true })).sem 7).set = true
      ∧ s.setup.queue = [] ∧ (window0 .opened).named.filterMap (s.configure 0 (window0 .opened)) ≠ []
      ∧ (exchanging .opened (txn .harvest) (.receiving 0)).setup.queue.head? = some (txn .harvest)
      ∧ s.admitted .start 1 (u8 8) [] = true ∧ 7 < (8#8).toNat ∧ 7 < (0xFF#8).toNat ∧ s.link 0 = some linkA
      ∧ (∀ d ∈ WinMode.paired.dirs, ∀ c ∈ WinMode.paired.dirs, c ≠ d → (linkA.driveEnd c).slot ≠ (linkA.driveEnd d).slot)
      ∧ (∀ d ∈ WinMode.paired.dirs, (linkA.driveEnd d).slot ≠ (linkB.endPoint .b).slot)
      ∧ (txn .harvest).lanes ≤ 4 ∧ (txn .harvest).pattern ≤ 15 := by decide +kernel

theorem test_start_queues_its_group :
    let x := { openedWindow 1 linkA { params0 with mode := .paired, aggressors := [{ link := 127, drive := .b }] }
      [0, 1, 15, 16, 17] with state := .opened }
    let kinds := fun s => (send .start 1 [0] s).setup.queue.map (fun u => (u.kind, u.slot, u.port, u.lanes, u.inFlight))
    let q := { txn .harvest with win := 7 }
    kinds (withWindow x) = [(.configureGen, 0, 0, 2, true), (.configureGen, 1, 14, 2, false),
        (.configureGen, 15, 0, 4, false), (.configureChk, 0, 0, 2, false), (.configureChk, 1, 14, 2, false)]
      ∧ (send .start 1 [0] (withWindow x)).setup.exchange = .awaiting 0x50FA#16 5000102
      ∧ (kinds { withWindow x with setup := { queue := [q], order := [], exchange := .receiving 0 } }).length = 6
      ∧ got (send .start 1 [8] (withWindow x)) 1 = [0x12] := by decide +kernel

theorem test_meets_StopMarksOrStops :
    let s := windowIn .dwell (some 5000100)
    s.admitted .stop 1 (u8 0 ++ enFlag true) [] = true ∧ s.admitted .stop 1 (u8 0 ++ enFlag false) [] = true
      ∧ s.win 7 = none ∧ s.admitted .stop 1 (u8 7 ++ enFlag true) [] = true
      ∧ s.win 0 = some { window0 .dwell with timerEnd := some 5000100 } ∧ (window0 .dwell).owner = 1
      ∧ (window0 .dwell).owner ≠ 3 ∧ (s.port 3).role ≠ .supervisor ∧ (s.port 0).role = .supervisor
      ∧ (window0 .stopped).state.active = false ∧ (window0 .dwell).state.phase = true
      ∧ (window0 .opened).state.active = true ∧ (window0 .armed).state.phase = false := by decide +kernel

theorem test_meets_StoppedWindowLeavesNothingRunning :
    (windowIn .dwell (some 5000100)).win 0 = some { window0 .dwell with timerEnd := some 5000100 }
    ∧ (window0 .dwell).state.active = true ∧ (window0 .dwell).state.driving = true := by decide +kernel

theorem test_meets_RetimeAndCloseWindow :
    let r : Timing := { lead := 65535, dwell := 16777215, dead := 65535 }
    let s := windowIn .opened none
    r.lead ≤ 65535 ∧ 1 ≤ r.dwell ∧ r.dwell ≤ 16777215 ∧ r.dead ≤ 65535 ∧ s.win 0 = some (window0 .opened)
      ∧ (window0 .opened).owner = 1 ∧ s.admitted .retime 1 (u8 0 ++ enTiming r) [] = true
      ∧ (window0 .dwell).state.phase = true ∧ (window0 .done).state = .done ∧ (window0 .stopped).state = .stopped
      ∧ s.admitted .closeWindow 1 (u8 0) [] = true ∧ s.win 7 = none ∧ s.admitted .closeWindow 1 (u8 7) [] = true
      ∧ (s.port 3).role ≠ .supervisor ∧ (s.port 0).role = .supervisor ∧ (window0 .opened).state ≠ .done
      ∧ (windowIn .done none).win 0 = some (window0 .done) ∧ s.admitted .retime 1 (u8 7 ++ enTiming r) [] = true
      ∧ s.admitted .retime 0 (u8 0 ++ enTiming r) [] = true ∧ (window0 .opened).owner ≠ 0 := by decide +kernel

theorem test_meets_SettleTimeEntersLead :
    let s := windowIn .settle none
    let late := withWindow { window0 .settle with ownFall := some 5000000, timing := { lead := 10, dwell := 1, dead := 1 } }
    let cut := s.modFault 1 (fun f => { f with latch := true })
    s.rst = false ∧ s.win 0 = some (window0 .settle) ∧ (window0 .opened).state ≠ .settle
      ∧ s.mayDrive (window0 .settle) = true ∧ 0 < (window0 .settle).timing.lead
      ∧ (∀ i ∈ s.driveSlots (window0 .settle), Table.rd s.eng.fall i = none) ∧ (window0 .settle).ownFall = none
      ∧ (∀ r ∈ (window0 .settle).named, s.latched (resSlot r) = false)
      ∧ (late.now < 5000000 + 1 ∧ (∀ i ∈ late.driveSlots (window0 .settle), Table.rd late.eng.fall i = none))
      ∧ late.win 0 = some { window0 .settle with
          ownFall := some 5000000, timing := { lead := 10, dwell := 1, dead := 1 } }
      ∧ cut.latched (resSlot 17) = true ∧ 17 ∈ (window0 .settle).named
      ∧ ((after (.settleTimeReached 0) late).win 0).map (fun x => (x.state, x.timerEnd)) = some (.lead, some 5000011)
      ∧ after (.settleTimeReached 0) cut = cut := by decide +kernel

theorem test_meets_LeadExpiryEntersDwell :
    let x : Window := { window0 .lead with timerEnd := some 5000010 }
    let s := (withWindow x).setLnk 1 true
    let y : Window := { x with signal := some { event := .firstDwell, sem := 7 } }
    s.rst = false ∧ s.win 0 = some x ∧ (window0 .dwell).state ≠ .lead ∧ x.state = .lead ∧ x.timerEnd = some 5000010
      ∧ s.receiveSlot x x.dir = some 1 ∧ s.lnkUp 1 = true ∧ x.setsAt .firstDwell = [] ∧ hub.lnkUp 1 = false
      ∧ x.stopOnLockLoss = true ∧ y.firstDwelt = false ∧ y.setsAt .firstDwell = [7] ∧ (s.sem 7).armed = []
      ∧ ({ x with stopOnLockLoss := false } : Window).stopOnLockLoss = false
      ∧ (withWindow x).lnkUp 1 = false ∧ x.acc x.dir = some (Accumulator.empty 0 .fwd 2 false) := by
  decide +kernel

theorem test_leadExpiry_counts_lost_lock :
    let x : Window := { window0 .lead with timerEnd := some 5000010 }
    let t := after (.leadExpiry 0) (withWindow { x with stopOnLockLoss := false })
    let u := after (.leadExpiry 0) (withWindow x)
    (t.cap 1).live.lockLosses = 1 ∧ (t.cap 1).counting = true ∧ (t.win 0).map (fun y => y.state) = some .dwell
      ∧ (u.win 0).map (fun y => (y.state, y.accFwd.map (fun a => a.lockLosses))) = some (.stopped, some 1) := by
  decide +kernel

theorem test_meets_DwellExpiryHarvests :
    let x : Window := { window0 .dwell with timerEnd := some 5001010 }
    (withWindow x).rst = false ∧ (withWindow x).win 0 = some x ∧ (window0 .lead).state ≠ .dwell ∧ x.state = .dwell
      ∧ x.timerEnd = some 5001010 ∧ (withWindow x).link x.victim = some linkA ∧ x.setsAt .eachDwellEnd = [] := by
  decide +kernel

theorem test_meets_SemClearClearsBothFlags : hub.taken 1 (u8 7) [] = true ∧ (inRun .loading).run.state = .loading
    ∧ hub.run.state ≠ .loading ∧ (hub.port 2).role = .observer ∧ (hub.port 1).role = .tester
    ∧ (hub.port 0).role = .supervisor ∧ ([] : List Byte).length ≠ 1 ∧ 7 < (8#8).toNat := by decide +kernel

/-- The hub with W0, which P1 has armed, on semaphore 7 with another entry behind it. -/
def armedOn (x : Window) (take : TakeMode) : State :=
  (withWindow { x with state := .armed, armedAt := some 4000 }).modSem 7 (fun m =>
    { m with armed := [{ win := 0, take := take }, { win := 6, take := .consume }] })

theorem test_meets_SemSetSetsAndChooses : hub.admitted .semSet 1 (u8 0) [] = true
    ∧ hub.admitted .semSet 1 (u8 7) [] = true ∧ (hub.sem 7).armed = []
    ∧ (armedOn semWindow .consume).admitted .semSet 1 (u8 7) [] = true
    ∧ (((armedOn semWindow .consume).working .semSet 1 7).takeSet 7).2.1 = [0]
    ∧ ((armedOn semWindow .consume).win 0).map (fun x => x.state) = some .armed
    ∧ (linkIn .withdrawing (armedOn semWindow .consume)).linkIs 0 .withdrawing = true
    ∧ ((armedOn semWindow .consume).modFault 1 (fun f => { f with latch := true })).latched (resSlot 17) = true
    ∧ semWindow.faultMode = .halt ∧ 17 ∈ semWindow.named := by decide +kernel

theorem test_semSet_starts_the_armed :
    let s := armedOn semWindow .consume
    let t := send .semSet 1 [7] s
    let u := send .semSet 1 [7] (armedOn semWindow .leave)
    let cut := send .semSet 1 [7] (s.modFault 1 (fun f => { f with latch := true }))
    (t.sem 7).set = false ∧ (t.sem 7).armed = [{ win := 6, take := .consume }] ∧ (t.win 0).map (fun x => x.state) = some .setup
      ∧ (u.sem 7).set = false ∧ (u.sem 7).armed = []
      ∧ ((send .semSet 1 [7] (linkIn .withdrawing s)).win 0).map (fun x => x.endCause) = some (some .linkWithdrawn)
      ∧ (cut.win 0).map (fun x => x.endCause) = some (some .fault) ∧ cut.setup.queue = [] := by decide +kernel

theorem test_meets_CaptureRequestsActOnTheSlot : hub.isFitted 15 = true ∧ leased.isFitted 1 = true
    ∧ leased.admitted .readCapture 1 (u8 1) [] = true ∧ leased.holds 1 (chkOf 1) = true
    ∧ (hub.setLease 31 (.watched 0b1000)).watches 3 (chkOf 15) = true ∧ leased.holds 3 (chkOf 1) = false
    ∧ leased.watches 3 (chkOf 1) = false ∧ leased.admitted .setCapture 1 (u8 1 ++ u8 4 ++ u8 3) [] = true
    ∧ (leased.res (chkOf 1)).naming = none ∧ ((windowIn .opened none).res (chkOf 1)).naming ≠ none := by decide +kernel

theorem test_meets_PulsesAndLockLossesAreCounted :
    let c := counting1.cap 1
    counting1.rst = false ∧ c.counting = true ∧ minWidth c.filter ≤ 160 ∧ c.live.residue + 1 < 2 ^ c.prescale
      ∧ 2 ^ (hub.cap 1).prescale ≤ (hub.cap 1).live.residue + 1 ∧ 159 < minWidth c.filter
      ∧ (hub.cap 1).counting = false ∧ hub.lnkUp 1 = false ∧ (hub.setLnk 1 true).lnkUp 1 = true
      ∧ c.receiving = some 0 ∧ counting1.win 0 = some { window0 .dwell with timerEnd := some 5000100 }
      ∧ (window0 .dwell).stopOnLockLoss = true ∧ ({ window0 .dwell with stopOnLockLoss := false } : Window).stopOnLockLoss = false := by
  decide +kernel

/-- A HARVEST reply with a count in paddle lane 2. -/
def bad0 : List Byte :=
  let bytes := [0, 0, 0, 0, 1, 0, 0, 0, 0, 0, 0, 0, 1, 0, 0, 0, 0]
  bytes ++ [crc8 bytes]

theorem test_meets_FailedExchangeStopsTheWindow :
    let s := exchanging .setup (txn .configureGen) (.awaiting 0 5000102)
    let t := exchanging .setup (txn .configureChk) (.receiving 0)
    s.rst = false ∧ s.setup.queue = txn .configureGen :: [] ∧ (txn .configureGen).inFlight = true
      ∧ s.setup.exchange = .awaiting 0 5000102 ∧ (txn .configureGen).discard = false
      ∧ s.win 0 = some (window0 .setup) ∧ (window0 .setup).state.active = true
      ∧ ({ txn .configureGen with discard := true } : Txn).discard = true ∧ t.setup.exchange = .receiving 0
      ∧ (txn .configureChk).kind ≠ .harvest ∧ (0x01#8 : Byte) ≠ 0x00#8 ∧ (0x01#8 : Byte) ≠ crc8 [0x00#8]
      ∧ (txn .harvest).kind = .harvest ∧ bad0.length = 18 ∧ bad0.getLast? = some (crc8 bad0.dropLast)
      ∧ (∃ c ∈ (paddleCounts bad0).drop (txn .harvest).lanes, c ≠ 0) ∧ hub.setup.exchange = .idle ∧ hub.rst = false
      ∧ ((after (.setupExchangeEnd bad0) (exchanging .harvest (txn .harvest) (.receiving 0))).win 0).map
          (fun x => x.endCause) = some (some .paddle) := by decide +kernel

theorem test_meets_GoodRepliesCarryOn :
    let s := exchanging .setup (txn .configureGen) (.receiving 0)
    let more : Txn := { txn .configureChk with inFlight := false }
    let cut := s.modFault 1 (fun f => { f with latch := true })
    let t := exchanging .harvest (txn .harvest) (.receiving 0)
    let x := window0 .harvest
    s.rst = false ∧ s.setup.queue = txn .configureGen :: [] ∧ s.setup.exchange = .receiving 0
      ∧ s.win 0 = some (window0 .setup) ∧ (window0 .setup).state = .setup ∧ more.win = 0 ∧ more.discard = false
      ∧ cut.mayDrive (window0 .setup) = false ∧ t.setup.queue = txn .harvest :: [] ∧ t.setup.exchange = .receiving 0
      ∧ t.win 0 = some x ∧ x.state = .harvest ∧ t.link x.victim = some linkA ∧ reply0.length = 18
      ∧ judgeReply (txn .harvest) reply0 = .ok ∧ x.mode = .fwd ∧ x.accRev = none ∧ x.repeats = 1 ∧ x.repeatsDone = 0
      ∧ x.dir = .fwd ∧ x.signal = none ∧ x.retime = none ∧ x.accFwd.isSome = true
      ∧ (t.res (chkOf linkA.endB.slot)).lease = .held 1 4000 := by decide +kernel

/-- A PAIRED window in HARVEST, with its TXEN just fallen and a dead time to run. -/
def pairedWindow (d : Dir) (repeats : Nat) : Window :=
  { openedWindow 1 linkA { params0 with mode := .paired, aggressors := [{ link := 127, drive := .a }], repeats := repeats,
                                        timing := { lead := 10, dwell := 1000, dead := 5 },
                                        signal := some { event := .done, sem := 7 } } [0, 1, 2, 16, 17] with
    state := .harvest, dir := d, ownFall := some 5000000, retime := some { lead := 1, dwell := 2, dead := 3 } }

/-- The hub with it, its HARVEST transaction in flight. -/
def harvesting (x : Window) : State :=
  { withWindow x with setup := { queue := [{ txn .harvest with win := 0 }], order := [], exchange := .receiving 0 } }

theorem test_meets_GoodRepliesCarryOn_at_a_boundary :
    let x := pairedWindow .fwd 2
    let y := pairedWindow .rev 2
    let z := pairedWindow .rev 1
    (harvesting x).win 0 = some x ∧ x.mode = .paired ∧ x.dir = .fwd ∧ (harvesting x).now < 5000000 + x.timing.dead
      ∧ y.dir = .rev ∧ y.repeats ≠ min 65535 (y.repeatsDone + 1) ∧ y.boundaryStop = false ∧ y.repeats ≠ 0
      ∧ (harvesting y).linkIs y.victim .withdrawing = false ∧ (harvesting y).now < 5000000 + (y.retime.getD y.timing).dead
      ∧ z.repeats = min 65535 (z.repeatsDone + 1) ∧ z.setsAt .done = [7] ∧ ((harvesting z).sem 7).armed = []
      ∧ ({ z with signal := none } : Window).setsAt .done = [] ∧ linkA.endA.slot ≠ linkA.endB.slot
      ∧ (∀ d, d ∉ z.mode.dirs → z.acc d = none) := by
  refine ⟨?_, ?_, ?_, ?_, ?_, ?_, ?_, ?_, ?_, ?_, ?_, ?_, ?_, ?_, ?_, fun d h => ?_⟩
  all_goals first | decide +kernel | (cases d <;> exact absurd (by decide) h)

theorem test_harvest_at_a_boundary :
    let state := fun x => ((after (.setupExchangeEnd reply0) (harvesting x)).win 0).map (fun y => (y.state, y.dir, y.repeatsDone))
    state (pairedWindow .fwd 2) = some (.settle, .rev, 0) ∧ state (pairedWindow .rev 2) = some (.settle, .fwd, 1)
      ∧ state (pairedWindow .rev 1) = some (.done, .rev, 1)
      ∧ ((after (.setupExchangeEnd reply0) (harvesting (pairedWindow .rev 1))).sem 7).set = true
      ∧ ((after (.setupExchangeEnd reply0) ((harvesting (pairedWindow .rev 2)).setLinkState 127 .withdrawing)).win 0).map
          (fun y => (y.aggressors, y.named)) = some ([], [0, 1, 16, 17]) := by decide +kernel

theorem test_meets_PaddleLanesMapToLinkLanes :
    let t : Txn := { txn .harvest with lanes := 1 }
    let reply := reply0.set 8 1
    1 ≤ ({ linkA with lanes := 1 } : Link).lanes ∧ linkB.lanes ≤ 4 ∧ linkA.reversed = false ∧ linkB.reversed = true
      ∧ t.kind = .harvest ∧ t.lanes = ({ linkA with lanes := 1 } : Link).lanes ∧ reply.length = 18
      ∧ (paddleCounts reply)[1]? ≠ some 0 ∧ reply.head? = some 0x00#8 := by decide +kernel

theorem test_meets_MismatchWhenCountsCannotBothBeRight :
    ({ VerdictRecord.untested 2 with flags := { ResultFlags.none with mismatch := true } } : VerdictRecord).flags.mismatch
      = true
    ∧ (repeatResult linkA (window0 .harvest) (hub.cap 1) reply0).mismatch = true := by decide +kernel

theorem test_meets_FltEdgesQualify :
    let zero := { hub with map := { hub.map with slots := Table.upd hub.map.slots 15 (fun e => { e with qualify := 0 }) } }
    hub.rst = false ∧ hub.run.state ≠ .loading ∧ (inRun .loading).run.state = .loading
      ∧ ((hub.modFault 15 (fun f => { f with level := true })).fault 15).level = true
      ∧ (hub.fault 15).level = false ∧ hub.isFitted 15 = true ∧ hub.latched 15 = false ∧ 0 < (hub.slotEntry 15).qualify
      ∧ (zero.slotEntry 15).qualify = 0 ∧ fewSlots.isFitted 15 = false
      ∧ (hub.modFault 15 (fun f => { f with latch := true })).latched 15 = true := by decide +kernel

theorem test_meets_QualifiedFaultLatches :
    let s := (windowIn .dwell (some 5001000)).modFault 1 (fun f => { f with level := true, qualifying := some 5000100 })
    s.rst = false ∧ (hub.fault 1).qualifying = none ∧ (s.fault 1).qualifying = some 5000100
      ∧ (s.port 0).role = .supervisor ∧ s.holds 1 (chkOf 1) = true ∧ (leased.holds 1 (genOf 0) = true)
      ∧ (hub.setLease 31 (.watched 0b1000)).watches 3 (chkOf 15) = true
      ∧ s.win 0 = some { window0 .dwell with timerEnd := some 5001000 } ∧ (window0 .dwell).namesSlot 1 = true
      ∧ (window0 .dwell).state.phase = true ∧ (window0 .dwell).faultMode = .halt ∧ (window0 .opened).state.phase = false
      ∧ (window0 .settle).state.phase = true ∧ (window0 .lead).state.phase = true ∧ (window0 .dwell).namesSlot 15 = false := by
  decide +kernel

theorem test_PAUSE_window_pauses :
    let x : Window := { window0 .dwell with faultMode := .pause, timerEnd := some 5001000 }
    let t := after (.faultQualifyExpiry 1)
      ((withWindow x).modFault 1 (fun f => { f with level := true, qualifying := some 5000100 }))
    (t.win 0).map (fun y => (y.state, y.dwellLeft, y.ownFall)) = some (.paused, 900, some 5000100) := by decide +kernel

theorem test_meets_ClearFaultClearsTheLatch : hub.admitted .clearFault 0 (u8 15) [] = true ∧ hub.isFitted 15 = true
    ∧ ((hub.modFault 15 (fun f => { f with level := true })).fault 15).level = true ∧ fewSlots.isFitted 15 = false
    ∧ (hub.fault 15).level = false ∧ (hub.modFault 15 (fun f => { f with latch := true })).latched 15 = true
    ∧ hub.latched 15 = false
    ∧ (window0 .paused).namesSlot 1 = true ∧ (∀ r ∈ (window0 .paused).named, resSlot r ≠ 1 → hub.latched (resSlot r) = false)
    ∧ (∀ v, v ≠ 0 → (windowIn .paused none).win v = none) ∧ (window0 .paused).ownFall = none
    ∧ (∀ j ∈ (windowIn .paused none).driveSlots (window0 .paused), Table.rd hub.eng.fall j = none)
    ∧ 0 < (window0 .paused).timing.lead ∧ (hub.modFault 0 (fun f => { f with latch := true })).latched (resSlot 0) = true
    ∧ hub.now < 5000000 + 1 ∧ (window0 .settle).namesSlot 1 = true ∧ (window0 .dwell).state ≠ .armed := by decide +kernel

theorem test_clearFault_resumes_a_paused_window :
    let cut := fun x => (withWindow x).modFault 1 (fun f => { f with latch := true })
    let late : Window := { window0 .paused with ownFall := some 5000000, timing := { lead := 10, dwell := 1, dead := 1 } }
    ((send .clearFault 0 [1] (cut (window0 .paused))).win 0).map (fun y => (y.state, y.timerEnd)) =
      some (.lead, some 5000010)
    ∧ ((send .clearFault 0 [1] (cut late)).win 0).map (fun y => y.state) = some .settle := by decide +kernel

theorem test_meets_ReadVerdictAnswersOrWaits :
    let s := queued [posted0 1]
    dirChoiceOf (BitVec.ofNat 8 2) = some .both ∧ dirChoiceOf (BitVec.ofNat 8 0) = some .fwd ∧ (s.link 0).isSome = true
      ∧ s.admitted .readVerdict 2 (u8 0 ++ u8 2 ++ enFlag true) [] = true
      ∧ s.admitted .readVerdict 2 (u8 0 ++ u8 2 ++ enFlag false) [] = true
      ∧ (∀ q ∈ hub.posted, (decide (q.result.link = 0) && DirChoice.both.covers q.result.dir) = false)
      ∧ (∃ q ∈ s.posted, (decide (q.result.link = 0) && DirChoice.both.covers q.result.dir) = true) := by decide +kernel

/-- CHK 17 held without and CHK 16 with a holding, both past their deadlines, the recall buffer's result in flight. -/
def recallBusy (rs : List ResId) : State :=
  ((leased.setLease 16 (.heldUnposted 1 4000 result0)).setExpired rs).setPost
    { ordinary := [], recallBuf := some { posted0 3 with inFlight := true },
      commit := some { takenAt := 5000000, delay := 2 }, nextSerial := 9 }

/-- A CLOSING run that waits for a commit alone. -/
def closingCommit : State := { committing with run := (inRun .closing).run }

theorem test_meets_CommitMergesOrDrops :
    let gone := linkIn .withdrawn committing
    committing.rst = false ∧ committing.run.state = .running ∧ committing.dir.expired = []
      ∧ committing.post.commit = some { takenAt := 5000000, delay := 2 }
      ∧ committing.inFlight = some ({ posted0 3 with inFlight := true }, false)
      ∧ (committing.posted.map (fun x => x.serial)).Nodup ∧ committing.link 0 = some linkA
      ∧ committing.record 0 .fwd = some (.untested 2) ∧ linkA.state ≠ .withdrawn
      ∧ gone.link 0 = some { linkA with state := .withdrawn } ∧ gone.record 0 .fwd = some (.untested 2)
      ∧ ({ result0 with retest := true } : Accumulator).retest = true ∧ result0.retest = false
      ∧ (∀ c ∈ ([17, 16] : List ResId), ((recallBusy [17, 16]).res c).naming = none) ∧ (recallBusy [17, 16]).dir.waits = []
      ∧ (recallBusy [17, 16]).inFlight = some ({ posted0 3 with inFlight := true }, true)
      ∧ ((recallBusy [17, 16]).res 17).lease = .held 1 4000
      ∧ ((recallBusy [17, 16]).res 16).lease = .heldUnposted 1 4000 result0
      ∧ (closingCommit).run.state = .closing ∧ (∀ r, (closingCommit.res r).lease.holder = none)
      ∧ (∀ w, closingCommit.win w = none) ∧ (∀ x ∈ closingCommit.posted, x.serial = 3) := by decide +kernel

/-- Every record of the two links FAIL but that of L0 FWD, which the result of the commit in flight makes FAIL. -/
def almost (s : State) : State :=
  let fail := fun (l : LinkId) (d : Dir) (t : State) =>
    t.modRecord l d (fun v => { v with merged := 1, lockLosses := 65535, verdict := .fail })
  let q := posted0 3
  ((fail 0 .rev (fail 127 .fwd (fail 127 .rev s)))).setPost { s.post with
    ordinary := [{ q with inFlight := true, result := { q.result with lockLosses := 65535 } }] }

theorem test_coverage_completes :
    let noticed := fun t : State => (t.noticed 0 .runState, t.noticed 1 .runState, t.noticed 2 .runState, t.noticed 3 .runState)
    let all := (true, true, true, true)
    (almost committing).run.complete = false ∧ (almost closingCommit).run.complete = false
      ∧ (after .commitComplete (almost committing)).run.complete = true
      ∧ noticed (after .commitComplete (almost committing)) = all
      ∧ (after .commitComplete (almost closingCommit)).run.complete = true
      ∧ (send .withdraw 0 [0] (almost hub)).run.complete = true ∧ noticed (send .withdraw 0 [0] (almost hub)) = all
      ∧ noticed (after .commitComplete committing) = (false, false, false, false) := by decide +kernel

theorem test_commitComplete_goes_on :
    let t := after .commitComplete (recallBusy [17, 16])
    let u := after .commitComplete (committing.setSlot 3 (.working 0x60 7 (some { link := 0, dirs := .fwd, members := [3] })))
    t.dir.expired = [] ∧ (t.res 17).lease = .free ∧ (t.res 16).lease = .free
      ∧ t.post.recallBuf.map (fun q => q.result.flags.recalled) = some true
      ∧ (after .commitComplete closingCommit).run.state = .closed
      ∧ (after .commitComplete (closingCommit.setLease 17 (.held 1 4000))).run.state = .closing
      ∧ (u.port 3).slot = .answered (responseFrame (u.verdictReply 0 .fwd) 0x60 7) := by decide +kernel

theorem test_meets_EngineTakesRecallThenPromotedThenOldest :
    let q := { posted0 2 with promoted := true }
    let s := queued [posted0 1, q, posted0 3]
    s.post.commit = none ∧ s.post.recallBuf = none ∧ s.post.ordinary = [posted0 1] ++ q :: [posted0 3]
      ∧ (s.post.ordinary.map (fun x => x.serial)).Nodup ∧ q.promoted = true ∧ (∀ x ∈ [posted0 1], x.promoted = false)
      ∧ (∀ x ∈ (queued [posted0 1]).post.ordinary, x.promoted = false) ∧ hub.post.ordinary = []
      ∧ (hub.setPost { hub.post with recallBuf := some (posted0 0) }).post.recallBuf = some (posted0 0) := by decide +kernel

theorem test_meets_GradingLadder :
    let lim := Table.rd hub.map.limits linkA.limitSet
    let v : VerdictRecord := { VerdictRecord.untested 2 with merged := 1, dwell := 1000000 }
    linkA.state ≠ .withdrawn ∧ ({ linkA with state := .withdrawn } : Link).state = .withdrawn
      ∧ (VerdictRecord.untested 2).merged = 0 ∧ v.merged ≠ 0 ∧ lim.lockLimit < 1 ∧ 0 < v.dwell
      ∧ lim.failLimit < 11 * 1000000 / v.dwell ∧ ¬ lim.failLimit < 10 * 1000000 / v.dwell ∧ 999999 < lim.minDwell
      ∧ lim.minDwell ≤ v.dwell ∧ lim.passLimit < 1 * 1000000 / v.dwell ∧ ¬ lim.passLimit < 0 * 1000000 / v.dwell
      ∧ v.flags.faulted = false ∧ v.flags.mismatch = false ∧ v.flags.interrupted = false ∧ v.flags.aggressed = false
      ∧ hub.linkNat 127 = some linkB ∧ linkA.neighbours = [127] ∧ linkB.state = .fitted ∧ hub.link 0 = some linkA
      ∧ hub.record 0 .rev = some (.untested 2) := by
  decide +kernel

theorem test_meets_SetLampAndBlinkClocks : lampModeOf (BitVec.ofNat 8 7) = some .held
    ∧ lampModeOf (BitVec.ofNat 8 0) = some .off
    ∧ hub.admitted .setLamp 0 (u8 15 ++ u8 7 ++ enFlag true ++ enFlag true) [] = true ∧ hub.isFitted 15 = true
    ∧ fewSlots.isFitted 15 = false ∧ hub.rst = false ∧ hub.lamps.slowOn = decide (hub.nowMs / 250 % 2 = 0)
    ∧ hub.lamps.fastOn = decide (hub.nowMs / 100 % 2 = 0)
    ∧ ({ hub with now := 5250000 } : State).lamps.slowOn ≠ decide (({ hub with now := 5250000 } : State).nowMs / 250 % 2 = 0)
    ∧ ({ hub with now := 5100000 } : State).lamps.fastOn ≠ decide (({ hub with now := 5100000 } : State).nowMs / 100 % 2 = 0)
    ∧ (hub.setLnk 15 true).lnkUp 15 = true ∧ hub.lnkUp 15 = false ∧ hub.txenPin 15 = false ∧ hub.ckenPin 15 = false
    ∧ (hub.setTxen 15 true).txenPin 15 = true ∧ (leased.res (genOf 0)).lease.holder ≠ none
    ∧ (hub.res (genOf 15)).lease.holder = none ∧ (hub.res (chkOf 15)).lease.holder = none
    ∧ ((hub.modFault 15 (fun f => { f with level := true })).fault 15).level = true ∧ (hub.fault 15).level = false
    ∧ (hub.modFault 15 (fun f => { f with latch := true })).latched 15 = true ∧ hub.latched 15 = false
    ∧ hub.run.state ≠ .loading ∧ (inRun .loading).run.state = .loading := by
  decide +kernel

/-- The hub with a verdict of L0 in FWD. -/
def verdictOfL0 (v : Verdict) : State := hub.modRecord 0 .fwd (fun x => { x with verdict := v })

/-- The hub with a lamp at slot 0. -/
def lamp0 (m : LampMode) (blink invert : Bool) : State :=
  hub.setLamps { hub.lamps with recs := Table.put hub.lamps.recs 0 { mode := m, blink := blink, invert := invert } }

theorem test_lamp_sources :
    (verdictOfL0 .fail).lampSource 0 .verdict = .blinking .fast
    ∧ (verdictOfL0 .marginal).lampSource 0 .verdict = .blinking .slow ∧ (verdictOfL0 .pass).lampSource 0 .verdict = .unlit
    ∧ ((verdictOfL0 .pass).modRecord 0 .rev (fun x => { x with verdict := .pass })).lampSource 0 .verdict = .lit
    ∧ hub.lampSource 3 .verdict = .unlit ∧ (linkIn .withdrawn (verdictOfL0 .fail)).lampSource 0 .verdict = .unlit
    ∧ (lamp0 .on true true).lampLit 0 = false ∧ (lamp0 .on false false).lampLit 0 = true
    ∧ (lamp0 .off true true).lampLit 0 = true := by decide +kernel

theorem test_meets_SetBlinkReplacesTheRate : hub.taken 0 (u8 1) [] = true ∧ (inRun .loading).run.state = .loading
    ∧ hub.run.state ≠ .loading ∧ (hub.port 1).role ≠ .supervisor ∧ (hub.port 0).role = .supervisor
    ∧ ([] : List Byte).length ≠ 1 ∧ 1 < (2#8).toNat ∧ u8 1 = u8 (BlinkRate.num .fast) ∧ LampMode.held.blinks = true
    ∧ hub.lampSource 15 .on = .lit := by decide +kernel

end Sys2Proof.Tests
end

