-- ==== Sys2Proof/Proofs/Recall.lean ====
section
/-! SUPPORT. Sys2Proof/Proofs/Recall.lean: the request RECALL (R53): which bytes name a resource, each answer of the
request's own rule, and the obligation on it. -/

namespace Sys2Proof.Machine

variable {s : State} {p : PortId} {tag : Byte} {params filler : List Byte} {cut : Bool} {r : ResId}

/-! ## Admitted requests by the outcome of their own rule (R181 step 5) -/

/-- An admitted request that its own rule refuses changes nothing else. -/
theorem exec_refused {q : Req} {st : Status} (h : s.admitted q p params filler = true)
    (hb : q.body p tag params (s.working q p tag) = refuse (s.working q p tag) st) :
    exec (q.command p (frameRest q tag params filler) cut) s = .next (s.refusedWith q p tag st) :=
  exec_admitted h hb

/-- An admitted request that its own rule carries out is answered OK with that rule's data. -/
theorem exec_accepted {q : Req} {t : State} {data : List Byte} (h : s.admitted q p params filler = true)
    (hb : q.body p tag params (s.working q p tag) = accept t data) :
    exec (q.command p (frameRest q tag params filler) cut) s = .next (t.answerOk q p tag data) :=
  exec_admitted h hb

/-! ## Resource numbers as bytes (R35, R198) -/

/-- A byte reads as an index exactly if it is that index's byte. -/
theorem idxOf_eq_some_iff {n : Nat} (hn : n ≤ 256) {b : Byte} {k : Fin n} :
    idxOf n b = some k ↔ b = BitVec.ofNat 8 k.val := by
  constructor
  · intro h
    unfold idxOf finOf at h
    split at h
    · obtain rfl := Option.some.inj h
      simp
    · contradiction
  · rintro rfl
    exact idxOf_byte hn k

/-- A byte names a resource exactly if it is its number and its slot is fitted. -/
theorem resIdOf_eq_some_iff {b : Byte} :
    s.resIdOf b = some r ↔ b = BitVec.ofNat 8 r.val ∧ s.isFitted (resSlot r) = true := by
  rw [← idxOf_eq_some_iff (by omega : 32 ≤ 256)]
  unfold State.resIdOf
  cases idxOf 32 b with
  | none => simp
  | some q =>
    by_cases hq : s.isFitted (resSlot q) = true
    · simp only [hq, if_true, Option.some.injEq]
      exact ⟨fun e => ⟨e, e ▸ hq⟩, fun h => h.1⟩
    · simp only [hq, Option.some.injEq]
      exact ⟨nofun, fun ⟨e, h⟩ => absurd (e ▸ h) hq⟩

/-! ## The start of a recall (R54) -/

/-- The start of a recall of a held resource: its deadline, and RECALL on its holder (R54). -/
theorem startRecall_held {q : PortId} (hheld : (s.res r).lease.holder = some q) :
    s.startRecall r = (s.modRes r (fun x => { x with
      recallState := .recalling (s.nowMs + s.map.recallTimeout) })).raise q .recalled := by
  simp only [State.startRecall, hheld]

/-! ## The rule of RECALL, outcome by outcome (R53) -/

variable (p tag)

/-- Parameters that are not the number of a resource on a fitted slot. -/
theorem bodyRecall_badParam (h : ∀ r : ResId, params = u8 r.val → s.isFitted (resSlot r) = false) :
    bodyRecall p tag params s = refuse s .badParam := by
  match params with
  | [] => rfl
  | _ :: _ :: _ => rfl
  | [b] =>
    have hb : s.resIdOf b = none := by
      refine Option.eq_none_iff_forall_ne_some.mpr fun r hr => ?_
      obtain ⟨hnum, hfit⟩ := resIdOf_eq_some_iff.mp hr
      simp [h r (by rw [hnum]; rfl)] at hfit
    simp only [bodyRecall, hb]

/-- What the rule does with a resource on a fitted slot. -/
theorem bodyRecall_fitted (hfit : s.isFitted (resSlot r) = true) :
    bodyRecall p tag (u8 r.val) s =
      if (s.res r).lease.holder.isNone then refuse s .notHeld
      else if (s.res r).recallState = .none then accept (s.startRecall r) (enFlag true)
      else accept s (enFlag false) := by
  simp only [bodyRecall, u8, resIdOf_eq_some_iff.mpr ⟨rfl, hfit⟩]

theorem bodyRecall_notHeld (hfit : s.isFitted (resSlot r) = true) (hfree : (s.res r).lease.holder = none) :
    bodyRecall p tag (u8 r.val) s = refuse s .notHeld := by
  simp [bodyRecall_fitted p tag hfit, hfree]

/-- A recall starts, as R54 says. -/
theorem bodyRecall_starts {q : PortId} (hfit : s.isFitted (resSlot r) = true)
    (hheld : (s.res r).lease.holder = some q) (hnone : (s.res r).recallState = .none) :
    bodyRecall p tag (u8 r.val) s = accept ((s.modRes r (fun x => { x with
      recallState := .recalling (s.nowMs + s.map.recallTimeout) })).raise q .recalled) (enFlag true) := by
  simp [bodyRecall_fitted p tag hfit, hheld, hnone, startRecall_held hheld]

theorem bodyRecall_runs_already (hfit : s.isFitted (resSlot r) = true) (hheld : (s.res r).lease.holder ≠ none)
    (hruns : (s.res r).recallState ≠ .none) : bodyRecall p tag (u8 r.val) s = accept s (enFlag false) := by
  simp [bodyRecall_fitted p tag hfit, hheld, hruns]

/-! ## Who may send RECALL, and when (R22, R183) -/

theorem admits_recallResource {st : RunState} :
    Req.admits .recallResource st = true ↔ st = .running ∨ st = .closing := by
  cases st <;> decide

theorem permits_recallResource {x : Role} : Req.permits .recallResource x = true ↔ x = .supervisor := by
  cases x <;> decide

end Sys2Proof.Machine

open Sys2Proof Sys2Proof.Machine

/-- Settles O32: the run state and the role decide first, then the rule of RECALL, one lemma per outcome. -/
theorem recallStartsAtMostOneRecall : Obligations.RecallStartsAtMostOneRecall := by
  unfold Obligations.RecallStartsAtMostOneRecall
  intro s p tag params filler cut htaken
  constructor
  · intro hrunning hclosing
    have hstate : Req.admits .recallResource s.run.state = false := by
      simp [Bool.eq_false_iff, admits_recallResource, hrunning, hclosing]
    exact exec_wrongState (r := .recallResource) htaken hstate
  · intro hrun
    have hstate := admits_recallResource.mpr hrun
    constructor
    · intro hrole
      have hdenied : Req.permits .recallResource (s.port p).role = false := by
        simp [Bool.eq_false_iff, permits_recallResource, hrole]
      exact exec_notPermitted (r := .recallResource) htaken hstate hdenied
    · intro hrole
      have hadm := admitted_of_taken htaken hstate (permits_recallResource.mpr hrole)
      constructor
      · intro hbad
        exact exec_refused hadm (bodyRecall_badParam p tag hbad)
      · rintro r rfl hfit
        refine ⟨fun hfree => ?_, fun q hheld hnone => ?_, fun hheld hruns => ?_⟩
        · exact exec_refused hadm (bodyRecall_notHeld p tag hfit hfree)
        · exact exec_accepted hadm (bodyRecall_starts p tag hfit hheld hnone)
        · exact exec_accepted hadm (bodyRecall_runs_already p tag hfit hheld hruns)

end

