-- ==== Sys2Proof/Proofs/SemClear.lean ====
section
/-! SUPPORT. Sys2Proof/Proofs/SemClear.lean: the request SEM_CLEAR (R105): who may send it and when, which bytes number
a semaphore, the two outcomes of the request's own rule, and the obligation on it. -/

namespace Sys2Proof.Machine

variable {s : State} {params : List Byte}

/-! ## Who may send SEM_CLEAR, and when (R22, R183) -/

theorem admits_semClear {st : RunState} : Req.admits .semClear st = true ↔ st ≠ .loading := by
  cases st <;> decide

theorem permits_semClear {x : Role} : Req.permits .semClear x = true ↔ x = .tester ∨ x = .supervisor := by
  cases x <;> decide

/-! ## The numbers of the semaphores as bytes (R99, R198) -/

/-- A byte that is no index below the bound reads as none. -/
theorem idxOf_eq_none {n : Nat} {b : Byte} (h : n ≤ b.toNat) : idxOf n b = none :=
  dif_neg (Nat.not_lt.mpr h)

/-! ## The rule of SEM_CLEAR, outcome by outcome (R105) -/

variable (p : PortId) (tag : Byte)

/-- Parameters that are not one byte, or a byte above the last semaphore's number. -/
theorem bodySemClear_badParam (h : params.length ≠ 1 ∨ ∃ b, params = [b] ∧ 7 < b.toNat) :
    bodySemClear p tag params s = refuse s .badParam := by
  rcases h with hlen | ⟨b, rfl, hb⟩
  · match params, hlen with
    | [], _ => rfl
    | [_], hlen => exact absurd rfl hlen
    | _ :: _ :: _, _ => rfl
  · simp only [bodySemClear, idxOf_eq_none (n := 8) hb]

/-- Both flags clear, the armed list stays, and the answer holds the flags as they stood before. -/
theorem bodySemClear_clears (k : SemId) :
    bodySemClear p tag (u8 k.val) s = accept (s.modSem k (fun x => { x with set := false, overrun := false }))
      (enFlag (s.sem k).set ++ enFlag (s.sem k).overrun) := by
  simp only [bodySemClear, u8, idxOf_byte (show 8 ≤ 256 by omega)]

end Sys2Proof.Machine

open Sys2Proof Sys2Proof.Machine

/-- Settles O44: the run state and the role decide first, then the rule of SEM_CLEAR, one lemma per outcome. -/
theorem semClearClearsBothFlags : Obligations.SemClearClearsBothFlags := by
  unfold Obligations.SemClearClearsBothFlags
  intro s p tag params filler cut htaken
  refine ⟨fun hloading => ?_, fun hloaded hobserver => ?_, fun hloaded hrole => ?_⟩
  · have hstate : Req.admits .semClear s.run.state = false := by rw [hloading]; rfl
    exact exec_wrongState (r := .semClear) htaken hstate
  · have hdenied : Req.permits .semClear (s.port p).role = false := by rw [hobserver]; rfl
    exact exec_notPermitted (r := .semClear) htaken (admits_semClear.mpr hloaded) hdenied
  · have hadm := admitted_of_taken htaken (admits_semClear.mpr hloaded) (permits_semClear.mpr hrole)
    constructor
    · intro hbad
      exact exec_refused hadm (bodySemClear_badParam p tag hbad)
    · rintro k rfl
      exact exec_accepted hadm (bodySemClear_clears p tag k)

end

