-- ==== Sys2Proof/Proofs/RepeatResult.lean ====
section
/-! SUPPORT. Sys2Proof/Proofs/RepeatResult.lean: the repeat result of a HARVEST (R126 to R128): the lane counts of the
reply by link lane, when MISMATCH is set, what adding a result does to an accumulator and its flag to a verdict, and the
two obligations on them. -/

namespace Sys2Proof.Machine

/-! ## Paddle lanes and link lanes (R127) -/

section Lanes

variable {k : Link} {d : Dir} {counts : List Nat} {j : Nat}

theorem linkLanes_length (hn : k.lanes ≤ counts.length) : (linkLanes k d counts).length = k.lanes := by
  have htake : (counts.take k.lanes).length = k.lanes := List.length_take_of_le hn
  unfold linkLanes
  split
  · rw [List.length_reverse, htake]
  · exact htake

/-- Where the numbering of the paddle is that of the link, each link lane takes the paddle lane of its number. -/
theorem linkLanes_getElem?_straight (h : ¬(d = .fwd ∧ k.reversed = true)) (hj : j < k.lanes) :
    (linkLanes k d counts)[j]? = counts[j]? := by
  simp only [linkLanes, if_neg h]
  exact List.getElem?_take_of_lt hj

/-- At end B of a reversed link the lanes run the other way. -/
theorem linkLanes_getElem?_reversed (h : k.reversed = true) (hn : k.lanes ≤ counts.length) (hj : j < k.lanes) :
    (linkLanes k .fwd counts)[j]? = counts[k.lanes - 1 - j]? := by
  have htake : (counts.take k.lanes).length = k.lanes := List.length_take_of_le hn
  have hback : k.lanes - 1 - j < k.lanes := by omega
  simp only [linkLanes, h, and_self, if_true]
  rw [List.getElem?_reverse (by rwa [htake]), htake, List.getElem?_take_of_lt hback]

end Lanes

/-! ## A count in a paddle lane that carries no lane of the link (R122, R127) -/

section Judge

variable {t : Txn} {reply : List Byte} {j : Nat}

/-- A HARVEST reply without a refusal that counts errors outside the link's lanes is BAD_REPLY whatever its check byte:
a wrong one gives the same outcome. -/
theorem judgeReply_harvest_stray {c : Nat} (hkind : t.kind = .harvest) (hstatus : reply.head? = some 0)
    (hc : c ∈ (paddleCounts reply).drop t.lanes) (hpos : c ≠ 0) : judgeReply t reply = .badReply := by
  have hstray : ((paddleCounts reply).drop t.lanes).any (fun c => decide (c ≠ 0)) = true :=
    List.any_eq_true.mpr ⟨c, hc, decide_eq_true hpos⟩
  unfold judgeReply
  split
  · rfl
  · rw [if_neg (not_not.mpr hstatus), if_pos ⟨hkind, hstray⟩]

/-- A paddle lane from `n` on that does not read 0 puts a count among those that the judgement looks at. -/
theorem exists_stray_count {n : Nat} (hn : n ≤ j) (hj : j < 4) (hcount : (paddleCounts reply)[j]? ≠ some 0) :
    ∃ c ∈ (paddleCounts reply).drop n, c ≠ 0 := by
  have hlen : j < (paddleCounts reply).length := hj
  have hget : (paddleCounts reply)[j]? = some (paddleCounts reply)[j] := List.getElem?_eq_getElem hlen
  refine ⟨(paddleCounts reply)[j], ?_, fun h => hcount (by rw [hget, h])⟩
  refine List.mem_of_getElem? (i := j - n) ?_
  rw [List.getElem?_drop, Nat.add_sub_cancel' hn, hget]

end Judge

/-! ## MISMATCH (R128) -/

theorem sumOf_eq_sum (xs : List Nat) : sumOf xs = xs.sum :=
  List.sum_eq_foldl.symm

theorem lt_foldl_max_iff {m : Nat} (xs : List Nat) (a : Nat) : m < xs.foldl max a ↔ m < a ∨ ∃ n ∈ xs, m < n := by
  induction xs generalizing a with
  | nil => simp
  | cons x xs ih => simp only [List.foldl_cons, ih, lt_max_iff, List.exists_mem_cons_iff, or_assoc]

theorem lt_maxOf_iff {m : Nat} {xs : List Nat} : m < maxOf xs ↔ ∃ n ∈ xs, m < n := by
  simp [maxOf, lt_foldl_max_iff]

/-- MISMATCH: more pulses than lane errors, or a lane with more errors than there can have been accepted pulses. -/
theorem isMismatch_iff {pulses p : Nat} {lanes : List Nat} :
    isMismatch pulses p lanes = true ↔ lanes.sum < pulses ∨ ∃ n ∈ lanes, pulses + (p - 1) < n := by
  simp only [isMismatch, Bool.or_eq_true, decide_eq_true_eq, sumOf_eq_sum, lt_maxOf_iff]

/-! ## The first error of an accumulator (R81) -/

section FirstError

variable {a : Accumulator} {r : RepeatResult} {n : Nat} {b : Bool}

theorem Accumulator.add_firstError_kept {e : FirstError} (ha : a.firstError = some e) :
    (a.add r n b).firstError = some e := by
  simp only [Accumulator.add, ha]

theorem Accumulator.add_firstError_new {t : Nat} (ha : a.firstError = none) (hr : r.first = some t) :
    (a.add r n b).firstError = some { repeatNo := n, time := t } := by
  simp only [Accumulator.add, ha, hr]

theorem Accumulator.add_firstError_none (ha : a.firstError = none) (hr : r.first = none) :
    (a.add r n b).firstError = none := by
  simp only [Accumulator.add, ha, hr]

end FirstError

/-! ## A record with MISMATCH (R148) -/

/-- The ladder's MARGINAL step stands before its PASS step and takes every record with MISMATCH that comes so far. -/
theorem grade_ne_pass_of_mismatch {s : State} {k : Link} {v : VerdictRecord} (h : v.flags.mismatch = true) :
    s.grade k v ≠ .pass := by
  have hmarginal (above : Prop) : above ∨ v.flags.mismatch = true ∨ v.flags.interrupted = true := .inr (.inl h)
  simp only [State.grade, if_pos (hmarginal _)]
  split_ifs <;> exact Verdict.noConfusion

end Sys2Proof.Machine

open Sys2Proof Sys2Proof.Machine

/-- Settles O50: the two ways in which the lanes are numbered, and the judgement of a count outside them; the other
fields of the result are those of the definition. -/
theorem paddleLanesMapToLinkLanes : Obligations.PaddleLanesMapToLinkLanes := by
  unfold Obligations.PaddleLanesMapToLinkLanes
  intro k c0 c1 c2 c3 _ hn
  have hcounts : k.lanes ≤ [c0, c1, c2, c3].length := hn
  refine ⟨fun _ _ _ => ⟨rfl, rfl, rfl, rfl, rfl⟩, fun _ => linkLanes_length hcounts, fun j hj => ?_,
    fun hrev j hj => ?_, fun hrev j hj => ?_, fun t reply j hkind hlanes _ hout hj hcount hstatus => ?_⟩
  · exact linkLanes_getElem?_straight (by simp) hj
  · exact linkLanes_getElem?_straight (by simp [hrev]) hj
  · exact linkLanes_getElem?_reversed hrev hcounts hj
  · obtain ⟨c, hc, hpos⟩ := exists_stray_count (hlanes ▸ hout) hj hcount
    exact judgeReply_harvest_stray hkind hstatus hc hpos

/-- Settles O51: when the flag is set, the sum of an accumulator and a result field by field, and the step of the
grading ladder that a record with the flag does not pass. -/
theorem mismatchWhenCountsCannotBothBeRight : Obligations.MismatchWhenCountsCannotBothBeRight := by
  unfold Obligations.MismatchWhenCountsCannotBothBeRight
  refine ⟨fun _ _ _ _ => isMismatch_iff, fun a r n b => ?_, fun _ _ _ => grade_ne_pass_of_mismatch⟩
  exact ⟨rfl, rfl, rfl, rfl, rfl, rfl, fun _ => Accumulator.add_firstError_kept,
    fun _ => Accumulator.add_firstError_new, Accumulator.add_firstError_none, rfl, rfl, rfl, rfl⟩

end

