-- ==== Sys2Proof/Proofs/Grading.lean ====
section
/-! SUPPORT. Sys2Proof/Proofs/Grading.lean: the grading ladder (R148): when a lane rate is above a limit and when a
neighbour is FITTED, the verdict at each step of the ladder, what a regrade changes, and the obligation on it. -/

namespace Sys2Proof.Machine

/-! ## What the steps of the ladder ask (R146, R148) -/

/-- Some lane's rate is above the limit (R146). -/
def VerdictRecord.rateAbove (v : VerdictRecord) (limit : Nat) : Prop :=
  0 < v.dwell ∧ ∃ e ∈ v.lanes, limit < laneRate e v.dwell

/-- One of the ladder's three FAIL steps holds (R148 steps 3 to 5). -/
def VerdictRecord.fails (v : VerdictRecord) (lim : LimitSet) : Prop :=
  v.flags.faulted = true ∨ lim.lockLimit < v.lockLosses ∨ v.rateAbove lim.failLimit

/-- Some neighbour in the link's resolved list is FITTED (R148 step 8). -/
def State.listsFitted (s : State) (k : Link) : Prop :=
  ∃ n ∈ k.neighbours, ∃ m, s.linkNat n = some m ∧ m.state = .fitted

section Ladder

variable {s : State} {k : Link} {v : VerdictRecord} {lim : LimitSet} {limit : Nat}

/-- The rate of a record without dwell time is not defined; the model's division makes it 0, which is above no limit. -/
theorem any_laneRate_iff :
    v.lanes.any (fun e => decide (limit < laneRate e v.dwell)) = true ↔ v.rateAbove limit := by
  simp only [List.any_eq_true, decide_eq_true_eq, VerdictRecord.rateAbove]
  refine ⟨fun ⟨e, he, hrate⟩ => ⟨Nat.pos_of_ne_zero fun hzero => ?_, e, he, hrate⟩, And.right⟩
  rw [hzero, laneRate, Nat.div_zero] at hrate
  exact Nat.not_lt_zero _ hrate

theorem hasFittedNeighbour_iff : s.hasFittedNeighbour k = true ↔ s.listsFitted k := by
  simp only [State.hasFittedNeighbour, State.listsFitted, List.any_eq_true]
  refine exists_congr fun n => and_congr_right fun _ => ?_
  cases s.linkNat n <;> simp

/-! ## The verdict at each step of the ladder (R148) -/

theorem grade_of_withdrawn (hk : k.state = .withdrawn) : s.grade k v = .withdrawn := if_pos hk

theorem grade_of_unmerged (hk : k.state ≠ .withdrawn) (hm : v.merged = 0) : s.grade k v = .untested := by
  simp only [State.grade, if_neg hk, if_pos hm]

theorem grade_of_fails (hk : k.state ≠ .withdrawn) (hm : v.merged ≠ 0)
    (hfail : v.fails (Table.rd s.map.limits k.limitSet)) : s.grade k v = .fail := by
  simp only [State.grade, if_neg hk, if_neg hm]
  obtain hfaulted | hlock | hrate := hfail
  · rw [if_pos hfaulted]
  · simp only [if_pos hlock, ite_self]
  · simp only [if_pos (And.intro hrate.1 (any_laneRate_iff.mpr hrate)), ite_self]

/-- Past its FAIL steps the ladder is its last four. -/
theorem grade_of_not_fails (hk : k.state ≠ .withdrawn) (hm : v.merged ≠ 0)
    (hlim : Table.rd s.map.limits k.limitSet = lim) (hfail : ¬ v.fails lim) : s.grade k v =
      if v.dwell < lim.minDwell then .incomplete
      else if v.lanes.any (fun e => decide (lim.passLimit < laneRate e v.dwell))
          ∨ v.flags.mismatch ∨ v.flags.interrupted then .marginal
      else if s.hasFittedNeighbour k ∧ ¬ v.flags.aggressed then .incomplete
      else .pass := by
  simp only [VerdictRecord.fails, not_or] at hfail
  obtain ⟨hfaulted, hlock, hrate⟩ := hfail
  have hany : ¬ (0 < v.dwell ∧ v.lanes.any (fun e => decide (lim.failLimit < laneRate e v.dwell)) = true) :=
    fun h => hrate (any_laneRate_iff.mp h.2)
  simp only [State.grade, hlim, if_neg hk, if_neg hm, if_neg hfaulted, if_neg hlock, if_neg hany]

/-- The negation of the MARGINAL step's condition (R148 step 7), as `grade_of_not_fails` writes it. -/
theorem not_marginal (hrate : ¬ v.rateAbove limit) (hmismatch : v.flags.mismatch = false)
    (hinterrupted : v.flags.interrupted = false) :
    ¬ (v.lanes.any (fun e => decide (limit < laneRate e v.dwell)) = true ∨ v.flags.mismatch = true
      ∨ v.flags.interrupted = true) := by
  simp only [any_laneRate_iff, hrate, hmismatch, hinterrupted, Bool.false_eq_true, or_self, not_false_eq_true]

end Ladder

/-! ## What a regrade changes (R148) -/

section Regrade

variable {s : State} {l m : LinkId} {d c : Dir} {k : Link} {f : VerdictRecord → VerdictRecord}

theorem regrade_of_link (hk : s.link l = some k) :
    s.regrade l d = s.modRecord l d (fun v => { v with verdict := s.grade k v }) := by
  simp only [State.regrade, hk]

theorem record_modRecord_same : (s.modRecord l d f).record l d = (s.record l d).map f := by
  cases d <;> exact Table.rd_upd_same ..

theorem record_modRecord_other (h : m ≠ l ∨ c ≠ d) : (s.modRecord l d f).record m c = s.record m c := by
  have hlink (hdir : c = d) : m ≠ l := h.resolve_right (not_not_intro hdir)
  cases d <;> cases c
  case fwd.fwd | rev.rev => exact Table.rd_upd_other _ (hlink rfl) _
  case fwd.rev | rev.fwd => rfl

theorem modRecord_eq_setTable : s.modRecord l d f = s.setTable (s.modRecord l d f).table := by
  cases d <;> rfl

end Regrade

end Sys2Proof.Machine

open Sys2Proof Sys2Proof.Machine

/-- Settles O58: the ladder step by step in its own order, then a regrade as the change of the one record. -/
theorem gradingLadder : Obligations.GradingLadder := by
  unfold Obligations.GradingLadder
  refine ⟨fun s k v => ?_, fun s l d k v hlink hrecord => ?_⟩
  · intro lim above failing fittedNeighbour
    refine ⟨grade_of_withdrawn, grade_of_unmerged, grade_of_fails, fun hk hm hfail hdwell => ?_,
      fun hk hm hfail hdwell => ?_⟩
    · rw [grade_of_not_fails hk hm rfl hfail, if_pos hdwell]
    · rw [grade_of_not_fails hk hm rfl hfail, if_neg (Nat.not_lt.mpr hdwell)]
      refine ⟨fun hmarginal => ?_, fun hrate hmismatch hinterrupted => ⟨fun hfitted hclear => ?_, fun hpass => ?_⟩⟩
      · exact if_pos (hmarginal.imp_left any_laneRate_iff.mpr)
      · rw [if_neg (not_marginal hrate hmismatch hinterrupted),
          if_pos ⟨hasFittedNeighbour_iff.mpr hfitted, Bool.eq_false_iff.mp hclear⟩]
      · have hpassed : ¬ (s.hasFittedNeighbour k = true ∧ ¬ v.flags.aggressed = true) := fun ⟨hfitted, hclear⟩ =>
          hpass.elim (fun hnone => hnone (hasFittedNeighbour_iff.mp hfitted)) hclear
        rw [if_neg (not_marginal hrate hmismatch hinterrupted), if_neg hpassed]
  · rw [regrade_of_link hlink]
    refine ⟨?_, fun m c => record_modRecord_other, modRecord_eq_setTable⟩
    rw [record_modRecord_same, hrecord, Option.map_some]

end

