-- ==== Sys2Proof/Proofs/Steps.lean ====
section
/-! SUPPORT. Sys2Proof/Proofs/Steps.lean: one step of the hub: the front command or the idle hub, what the two edges of
RST_N leave, and the invariants of the hub along every step. -/

namespace Sys2Proof.Machine

variable {s t : State}

/-! ## Taking the front command, and idling -/

theorem step_front {c : Instr} {rest : List Instr} (h : s.pending = c :: rest) :
    step s = exec c { s with pending := rest } := by
  simp only [step, h]

theorem step_idle (h : s.pending = []) : step s = .next s.idle := by
  simp only [step, h]

theorem idle_in_reset (h : s.rst = true) : s.idle = s := if_pos h

/-- Out of reset with no event due a µs passes. -/
theorem idle_ticks (h : s.rst = false) (hdue : s.dueEvents = []) : s.idle = { s with now := s.now + 1 } := by
  simp [State.idle, h, hdue]

/-- Out of reset a due event is brought. -/
theorem idle_brings (h : s.rst = false) (hdue : s.dueEvents ≠ []) : s.idle = s.bring s.dueEvents := by
  cases hes : s.dueEvents with
  | nil => exact absurd hes hdue
  | cons e rest => simp [State.idle, h, hes]

/-- What `bring` puts into the queue is one of the events it is given; of the rest only the counter of free values may
change. -/
theorem bring_spec {es : List Instr} (h : es ≠ []) :
    ∃ e n, e ∈ es ∧ s.bring es = { s with pending := [e], freeIndex := n } := by
  match es, h with
  | [e], _ => exact ⟨e, s.freeIndex, by simp, rfl⟩
  | e :: f :: rest, _ =>
    refine ⟨_, s.freeIndex + 1, ?_, rfl⟩
    have hlt : Config.tieBreak s.freeIndex % (e :: f :: rest).length < (e :: f :: rest).length :=
      Nat.mod_lt _ (by simp)
    rw [List.getD_eq_getElem _ _ hlt]
    exact List.getElem_mem hlt

/-! ## The edges of RST_N, which turn time back -/

/-- A state with the records that the invariants read as they were is Sound with it. -/
theorem State.Sound.congr (h : s.Sound) (hports : t.ports = s.ports) (hsetup : t.setup = s.setup)
    (hdir : t.dir = s.dir) (hwd : t.wd = s.wd) (hrun : t.run = s.run) (hsems : t.sems = s.sems) : t.Sound where
  attention p := by
    have hport : t.port p = s.port p := by simp only [State.port, hports]
    rw [hport]
    exact h.attention p
  setup := hsetup ▸ h.setup
  lists := by simpa only [State.listsBounded, hdir, hwd] using h.lists
  gens r hr := by simpa only [State.res, hdir] using h.gens r hr
  run := hrun ▸ h.run
  sems k := by simpa only [State.sem, hsems] using h.sems k

theorem powerOn_attention (p : PortId) (x : Transaction) :
    ({ AgentPort.powerOn p with transaction := x } : AgentPort).attention =
      decide (AgentPort.masked { AgentPort.powerOn p with transaction := x } ≠ 0) := by
  simp [AgentPort.powerOn, AgentPort.masked]

/-- RST_N asserted leaves the hub Sound, whatever state it was in. -/
theorem assertReset_sound (s : State) : s.assertReset.Sound where
  attention p := by
    have hport : s.assertReset.port p = { AgentPort.powerOn p with transaction := (s.port p).transaction.abandon } :=
      Table.rd_build ..
    rw [hport]
    exact powerOn_attention p _
  setup := by simp [State.assertReset, State.reset, SetupLink.ordered]
  lists := by simp [State.assertReset, State.reset, State.listsBounded]
  gens r _ := by
    have hres : s.assertReset.res r = Resource.free := Table.rd_fill ..
    rw [hres]
    exact Or.inl rfl
  run := by simp [State.assertReset, State.reset, RunRecord.bounded, RunCounters.zero]
  sems k hset := by
    have hsem : s.assertReset.sem k = Semaphore.clear := Table.rd_fill ..
    rw [hsem]
    rfl

theorem reset_sound : State.reset.Sound := by
  have h := assertReset_sound State.reset
  refine h.congr ?_ rfl rfl rfl rfl rfl
  apply Table.ext_rd
  intro p
  simp [State.reset, State.assertReset, State.port, AgentPort.powerOn, Transaction.abandon]

theorem releaseReset_sound (h : s.Sound) : s.releaseReset.Sound := h.congr rfl rfl rfl rfl rfl rfl

/-! ## Every step -/

/-- Every command answers a next state, keeps the queue, and keeps the invariants. -/
theorem exec_next (c : Instr) (s : State) :
    ∃ t, exec c s = .next t ∧ t.pending = s.pending ∧ (s.Sound → t.Sound)
      ∧ (c ≠ .reset → c ≠ .resetRelease → t.rst = s.rst ∧ s.now ≤ t.now) := by
  by_cases hreset : c = .reset
  · subst hreset
    exact ⟨s.assertReset, rfl, rfl, fun _ => assertReset_sound s, fun h => absurd rfl h⟩
  by_cases hrelease : c = .resetRelease
  · subst hrelease
    refine ⟨if s.rst then s.releaseReset else s, rfl, ?_, fun h => ?_, fun _ h => absurd rfl h⟩
    · split <;> rfl
    · split
      · exact releaseReset_sound h
      · exact h
  obtain ⟨t, hexec, hmoves⟩ := exec_moves c s hreset hrelease
  exact ⟨t, hexec, hmoves.pending, hmoves.sound, fun _ _ => ⟨hmoves.rst, hmoves.now⟩⟩

/-- An idle hub changes only the timebase, the queue and the counter of free values, which no invariant reads. -/
theorem idle_sound (h : s.Sound) : s.idle.Sound := by
  cases hrst : s.rst with
  | true => rwa [idle_in_reset hrst]
  | false =>
    by_cases hdue : s.dueEvents = []
    · rw [idle_ticks hrst hdue]
      exact h.congr rfl rfl rfl rfl rfl rfl
    · obtain ⟨f, n, -, hbring⟩ := bring_spec (s := s) hdue
      rw [idle_brings hrst hdue, hbring]
      exact h.congr rfl rfl rfl rfl rfl rfl

theorem step_sound (h : s.Sound) (hstep : step s = .next t) : t.Sound := by
  cases hq : s.pending with
  | nil =>
    rw [step_idle hq] at hstep
    obtain rfl := Host.Outcome.next.inj hstep
    exact idle_sound h
  | cons c rest =>
    rw [step_front hq] at hstep
    obtain ⟨u, hexec, -, hsound, -⟩ := exec_next c { s with pending := rest }
    rw [hexec] at hstep
    obtain rfl := Host.Outcome.next.inj hstep
    exact hsound (h.congr rfl rfl rfl rfl rfl rfl)

end Sys2Proof.Machine

open Sys2Proof Sys2Proof.Machine

/-- Settles O5: the commands by `exec_moves` and the two edges of RST_N, the idle hub by its frame. -/
theorem stepKeepsHubSound : Obligations.StepKeepsHubSound := by
  unfold Obligations.StepKeepsHubSound
  exact fun _ _ hsound hstep => step_sound hsound hstep

/-- Settles O3. -/
theorem commandsKeepQueueAndTime : Obligations.CommandsKeepQueueAndTime := by
  unfold Obligations.CommandsKeepQueueAndTime
  intro c s
  obtain ⟨t, hexec, hpending, -, htime⟩ := exec_next c s
  exact ⟨t, hexec, hpending, htime⟩

/-- Settles O1. -/
theorem stepRunsFrontCommand : Obligations.StepRunsFrontCommand := by
  unfold Obligations.StepRunsFrontCommand
  exact fun _ _ _ hpending => step_front hpending

/-- Settles O2: in reset nothing, then by the list of due events. -/
theorem idleHubTicksOrBringsDueEvent : Obligations.IdleHubTicksOrBringsDueEvent := by
  unfold Obligations.IdleHubTicksOrBringsDueEvent
  intro s hpending
  rw [step_idle hpending]
  refine ⟨fun hrst => ?_, fun hrst hdue => ?_, fun e hrst hdue => ?_, fun hrst hdue => ?_⟩
  · rw [idle_in_reset hrst]
  · rw [idle_ticks hrst hdue]
  · rw [idle_brings hrst (hdue ▸ List.cons_ne_nil e []), hdue, State.bring]
  · obtain ⟨f, n, hmem, hbring⟩ := bring_spec (s := s) hdue
    exact ⟨f, n, hmem, by rw [idle_brings hrst hdue, hbring]⟩

/-- Settles O4. -/
theorem powerOnStateIsSound : Obligations.PowerOnStateIsSound := by
  unfold Obligations.PowerOnStateIsSound
  exact reset_sound

end

