-- ==== Sys2Proof/Proofs/Reset.lean ====
section
/-! SUPPORT. Sys2Proof/Proofs/Reset.lean: the two edges of RST_N, the read of the flash, and the hub while it is held in
reset (R6, R20, R190). -/

namespace Sys2Proof.Machine

variable {s : State}

/-! ## RST_N asserted, record by record (R20) -/

theorem assertReset_port (s : State) (p : PortId) : s.assertReset.port p =
    { role := if p = 0 then .supervisor else .tester, slot := .ready, notices := 0, enables := 0, attention := false,
      transaction := if (s.port p).transaction = .none then .none else .ignored } := by
  have hport : s.assertReset.port p = { AgentPort.powerOn p with transaction := (s.port p).transaction.abandon } :=
    Table.rd_build ..
  have hrole : Role.default p = if p = 0 then .supervisor else .tester := by
    unfold Role.default
    simp only [Fin.ext_iff]
    rfl
  rw [hport, AgentPort.powerOn, hrole]
  cases (s.port p).transaction <;> rfl

theorem assertReset_fault (s : State) (i : SlotId) : s.assertReset.fault i =
    { level := (s.fault i).level, qualifying := none, latch := false, count := 0, latchedAt := none } :=
  Table.rd_each ..

theorem assertReset_record (s : State) (l : LinkId) (d : Dir) : s.assertReset.record l d = none := by
  cases d <;> exact Table.rd_fill ..

theorem assertReset_txenPin (s : State) (i : SlotId) : s.assertReset.txenPin i = false := by
  have hreq : Table.rd s.assertReset.eng.txen i = false := Table.rd_fill ..
  rw [State.txenPin, hreq, Bool.false_and]

/-! ## The read of the flash (R6) -/

theorem flashAddress_idle (h : s.loader.stage = .idle) : s.flashAddress = none := by
  simp only [State.flashAddress, h]

theorem flashAddress_header (h : s.loader.stage = .header) : s.flashAddress = some 0 := by
  simp only [State.flashAddress, h]

theorem flashSelected_of_address {a : Option Nat} (h : s.flashAddress = a) : s.flashSelected = a.isSome := by
  rw [State.flashSelected, h]

theorem flashOut_of_no_address (h : s.flashAddress = none) : s.flashOut = [] := by
  simp only [State.flashOut, h]

/-- The three address bytes of the read command are the bytes of the address. -/
theorem readCommand_num32 (a b c : Byte) : readCommand (num32 0 a b c) = [0x03#8, a, b, c] := by
  have ha := a.isLt
  have hb := b.isLt
  have hc := c.isLt
  have e1 : BitVec.ofNat 8 (num32 0 a b c / 65536) = a := by
    apply BitVec.eq_of_toNat_eq
    simp [num32, num16]
    omega
  have e2 : BitVec.ofNat 8 (num32 0 a b c / 256) = b := by
    apply BitVec.eq_of_toNat_eq
    simp [num32, num16]
    omega
  have e3 : BitVec.ofNat 8 (num32 0 a b c) = c := by
    apply BitVec.eq_of_toNat_eq
    simp [num32, num16]
    omega
  rw [readCommand, e1, e2, e3]

/-! ## The hub held in reset (R190) -/

/-- No meaning of a timer or an exchange acts in reset. -/
theorem live_in_reset (h : s.rst = true) (f : State → State) : s.live f = s := if_pos h

theorem live_out_of_reset (h : s.rst = false) (f : State → State) : s.live f = f s := if_neg (by simp [h])

/-- FLT rises from a level that is down (R130). -/
theorem exec_fltAssert_rises {i : SlotId} (h : (s.fault i).level = false) : exec (.fltAssert i) s =
    .next ((s.modFault i (fun f => { f with level := true })).live (fun t => t.fltRose i)) := by
  have hup : ¬ (s.fault i).level = true := by simp [h]
  exact congrArg Host.Outcome.next (if_neg hup)

/-- LNK falls from a level that is up (R114). -/
theorem exec_lnkFall_falls {i : SlotId} (h : s.lnkUp i = true) :
    exec (.lnkFall i) s = .next ((s.setLnk i false).live (fun t => t.lnkFell i)) :=
  congrArg Host.Outcome.next (if_pos h)

/-- A transaction ends unheard in reset. -/
theorem transact_in_reset (h : s.rst = true) (p : PortId) (rx : List Byte) (cut : Bool)
    (run : Byte → Byte → List Byte → State → State) : s.transact p rx cut run = s.deselect p := if_pos h

end Sys2Proof.Machine

open Sys2Proof Sys2Proof.Machine

/-- Settles O6: the records of the reset hub, the start of the load with the flash read, and the hub held in reset. -/
theorem resetAndReleaseOfTheHub : Obligations.ResetAndReleaseOfTheHub := by
  unfold Obligations.ResetAndReleaseOfTheHub
  refine ⟨fun s => ⟨s.assertReset, rfl, ?_⟩, fun s => ⟨?_, ?_, ?_, ?_, ?_⟩, fun s hrst => ?_⟩
  · exact ⟨rfl, rfl, rfl, rfl, fun _ => Table.rd_fill .., rfl, rfl, fun _ => Table.rd_fill .., rfl, rfl,
      fun _ => Table.rd_fill .., fun i => ⟨assertReset_txenPin s i, Table.rd_fill .., Table.rd_fill ..⟩,
      fun _ => Table.rd_fill .., fun _ => Table.rd_fill .., rfl, assertReset_fault s, rfl, rfl, rfl,
      assertReset_record s, rfl, rfl, fun _ => Table.rd_fill .., assertReset_port s, rfl, fun _ => Table.rd_fill ..,
      rfl, rfl, rfl, rfl, rfl⟩
  · intro hrst
    exact congrArg Host.Outcome.next (if_pos hrst)
  · intro hrst
    exact congrArg Host.Outcome.next (if_neg (by simp [hrst]))
  · intro hstage
    have haddr := flashAddress_idle hstage
    exact ⟨flashSelected_of_address haddr, flashOut_of_no_address haddr⟩
  · intro hstage
    have haddr := flashAddress_header hstage
    exact ⟨flashSelected_of_address haddr, flashOut_of_address s haddr⟩
  · intro a b c hstage hle
    have haddr := flashAddress_area s hstage hle
    exact ⟨flashSelected_of_address haddr, (flashOut_of_address s haddr).trans (readCommand_num32 a b c)⟩
  · have hlive : ∀ f, Host.Outcome.next (ρ := Refusal) (φ := Fault) (s.live f) = .next s := fun f => by
      rw [live_in_reset hrst]
    refine ⟨fun r p rest cut => ?_, fun p rx cut => ?_, fun b => ⟨hlive _, hlive _, hlive _, hlive _⟩,
      fun r => ⟨hlive _, hlive _⟩, hlive _, hlive _, hlive _, fun w => ⟨hlive _, hlive _, hlive _⟩,
      fun i n => ⟨hlive _, hlive _, hlive _⟩, fun p => hlive _, fun x => hlive _, fun i hlevel => ?_, fun i hup => ?_⟩
    · rw [exec_command]
      exact congrArg Host.Outcome.next (transact_in_reset hrst ..)
    · exact congrArg Host.Outcome.next (transact_in_reset hrst ..)
    · rw [exec_fltAssert_rises hlevel, live_in_reset (by exact hrst)]
    · rw [exec_lnkFall_falls hup, live_in_reset (by exact hrst)]

end

