-- ==== Sys2Proof/Proofs/Transactions.lean ====
section
/-! SUPPORT. Sys2Proof/Proofs/Transactions.lean: the select and the deselect of an agent port by the state at select
(R176 to R180), the judgement of the bytes received (R177), and bad frames and unknown codes (R181). -/

namespace Sys2Proof.Machine

variable {s : State} {p : PortId} {rx : List Byte} {cut : Bool} {frame : List Byte} {j : Judgement}
  {run : Byte → Byte → List Byte → State → State}

/-! ## The deselect by the state at select -/

theorem transact_ready (hrst : s.rst = false) (hsel : (s.port p).atSelect = some .ready) :
    s.transact p rx cut run = (s.deselect p).takeFrame p (judge rx cut) run := by
  simp [State.transact, hrst, hsel]

theorem transact_working (hrst : s.rst = false) (hsel : (s.port p).atSelect = some .working) :
    s.transact p rx cut run = (s.deselect p).dropFrame p (judge rx cut) := by
  simp [State.transact, hrst, hsel]

theorem transact_answered (hrst : s.rst = false) (hsel : (s.port p).atSelect = some .answered)
    (hslot : (s.port p).slot = .answered frame) :
    s.transact p rx cut run = if frame.length ≤ rx.length then (s.deselect p).takeFrame p (judge rx cut) run
      else (s.deselect p).dropFrame p (judge rx cut) := by
  simp [State.transact, hrst, hsel, hslot]

theorem dropFrame_complete (h : j.complete = true) : s.dropFrame p j = s.raise p .requestLost := if_pos h

theorem dropFrame_incomplete (h : j.complete = false) : s.dropFrame p j = s := if_neg (by simp [h])

/-- Nothing complete received leaves a slot that takes requests READY. -/
theorem takeFrame_incomplete (h : j.complete = false) : s.takeFrame p j run = s.setSlot p .ready := by
  cases j with
  | noRequest => rfl
  | partialFrame => rfl
  | badFrame code tag => cases h
  | frame code tag params => cases h

/-- Writing the slot that stands there changes nothing. -/
theorem setSlot_same {x : ResponseSlot} (h : (s.port p).slot = x) : s.setSlot p x = s := by
  have hports : Table.upd s.ports p (fun y => { y with slot := x }) = s.ports := Table.upd_id (by subst h; rfl)
  rw [State.setSlot, State.modPort, hports]

theorem deselect_slot : ((s.deselect p).port p).slot = (s.port p).slot := by
  simp [State.deselect, port_modPort]

/-- The select of a port whose PSEL_N is deasserted (R176, R190). -/
theorem exec_pselNAssertion (h : (s.port p).transaction = .none) : exec (.pselNAssertion p) s =
    .next (s.modPort p (fun x => { x with
      transaction := if s.rst then .ignored else .selected x.slot.kind })) := by
  refine congrArg Host.Outcome.next (congrArg (fun ports => { s with ports := ports }) ?_)
  have h' : (Table.rd s.ports p).transaction = .none := h
  simp only [Table.upd, h']

/-! ## The judgement (R177) -/

/-- A whole frame is good exactly when its CRC-8 is right, whatever follows it. -/
theorem judge_whole {code : Byte} (h : code ≠ 0#8) (tag c : Byte) {len : Byte} {params : List Byte}
    (hlen : params.length = len.toNat) (filler : List Byte) :
    judge (code :: tag :: len :: (params ++ c :: filler)) cut =
      if c = crc8 (code :: tag :: len :: params) then .frame code tag params else .badFrame code tag := by
  have hroom : len.toNat + 1 ≤ (params ++ c :: filler).length := by
    rw [List.length_append, List.length_cons]
    omega
  simp only [judge, h, if_false, hroom, if_true]
  simp [judgeFrame, ← hlen]

theorem judge_short {code : Byte} (h : code ≠ 0#8) (tag : Byte) {len : Byte} {more : List Byte}
    (hlen : more.length < len.toNat + 1) :
    judge (code :: tag :: len :: more) cut = if cut then .partialFrame else .badFrame code tag := by
  have hroom : ¬ len.toNat + 1 ≤ more.length := by omega
  simp only [judge, h, if_false, hroom]

/-- A good frame has the first byte received for its code. -/
theorem judge_frame_code {code code' tag : Byte} {rest params : List Byte}
    (h : judge (code :: rest) cut = .frame code' tag params) : code' = code := by
  unfold judge judgeFrame at h
  grind

/-! ## Codes that name no request -/

theorem reqOf_none {code : Byte} (h : ∀ r : Req, r.code ≠ code) : reqOf code = none := by
  refine List.find?_eq_none.mpr fun r _ => ?_
  simpa using h r

theorem dispatch_unknown {code : Byte} (tag : Byte) (params : List Byte) (h : ∀ r : Req, r.code ≠ code) :
    s.dispatch p code tag params = s.answer p code tag (.bare .unknown) := by
  simp only [State.dispatch, reqOf_none h]

/-- A request's own rule is the one that its code dispatches to. -/
theorem dispatch_code (r : Req) (tag : Byte) (params : List Byte) :
    s.dispatch p r.code tag params = s.serve r r.body p tag params := by
  simp only [State.dispatch, reqOf_code]

/-- Two ways to go on with a good frame that agree on the code received agree on the whole transaction. -/
theorem transact_congr {code : Byte} {rest : List Byte} {run' : Byte → Byte → List Byte → State → State}
    (h : ∀ tag params t, run code tag params t = run' code tag params t) :
    s.transact p (code :: rest) cut run = s.transact p (code :: rest) cut run' := by
  have htake : ∀ t : State, t.takeFrame p (judge (code :: rest) cut) run =
      t.takeFrame p (judge (code :: rest) cut) run' := by
    intro t
    cases hj : judge (code :: rest) cut with
    | noRequest => rfl
    | partialFrame => rfl
    | badFrame code tag => rfl
    | frame code' tag params =>
      obtain rfl := judge_frame_code hj
      exact h tag params _
  simp only [State.transact, htake]

end Sys2Proof.Machine

open Sys2Proof Sys2Proof.Machine

/-- Settles O7: one lemma per state at select. -/
theorem transactionsGoByTheStateAtSelect : Obligations.TransactionsGoByTheStateAtSelect := by
  unfold Obligations.TransactionsGoByTheStateAtSelect
  refine ⟨fun s p hnone => exec_pselNAssertion hnone, fun s p rx cut hrst hsel hslot hinc => ?_,
    fun s p rx cut hrst hsel => ⟨fun hc => ?_, fun hinc => ?_⟩,
    fun s p rx cut frame hrst hsel hslot => ⟨fun hshort hc => ?_, fun hshort hinc => ?_, fun hread hinc => ?_⟩⟩
    <;> refine congrArg Host.Outcome.next ?_
  · rw [transact_ready hrst hsel, takeFrame_incomplete hinc, setSlot_same (deselect_slot.trans hslot)]
  · rw [transact_working hrst hsel, dropFrame_complete hc]
  · rw [transact_working hrst hsel, dropFrame_incomplete hinc]
  · rw [transact_answered hrst hsel hslot, if_neg (by omega), dropFrame_complete hc]
  · rw [transact_answered hrst hsel hslot, if_neg (by omega), dropFrame_incomplete hinc]
  · rw [transact_answered hrst hsel hslot, if_pos hread, takeFrame_incomplete hinc]

/-- Settles O8. -/
theorem framesAreJudgedAtDeselect : Obligations.FramesAreJudgedAtDeselect := by
  unfold Obligations.FramesAreJudgedAtDeselect
  refine ⟨fun _ => rfl, fun _ _ => rfl, fun code tag len c params filler cut hcode hlen => judge_whole hcode tag c hlen filler,
    fun code tag len more hcode hlen => ⟨judge_short hcode tag hlen, judge_short hcode tag hlen⟩, fun code tag hcode => ?_⟩
  simp [judge, hcode]

/-- Settles O9: a taken frame by its judgement, and a request command as the transaction of its code. -/
theorem badFramesAndUnknownCodesAreAnswered : Obligations.BadFramesAndUnknownCodesAreAnswered := by
  unfold Obligations.BadFramesAndUnknownCodesAreAnswered
  refine ⟨fun s p rx cut code tag htakes => ⟨fun hj => ?_, fun params hj hcode => ?_⟩, fun r p rest cut s => ?_⟩
  · refine congrArg Host.Outcome.next ?_
    rw [transact_takes htakes, hj]
    rfl
  · refine congrArg Host.Outcome.next ?_
    rw [transact_takes htakes, hj]
    exact dispatch_unknown tag params hcode
  · rw [exec_command]
    exact congrArg Host.Outcome.next (transact_congr fun tag params t => (dispatch_code r tag params).symm)

end

