-- ==== Sys2Proof/Proofs/Parameters.lean ====
section
/-! SUPPORT. Sys2Proof/Proofs/Parameters.lean: what the readers of parameter bytes accept: bytes that read as a field are
that field as it is sent (R198), the parameters of an OPEN_WINDOW among them (R67). -/

namespace Sys2Proof.Machine

variable {s : State} {bs rest : List Byte} {b : Byte}

/-! ## One field -/

theorem finOf_eq_some_iff {n x : Nat} {k : Fin n} : finOf n x = some k ↔ x = k.val := by
  unfold finOf
  split
  · simp [Fin.ext_iff]
  · next h =>
    have hk := k.isLt
    simp
    omega

theorem flagOf_eq_some_iff {f : Bool} : flagOf b = some f ↔ b = BitVec.ofNat 8 (if f then 1 else 0) := by
  cases f <;> grind [flagOf]

theorem getByte_eq_some_iff {a : Byte} : getByte bs = some (a, rest) ↔ bs = a :: rest := by
  cases bs <;> simp [getByte]

theorem getIdx_eq_some_iff {n : Nat} (hn : n ≤ 256) {i : Fin n} :
    getIdx n bs = some (i, rest) ↔ bs = u8 i.val ++ rest := by
  cases bs with
  | nil => simp [getIdx, u8]
  | cons a more => simp [getIdx, u8, idxOf_eq_some_iff hn]

theorem getFlag_eq_some_iff {f : Bool} : getFlag bs = some (f, rest) ↔ bs = enFlag f ++ rest := by
  cases bs with
  | nil => simp [getFlag, enFlag, u8]
  | cons a more =>
    simp only [getFlag, enFlag, u8, Option.map_eq_some_iff, Prod.mk.injEq, List.cons_append, List.nil_append,
      List.cons.injEq]
    rw [← flagOf_eq_some_iff]
    grind

/-- Two bytes are the two-byte form of the number they make. -/
theorem u16_num16 (a b : Byte) : u16 (num16 a b) = [a, b] := by
  have ha := a.isLt
  have hb := b.isLt
  have e1 : BitVec.ofNat 8 (num16 a b / 256) = a := by
    apply BitVec.eq_of_toNat_eq
    simp [num16]
    omega
  have e2 : BitVec.ofNat 8 (num16 a b) = b := by
    apply BitVec.eq_of_toNat_eq
    simp [num16]
    omega
  rw [u16, e1, e2]

theorem u16_mod (n : Nat) : u16 (n % 65536) = u16 n := by
  have e1 : BitVec.ofNat 8 (n % 65536 / 256) = BitVec.ofNat 8 (n / 256) := by
    apply BitVec.eq_of_toNat_eq
    simp
    omega
  have e2 : BitVec.ofNat 8 (n % 65536) = BitVec.ofNat 8 n := by
    apply BitVec.eq_of_toNat_eq
    simp
  rw [u16, u16, e1, e2]

/-- Four bytes are the four-byte form of the number they make. -/
theorem u32_num32 (a b c d : Byte) : u32 (num32 a b c d) = [a, b, c, d] := by
  have hcd : num16 c d < 65536 := by
    have hc := c.isLt
    have hd := d.isLt
    simp only [num16]
    omega
  have hhigh : num32 a b c d / 65536 = num16 a b := by
    simp only [num32]
    omega
  have hlow : num32 a b c d % 65536 = num16 c d := by
    simp only [num32]
    omega
  rw [u32, ← u16_mod (num32 a b c d), hhigh, hlow, u16_num16, u16_num16]
  rfl

theorem num32_le (a b c d : Byte) : num32 a b c d ≤ 4294967295 := by
  have ha := a.isLt
  have hb := b.isLt
  have hc := c.isLt
  have hd := d.isLt
  simp only [num32, num16]
  omega

theorem get32_eq_some {n : Nat} (h : get32 bs = some (n, rest)) : bs = u32 n ++ rest := by
  match bs, h with
  | a :: b :: c :: d :: more, h =>
    obtain ⟨rfl, rfl⟩ := Prod.mk.inj (Option.some.inj h)
    rw [u32_num32]
    rfl

theorem kindSetOf_eq_some {a b : Byte} {ks : NoticeSet} (h : kindSetOf a b = some ks) : [a, b] = enKinds ks := by
  unfold kindSetOf at h
  split at h
  · next hlt =>
    obtain rfl := Option.some.inj h
    rw [enKinds, BitVec.toNat_ofNat, Nat.mod_eq_of_lt (by omega), u16_num16]
  · contradiction

/-! ## Named values -/

theorem leaseModeOf_eq_some {m : LeaseMode} (h : leaseModeOf b = some m) : b = BitVec.ofNat 8 m.num := by
  cases m <;> simp only [leaseModeOf] at h <;> grind [LeaseMode.num]

theorem winModeOf_eq_some_iff {m : WinMode} : winModeOf b = some m ↔ b = BitVec.ofNat 8 m.num := by
  cases m <;> simp only [winModeOf] <;> grind [WinMode.num]

theorem endOf_eq_some {m : End} (h : endOf b = some m) : b = BitVec.ofNat 8 m.num := by
  cases m <;> simp only [endOf] at h <;> grind [End.num]

theorem takeOf_eq_some {m : TakeMode} (h : takeOf b = some m) : b = BitVec.ofNat 8 m.num := by
  cases m <;> simp only [takeOf] at h <;> grind [TakeMode.num]

theorem faultModeOf_eq_some_iff {m : FaultMode} : faultModeOf b = some m ↔ b = BitVec.ofNat 8 m.num := by
  cases m <;> simp only [faultModeOf] <;> grind [FaultMode.num]

theorem rateOf_eq_some {r : BlinkRate} (h : rateOf b = some r) : b = BitVec.ofNat 8 (BlinkRate.num r) := by
  cases r <;> simp only [rateOf] at h <;> grind [BlinkRate.num]

theorem dirChoiceOf_eq_some {c : DirChoice} (h : dirChoiceOf b = some c) :
    ∃ n : Fin 3, b = BitVec.ofNat 8 n.val := by
  unfold dirChoiceOf at h
  split at h
  · exact ⟨0, ‹_›⟩
  · split at h
    · exact ⟨1, ‹_›⟩
    · split at h
      · exact ⟨2, ‹_›⟩
      · contradiction

theorem lampModeOf_eq_some {m : LampMode} (h : lampModeOf b = some m) : ∃ n : Fin 8, b = BitVec.ofNat 8 n.val := by
  obtain ⟨hlt, -⟩ := List.getElem?_eq_some_iff.mp h
  exact ⟨⟨b.toNat, hlt⟩, by simp⟩

/-! ## Records named by a number -/

theorem linkIdOf_eq_some_iff {l : LinkId} :
    s.linkIdOf b = some l ↔ b = BitVec.ofNat 8 l.val ∧ (s.link l).isSome = true := by
  rw [← idxOf_eq_some_iff (by omega : 128 ≤ 256)]
  unfold State.linkIdOf
  grind

theorem slotIdOf_eq_some_iff {i : SlotId} :
    s.slotIdOf b = some i ↔ b = BitVec.ofNat 8 i.val ∧ s.isFitted i = true := by
  rw [← idxOf_eq_some_iff (by omega : 16 ≤ 256)]
  unfold State.slotIdOf
  grind

/-- A resource that is no GEN is the CHK of its slot. -/
theorem chkOf_resSlot {r : ResId} (h : isGen r = false) : chkOf (resSlot r) = r := by
  have hlt := r.isLt
  simp only [isGen, decide_eq_false_iff_not] at h
  simp only [chkOf, resSlot, Fin.ext_iff]
  omega

@[simp] theorem resSlot_chkOf (i : SlotId) : resSlot (chkOf i) = i := by
  have hlt := i.isLt
  simp only [chkOf, resSlot, Fin.ext_iff]
  omega

@[simp] theorem resSlot_genOf (i : SlotId) : resSlot (genOf i) = i := by
  have hlt := i.isLt
  simp only [genOf, resSlot, Fin.ext_iff]
  omega

@[simp] theorem isGen_genOf (i : SlotId) : isGen (genOf i) = true := by
  simp [isGen, genOf]

theorem chkIdOf_eq_some_iff {r : ResId} :
    s.chkIdOf b = some r ↔ b = BitVec.ofNat 8 r.val ∧ s.isFitted (resSlot r) = true ∧ isGen r = false := by
  have hres : ∀ q, s.resIdOf b = some q ↔ b = BitVec.ofNat 8 q.val ∧ s.isFitted (resSlot q) = true :=
    fun q => resIdOf_eq_some_iff
  rw [← and_assoc, ← hres]
  unfold State.chkIdOf
  cases s.resIdOf b with
  | none => simp
  | some q =>
    by_cases hq : isGen q = true
    · simp only [hq, if_true, Option.some.injEq]
      exact ⟨nofun, fun ⟨e, h⟩ => by simp [← e, hq] at h⟩
    · simp only [hq, Bool.false_eq_true, if_false, Option.some.injEq]
      exact ⟨fun e => ⟨e, e ▸ Bool.eq_false_iff.mpr hq⟩, fun h => h.1⟩

theorem allDistinct_iff_nodup {α : Type} [DecidableEq α] (l : List α) : allDistinct l = true ↔ l.Nodup := by
  induction l with
  | nil => simp [allDistinct]
  | cons a rest ih => simp [allDistinct, ih]

theorem resIdsOf_eq_some {rs : List ResId} (h : resIdsOf bs = some rs) :
    bs = enSeq (fun r : ResId => u8 r.val) rs ∧ bs.length = rs.length := by
  induction bs generalizing rs with
  | nil =>
    obtain rfl := Option.some.inj h
    exact ⟨rfl, rfl⟩
  | cons b more ih =>
    unfold resIdsOf at h
    split at h
    · next r qs hr hqs =>
      obtain rfl := Option.some.inj h
      obtain ⟨hbytes, hlen⟩ := ih hqs
      rw [(idxOf_eq_some_iff (by omega)).mp hr]
      exact ⟨by rw [enSeq, ← hbytes]; rfl, by simp [hlen]⟩
    · contradiction

theorem resIdsOf_enSeq (rs : List ResId) : resIdsOf (enSeq (fun r : ResId => u8 r.val) rs) = some rs := by
  induction rs with
  | nil => rfl
  | cons r rs ih =>
    have hbytes : enSeq (fun r : ResId => u8 r.val) (r :: rs) =
        BitVec.ofNat 8 r.val :: enSeq (fun r : ResId => u8 r.val) rs := rfl
    rw [hbytes, resIdsOf, idxOf_byte (by omega), ih]

theorem length_enSeq_byte {α : Type} (f : α → Byte) (l : List α) : (enSeq (fun a => [f a]) l).length = l.length := by
  induction l with
  | nil => rfl
  | cons a l ih => simp [enSeq, ih]

/-- A count and resource numbers read as a list exactly where they are that list as sent and it is a good one (R38,
R48). -/
theorem resListOf_eq_some_iff {nums : List Byte} {rs : List ResId} :
    s.resListOf b nums = some rs ↔ s.resourcesGood rs ∧ b :: nums = enResources rs := by
  constructor
  · intro h
    unfold State.resListOf at h
    split at h
    · next qs hqs =>
      split at h
      · next hgood =>
        obtain rfl := Option.some.inj h
        obtain ⟨hlow, hhigh, hcount, hfitted, hdistinct⟩ := hgood
        obtain ⟨hbytes, hlen⟩ := resIdsOf_eq_some hqs
        have hb : b = BitVec.ofNat 8 qs.length := by
          rw [← hlen, hcount]
          simp
        refine ⟨⟨by omega, by omega, (allDistinct_iff_nodup qs).mp hdistinct, List.all_eq_true.mp hfitted⟩, ?_⟩
        rw [hb, hbytes]
        rfl
      · contradiction
    · contradiction
  · rintro ⟨⟨hlow, hhigh, hdistinct, hfitted⟩, hbytes⟩
    obtain ⟨rfl, rfl⟩ : b = BitVec.ofNat 8 rs.length ∧ nums = enSeq (fun r : ResId => u8 r.val) rs :=
      List.cons.inj hbytes
    have hcount : (BitVec.ofNat 8 rs.length).toNat = rs.length := toNat_byte (by omega)
    have hlen : (enSeq (fun r : ResId => u8 r.val) rs).length = rs.length := length_enSeq_byte _ rs
    simp only [State.resListOf, resIdsOf_enSeq]
    exact if_pos ⟨by omega, by omega, hlen.trans hcount.symm, List.all_eq_true.mpr hfitted,
      (allDistinct_iff_nodup rs).mpr hdistinct⟩

/-! ## The parameters of windows (R67, R80) -/

theorem getTiming_eq_some {x : Timing} (h : getTiming bs = some (x, rest)) :
    (x.lead ≤ 65535 ∧ 1 ≤ x.dwell ∧ x.dwell ≤ 16777215 ∧ x.dead ≤ 65535) ∧ bs = enTiming x ++ rest := by
  simp only [getTiming, Option.bind_eq_bind, Option.bind_eq_some_iff, Prod.exists] at h
  obtain ⟨lead, r1, h1, dwell, r2, h2, dead, r3, h3, hif⟩ := h
  split at hif
  · next hrange =>
    obtain ⟨rfl, rfl⟩ := Prod.mk.inj (Option.some.inj hif)
    obtain ⟨hlead, ⟨hlow, hhigh⟩, hdead⟩ := hrange
    refine ⟨⟨hlead, hlow, hhigh, hdead⟩, ?_⟩
    rw [get32_eq_some h1, get32_eq_some h2, get32_eq_some h3]
    simp [enTiming]
  · contradiction

theorem getAggressors_eq_some {n : Nat} {l : List Aggressor} (h : getAggressors n bs = some (l, rest)) :
    n = l.length ∧ bs = enSeq enAggressor l ++ rest := by
  induction n generalizing bs l with
  | zero =>
    obtain ⟨rfl, rfl⟩ := Prod.mk.inj (Option.some.inj h)
    exact ⟨rfl, rfl⟩
  | succ n ih =>
    unfold getAggressors at h
    split at h
    · contradiction
    · next hn =>
      obtain rfl := Nat.succ.inj hn
      split at h
      · next hlink hend hmore =>
        obtain ⟨rfl, rfl⟩ := Prod.mk.inj (Option.some.inj h)
        obtain ⟨rfl, rfl⟩ := ih hmore
        rw [(idxOf_eq_some_iff (by omega)).mp hlink, endOf_eq_some hend]
        exact ⟨rfl, rfl⟩
      · contradiction
    · contradiction

theorem getSource_eq_some {x : StartSource} (h : getSource bs = some (x, rest)) : bs = enSource x ++ rest := by
  unfold getSource at h
  split at h
  · split at h
    · next hzero =>
      obtain ⟨rfl, rfl⟩ := Prod.mk.inj (Option.some.inj h)
      rw [hzero]
      rfl
    · split at h
      · next hone =>
        split at h
        · split at h
          · next hsem htake =>
            obtain ⟨rfl, rfl⟩ := Prod.mk.inj (Option.some.inj h)
            rw [hone, (idxOf_eq_some_iff (by omega)).mp hsem, takeOf_eq_some htake]
            rfl
          · contradiction
        · contradiction
      · contradiction
  · contradiction

theorem signalEvent_num {e : SignalEvent} (hzero : b ≠ 0#8)
    (h : [SignalEvent.firstDwell, .eachDwellEnd, .done][b.toNat - 1]? = some e) : b = BitVec.ofNat 8 e.num := by
  have hpos : b.toNat ≠ 0 := fun h0 => hzero (BitVec.eq_of_toNat_eq h0)
  obtain ⟨hlt, hget⟩ := List.getElem?_eq_some_iff.mp h
  simp only [List.length_cons, List.length_nil] at hlt
  apply BitVec.eq_of_toNat_eq
  have hcases : b.toNat = 1 ∨ b.toNat = 2 ∨ b.toNat = 3 := by omega
  rcases hcases with hb | hb | hb <;> simp [hb] at hget <;> subst hget <;> simp [hb, SignalEvent.num]

theorem getSignal_eq_some {x : Option Signal} (h : getSignal bs = some (x, rest)) : bs = enSignal x ++ rest := by
  unfold getSignal at h
  split at h
  · split at h
    · next hzero =>
      obtain ⟨rfl, rfl⟩ := Prod.mk.inj (Option.some.inj h)
      rw [hzero]
      rfl
    · next hzero =>
      split at h
      · next hevent =>
        obtain ⟨k, hk, hx⟩ := Option.map_eq_some_iff.mp h
        obtain ⟨rfl, rfl⟩ := Prod.mk.inj hx
        rw [(idxOf_eq_some_iff (by omega)).mp hk, signalEvent_num hzero hevent]
        rfl
      · contradiction
  · contradiction

theorem inRange_iff {o : OpenParams} : o.inRange = true ↔ o.aggressors.length ≤ 4 ∧ o.pattern ≤ 15
    ∧ (o.timing.lead ≤ 65535 ∧ 1 ≤ o.timing.dwell ∧ o.timing.dwell ≤ 16777215 ∧ o.timing.dead ≤ 65535)
    ∧ o.repeats ≤ 255 := by
  simp only [OpenParams.inRange, Bool.and_eq_true, decide_eq_true_eq]
  tauto

/-- The bytes of an OPEN_WINDOW read as parameters only if they are those parameters as sent, in their ranges. -/
theorem getOpenParams_eq_some {o : OpenParams} (h : getOpenParams bs = some o) :
    o.inRange = true ∧ bs = enOpenParams o := by
  unfold getOpenParams at h
  obtain ⟨⟨victim, r1⟩, hvictim, h⟩ := Option.bind_eq_some_iff.mp h
  obtain ⟨⟨m, r2⟩, hm, h⟩ := Option.bind_eq_some_iff.mp h
  obtain ⟨mode, hmode, h⟩ := Option.bind_eq_some_iff.mp h
  obtain ⟨⟨n, r3⟩, hn, h⟩ := Option.bind_eq_some_iff.mp h
  obtain ⟨⟨aggressors, r4⟩, haggressors, h⟩ := Option.bind_eq_some_iff.mp h
  obtain ⟨⟨pattern, r5⟩, hpattern, h⟩ := Option.bind_eq_some_iff.mp h
  obtain ⟨⟨timing, r6⟩, htiming, h⟩ := Option.bind_eq_some_iff.mp h
  obtain ⟨⟨repeats, r7⟩, hrepeats, h⟩ := Option.bind_eq_some_iff.mp h
  obtain ⟨⟨source, r8⟩, hsource, h⟩ := Option.bind_eq_some_iff.mp h
  obtain ⟨⟨signal, r9⟩, hsignal, h⟩ := Option.bind_eq_some_iff.mp h
  obtain ⟨⟨retest, r10⟩, hretest, h⟩ := Option.bind_eq_some_iff.mp h
  obtain ⟨⟨lockLoss, r11⟩, hlockLoss, h⟩ := Option.bind_eq_some_iff.mp h
  obtain ⟨⟨f, r12⟩, hf, h⟩ := Option.bind_eq_some_iff.mp h
  obtain ⟨faultMode, hfaultMode, hend⟩ := Option.bind_eq_some_iff.mp h
  split at hend
  · obtain rfl := Option.some.inj hend
    obtain ⟨hlen, haggressorBytes⟩ := getAggressors_eq_some haggressors
    obtain ⟨hrange, htimingBytes⟩ := getTiming_eq_some htiming
    constructor
    · have hnlt := n.isLt
      have hplt := pattern.isLt
      have hrlt := repeats.isLt
      exact inRange_iff.mpr ⟨by simp only; omega, by simp only; omega, hrange, by simp only; omega⟩
    · rw [(getIdx_eq_some_iff (by omega)).mp hvictim, getByte_eq_some_iff.mp hm, winModeOf_eq_some_iff.mp hmode,
        (getIdx_eq_some_iff (by omega)).mp hn, hlen, haggressorBytes, (getIdx_eq_some_iff (by omega)).mp hpattern,
        htimingBytes, getByte_eq_some_iff.mp hrepeats, getSource_eq_some hsource, getSignal_eq_some hsignal,
        getFlag_eq_some_iff.mp hretest, getFlag_eq_some_iff.mp hlockLoss, getByte_eq_some_iff.mp hf,
        faultModeOf_eq_some_iff.mp hfaultMode]
      simp [enOpenParams, enList, u8]
  · contradiction

/-- The parameters of an OPEN_WINDOW as sent are read back. -/
theorem getOpenParams_enOpenParams {o : OpenParams} (h : o.inRange = true) :
    getOpenParams (enOpenParams o) = some o := by
  obtain ⟨hlen, hpattern, ⟨hlead, hlow, hhigh, hdead⟩, hrepeats⟩ := inRange_iff.mp h
  have hcount : ∀ more, getIdx 5 (u8 o.aggressors.length ++ more) = some (⟨o.aggressors.length, by omega⟩, more) :=
    fun more => (getIdx_eq_some_iff (by omega)).mpr rfl
  have hpat : ∀ more, getIdx 16 (u8 o.pattern ++ more) = some (⟨o.pattern, by omega⟩, more) :=
    fun more => (getIdx_eq_some_iff (by omega)).mpr rfl
  have hbyte : ∀ n more, getByte (u8 n ++ more) = some (BitVec.ofNat 8 n, more) := fun _ _ => rfl
  have hvictim : ∀ more, getIdx 128 (u8 o.victim.val ++ more) = some (o.victim, more) :=
    fun more => (getIdx_eq_some_iff (by omega)).mpr rfl
  have hflag : ∀ f more, getFlag (enFlag f ++ more) = some (f, more) := fun _ _ => getFlag_eq_some_iff.mpr rfl
  have hfault : getByte (u8 o.faultMode.num) = some (BitVec.ofNat 8 o.faultMode.num, []) := rfl
  simp only [enOpenParams, enList, List.append_assoc]
  unfold getOpenParams
  refine Option.bind_eq_some_iff.mpr ⟨_, hvictim _, ?_⟩
  refine Option.bind_eq_some_iff.mpr ⟨_, hbyte _ _, ?_⟩
  refine Option.bind_eq_some_iff.mpr ⟨_, winModeOf_eq_some_iff.mpr rfl, ?_⟩
  refine Option.bind_eq_some_iff.mpr ⟨_, hcount _, ?_⟩
  refine Option.bind_eq_some_iff.mpr ⟨_, getAggressors_enSeq _ _, ?_⟩
  refine Option.bind_eq_some_iff.mpr ⟨_, hpat _, ?_⟩
  refine Option.bind_eq_some_iff.mpr ⟨_, getTiming_enTiming hlead ⟨hlow, hhigh⟩ hdead _, ?_⟩
  refine Option.bind_eq_some_iff.mpr ⟨_, hbyte _ _, ?_⟩
  refine Option.bind_eq_some_iff.mpr ⟨_, getSource_enSource _ _, ?_⟩
  refine Option.bind_eq_some_iff.mpr ⟨_, getSignal_enSignal _ _, ?_⟩
  refine Option.bind_eq_some_iff.mpr ⟨_, hflag _ _, ?_⟩
  refine Option.bind_eq_some_iff.mpr ⟨_, hflag _ _, ?_⟩
  refine Option.bind_eq_some_iff.mpr ⟨_, hfault, ?_⟩
  refine Option.bind_eq_some_iff.mpr ⟨_, faultModeOf_eq_some_iff.mpr rfl, ?_⟩
  simp only [toNat_byte (show o.repeats < 256 by omega)]

end Sys2Proof.Machine

open Sys2Proof Sys2Proof.Machine

/-- Settles O35: each field of the parameters is read back from its bytes. -/
theorem openWindowParametersAreReadBack : Obligations.OpenWindowParametersAreReadBack := by
  unfold Obligations.OpenWindowParametersAreReadBack
  exact fun _ hrange => getOpenParams_enOpenParams hrange

end

