-- ==== Sys2Proof/Proofs/Checks.lean ====
section
/-! SUPPORT. Sys2Proof/Proofs/Checks.lean: the checks that every request passes (R181): parameters that do not decode are
refused with BAD_PARAM by each request's own rule, and a refusal of any rule leaves the hub as it was. -/

namespace Sys2Proof.Machine

variable {s : State} {p : PortId} {tag : Byte} {ps : List Byte}

/-! ## What the own rules accept as parameters (R198) -/

/-- Parameters of a request that takes none. -/
theorem eq_nil_of_ne_refuse {body : Body} (hbody : ∀ b more, body p tag (b :: more) s = refuse s .badParam)
    (h : body p tag ps s ≠ refuse s .badParam) : ps = [] := by
  cases ps with
  | nil => rfl
  | cons b more => exact absurd (hbody b more) h

theorem decodes_readRun (h : bodyReadRun p tag ps s ≠ refuse s .badParam) : s.decodes p .readRun ps := by
  unfold bodyReadRun at h
  split at h
  · split at h
    · next hzero => exact ⟨false, by rw [hzero]; rfl⟩
    · split at h
      · next hone => exact ⟨true, by rw [hone]; rfl⟩
      · exact absurd rfl h
  · exact absurd rfl h

theorem decodes_setBlink (h : bodySetBlink p tag ps s ≠ refuse s .badParam) : s.decodes p .setBlink ps := by
  unfold bodySetBlink at h
  split at h
  · split at h
    · next rate hrate =>
      rw [rateOf_eq_some hrate]
      cases rate with
      | slow => exact ⟨false, rfl⟩
      | fast => exact ⟨true, rfl⟩
    · exact absurd rfl h
  · exact absurd rfl h

theorem byte_eq_ofNat (b : Byte) : b = BitVec.ofNat 8 b.toNat := by simp

theorem decodes_readLink (h : bodyReadLink p tag ps s ≠ refuse s .badParam) : s.decodes p .readLink ps := by
  unfold bodyReadLink at h
  split at h
  · next view first count =>
    split at h
    · next hrange =>
      obtain ⟨rfl, hfirst, hlow, hhigh, hlast⟩ := hrange
      refine Or.inl ⟨first.toNat, count.toNat, hfirst, hlow, hhigh, hlast, ?_⟩
      simp [u8]
    · exact absurd rfl h
  · split at h
    · next i hi =>
      split at h
      · next hview =>
        subst hview
        rw [(idxOf_eq_some_iff (by omega)).mp hi]
        exact Or.inr (Or.inl ⟨i, rfl⟩)
      · exact absurd rfl h
    · exact absurd rfl h
  · split at h
    · next hview => exact Or.inr (Or.inr (Or.inl (by rw [hview]; rfl)))
    · split at h
      · next hview => exact Or.inr (Or.inr (Or.inr (by rw [hview]; rfl)))
      · exact absurd rfl h
  · exact absurd rfl h

/-- A byte that numbers a link of the map. -/
theorem decodes_of_linkIdOf {b : Byte} (h : s.linkIdOf b ≠ none) :
    ∃ l : LinkId, (s.link l).isSome = true ∧ [b] = u8 l.val := by
  obtain ⟨l, hl⟩ := Option.ne_none_iff_exists'.mp h
  obtain ⟨rfl, hsome⟩ := linkIdOf_eq_some_iff.mp hl
  exact ⟨l, hsome, rfl⟩

theorem decodes_withdraw (h : bodyWithdraw p tag ps s ≠ refuse s .badParam) : s.decodes p .withdraw ps := by
  unfold bodyWithdraw at h
  split at h
  · split at h
    · exact absurd rfl h
    · next hl => exact decodes_of_linkIdOf (by simp [hl])
  · exact absurd rfl h

theorem decodes_restore (h : bodyRestore p tag ps s ≠ refuse s .badParam) : s.decodes p .restore ps := by
  unfold bodyRestore at h
  split at h
  · split at h
    · exact absurd rfl h
    · next hl => exact decodes_of_linkIdOf (by simp [hl])
  · exact absurd rfl h

theorem decodes_ackWithdraw (h : bodyAckWithdraw p tag ps s ≠ refuse s .badParam) :
    s.decodes p .ackWithdraw ps := by
  unfold bodyAckWithdraw at h
  split at h
  · split at h
    · exact absurd rfl h
    · next hl => exact decodes_of_linkIdOf (by simp [hl])
  · exact absurd rfl h

theorem decodes_lease (hhold : (s.port p).role = .observer → ps.head? ≠ some 0#8)
    (h : bodyLease p tag ps s ≠ refuse s .badParam) : s.decodes p .lease ps := by
  unfold bodyLease at h
  rw [if_neg (fun hdenied => hhold hdenied.1 hdenied.2)] at h
  split at h
  · split at h
    · next m w count nums _ _ _ mode wait rs hmode hwait hrs =>
      obtain ⟨hgood, hbytes⟩ := resListOf_eq_some_iff.mp hrs
      refine ⟨mode, wait, rs, hgood, fun hwatch r hr => ?_, ?_⟩
      · refine Bool.eq_false_iff.mpr fun hgen => h ?_
        exact if_pos ⟨hwatch, List.any_eq_true.mpr ⟨r, hr, hgen⟩⟩
      · rw [hbytes, leaseModeOf_eq_some hmode, flagOf_eq_some_iff.mp hwait]
        rfl
    · exact absurd rfl h
  · exact absurd rfl h

theorem decodes_release (h : bodyRelease p tag ps s ≠ refuse s .badParam) : s.decodes p .release ps := by
  unfold bodyRelease at h
  split at h
  · split at h
    · exact absurd rfl h
    · next rs hrs => exact ⟨rs, resListOf_eq_some_iff.mp hrs⟩
  · exact absurd rfl h

/-- A byte that numbers the CHK of a fitted slot. -/
theorem decodes_of_chkIdOf {b : Byte} (h : s.chkIdOf b ≠ none) :
    ∃ i, s.isFitted i = true ∧ [b] = u8 (chkOf i).val := by
  obtain ⟨r, hr⟩ := Option.ne_none_iff_exists'.mp h
  obtain ⟨rfl, hfit, hchk⟩ := chkIdOf_eq_some_iff.mp hr
  exact ⟨resSlot r, hfit, by rw [chkOf_resSlot hchk]; rfl⟩

theorem decodes_post (h : bodyPost p tag ps s ≠ refuse s .badParam) : s.decodes p .post ps := by
  unfold bodyPost at h
  split at h
  · split at h
    · exact absurd rfl h
    · next hr => exact decodes_of_chkIdOf (by simp [hr])
  · exact absurd rfl h

theorem decodes_discard (h : bodyDiscard p tag ps s ≠ refuse s .badParam) : s.decodes p .discard ps := by
  unfold bodyDiscard at h
  split at h
  · split at h
    · exact absurd rfl h
    · next hr => exact decodes_of_chkIdOf (by simp [hr])
  · exact absurd rfl h

theorem decodes_recallResource (h : bodyRecall p tag ps s ≠ refuse s .badParam) :
    s.decodes p .recallResource ps := by
  unfold bodyRecall at h
  split at h
  · split at h
    · exact absurd rfl h
    · next r hr =>
      obtain ⟨rfl, hfit⟩ := resIdOf_eq_some_iff.mp hr
      exact ⟨r, hfit, rfl⟩
  · exact absurd rfl h

theorem decodes_cancelWait (h : bodyCancelWait p tag ps s ≠ refuse s .badParam) : s.decodes p .cancelWait ps := by
  unfold bodyCancelWait at h
  split at h
  · next b => exact ⟨b, rfl⟩
  · exact absurd rfl h

theorem decodes_readLeases (h : bodyReadLeases p tag ps s ≠ refuse s .badParam) : s.decodes p .readLeases ps := by
  unfold bodyReadLeases at h
  split at h
  · split at h
    · next hsel =>
      split at h
      · next q hq =>
        rw [hsel, (idxOf_eq_some_iff (by omega)).mp hq]
        exact Or.inl ⟨q, rfl⟩
      · exact absurd rfl h
    · exact absurd rfl h
  · next sel first count =>
    split at h
    · next hrange =>
      obtain ⟨rfl, hfirst, hlow, hlast⟩ := hrange
      refine Or.inr ⟨first.toNat, count.toNat, hfirst, hlow, hlast, ?_⟩
      simp [u8]
    · exact absurd rfl h
  · exact absurd rfl h

theorem openParamsFit_iff {k : Link} {o : OpenParams} : s.openParamsFit k o = true ↔
    (o.mode = .paired → k.endA.slot ≠ k.endB.slot) ∧ (∀ a ∈ o.aggressors, a.link.val ∈ k.neighbours)
      ∧ (o.aggressors.map (fun a => a.link)).Nodup ∧ (s.gensOf k o).Nodup := by
  simp only [State.openParamsFit, Bool.and_eq_true, Bool.or_eq_true, decide_eq_true_eq, List.all_eq_true,
    List.contains_iff_mem, allDistinct_iff_nodup]
  tauto

theorem decodes_openWindow (h : bodyOpenWindow p tag ps s ≠ refuse s .badParam) : s.decodes p .openWindow ps := by
  unfold bodyOpenWindow at h
  split at h
  · exact absurd rfl h
  · next o ho =>
    obtain ⟨hrange, hbytes⟩ := getOpenParams_eq_some ho
    split at h
    · exact absurd rfl h
    · next k hk =>
      split at h
      · exact absurd rfl h
      · next hfit => exact ⟨o, ⟨hrange, k, hk, openParamsFit_iff.mp (by simpa using hfit)⟩, hbytes⟩

/-- A request on a window: its number is below 8. -/
theorem decodes_of_withWindow {b : Byte} {f : WinId → Window → State × Option Reply}
    (h : s.withWindow b f ≠ refuse s .badParam) : ∃ w : WinId, b = BitVec.ofNat 8 w.val := by
  unfold State.withWindow at h
  split at h
  · exact absurd rfl h
  · next w hw => exact ⟨w, (idxOf_eq_some_iff (by omega)).mp hw⟩

theorem decodes_start (h : bodyStart p tag ps s ≠ refuse s .badParam) : s.decodes p .start ps := by
  unfold bodyStart at h
  split at h
  · obtain ⟨w, rfl⟩ := decodes_of_withWindow h
    exact ⟨w, rfl⟩
  · exact absurd rfl h

theorem decodes_closeWindow (h : bodyCloseWindow p tag ps s ≠ refuse s .badParam) :
    s.decodes p .closeWindow ps := by
  unfold bodyCloseWindow at h
  split at h
  · obtain ⟨w, rfl⟩ := decodes_of_withWindow h
    exact ⟨w, rfl⟩
  · exact absurd rfl h

theorem decodes_readWindow (h : bodyReadWindow p tag ps s ≠ refuse s .badParam) : s.decodes p .readWindow ps := by
  unfold bodyReadWindow at h
  split at h
  · split at h
    · exact absurd rfl h
    · next w hw => exact ⟨w, by rw [(idxOf_eq_some_iff (by omega)).mp hw]; rfl⟩
  · exact absurd rfl h

theorem decodes_stop (h : bodyStop p tag ps s ≠ refuse s .badParam) : s.decodes p .stop ps := by
  unfold bodyStop at h
  split at h
  · split at h
    · exact absurd rfl h
    · next boundary hkind =>
      obtain ⟨w, rfl⟩ := decodes_of_withWindow h
      rw [flagOf_eq_some_iff.mp hkind]
      exact ⟨w, boundary, rfl⟩
  · exact absurd rfl h

theorem decodes_retime (h : bodyRetime p tag ps s ≠ refuse s .badParam) : s.decodes p .retime ps := by
  unfold bodyRetime at h
  split at h
  · split at h
    · next x hx =>
      obtain ⟨w, rfl⟩ := decodes_of_withWindow h
      obtain ⟨hrange, hbytes⟩ := getTiming_eq_some hx
      refine ⟨w, x, hrange, ?_⟩
      rw [hbytes, List.append_nil]
      rfl
    · exact absurd rfl h
  · exact absurd rfl h

theorem decodes_semSet (h : bodySemSet p tag ps s ≠ refuse s .badParam) : s.decodes p .semSet ps := by
  unfold bodySemSet at h
  split at h
  · split at h
    · exact absurd rfl h
    · next k hk => exact ⟨k, by rw [(idxOf_eq_some_iff (by omega)).mp hk]; rfl⟩
  · exact absurd rfl h

theorem decodes_semClear (h : bodySemClear p tag ps s ≠ refuse s .badParam) : s.decodes p .semClear ps := by
  unfold bodySemClear at h
  split at h
  · split at h
    · exact absurd rfl h
    · next k hk => exact ⟨k, by rw [(idxOf_eq_some_iff (by omega)).mp hk]; rfl⟩
  · exact absurd rfl h

theorem decodes_readCapture (h : bodyReadCapture p tag ps s ≠ refuse s .badParam) :
    s.decodes p .readCapture ps := by
  unfold bodyReadCapture at h
  split at h
  · split at h
    · exact absurd rfl h
    · next i hi =>
      obtain ⟨rfl, hfit⟩ := slotIdOf_eq_some_iff.mp hi
      exact ⟨i, hfit, rfl⟩
  · exact absurd rfl h

theorem decodes_setCapture (h : bodySetCapture p tag ps s ≠ refuse s .badParam) : s.decodes p .setCapture ps := by
  unfold bodySetCapture at h
  split at h
  · split at h
    · next i filter prescale hi hfilter hprescale =>
      obtain ⟨rfl, hfit⟩ := slotIdOf_eq_some_iff.mp hi
      rw [(idxOf_eq_some_iff (by omega)).mp hfilter, (idxOf_eq_some_iff (by omega)).mp hprescale]
      exact ⟨i, filter, prescale, hfit, rfl⟩
    · exact absurd rfl h
  · exact absurd rfl h

theorem decodes_readVerdict (h : bodyReadVerdict p tag ps s ≠ refuse s .badParam) :
    s.decodes p .readVerdict ps := by
  unfold bodyReadVerdict at h
  split at h
  · split at h
    · next l c flush hl hc hflush =>
      split at h
      · next hsome =>
        obtain ⟨choice, rfl⟩ := dirChoiceOf_eq_some hc
        rw [(idxOf_eq_some_iff (by omega)).mp hl, flagOf_eq_some_iff.mp hflush]
        exact ⟨l, choice, flush, hsome, rfl⟩
      · exact absurd rfl h
    · exact absurd rfl h
  · exact absurd rfl h

theorem decodes_clearFault (h : bodyClearFault p tag ps s ≠ refuse s .badParam) : s.decodes p .clearFault ps := by
  unfold bodyClearFault at h
  split at h
  · split at h
    · exact absurd rfl h
    · next i hi => exact ⟨i, by rw [(idxOf_eq_some_iff (by omega)).mp hi]; rfl⟩
  · exact absurd rfl h

theorem decodes_setLamp (h : bodySetLamp p tag ps s ≠ refuse s .badParam) : s.decodes p .setLamp ps := by
  unfold bodySetLamp at h
  split at h
  · split at h
    · next i mode blink invert hi hmode hblink hinvert =>
      obtain ⟨rfl, hfit⟩ := slotIdOf_eq_some_iff.mp hi
      obtain ⟨n, rfl⟩ := lampModeOf_eq_some hmode
      rw [flagOf_eq_some_iff.mp hblink, flagOf_eq_some_iff.mp hinvert]
      exact ⟨i, n, blink, invert, hfit, rfl⟩
    · exact absurd rfl h
  · exact absurd rfl h

theorem decodes_clearNotices (h : bodyClearNotices p tag ps s ≠ refuse s .badParam) :
    s.decodes p .clearNotices ps := by
  unfold bodyClearNotices at h
  split at h
  · split at h
    · next ks hks => exact ⟨ks, kindSetOf_eq_some hks⟩
    · exact absurd rfl h
  · exact absurd rfl h

theorem decodes_setNotices (h : bodySetNotices p tag ps s ≠ refuse s .badParam) : s.decodes p .setNotices ps := by
  unfold bodySetNotices at h
  split at h
  · split at h
    · next ks hks => exact ⟨ks, kindSetOf_eq_some hks⟩
    · exact absurd rfl h
  · exact absurd rfl h

theorem decodes_setNoticeEnable (h : bodySetNoticeEnable p tag ps s ≠ refuse s .badParam) :
    s.decodes p .setNoticeEnable ps := by
  unfold bodySetNoticeEnable at h
  split at h
  · split at h
    · next ks hks => exact ⟨ks, kindSetOf_eq_some hks⟩
    · exact absurd rfl h
  · exact absurd rfl h

theorem decodes_evict (h : bodyEvict p tag ps s ≠ refuse s .badParam) : s.decodes p .evict ps := by
  unfold bodyEvict at h
  split at h
  · split at h
    · exact absurd rfl h
    · next q hq =>
      split at h
      · exact absurd rfl h
      · next hne => exact ⟨q, hne, by rw [(idxOf_eq_some_iff (by omega)).mp hq]; rfl⟩
  · exact absurd rfl h

/-- Parameters that a request's own rule does not refuse with BAD_PARAM decode; a HOLD of an OBSERVER is refused for its
role before its parameters are read (R38). -/
theorem decodes_of_ne_badParam (r : Req) (hhold : r = .lease → (s.port p).role = .observer → ps.head? ≠ some 0#8)
    (h : r.body p tag ps s ≠ refuse s .badParam) : s.decodes p r ps := by
  have hnone : ∀ body : Body, (∀ b more, body p tag (b :: more) s = refuse s .badParam) →
      body p tag ps s ≠ refuse s .badParam → ps = [] := fun _ hb hne => eq_nil_of_ne_refuse hb hne
  cases r
  case readRun => exact decodes_readRun (tag := tag) h
  case runStart => exact hnone bodyRunStart (fun _ _ => rfl) h
  case runClose => exact hnone bodyRunClose (fun _ _ => rfl) h
  case runAbort => exact hnone bodyRunAbort (fun _ _ => rfl) h
  case reload => exact hnone bodyReload (fun _ _ => rfl) h
  case readLink => exact decodes_readLink (tag := tag) h
  case withdraw => exact decodes_withdraw (tag := tag) h
  case restore => exact decodes_restore (tag := tag) h
  case ackWithdraw => exact decodes_ackWithdraw (tag := tag) h
  case sync => exact hnone bodySync (fun _ _ => rfl) h
  case readWithdraws => exact hnone bodyReadWithdraws (fun _ _ => rfl) h
  case lease => exact decodes_lease (tag := tag) (hhold rfl) h
  case release => exact decodes_release (tag := tag) h
  case post => exact decodes_post (tag := tag) h
  case discard => exact decodes_discard (tag := tag) h
  case recallResource => exact decodes_recallResource (tag := tag) h
  case cancelWait => exact decodes_cancelWait (tag := tag) h
  case readLeases => exact decodes_readLeases (tag := tag) h
  case openWindow => exact decodes_openWindow (tag := tag) h
  case start => exact decodes_start (tag := tag) h
  case stop => exact decodes_stop (tag := tag) h
  case retime => exact decodes_retime (tag := tag) h
  case closeWindow => exact decodes_closeWindow (tag := tag) h
  case readWindow => exact decodes_readWindow (tag := tag) h
  case semSet => exact decodes_semSet (tag := tag) h
  case semClear => exact decodes_semClear (tag := tag) h
  case semRead => exact hnone bodySemRead (fun _ _ => rfl) h
  case readCapture => exact decodes_readCapture (tag := tag) h
  case setCapture => exact decodes_setCapture (tag := tag) h
  case readVerdict => exact decodes_readVerdict (tag := tag) h
  case readFaults => exact hnone bodyReadFaults (fun _ _ => rfl) h
  case clearFault => exact decodes_clearFault (tag := tag) h
  case setLamp => exact decodes_setLamp (tag := tag) h
  case setBlink => exact decodes_setBlink (tag := tag) h
  case readNotices => exact hnone bodyReadNotices (fun _ _ => rfl) h
  case clearNotices => exact decodes_clearNotices (tag := tag) h
  case setNotices => exact decodes_setNotices (tag := tag) h
  case setNoticeEnable => exact decodes_setNoticeEnable (tag := tag) h
  case detach => exact hnone bodyDetach (fun _ _ => rfl) h
  case evict => exact decodes_evict (tag := tag) h

/-- Whether parameters decode does not depend on the ports. -/
theorem decodes_working (q r : Req) : (s.working q p tag).decodes p r ps ↔ s.decodes p r ps := by
  cases r <;> rfl

/-- Parameters that do not decode are refused with BAD_PARAM by the request's own rule. -/
theorem body_badParam (q r : Req) (hbad : ¬ s.decodes p r ps)
    (hhold : r = .lease → (s.port p).role = .observer → ps.head? ≠ some 0#8) :
    r.body p tag ps (s.working q p tag) = refuse (s.working q p tag) .badParam := by
  by_contra hne
  exact hbad ((decodes_working q r).mp (decodes_of_ne_badParam r (by rwa [port_working]) hne))

/-- An admitted request whose parameters do not decode is answered BAD_PARAM and changes nothing else. -/
theorem exec_badParam {r : Req} {filler : List Byte} {cut : Bool} (h : s.admitted r p ps filler = true)
    (hbad : ¬ s.decodes p r ps) (hhold : r = .lease → (s.port p).role = .observer → ps.head? ≠ some 0#8) :
    exec (r.command p (frameRest r tag ps filler) cut) s = .next (s.refusedWith r p tag .badParam) :=
  exec_refused h (body_badParam r r hbad hhold)

/-! ## What a refusal leaves (R181) -/

/-- What an own rule may hand back: a refusal leaves the state as it was, and a rule that gives no answer yet leaves the
slot of its port WORKING. -/
inductive Settled (p : PortId) (s : State) : State × Option Reply → Prop where
  | refused (st : Status) : Settled p s (refuse s st)
  | unchanged (y : Reply) : Settled p s (s, some y)
  | accepted (t : State) (data : List Byte) : Settled p s (accept t data)
  | queued (t : State) (data : List Byte) : Settled p s (t, some { status := .queued, data := data })
  | waits (t : State) (code tag : Byte) (f : Option FlushWait) :
      Settled p s (t.setSlot p (.working code tag f), none)

theorem settled_withWindow {b : Byte} {f : WinId → Window → State × Option Reply}
    (hf : ∀ w x, Settled p s (f w x)) : Settled p s (s.withWindow b f) := by
  unfold State.withWindow
  split
  · exact .refused _
  · split
    · exact .refused _
    · exact hf _ _

theorem settled_waitOrConflict (m : LeaseMode) (wait : Bool) (rs : List ResId) :
    Settled p s (s.waitOrConflict p tag m wait rs) := by
  unfold State.waitOrConflict
  split
  · split
    · exact .unchanged _
    · exact .refused _
  · split
    · exact .refused _
    · exact .queued _ _

theorem settled_leaseRequest (m : LeaseMode) (wait : Bool) (rs : List ResId) :
    Settled p s (s.leaseRequest p tag m wait rs) := by
  unfold State.leaseRequest
  split
  · exact .refused _
  · split
    · exact .refused _
    · split
      · exact .refused _
      · split
        · exact .accepted _ _
        · exact settled_waitOrConflict m wait rs

/-- Every own rule settles its request. -/
theorem body_settled (r : Req) : Settled p s (r.body p tag ps s) := by
  cases r
  case readRun =>
    show Settled p s (bodyReadRun p tag ps s)
    unfold bodyReadRun
    repeat' split
    all_goals with_reducible constructor
  case runStart =>
    show Settled p s (bodyRunStart p tag ps s)
    unfold bodyRunStart
    repeat' split
    all_goals with_reducible constructor
  case runClose =>
    show Settled p s (bodyRunClose p tag ps s)
    unfold bodyRunClose
    repeat' split
    all_goals with_reducible constructor
  case runAbort =>
    show Settled p s (bodyRunAbort p tag ps s)
    unfold bodyRunAbort
    repeat' split
    all_goals with_reducible constructor
  case reload =>
    show Settled p s (bodyReload p tag ps s)
    unfold bodyReload
    repeat' split
    all_goals with_reducible constructor
  case readLink =>
    show Settled p s (bodyReadLink p tag ps s)
    unfold bodyReadLink
    repeat' split
    all_goals with_reducible constructor
  case withdraw =>
    show Settled p s (bodyWithdraw p tag ps s)
    unfold bodyWithdraw
    repeat' split
    all_goals with_reducible constructor
  case restore =>
    show Settled p s (bodyRestore p tag ps s)
    unfold bodyRestore
    repeat' split
    all_goals with_reducible constructor
  case ackWithdraw =>
    show Settled p s (bodyAckWithdraw p tag ps s)
    unfold bodyAckWithdraw
    repeat' split
    all_goals with_reducible constructor
  case sync =>
    show Settled p s (bodySync p tag ps s)
    unfold bodySync bodySync.syncNow
    repeat' split
    all_goals with_reducible constructor
  case readWithdraws =>
    show Settled p s (bodyReadWithdraws p tag ps s)
    unfold bodyReadWithdraws
    repeat' split
    all_goals with_reducible constructor
  case lease =>
    show Settled p s (bodyLease p tag ps s)
    unfold bodyLease
    split
    · exact .refused _
    · split
      · split
        · exact settled_leaseRequest _ _ _
        · exact .refused _
      · exact .refused _
  case release =>
    show Settled p s (bodyRelease p tag ps s)
    unfold bodyRelease
    repeat' split
    all_goals with_reducible constructor
  case post =>
    show Settled p s (bodyPost p tag ps s)
    unfold bodyPost
    repeat' split
    all_goals with_reducible constructor
  case discard =>
    show Settled p s (bodyDiscard p tag ps s)
    unfold bodyDiscard
    repeat' split
    all_goals with_reducible constructor
  case recallResource =>
    show Settled p s (bodyRecall p tag ps s)
    unfold bodyRecall
    repeat' split
    all_goals with_reducible constructor
  case cancelWait =>
    show Settled p s (bodyCancelWait p tag ps s)
    unfold bodyCancelWait
    repeat' split
    all_goals with_reducible constructor
  case readLeases =>
    show Settled p s (bodyReadLeases p tag ps s)
    unfold bodyReadLeases State.leasesReply
    repeat' split
    all_goals with_reducible constructor
  case openWindow =>
    show Settled p s (bodyOpenWindow p tag ps s)
    unfold bodyOpenWindow
    split
    · exact .refused _
    · split
      · exact .refused _
      · split
        · exact .refused _
        · dsimp only
          split
          · exact .refused _
          · exact .refused _
          · exact .accepted _ _
  case start =>
    show Settled p s (bodyStart p tag ps s)
    unfold bodyStart
    split
    · refine settled_withWindow fun w x => ?_
      repeat' split
      all_goals with_reducible constructor
    · exact .refused _
  case stop =>
    show Settled p s (bodyStop p tag ps s)
    unfold bodyStop
    repeat' split
    · exact .refused _
    · refine settled_withWindow fun w x => ?_
      repeat' split
      all_goals with_reducible constructor
    · exact .refused _
  case retime =>
    show Settled p s (bodyRetime p tag ps s)
    unfold bodyRetime
    repeat' split
    · refine settled_withWindow fun w x => ?_
      repeat' split
      all_goals with_reducible constructor
    · exact .refused _
    · exact .refused _
  case closeWindow =>
    show Settled p s (bodyCloseWindow p tag ps s)
    unfold bodyCloseWindow
    split
    · refine settled_withWindow fun w x => ?_
      repeat' split
      all_goals with_reducible constructor
    · exact .refused _
  case readWindow =>
    show Settled p s (bodyReadWindow p tag ps s)
    unfold bodyReadWindow
    repeat' split
    all_goals with_reducible constructor
  case semSet =>
    show Settled p s (bodySemSet p tag ps s)
    unfold bodySemSet
    repeat' split
    all_goals with_reducible constructor
  case semClear =>
    show Settled p s (bodySemClear p tag ps s)
    unfold bodySemClear
    repeat' split
    all_goals with_reducible constructor
  case semRead =>
    show Settled p s (bodySemRead p tag ps s)
    unfold bodySemRead
    repeat' split
    all_goals with_reducible constructor
  case readCapture =>
    show Settled p s (bodyReadCapture p tag ps s)
    unfold bodyReadCapture
    repeat' split
    all_goals with_reducible constructor
  case setCapture =>
    show Settled p s (bodySetCapture p tag ps s)
    unfold bodySetCapture
    repeat' split
    all_goals with_reducible constructor
  case readVerdict =>
    show Settled p s (bodyReadVerdict p tag ps s)
    unfold bodyReadVerdict
    split
    · split
      · split
        · dsimp only
          split
          · exact .waits _ _ _ _
          · exact .unchanged _
        · exact .refused _
      · exact .refused _
    · exact .refused _
  case readFaults =>
    show Settled p s (bodyReadFaults p tag ps s)
    unfold bodyReadFaults
    repeat' split
    all_goals with_reducible constructor
  case clearFault =>
    show Settled p s (bodyClearFault p tag ps s)
    unfold bodyClearFault
    repeat' split
    all_goals with_reducible constructor
  case setLamp =>
    show Settled p s (bodySetLamp p tag ps s)
    unfold bodySetLamp
    repeat' split
    all_goals with_reducible constructor
  case setBlink =>
    show Settled p s (bodySetBlink p tag ps s)
    unfold bodySetBlink
    repeat' split
    all_goals with_reducible constructor
  case readNotices =>
    show Settled p s (bodyReadNotices p tag ps s)
    unfold bodyReadNotices
    repeat' split
    all_goals with_reducible constructor
  case clearNotices =>
    show Settled p s (bodyClearNotices p tag ps s)
    unfold bodyClearNotices
    repeat' split
    all_goals with_reducible constructor
  case setNotices =>
    show Settled p s (bodySetNotices p tag ps s)
    unfold bodySetNotices
    repeat' split
    all_goals with_reducible constructor
  case setNoticeEnable =>
    show Settled p s (bodySetNoticeEnable p tag ps s)
    unfold bodySetNoticeEnable
    repeat' split
    all_goals with_reducible constructor
  case detach =>
    show Settled p s (bodyDetach p tag ps s)
    unfold bodyDetach
    repeat' split
    all_goals with_reducible constructor
  case evict =>
    show Settled p s (bodyEvict p tag ps s)
    unfold bodyEvict
    repeat' split
    all_goals with_reducible constructor

theorem statusCode_injective {a b : Status} (h : a.code = b.code) : a = b := by
  revert h
  cases a <;> cases b <;> decide

theorem port_setSlot_self (x : ResponseSlot) : ((s.setSlot p x).port p).slot = x := by
  simp [State.setSlot, port_modPort]

/-- An answer with a status other than OK and QUEUED was given by a rule that changed nothing. -/
theorem settled_refusal {t : State} {y : Reply} (h : Settled p s (t, some y)) (hok : y.status ≠ .ok)
    (hqueued : y.status ≠ .queued) : t = s := by
  cases h with
  | refused st => rfl
  | unchanged y => rfl
  | accepted t data => exact absurd rfl hok
  | queued t data => exact absurd rfl hqueued

/-- A served request whose slot then holds a refusal has left everything else as it was. -/
theorem serve_refusal {t : State} {r : Req} {st : Status} {frame : List Byte} (hok : st ≠ .ok)
    (hqueued : st ≠ .queued) (hserve : (s.serve r r.body p tag ps) = t) (hslot : (t.port p).slot = .answered frame)
    (hhead : frame.head? = some st.code) : t = s.setSlot p (.answered frame) := by
  have hanswer : ∀ (u : State) (y : Reply), u.answer p r.code tag y = t →
      y.status = st ∧ t = u.setSlot p (.answered frame) := by
    intro u y hu
    have hframe : .answered (responseFrame y r.code tag) = ResponseSlot.answered frame := by
      rw [← hslot, ← hu, State.answer, port_setSlot_self]
    obtain rfl := ResponseSlot.answered.inj hframe
    exact ⟨statusCode_injective (Option.some.inj hhead), hu.symm⟩
  unfold State.serve at hserve
  split at hserve
  · split at hserve
    · have hsettled := body_settled (p := p) (tag := tag) (ps := ps) (s := s) r
      split at hserve
      · next u y hbody =>
        obtain ⟨rfl, ht⟩ := hanswer u y hserve
        rw [hbody] at hsettled
        rwa [settled_refusal hsettled hok hqueued] at ht
      · next u hbody =>
        rw [hbody] at hsettled
        cases hsettled with
        | waits v code g f =>
          rw [← hserve, port_setSlot_self] at hslot
          contradiction
    · exact (hanswer s _ hserve).2
  · exact (hanswer s _ hserve).2

end Sys2Proof.Machine

open Sys2Proof Sys2Proof.Machine

/-- Settles O10: run state, role and own rule by the lemmas on the taking of a request, the parameters by
`decodes_of_ne_badParam`. -/
theorem requestsPassRunStateThenRole : Obligations.RequestsPassRunStateThenRole := by
  unfold Obligations.RequestsPassRunStateThenRole
  intro r s p tag params filler cut htaken
  have hstate : s.run.state ∈ r.runStates ↔ r.admits s.run.state = true := by
    rw [← runStates_contains, List.contains_iff_mem]
  have hrole : (s.port p).role ∈ r.roles ↔ r.permits (s.port p).role = true := by
    rw [← roles_contains, List.contains_iff_mem]
  rw [hstate, hrole]
  refine ⟨fun hno => ?_, fun hyes hno => ?_, fun hyes hrole => ?_, fun hyes hrole hbad hhold => ?_⟩
  · exact exec_wrongState htaken (Bool.eq_false_iff.mpr hno)
  · exact exec_notPermitted htaken hyes (Bool.eq_false_iff.mpr hno)
  · have hadm := admitted_of_taken htaken hyes hrole
    cases hbody : r.body p tag params (s.working r p tag) with
    | mk t y =>
      cases y with
      | none => exact exec_admitted_waits hadm hbody
      | some y => exact exec_admitted hadm hbody
  · exact exec_badParam (admitted_of_taken htaken hyes hrole) hbad hhold

/-- Settles O11: the frame is taken and served, and `body_settled` says what a refusing rule leaves. -/
theorem refusalChangesNothing : Obligations.RefusalChangesNothing := by
  unfold Obligations.RefusalChangesNothing
  intro r s t p tag params filler cut st frame htaken hok hqueued hexec hslot hhead
  obtain ⟨hlen, htakes⟩ := takes_of_taken (r := r) (tag := tag) htaken
  rw [exec_command, request_takes hlen htakes] at hexec
  have hserve := Host.Outcome.next.inj hexec
  rw [serve_refusal hok hqueued hserve hslot hhead, State.working, State.inWork, setSlot_setSlot]

end

