-- ==== Sys2Proof/Proofs/Reads.lean ====
section
/-! SUPPORT. Sys2Proof/Proofs/Reads.lean: the requests that read (R18, R34, R58, R97, R106, R135, R173, R186) and the
requests on the notice set (R186, R187): what the own rule of each answers. -/

namespace Sys2Proof.Machine

variable {s : State} (p : PortId) (tag : Byte)

/-! ## Reading requests with a range of numbers -/

/-- READ_LINK of a range of links. -/
theorem bodyReadLink_links {first count : Nat} (hlow : 1 ≤ count) (hhigh : count ≤ 16) (hlast : first + count ≤ 128) :
    bodyReadLink p tag [0x00#8, BitVec.ofNat 8 first, BitVec.ofNat 8 count] s =
      accept s (enSeq (fun n => enOpt enLink (s.linkNat n)) (List.range' first count)) := by
  have hfirst : (BitVec.ofNat 8 first).toNat = first := toNat_byte (by omega)
  have hcount : (BitVec.ofNat 8 count).toNat = count := toNat_byte (by omega)
  simp only [bodyReadLink, hfirst, hcount]
  exact if_pos ⟨trivial, by omega, hlow, hhigh, hlast⟩

/-- READ_LINK of a slot. -/
theorem bodyReadLink_slot (i : SlotId) : bodyReadLink p tag [0x01#8, BitVec.ofNat 8 i.val] s =
    accept s (u8 s.map.fitted ++ u8 (BlinkRate.num s.map.blink) ++ u16 s.map.replyTimeout ++ enFlag (s.isFitted i)
      ++ enSlotEntry (s.slotEntry i)) := by
  simp only [bodyReadLink, idxOf_byte (show 16 ≤ 256 by omega)]
  rfl

/-- The waiting entries in an answer do not depend on the ports. -/
theorem enEntries_working (r : Req) (keep : WaitEntry → Bool) (es : List WaitEntry) (n : Nat) :
    (s.working r p tag).enEntries keep es n = s.enEntries keep es n := by
  induction es generalizing n with
  | nil => rfl
  | cons e rest ih =>
    simp only [State.enEntries, ih, working_nowMs]

/-- READ_LEASES of a port. -/
theorem bodyReadLeases_port (q : PortId) : bodyReadLeases p tag [0x00#8, BitVec.ofNat 8 q.val] s =
    accept s (enList s.enResource (allResources.filter (fun r => s.holds q r || s.watches q r))
      ++ enList id (s.enEntries (fun e => decide (e.port = q)) s.dir.waits 0)) := by
  simp only [bodyReadLeases, idxOf_byte (show 4 ≤ 256 by omega)]
  rfl

/-- READ_LEASES of a range of resources. -/
theorem bodyReadLeases_range {first count : Nat} (hlow : 1 ≤ count) (hlast : first + count ≤ 32) :
    bodyReadLeases p tag [0x01#8, BitVec.ofNat 8 first, BitVec.ofNat 8 count] s =
      accept s (enList s.enResource
          (allResources.filter (fun r => decide (first ≤ r.val) && decide (r.val < first + count)))
        ++ enList id (s.enEntries
          (fun e => e.resources.any (fun r => decide (first ≤ r.val) && decide (r.val < first + count))) s.dir.waits 0)) := by
  have hfirst : (BitVec.ofNat 8 first).toNat = first := toNat_byte (by omega)
  have hcount : (BitVec.ofNat 8 count).toNat = count := toNat_byte (by omega)
  simp only [bodyReadLeases, hfirst, hcount]
  exact if_pos ⟨rfl, by omega, hlow, hlast⟩

/-- READ_WINDOW: the record, or for an IDLE window the state alone. -/
theorem bodyReadWindow_number (w : WinId) : bodyReadWindow p tag (u8 w.val) s =
    accept s (match s.win w with
      | some x => s.enWindow w x
      | none => u8 0) := by
  simp only [bodyReadWindow, u8, idxOf_byte (show 8 ≤ 256 by omega)]
  cases s.win w <;> rfl

theorem allSems_eq : allSems = [0, 1, 2, 3, 4, 5, 6, 7] := by decide

theorem allSlots_eq : allSlots = [0, 1, 2, 3, 4, 5, 6, 7, 8, 9, 10, 11, 12, 13, 14, 15] := by decide

/-! ## Requests on the notice set -/

/-- The taking of a request leaves the sets of its port. -/
theorem port_working_sets (r : Req) : ((s.working r p tag).port p).notices = (s.port p).notices
    ∧ ((s.working r p tag).port p).enables = (s.port p).enables := by
  rw [working_port]
  exact ⟨rfl, rfl⟩

variable {p} in
theorem port_modPort_same (f : AgentPort → AgentPort) : (s.modPort p f).port p = f (s.port p) := by
  rw [port_modPort, if_pos rfl]

theorem bodyClearNotices_kinds (ks : NoticeSet) : bodyClearNotices p tag (enKinds ks) s =
    accept (s.modPort p (fun y => y.setSets (y.notices &&& ~~~ks) y.enables))
      (enKinds (s.port p).notices ++ enKinds ((s.port p).notices &&& ~~~ks)) := by
  simp only [bodyClearNotices, enKinds, u16, kindSetOf_bytes, port_modPort_same, AgentPort.setSets]

theorem bodySetNotices_kinds (ks : NoticeSet) : bodySetNotices p tag (enKinds ks) s =
    accept (s.modPort p (fun y => y.setSets (y.notices ||| ks) y.enables))
      (enKinds ((s.port p).notices ||| ks) ++ enKinds (s.port p).enables) := by
  simp only [bodySetNotices, enKinds, u16, kindSetOf_bytes, State.raiseKinds, port_modPort_same, AgentPort.setSets]

theorem bodySetNoticeEnable_kinds (ks : NoticeSet) : bodySetNoticeEnable p tag (enKinds ks) s =
    accept (s.modPort p (fun y => y.setSets y.notices ks)) (enKinds (s.port p).notices ++ enKinds ks) := by
  simp only [bodySetNoticeEnable, enKinds, u16, kindSetOf_bytes, port_modPort_same, AgentPort.setSets]

end Sys2Proof.Machine

open Sys2Proof Sys2Proof.Machine

/-- Settles O12: the own rule of each reading request answers from records that the taking of the request leaves. -/
theorem readsAnswerAndChangeNothing : Obligations.ReadsAnswerAndChangeNothing := by
  unfold Obligations.ReadsAnswerAndChangeNothing
  intro s p tag filler cut
  refine ⟨fun h => ?_, fun h => ?_, fun first count hlow hhigh hlast h => ?_, fun i h => ?_, fun h => ?_, fun h => ?_,
    fun q h => ?_, ?_, fun w h => ?_, fun h => ?_, fun h => ?_, fun h => ?_, fun h => ?_⟩
  · exact exec_accepted h rfl
  · exact exec_accepted h rfl
  · exact exec_accepted h (bodyReadLink_links p tag hlow hhigh hlast)
  · exact exec_accepted h (bodyReadLink_slot p tag i)
  · exact exec_accepted h rfl
  · exact exec_accepted h rfl
  · rw [← enEntries_working p tag .readLeases]
    exact exec_accepted h (bodyReadLeases_port p tag q)
  · intro first count hlow hlast inside h
    rw [← enEntries_working p tag .readLeases]
    exact exec_accepted h (bodyReadLeases_range p tag hlow hlast)
  · exact exec_accepted h (bodyReadWindow_number p tag w)
  · exact exec_accepted h rfl
  · rw [← allSems_eq]
    exact exec_accepted h rfl
  · rw [← allSlots_eq]
    exact exec_accepted h rfl
  · obtain ⟨hnotices, henables⟩ := port_working_sets (s := s) p tag .readNotices
    have hmasked : ((s.working .readNotices p tag).port p).masked = (s.port p).masked := by
      rw [AgentPort.masked, AgentPort.masked, hnotices, henables]
    rw [← hnotices, ← henables, ← hmasked]
    exact exec_accepted h rfl

/-- Settles O13. -/
theorem noticeRequestsChangeTheOwnPort : Obligations.NoticeRequestsChangeTheOwnPort := by
  unfold Obligations.NoticeRequestsChangeTheOwnPort
  intro s p tag ks filler cut
  refine ⟨fun h => ?_, fun h => ?_, fun h => ?_⟩
  · rw [← (port_working_sets p tag .clearNotices).1]
    exact exec_accepted h (bodyClearNotices_kinds p tag ks)
  · obtain ⟨hnotices, henables⟩ := port_working_sets (s := s) p tag .setNotices
    rw [← hnotices, ← henables]
    exact exec_accepted h (bodySetNotices_kinds p tag ks)
  · rw [← (port_working_sets p tag .setNoticeEnable).1]
    exact exec_accepted h (bodySetNoticeEnable_kinds p tag ks)

end

