-- ==== Sys2Proof/Proofs/Lamps.lean ====
section
/-! SUPPORT. Sys2Proof/Proofs/Lamps.lean: what a lamp shows (R192 to R194), the blink clocks (R195), and the requests
SET_LAMP and SET_BLINK (R196, R197). -/

namespace Sys2Proof.Machine

variable {s : State} (p : PortId) (tag : Byte) {i : SlotId}

/-! ## SET_LAMP (R196) -/

theorem bodySetLamp_fitted {m : Fin 8} {mode : LampMode} (blink invert : Bool)
    (hmode : lampModeOf (BitVec.ofNat 8 m.val) = some mode) (hfit : s.isFitted i = true) :
    bodySetLamp p tag (u8 i.val ++ u8 m.val ++ enFlag blink ++ enFlag invert) s =
      accept (s.setLamps { s.lamps with recs := Table.put s.lamps.recs i { mode := mode, blink := blink, invert := invert } })
        (u8 (s.lamp i).mode.num ++ enFlag (s.lamp i).blink ++ enFlag (s.lamp i).invert
          ++ enFlag ((s.setLamps { s.lamps with
            recs := Table.put s.lamps.recs i { mode := mode, blink := blink, invert := invert } }).lampLit i)) := by
  simp only [bodySetLamp, u8, enFlag, List.cons_append, List.nil_append, slotIdOf_byte hfit, hmode, flagOf_byte]

theorem bodySetLamp_unfitted {m : Fin 8} (blink invert : Bool) (hfit : s.isFitted i = false) :
    bodySetLamp p tag (u8 i.val ++ u8 m.val ++ enFlag blink ++ enFlag invert) s = refuse s .badParam := by
  have hnone : s.slotIdOf (BitVec.ofNat 8 i.val) = none := by
    simp [State.slotIdOf, idxOf_byte (show 16 ≤ 256 by omega), hfit]
  simp only [bodySetLamp, u8, enFlag, List.cons_append, List.nil_append, hnone]

/-! ## The blink clocks (R195) -/

/-- A clock that stands as its time asks changes at the end of its half-period. -/
theorem blinkToggle_inTime {r : BlinkRate} (h : s.clockOn r = blinkOnAt r s.nowMs) : s.blinkToggle r =
    (s.advanceTo ((s.nowMs / blinkHalfMs r + 1) * blinkHalfMs r * 1000)).setLamps (s.lamps.toggle r) := by
  simp only [State.blinkToggle, if_pos h, advanceTo_lamps]

/-- A clock whose change is overdue changes at once. -/
theorem blinkToggle_overdue {r : BlinkRate} (h : s.clockOn r ≠ blinkOnAt r s.nowMs) :
    s.blinkToggle r = s.setLamps (s.lamps.toggle r) := by
  simp only [State.blinkToggle, if_neg h]

theorem exec_blinkClockToggle (hrst : s.rst = false) (r : BlinkRate) :
    exec (.blinkClockToggle r) s = .next (s.blinkToggle r) :=
  congrArg Host.Outcome.next (live_out_of_reset hrst _)

/-! ## The verdicts at a slot (R194) -/

/-- A verdict of a record of a link not WITHDRAWN with an end at the slot. -/
def State.verdictAt (s : State) (i : SlotId) (v : Verdict) : Prop :=
  ∃ l k d x, s.link l = some k ∧ k.state ≠ .withdrawn ∧ (k.endA.slot = i ∨ k.endB.slot = i)
    ∧ s.record l d = some x ∧ x.verdict = v

theorem mem_slotVerdicts {v : Verdict} : v ∈ s.slotVerdicts i ↔ s.verdictAt i v := by
  simp only [State.slotVerdicts, State.verdictAt, List.mem_flatMap]
  constructor
  · rintro ⟨l, -, hv⟩
    split at hv
    · next k hk =>
      split at hv
      · next hend =>
        obtain ⟨hstate, hend⟩ := hend
        rcases List.mem_append.mp hv with hv | hv
        · obtain ⟨x, hx, rfl⟩ : ∃ x, s.record l .fwd = some x ∧ x.verdict = v := by simpa using hv
          exact ⟨l, k, .fwd, x, hk, hstate, hend, hx, rfl⟩
        · obtain ⟨x, hx, rfl⟩ : ∃ x, s.record l .rev = some x ∧ x.verdict = v := by simpa using hv
          exact ⟨l, k, .rev, x, hk, hstate, hend, hx, rfl⟩
      · simp at hv
    · simp at hv
  · rintro ⟨l, k, d, x, hk, hstate, hend, hx, rfl⟩
    refine ⟨l, List.mem_finRange l, ?_⟩
    rw [hk]
    simp only [if_pos (And.intro hstate hend)]
    cases d <;> simp [hx]

section Verdict

variable {vs : List Verdict}

theorem verdictSource_fail (h : .fail ∈ vs) : verdictSource vs = .blinking .fast := by
  simp [verdictSource, h]

theorem verdictSource_marginal (hfail : .fail ∉ vs) (h : .marginal ∈ vs) : verdictSource vs = .blinking .slow := by
  simp [verdictSource, hfail, h]

/-- Neither FAIL nor MARGINAL: lit exactly when there is a verdict and all are PASS. -/
theorem verdictSource_rest (hfail : .fail ∉ vs) (hmarginal : .marginal ∉ vs) :
    verdictSource vs = if vs ≠ [] ∧ ∀ v ∈ vs, v = .pass then .lit else .unlit := by
  simp [verdictSource, hfail, hmarginal]

end Verdict

/-! ## The level of a lamp (R192) -/

theorem ofLevel_eq (b : Bool) : LampSource.ofLevel b = if b = true then .lit else .unlit := rfl

theorem slotActive_iff : s.slotActive i = true ↔ s.txenPin i = true ∨ s.ckenPin i = true := by
  simp [State.slotActive]

/-- The blink flag applies to the lamp's mode and is set (R192 stage 2). -/
def State.flagged (s : State) (i : SlotId) : Prop := (s.lamp i).blink = true ∧ (s.lamp i).mode.blinks = true

theorem blinks_iff {m : LampMode} : m.blinks = true ↔ m ≠ .verdict ∧ m ≠ .linkAct ∧ m ≠ .fault := by
  cases m <;> decide

theorem lampLevel_unlit (h : s.lampSource i (s.lamp i).mode = .unlit) : s.lampLevel i = (s.lamp i).invert := by
  simp [State.lampLevel, h]

theorem lampLevel_lit (h : s.lampSource i (s.lamp i).mode = .lit) (hflag : ¬ s.flagged i) :
    s.lampLevel i = !(s.lamp i).invert := by
  have hoff : ((s.lamp i).blink && (s.lamp i).mode.blinks) = false := by
    simpa [State.flagged] using hflag
  simp [State.lampLevel, h, hoff]

theorem lampLevel_flagged (h : s.lampSource i (s.lamp i).mode = .lit) (hflag : s.flagged i) :
    s.lampLevel i = xor (s.clockOn s.lamps.rate) (s.lamp i).invert := by
  obtain ⟨hblink, hmode⟩ := hflag
  simp [State.lampLevel, h, hblink, hmode]

theorem lampLevel_blinking {rate : BlinkRate} (h : s.lampSource i (s.lamp i).mode = .blinking rate) :
    s.lampLevel i = xor (s.clockOn rate) (s.lamp i).invert := by
  simp [State.lampLevel, h]

theorem lampLit_shown (hrun : s.run.state ≠ .loading) (hfit : s.isFitted i = true) :
    s.lampLit i = s.lampLevel i := by
  simp [State.lampLit, hrun, hfit]

theorem lampLit_dark (h : s.run.state = .loading ∨ s.isFitted i = false) : s.lampLit i = false := by
  rcases h with h | h <;> simp [State.lampLit, h]

/-! ## SET_BLINK (R197) -/

theorem admits_setBlink {st : RunState} : Req.admits .setBlink st = true ↔ st ≠ .loading := by
  cases st <;> decide

theorem permits_setBlink {x : Role} : Req.permits .setBlink x = true ↔ x = .supervisor := by
  cases x <;> decide

theorem bodySetBlink_rate (rate : BlinkRate) : bodySetBlink p tag (u8 (BlinkRate.num rate)) s =
    accept (s.setLamps { s.lamps with rate := rate }) (u8 (BlinkRate.num s.lamps.rate)) := by
  cases rate <;> rfl

/-- Parameters that are not one byte, or a byte above 1, are no rate. -/
theorem not_decodes_setBlink {params : List Byte} (h : params.length ≠ 1 ∨ ∃ b, params = [b] ∧ 1 < b.toNat) :
    ¬ s.decodes p .setBlink params := by
  rintro ⟨f, rfl⟩
  rcases h with hlen | ⟨b, hb, hlt⟩
  · exact hlen rfl
  · obtain rfl := (List.cons.inj hb).1
    cases f <;> simp at hlt

/-- The rate does not change what a lamp shows where the blink flag does not apply. -/
theorem lampLevel_setRate (rate : BlinkRate) (h : (s.lamp i).mode.blinks = false) :
    (s.setLamps { s.lamps with rate := rate }).lampLevel i = s.lampLevel i := by
  have hsame : (s.setLamps { s.lamps with rate := rate }).lamp i = s.lamp i := rfl
  have hsource : ∀ m, (s.setLamps { s.lamps with rate := rate }).lampSource i m = s.lampSource i m := fun _ => rfl
  have hclock : (s.setLamps { s.lamps with rate := rate }).clockOn = s.clockOn := rfl
  simp [State.lampLevel, hsame, hsource, hclock, h]

end Sys2Proof.Machine

open Sys2Proof Sys2Proof.Machine

/-- Settles O59: the request, the clocks, then the source and the level of a lamp case by case. -/
theorem setLampAndBlinkClocks : Obligations.SetLampAndBlinkClocks := by
  unfold Obligations.SetLampAndBlinkClocks
  refine ⟨fun s p i m mode blink invert tag filler cut => ?_, fun s hrst => ?_, fun s i => ?_⟩
  · intro params recs hmode hadm
    exact ⟨fun hfit => exec_accepted hadm (bodySetLamp_fitted p tag blink invert hmode hfit),
      fun hfit => exec_refused hadm (bodySetLamp_unfitted p tag blink invert hfit)⟩
  · refine ⟨fun h => ?_, fun h => ?_, fun h => ?_, fun h => ?_⟩ <;> rw [exec_blinkClockToggle hrst]
    · rw [blinkToggle_inTime (r := .slow) h]
      rfl
    · rw [blinkToggle_inTime (r := .fast) h]
      rfl
    · rw [blinkToggle_overdue (r := .slow) h]
      rfl
    · rw [blinkToggle_overdue (r := .fast) h]
      rfl
  · intro active held inSet
    have hactive : s.slotActive i = true ↔ active := slotActive_iff
    have hheld : ((s.res (genOf i)).lease.holder.isSome || (s.res (chkOf i)).lease.holder.isSome) = true ↔ held := by
      simp [held, Option.isSome_iff_ne_none]
    have hinSet : ∀ v, v ∈ s.slotVerdicts i ↔ inSet v := fun v => mem_slotVerdicts
    have hverdict : s.lampSource i .verdict = verdictSource (s.slotVerdicts i) := rfl
    refine ⟨rfl, rfl, fun hup => ⟨?_, fun ha => ?_, fun ha => ?_⟩, fun hdown => ⟨?_, ?_⟩, fun ha => ?_, fun ha => ?_,
      fun hlevel => ?_, fun hlevel hlatch => ?_, fun hlevel hlatch => ?_, fun hh => ?_, fun hh => ?_, fun hfail => ?_,
      fun hfail hmarginal => ?_, fun hsome hpass => ?_, fun hnone => ?_, fun hfail hmarginal hsome => ?_, ?_,
      lampLit_shown, lampLit_dark⟩
    · simp [State.lampSource, ofLevel_eq, hup]
    · simp [State.lampSource, hup, hactive.mpr ha]
    · simp [State.lampSource, hup, hactive, ha]
    · simp [State.lampSource, ofLevel_eq, hdown]
    · simp [State.lampSource, hdown]
    · simp [State.lampSource, ofLevel_eq, hactive.mpr ha]
    · simp [State.lampSource, ofLevel_eq, hactive, ha]
    · simp [State.lampSource, hlevel]
    · simp [State.lampSource, ofLevel_eq, hlevel, hlatch]
    · simp [State.lampSource, ofLevel_eq, hlevel, hlatch]
    · simp only [State.lampSource, ofLevel_eq, if_pos (hheld.mpr hh)]
    · simp only [State.lampSource, ofLevel_eq, if_neg (mt hheld.mp hh)]
    · rw [hverdict, verdictSource_fail ((hinSet _).mpr hfail)]
    · rw [hverdict, verdictSource_marginal (mt (hinSet _).mp hfail) ((hinSet _).mpr hmarginal)]
    · have hno : ∀ v, v ≠ .pass → v ∉ s.slotVerdicts i := fun v hne hv => hne (hpass v ((hinSet v).mp hv))
      obtain ⟨v, hv⟩ := hsome
      rw [hverdict, verdictSource_rest (hno _ (by decide)) (hno _ (by decide)),
        if_pos ⟨List.ne_nil_of_mem ((hinSet v).mpr hv), fun v hv => hpass v ((hinSet v).mp hv)⟩]
    · have hno : ∀ v, v ∉ s.slotVerdicts i := fun v hv => hnone v ((hinSet v).mp hv)
      rw [hverdict, verdictSource_rest (hno _) (hno _),
        if_neg (fun h => h.1 (List.eq_nil_iff_forall_not_mem.mpr hno))]
    · obtain ⟨v, hv, hne⟩ := hsome
      rw [hverdict, verdictSource_rest (mt (hinSet _).mp hfail) (mt (hinSet _).mp hmarginal),
        if_neg (fun h => hne (h.2 v ((hinSet v).mpr hv)))]
    · intro src flagged
      have hflag : s.flagged i ↔ flagged := and_congr_right' blinks_iff
      exact ⟨lampLevel_unlit, fun h hno => lampLevel_lit h (mt hflag.mp hno),
        fun h hyes => lampLevel_flagged h (hflag.mpr hyes), fun _ => lampLevel_blinking⟩

/-- Settles O60: run state, role, parameters, then the change of the rate and the lamps that do not see it. -/
theorem setBlinkReplacesTheRate : Obligations.SetBlinkReplacesTheRate := by
  unfold Obligations.SetBlinkReplacesTheRate
  intro s p tag params filler cut htaken answers
  refine ⟨fun hloading => ?_, fun hloaded hrole => ?_, fun hloaded hrole => ?_⟩
  · exact exec_wrongState (r := .setBlink) htaken (by rw [hloading]; rfl)
  · exact exec_notPermitted (r := .setBlink) htaken (admits_setBlink.mpr hloaded)
      (Bool.eq_false_iff.mpr (mt permits_setBlink.mp hrole))
  · have hadm := admitted_of_taken htaken (admits_setBlink.mpr hloaded) (permits_setBlink.mpr hrole)
    refine ⟨fun hbad => exec_badParam hadm (not_decodes_setBlink p hbad) nofun, ?_⟩
    rintro rate rfl
    refine ⟨exec_accepted hadm (bodySetBlink_rate p tag rate), fun i => ⟨fun hmode => ?_, fun hblinks hblink hlit => ?_⟩⟩
    · have hoff : (s.lamp i).mode.blinks = false := by
        rcases hmode with h | h | h <;> rw [h] <;> rfl
      simp only [State.lampLit, lampLevel_setRate rate hoff]
      rfl
    · exact lampLevel_flagged (s := s.setLamps { s.lamps with rate := rate }) hlit ⟨hblink, hblinks⟩

end

