-- ==== Sys2Proof/Proofs/PostQueue.lean ====
section
/-! SUPPORT. Sys2Proof/Proofs/PostQueue.lean: the Commit Engine's choice (R141) and the request READ_VERDICT (R153, R154). -/

namespace Sys2Proof.Machine

variable {s : State}

/-! ## The Commit Engine's choice -/

/-- An idle engine with a result to take. -/
theorem takeCommit_takes {n : Nat} (hidle : s.post.commit = none) (hnext : s.nextCommit = some n) : s.takeCommit =
    (s.setPost { s.post with
      ordinary := s.post.ordinary.map (markInFlight n)
      recallBuf := s.post.recallBuf.map (markInFlight n)
      commit := some { takenAt := s.now, delay := min 2 (Config.commitDelay s.freeIndex) } }).nextFree := by
  simp only [State.takeCommit, hidle, hnext]

theorem takeCommit_nothing (hidle : s.post.commit = none) (hnext : s.nextCommit = none) : s.takeCommit = s := by
  simp only [State.takeCommit, hidle, hnext]

/-- A busy engine takes nothing. -/
theorem takeCommit_busy {c : CommitClock} (h : s.post.commit = some c) : s.takeCommit = s := by
  simp only [State.takeCommit, h]

theorem nextCommit_recall {q : Posted} (h : s.post.recallBuf = some q) : s.nextCommit = some q.serial := by
  simp only [State.nextCommit, h]

theorem nextCommit_promoted {older younger : List Posted} {q : Posted} (hrecall : s.post.recallBuf = none)
    (hqueue : s.post.ordinary = older ++ q :: younger) (hq : q.promoted = true)
    (holder : ∀ x ∈ older, x.promoted = false) : s.nextCommit = some q.serial := by
  have hfind : (older ++ q :: younger).find? (fun x => x.promoted) = some q := by
    rw [List.find?_append, List.find?_eq_none.mpr (fun x hx => by simp [holder x hx])]
    simp [hq]
  simp only [State.nextCommit, hrecall, hqueue, hfind]

theorem nextCommit_oldest {younger : List Posted} {q : Posted} (hrecall : s.post.recallBuf = none)
    (hqueue : s.post.ordinary = q :: younger) (hnone : ∀ x ∈ s.post.ordinary, x.promoted = false) :
    s.nextCommit = some q.serial := by
  have hfind : s.post.ordinary.find? (fun x => x.promoted) = none :=
    List.find?_eq_none.mpr (fun x hx => by simp [hnone x hx])
  simp only [State.nextCommit, hrecall, hfind]
  rw [hqueue]
  rfl

theorem markInFlight_same (q : Posted) : markInFlight q.serial q = { q with inFlight := true } := if_pos rfl

theorem markInFlight_other {n : Nat} {q : Posted} (h : q.serial ≠ n) : markInFlight n q = q := if_neg h

/-- Among results of distinct serials the mark reaches the one with the serial alone. -/
theorem map_markInFlight {older younger : List Posted} {q : Posted}
    (h : ((older ++ q :: younger).map (fun x => x.serial)).Nodup) :
    (older ++ q :: younger).map (markInFlight q.serial) = older ++ { q with inFlight := true } :: younger := by
  simp only [List.map_append, List.map_cons, List.nodup_append, List.nodup_cons] at h
  obtain ⟨-, ⟨hyounger, -⟩, hdisjoint⟩ := h
  have hkeep : ∀ l : List Posted, (∀ x ∈ l, x.serial ≠ q.serial) → l.map (markInFlight q.serial) = l :=
    fun l hl => (List.map_congr_left fun x hx => markInFlight_other (hl x hx)).trans (List.map_id _)
  rw [List.map_append, List.map_cons, markInFlight_same, hkeep older, hkeep younger]
  · intro x hx heq
    exact hyounger (List.mem_map.mpr ⟨x, hx, heq⟩)
  · intro x hx heq
    exact hdisjoint x.serial (List.mem_map.mpr ⟨x, hx, rfl⟩) q.serial (by simp) heq

/-! ## READ_VERDICT -/

section

variable {l : LinkId} {c : DirChoice} {n : Fin 3} (p : PortId) (tag : Byte)

/-- The results in the queue whose records a READ_VERDICT reads (R154). -/
def State.flushSet (s : State) (l : LinkId) (c : DirChoice) : List Posted :=
  s.posted.filter (fun q => decide (q.result.link = l) && c.covers q.result.dir)

theorem flushSet_eq_nil_iff : s.flushSet l c = [] ↔
    ∀ q ∈ s.posted, (decide (q.result.link = l) && c.covers q.result.dir) = false := by
  simp [State.flushSet, List.filter_eq_nil_iff]

/-- What the rule does with a link of the map. -/
theorem bodyReadVerdict_eq (flush : Bool) (hchoice : dirChoiceOf (BitVec.ofNat 8 n.val) = some c)
    (hlink : (s.link l).isSome = true) :
    bodyReadVerdict p tag (u8 l.val ++ u8 n.val ++ enFlag flush) s =
      if flush && !(s.flushSet l c).isEmpty then
        ((s.setPost { s.post with ordinary := s.post.ordinary.map (promote l c) }).setSlot p
          (.working Req.readVerdict.code tag
            (some { link := l, dirs := c, members := (s.flushSet l c).map (fun q => q.serial) })), none)
      else (s, some (s.verdictReply l c)) := by
  simp only [bodyReadVerdict, u8, enFlag, List.cons_append, List.nil_append, idxOf_byte (show 128 ≤ 256 by omega),
    hchoice, flagOf_byte, hlink, if_true]
  rfl

theorem bodyReadVerdict_answers {flush : Bool} (hchoice : dirChoiceOf (BitVec.ofNat 8 n.val) = some c)
    (hlink : (s.link l).isSome = true) (hnow : flush = false ∨ s.flushSet l c = []) :
    bodyReadVerdict p tag (u8 l.val ++ u8 n.val ++ enFlag flush) s = (s, some (s.verdictReply l c)) := by
  rw [bodyReadVerdict_eq p tag flush hchoice hlink, if_neg]
  rcases hnow with h | h <;> simp [h]

theorem bodyReadVerdict_waits (hchoice : dirChoiceOf (BitVec.ofNat 8 n.val) = some c)
    (hlink : (s.link l).isSome = true) (hset : s.flushSet l c ≠ []) :
    bodyReadVerdict p tag (u8 l.val ++ u8 n.val ++ enFlag true) s =
      ((s.setPost { s.post with ordinary := s.post.ordinary.map (promote l c) }).setSlot p
        (.working Req.readVerdict.code tag
          (some { link := l, dirs := c, members := (s.flushSet l c).map (fun q => q.serial) })), none) := by
  rw [bodyReadVerdict_eq p tag true hchoice hlink, if_pos]
  simpa using hset

end

end Sys2Proof.Machine

open Sys2Proof Sys2Proof.Machine

/-- Settles O57. -/
theorem engineTakesRecallThenPromotedThenOldest : Obligations.EngineTakesRecallThenPromotedThenOldest := by
  unfold Obligations.EngineTakesRecallThenPromotedThenOldest
  intro s hidle
  refine ⟨fun q hrecall => ?_, fun older q younger hrecall hqueue hdistinct hchoice => ?_, fun hrecall hempty => ?_⟩
  · rw [takeCommit_takes hidle (nextCommit_recall hrecall), ← markInFlight_same]
    simp [hrecall]
  · have hnext : s.nextCommit = some q.serial := by
      rcases hchoice with ⟨hq, holder⟩ | ⟨rfl, hnone⟩
      · exact nextCommit_promoted hrecall hqueue hq holder
      · exact nextCommit_oldest hrecall hqueue hnone
    rw [takeCommit_takes hidle hnext]
    refine ⟨?_, rfl⟩
    rw [hqueue] at hdistinct
    rw [← map_markInFlight hdistinct, ← hqueue]
    rfl
  · exact takeCommit_nothing hidle (by simp [State.nextCommit, hrecall, hempty])

/-- Settles O55: by whether the request asks for a flush and its flush set is empty. -/
theorem readVerdictAnswersOrWaits : Obligations.ReadVerdictAnswersOrWaits := by
  unfold Obligations.ReadVerdictAnswersOrWaits
  intro s p l c n flush tag filler cut params inSet hchoice hlink hadm
  constructor
  · intro hnow
    have hnow' : flush = false ∨ (s.working .readVerdict p tag).flushSet l c = [] :=
      hnow.imp_right flushSet_eq_nil_iff.mpr
    exact exec_admitted hadm (bodyReadVerdict_answers p tag hchoice hlink hnow')
  · rintro rfl ⟨q, hq, hin⟩
    have hset : (s.working .readVerdict p tag).flushSet l c ≠ [] := fun hnil => by
      simp only [inSet] at hin
      rw [flushSet_eq_nil_iff.mp hnil q hq] at hin
      contradiction
    exact exec_admitted_waits hadm (bodyReadVerdict_waits p tag hchoice hlink hset)

end

