-- ==== Sys2Proof/Proofs/RunBegins.lean ====
section
/-! SUPPORT. Sys2Proof/Proofs/RunBegins.lean: RUN_START and RELOAD (R23, R30): what each makes of the hub, record by record,
and the answers of the two requests. -/

namespace Sys2Proof.Machine

variable {s : State} {p : PortId} {tag : Byte} {l : LinkId} {d : Dir}

/-! ## The records at RUN_START (R158) -/

/-- A record of the table as RUN_START leaves it. -/
def State.startRecord (s : State) (l : LinkId) (d : Dir) : Option VerdictRecord :=
  match s.link l with
  | some k => if k.state = .withdrawn then s.record l d else (s.record l d).map (fun _ => VerdictRecord.untested k.lanes)
  | none => s.record l d

/-- One link's part of RUN_START. -/
def State.startLink (u : State) (l : LinkId) : State :=
  match u.link l with
  | some k =>
    if k.state = .withdrawn then u
    else (u.modRecord l .fwd (fun _ => VerdictRecord.untested k.lanes)).modRecord l .rev
      (fun _ => VerdictRecord.untested k.lanes)
  | none => u

theorem startLink_spec (l : LinkId) : ∃ tb, s.startLink l = s.setTable tb ∧ tb.coverage = s.table.coverage
    ∧ ∀ m d, (s.startLink l).record m d = if m = l then s.startRecord l d else s.record m d := by
  unfold State.startLink State.startRecord
  split
  · next k hk =>
    split
    · refine ⟨s.table, rfl, rfl, fun m d => ?_⟩
      split
      · next h => rw [h]
      · rfl
    · refine ⟨_, rfl, rfl, fun m d => ?_⟩
      by_cases h : m = l
      · subst h
        rw [if_pos rfl]
        cases d with
        | fwd => rw [record_modRecord_other (Or.inr (by decide)), record_modRecord_same]
        | rev => rw [record_modRecord_same, record_modRecord_other (Or.inr (by decide))]
      · rw [if_neg h, record_modRecord_other (Or.inl h), record_modRecord_other (Or.inl h)]
  · refine ⟨s.table, rfl, rfl, fun m d => ?_⟩
    split
    · next h => rw [h]
    · rfl

/-- The links taken one after another. -/
theorem foldl_startLink_spec (ls : List LinkId) : ∃ tb, ls.foldl State.startLink s = s.setTable tb
    ∧ tb.coverage = s.table.coverage
    ∧ ∀ m d, (ls.foldl State.startLink s).record m d = if m ∈ ls then s.startRecord m d else s.record m d := by
  induction ls generalizing s with
  | nil => exact ⟨s.table, rfl, rfl, fun m d => by simp⟩
  | cons a ls ih =>
    obtain ⟨tb, hstep, hcov, hrec⟩ := startLink_spec (s := s) a
    obtain ⟨tb', hrest, hcov', hrec'⟩ := ih (s := s.startLink a)
    refine ⟨tb', ?_, ?_, fun m d => ?_⟩
    · rw [List.foldl_cons, hrest, hstep]
      rfl
    · rw [hcov', hstep, setTable_table, hcov]
    · rw [List.foldl_cons, hrec']
      have hlink : (s.startLink a).link m = s.link m := by rw [hstep]; rfl
      have hstart : (s.startLink a).startRecord m d = s.startRecord m d := by
        unfold State.startRecord
        rw [hlink, hrec]
        by_cases h : m = a
        · subst h
          rw [if_pos rfl, State.startRecord]
          cases s.link m with
          | none => rfl
          | some k =>
            by_cases hw : k.state = .withdrawn
            · simp [hw]
            · simp [hw, Function.comp_def]
        · rw [if_neg h]
      rw [hstart, hrec]
      by_cases h : m ∈ ls <;> by_cases h' : m = a <;> simp [h, h']

theorem startTable_spec : ∃ tb, s.startTable = s.setTable tb ∧ tb.coverage = 0
    ∧ ∀ m d, (s.setTable tb).record m d = s.startRecord m d := by
  obtain ⟨tb, hfold, -, hrec⟩ := foldl_startLink_spec (s := s) allLinks
  have hstart : s.startTable = (s.setTable tb).setTable { tb with coverage := 0 } := by
    have hunfold : s.startTable = (allLinks.foldl State.startLink s).setTable
        { (allLinks.foldl State.startLink s).table with coverage := 0 } := by
      unfold State.startTable
      generalize allLinks = ls
      rfl
    rw [hunfold, hfold]
    rfl
  refine ⟨{ tb with coverage := 0 }, hstart, rfl, fun m d => ?_⟩
  rw [hfold] at hrec
  rw [← (hrec m d).trans (if_pos (List.mem_finRange m))]
  cases d <;> rfl

/-! ## The evaluation of the flag on an empty count -/

/-- With a coverage count of 0 the coverage-complete flag is clear and nothing is noticed (R32). -/
theorem evalCoverage_of_zero (h : s.table.coverage = 0) :
    s.evalCoverage = s.setRun { s.run with complete := false } := by
  have hfull : decide (0 < s.targetLinks ∧ s.table.coverage = 2 * s.targetLinks) = false := by
    rw [h, decide_eq_false_iff_not]
    omega
  simp only [State.evalCoverage, hfull, Bool.false_and, Bool.false_eq_true, if_false]

/-! ## RUN_START (R23) and RELOAD (R30) -/

/-- What RUN_START makes of the hub. -/
theorem startRun_spec (s : State) : ∃ tb, tb.coverage = 0 ∧ (∀ m d, (s.setTable tb).record m d = s.startRecord m d)
    ∧ s.startRun = { s with
      run := { state := .running, number := min 65535 (s.run.number + 1), aborted := false,
               time := .counting s.nowMs, counters := RunCounters.zero, complete := false }
      eng := { s.eng with wins := Table.fill 8 none }
      sems := Table.fill 8 Semaphore.clear
      caps := Table.each Capture.clear s.caps
      wd := { s.wd with sync := Table.fill 4 .none }
      table := tb
      ports := Table.each (fun x => x.setSets (x.notices ||| Notice.runState.one) x.enables) s.ports } := by
  obtain ⟨tb, htable, hcov, hrec⟩ := startTable_spec (s := s.setRun { s.run with
    number := satAdd max16 s.run.number 1, aborted := false, counters := RunCounters.zero,
    time := .counting s.nowMs })
  refine ⟨tb, hcov, fun m d => ?_, ?_⟩
  · have h := hrec m d
    cases d <;> exact h
  · unfold State.startRun
    dsimp only
    rw [htable, State.enterRunState, raiseAll_eq, evalCoverage_of_zero (by exact hcov)]
    rfl

/-- What RELOAD makes of the hub. -/
theorem reloadMap_eq (s : State) : s.reloadMap = { s with
    run := { state := .loading, number := s.run.number, aborted := false, time := .stopped 0,
             counters := RunCounters.zero, complete := false }
    eng := { s.eng with wins := Table.fill 8 none }
    sems := Table.fill 8 Semaphore.clear
    caps := Table.each Capture.clear s.caps
    wd := { s.wd with sync := Table.fill 4 .none }
    map := LinkMap.empty
    table := VerdictTable.vacant
    loader := { stage := .header, noted := [], report := LoadReport.cleared }
    faults := Table.each (fun f => { f with qualifying := none }) s.faults
    ports := Table.each (fun x => x.setSets (x.notices ||| Notice.runState.one) x.enables) s.ports } := by
  unfold State.reloadMap
  dsimp only
  rw [State.enterRunState, raiseAll_eq]
  rfl

/-- The port's own record after an answer: the slot alone has changed. -/
theorem port_answer (t : State) (code : Byte) (y : Reply) (q : PortId) : (t.answer p code tag y).port q =
    if q = p then { t.port p with slot := .answered (responseFrame y code tag) } else t.port q :=
  port_modPort ..

theorem answer_slot (t : State) (code : Byte) (y : Reply) :
    ((t.answer p code tag y).port p).slot = .answered (responseFrame y code tag) := port_setSlot_self _

/-- An answer touches neither role, nor sets, nor the attention line of any port. -/
theorem port_answer_sets (t : State) (code : Byte) (y : Reply) (q : PortId) :
    ((t.answer p code tag y).port q).notices = (t.port q).notices
    ∧ ((t.answer p code tag y).port q).enables = (t.port q).enables
    ∧ ((t.answer p code tag y).port q).role = (t.port q).role
    ∧ ((t.answer p code tag y).port q).attention = (t.port q).attention := by
  rw [port_answer]
  split
  · next h =>
    subst h
    exact ⟨rfl, rfl, rfl, rfl⟩
  · exact ⟨rfl, rfl, rfl, rfl⟩

/-- The taking of a request touches neither role, nor sets, nor the attention line of any port. -/
theorem port_working_fields (r : Req) (q : PortId) :
    ((s.working r p tag).port q).notices = (s.port q).notices
    ∧ ((s.working r p tag).port q).enables = (s.port q).enables
    ∧ ((s.working r p tag).port q).role = (s.port q).role
    ∧ ((s.working r p tag).port q).attention = (s.port q).attention := by
  by_cases h : q = p
  · subst h
    rw [working_port]
    exact ⟨rfl, rfl, rfl, rfl⟩
  · rw [working_port_other h]
    exact ⟨rfl, rfl, rfl, rfl⟩

/-- A request that raised a kind on every port: after its answer each port has the kind, its enables and its role. -/
theorem port_answer_raised {t : State} {r : Req} {k : Notice} (code : Byte) (y : Reply) (q : PortId)
    (hports : t.ports =
      Table.each (fun x => x.setSets (x.notices ||| k.one) x.enables) (s.working r p tag).ports) :
    ((t.answer p code tag y).port q).notices = (s.port q).notices ||| k.one
    ∧ ((t.answer p code tag y).port q).enables = (s.port q).enables
    ∧ ((t.answer p code tag y).port q).role = (s.port q).role := by
  have hq : t.port q = ((s.working r p tag).port q).setSets (((s.working r p tag).port q).notices ||| k.one)
      ((s.working r p tag).port q).enables := by
    rw [State.port, hports, Table.rd_each]
    rfl
  obtain ⟨hnotices, henables, hrole, -⟩ := port_answer_sets (p := p) (tag := tag) t code y q
  obtain ⟨hnotices', henables', hrole', -⟩ := port_working_fields (s := s) (p := p) (tag := tag) r q
  rw [hnotices, henables, hrole, hq, ← hnotices', ← henables', ← hrole']
  exact ⟨rfl, rfl, rfl⟩

end Sys2Proof.Machine

open Sys2Proof Sys2Proof.Machine

/-- Settles O15. -/
theorem runStartBeginsARun : Obligations.RunStartBeginsARun := by
  unfold Obligations.RunStartBeginsARun
  intro s p tag filler cut hadm
  obtain ⟨tb, hcov, hrec, hstart⟩ := startRun_spec (s.working .runStart p tag)
  have hbody : Req.runStart.body p tag [] (s.working .runStart p tag) =
      accept (s.working .runStart p tag).startRun (u16 (s.working .runStart p tag).startRun.run.number) := rfl
  refine ⟨_, exec_accepted hadm hbody, ?_⟩
  rw [hstart]
  refine ⟨rfl, fun w => Table.rd_fill .., fun k => Table.rd_fill .., fun q => Table.rd_fill ..,
    fun i => Table.rd_each .., fun l d => ?_, hcov, fun q => ?_, answer_slot .., rfl⟩
  · have h := hrec l d
    cases d <;> exact h
  · exact port_answer_raised _ _ q rfl

/-- Settles O18. -/
theorem reloadStartsALoad : Obligations.ReloadStartsALoad := by
  unfold Obligations.ReloadStartsALoad
  intro s p tag filler cut hadm
  have hbody : Req.reload.body p tag [] (s.working .reload p tag) =
      accept (s.working .reload p tag).reloadMap [] := rfl
  refine ⟨_, exec_accepted hadm hbody, ?_⟩
  rw [reloadMap_eq]
  refine ⟨rfl, fun w => Table.rd_fill .., fun k => Table.rd_fill .., fun q => Table.rd_fill ..,
    fun i => Table.rd_each .., rfl, fun l d => ?_, rfl, rfl, fun i => Table.rd_each .., fun q => ?_, answer_slot .., rfl⟩
  · cases d <;> exact Table.rd_fill ..
  · exact (port_answer_raised _ _ q rfl).1

end

