-- ==== Sys2Proof/Proofs/Captures.lean ====
section
/-! SUPPORT. Sys2Proof/Proofs/Captures.lean: the requests on a capture record (R116, R117), the pulses that it counts
(R111 to R113) and its lock losses (R114). -/

namespace Sys2Proof.Machine

variable {s : State} {i : SlotId}

theorem slotIdOf_number (h : s.isFitted i = true) : s.slotIdOf (BitVec.ofNat 8 i.val) = some i :=
  slotIdOf_eq_some_iff.mpr ⟨rfl, h⟩

/-! ## Requests -/

theorem bodyReadCapture_shown (p : PortId) (tag : Byte) (hfit : s.isFitted i = true)
    (h : s.holds p (chkOf i) = true ∨ s.watches p (chkOf i) = true) : bodyReadCapture p tag (u8 i.val) s =
      accept (s.modLive i (fun v => { v with sinceRead := false })) (enCapture (s.cap i)) := by
  simp only [bodyReadCapture, u8, slotIdOf_number hfit]
  exact if_pos (by simpa using h)

theorem bodyReadCapture_notHeld (p : PortId) (tag : Byte) (hfit : s.isFitted i = true)
    (hholds : s.holds p (chkOf i) = false) (hwatches : s.watches p (chkOf i) = false) :
    bodyReadCapture p tag (u8 i.val) s = refuse s .notHeld := by
  simp only [bodyReadCapture, u8, slotIdOf_number hfit]
  exact if_neg (by simp [hholds, hwatches])

/-- SET_CAPTURE with codes in range, by the conditions in their order. -/
theorem bodySetCapture_codes (p : PortId) (tag : Byte) (hfit : s.isFitted i = true) (f : Fin 5) (g : Fin 4) :
    bodySetCapture p tag (u8 i.val ++ u8 f.val ++ u8 g.val) s =
      if !s.holds p (chkOf i) then refuse s .notHeld
      else if (s.res (chkOf i)).naming.isSome then refuse s .busy
      else accept (s.modCap i (fun c => { c with filter := f.val, prescale := g.val }))
        (u8 (s.cap i).filter ++ u8 (s.cap i).prescale) := by
  simp only [bodySetCapture, u8, List.cons_append, List.nil_append, slotIdOf_number hfit,
    idxOf_byte (show 5 ≤ 256 by omega), idxOf_byte (show 4 ≤ 256 by omega)]

/-! ## Pulses -/

/-- Two changes of the live values that agree on the record make the same state. -/
theorem modLive_congr {f g : Live → Live} (h : f (s.cap i).live = g (s.cap i).live) :
    s.modLive i f = s.modLive i g := by
  have hcap : ({ s.cap i with live := f (s.cap i).live } : Capture) = { s.cap i with live := g (s.cap i).live } := by
    rw [h]
  exact congrArg (fun c => { s with caps := Table.put s.caps i c }) hcap

theorem pulseAccept_counting {width : Nat} (hcount : (s.cap i).counting = true)
    (hwidth : minWidth (s.cap i).filter ≤ width) : s.pulseAccept i width =
      s.modLive i (fun v => v.accept (prescaler (s.cap i).prescale) (s.stampAt i)) := if_pos ⟨hcount, hwidth⟩

theorem pulseReject_counting {width : Nat} (hcount : (s.cap i).counting = true)
    (hwidth : width < minWidth (s.cap i).filter) : s.pulseReject i width = s.modLive i Live.reject :=
  if_pos ⟨hcount, hwidth⟩

theorem pulse_disabled {width : Nat} (hcount : (s.cap i).counting = false) :
    s.pulseAccept i width = s ∧ s.pulseReject i width = s := by
  constructor <;> exact if_neg (by simp [hcount])

theorem exec_errPulseAccept (hrst : s.rst = false) (width : Nat) :
    exec (.errPulseAccept i width) s = .next (s.pulseAccept i width) := congrArg _ (live_out_of_reset hrst _)

theorem exec_errPulseReject (hrst : s.rst = false) (width : Nat) :
    exec (.errPulseReject i width) s = .next (s.pulseReject i width) := congrArg _ (live_out_of_reset hrst _)

theorem accept_residue {v : Live} {n t : Nat} (h : v.residue + 1 < n) : v.accept n t =
    { v with accepted := min 4294967295 (v.accepted + 1), residue := v.residue + 1 } :=
  if_neg (Nat.not_le.mpr h)

theorem accept_strobe {v : Live} {n t : Nat} (h : n ≤ v.residue + 1) : v.accept n t =
    { v with
      accepted := min 4294967295 (v.accepted + 1)
      residue := 0
      strobes := min 4294967295 (v.strobes + 1)
      first := some (v.first.getD t)
      last := some t
      sinceRead := true
      overcapture := v.overcapture || v.sinceRead } := by
  refine (if_pos h).trans ?_
  cases hfirst : v.first <;> simp [Live.strobe, satAdd, max32]

/-! ## Lock losses -/

theorem exec_lnkFall_live (hrst : s.rst = false) (hup : s.lnkUp i = true) :
    exec (.lnkFall i) s = .next ((s.setLnk i false).lnkFell i) := by
  rw [exec_lnkFall_falls hup]
  exact congrArg _ (live_out_of_reset (s := s.setLnk i false) hrst _)

theorem lnkFell_disabled (h : (s.cap i).counting = false) : s.lnkFell i = s := if_neg (by simp [h])

variable {w : WinId} {x : Window}

theorem lnkFell_goes_on (hcount : (s.cap i).counting = true) (hrec : (s.cap i).receiving = some w)
    (hwin : s.win w = some x) (h : ¬ (x.stopOnLockLoss = true ∧ x.state = .dwell)) :
    s.lnkFell i = s.modLive i Live.lockLoss := by
  simp only [State.lnkFell, hcount, hrec, hwin, if_true]
  exact if_neg h

theorem lnkFell_stops (hcount : (s.cap i).counting = true) (hrec : (s.cap i).receiving = some w)
    (hwin : s.win w = some x) (h : x.stopOnLockLoss = true ∧ x.state = .dwell) :
    s.lnkFell i = (s.modLive i Live.lockLoss).stopWindow w .lockLoss := by
  simp only [State.lnkFell, hcount, hrec, hwin, if_true]
  exact if_pos h

theorem cap_modLive_same (f : Live → Live) : (s.modLive i f).cap i = { s.cap i with live := f (s.cap i).live } := by
  rw [State.modLive, cap_modCap, if_pos rfl]

/-- A stop leaves the live values of every capture record. -/
theorem Stopped.live {t : State} {c : EndCause} (h : Stopped s w x c t) (j : SlotId) :
    (t.cap j).live = (s.cap j).live := by
  rw [h.caps]
  split <;> rfl

/-- A stop leaves the levels of LNK. -/
theorem Stopped.lnkUp {t : State} {c : EndCause} (h : Stopped s w x c t) (j : SlotId) : t.lnkUp j = s.lnkUp j := by
  rw [h.frame]
  rfl

end Sys2Proof.Machine

open Sys2Proof Sys2Proof.Machine

/-- Settles O46. -/
theorem captureRequestsActOnTheSlot : Obligations.CaptureRequestsActOnTheSlot := by
  unfold Obligations.CaptureRequestsActOnTheSlot
  intro s p i tag filler cut hfit
  refine ⟨fun h => ⟨fun hpart => ?_, fun hholds hwatches => ?_⟩, fun f g h => ⟨fun hholds hnaming => ?_,
    fun hholds hnaming => ?_, fun hholds => ?_⟩⟩
  · exact exec_accepted h (bodyReadCapture_shown p tag hfit hpart)
  · exact exec_refused h (bodyReadCapture_notHeld p tag hfit hholds hwatches)
  · refine exec_accepted h ((bodySetCapture_codes (s := s.working .setCapture p tag) p tag hfit f g).trans ?_)
    simp [hholds, hnaming]
  · refine exec_refused h ((bodySetCapture_codes (s := s.working .setCapture p tag) p tag hfit f g).trans ?_)
    simp [hholds, Option.isSome_iff_ne_none, hnaming]
  · refine exec_refused h ((bodySetCapture_codes (s := s.working .setCapture p tag) p tag hfit f g).trans ?_)
    simp [hholds]

/-- Settles O47: the width of a pulse, the prescaler, and for a lock loss the receiving window decide. -/
theorem pulsesAndLockLossesAreCounted : Obligations.PulsesAndLockLossesAreCounted := by
  unfold Obligations.PulsesAndLockLossesAreCounted
  refine ⟨fun s i width hrst => ⟨fun hcount hwidth hres => ?_, fun hcount hwidth hres => ?_, fun hcount hwidth => ?_,
    fun hcount => ?_⟩, fun s i hrst => ⟨rfl, fun hdown => ?_, fun hup hcount => ?_,
    fun hup hcount w x hrec hwin => ⟨fun hgoes => ?_, fun hstops hdwell => ?_⟩⟩⟩
  · rw [exec_errPulseAccept hrst, pulseAccept_counting hcount hwidth]
    exact congrArg _ (modLive_congr (accept_residue hres))
  · rw [exec_errPulseAccept hrst, pulseAccept_counting hcount hwidth]
    exact congrArg _ (modLive_congr (accept_strobe hres))
  · rw [exec_errPulseReject hrst, pulseReject_counting hcount hwidth]
    exact congrArg _ (modLive_congr rfl)
  · obtain ⟨haccept, hreject⟩ := pulse_disabled (width := width) hcount
    rw [exec_errPulseAccept hrst, exec_errPulseReject hrst, haccept, hreject]
    exact ⟨rfl, rfl⟩
  · exact congrArg _ (if_neg (by simp [hdown]))
  · rw [exec_lnkFall_live hrst hup, lnkFell_disabled (s := s.setLnk i false) hcount]
  · rw [exec_lnkFall_live hrst hup, lnkFell_goes_on (s := s.setLnk i false) hcount hrec hwin (by simp [hgoes])]
    rfl
  · have hactive : x.state.active = true := by rw [hdwell]; rfl
    have hstop := stopWindow_spec (s := (s.setLnk i false).modLive i Live.lockLoss) .lockLoss hwin hactive
    obtain ⟨y, hy, hstate, hcause, -⟩ := hstop.window
    refine ⟨_, y, (exec_lnkFall_live hrst hup).trans (congrArg _ (lnkFell_stops hcount hrec hwin ⟨hstops, hdwell⟩)),
      ?_, hy, hstate, hcause, ?_⟩
    · rw [hstop.lnkUp]
      exact (lnkUp_setLnk s i i false).trans (if_pos rfl)
    · rw [hstop.live, cap_modLive_same]
      rfl

end

