-- ==== Sys2Proof/Proofs/Notices.lean ====
section
/-! SUPPORT. Sys2Proof/Proofs/Notices.lean: which notices the operations that raise them leave on a port (R184), and
that the answer of a request and its taking leave them all. -/

namespace Sys2Proof.Machine

variable {s t : State} {p q : PortId} {k m : Notice}

/-! ## Sets of ports -/

theorem has_add (ps : PortSet) (p q : PortId) : PortSet.has (PortSet.add ps p) q = (PortSet.has ps q || decide (q = p)) := by
  have hp := p.isLt
  simp only [PortSet.has, PortSet.add, BitVec.getLsbD_or, BitVec.getLsbD_twoPow, hp, decide_true, Bool.true_and,
    Fin.ext_iff, eq_comm]

theorem has_drop (ps : PortSet) (p q : PortId) : PortSet.has (PortSet.drop ps p) q = (PortSet.has ps q && !decide (q = p)) := by
  have hp := p.isLt
  have hq := q.isLt
  simp only [PortSet.has, PortSet.drop, BitVec.getLsbD_and, BitVec.getLsbD_not, BitVec.getLsbD_twoPow, hp, hq,
    decide_true, Bool.true_and, Fin.ext_iff, eq_comm]

theorem has_zero (q : PortId) : PortSet.has 0 q = false := by simp [PortSet.has]

theorem portSet_ext {ps qs : PortSet} (h : ∀ q, PortSet.has ps q = PortSet.has qs q) : ps = qs :=
  BitVec.eq_of_getLsbD_eq fun i hi => h ⟨i, hi⟩

/-- The ports with a property, gathered port by port. -/
theorem has_gathered (f : PortId → Bool) (q : PortId) :
    PortSet.has (allPorts.foldl (fun ps p => if f p then PortSet.add ps p else ps) 0) q = f q := by
  have hfold : ∀ (l : List PortId) (ps : PortSet),
      PortSet.has (l.foldl (fun ps p => if f p then PortSet.add ps p else ps) ps) q
        = (PortSet.has ps q || (decide (q ∈ l) && f q)) := by
    intro l
    induction l with
    | nil => simp
    | cons p l ih =>
      intro ps
      rw [List.foldl_cons, ih]
      by_cases hq : q = p
      · subst hq
        cases hf : f q <;> simp [has_add]
      · split <;> simp [has_add, hq]
  rw [hfold, has_zero]
  simp [allPorts]

/-! ## Notices -/

theorem one_getLsbD (k m : Notice) : k.one.getLsbD m.bit = decide (k = m) := by
  cases k <;> cases m <;> decide

/-- A port whose notice set has had a kind added. -/
theorem noticed_of_added (h : (t.port p).notices = (s.port p).notices ||| k.one) :
    t.noticed p m = (s.noticed p m || decide (k = m)) := by
  simp only [State.noticed, h, BitVec.getLsbD_or, one_getLsbD]

theorem noticed_of_same (h : (t.port p).notices = (s.port p).notices) : t.noticed p m = s.noticed p m := by
  simp only [State.noticed, h]

theorem noticed_raise (s : State) (p q : PortId) (k m : Notice) :
    (s.raise q k).noticed p m = (s.noticed p m || (decide (p = q) && decide (k = m))) := by
  by_cases h : p = q
  · subst h
    rw [noticed_of_added (s := s) (k := k)]
    · simp
    · exact congrArg AgentPort.notices (port_modPort_same _)
  · rw [noticed_of_same (s := s)]
    · simp [h]
    · exact congrArg AgentPort.notices ((port_modPort s q p _).trans (if_neg h))

@[simp] theorem noticed_answer (t : State) (code tag : Byte) (y : Reply) :
    (t.answer p code tag y).noticed q m = t.noticed q m := noticed_of_same (port_answer_sets t code y q).1

@[simp] theorem noticed_working (r : Req) (tag : Byte) : (s.working r p tag).noticed q m = s.noticed q m :=
  noticed_of_same (port_working_fields r q).1

/-- A kind raised on every port of a set. -/
theorem noticed_raiseOn (s : State) (ps : PortSet) (k m : Notice) (p : PortId) :
    (s.raiseOn ps k).noticed p m = (s.noticed p m || (PortSet.has ps p && decide (k = m))) := by
  have hfold : ∀ (l : List PortId) (u : State), (l.foldl (fun t q => if PortSet.has ps q then t.raise q k else t) u).noticed p m
      = (u.noticed p m || (decide (p ∈ l) && PortSet.has ps p && decide (k = m))) := by
    intro l
    induction l with
    | nil => simp
    | cons q l ih =>
      intro u
      rw [List.foldl_cons, ih]
      by_cases hq : p = q
      · subst hq
        cases hps : PortSet.has ps p <;> cases hk : decide (k = m) <;> simp_all [noticed_raise]
      · split <;> simp [noticed_raise, hq]
  exact (hfold allPorts s).trans (by simp [allPorts])

/-! ## The stop of a window -/

variable {w : WinId} {x : Window} {c : EndCause}

/-- A stop tells the owner, but at an eviction. -/
theorem Stopped.noticed (h : Stopped s w x c t) (hc : c ≠ .evicted) : t.noticed x.owner .windowEnd = true := by
  have hport := h.ports x.owner
  rw [if_pos ⟨rfl, hc⟩] at hport
  rw [noticed_of_added (s := s) (k := .windowEnd) (congrArg AgentPort.notices hport)]
  simp

/-! ## Ports that lose nothing -/

/-- From `s` to `t` the ports gain notices at most: every port keeps its role, enable set, slot and transaction. -/
def State.portsGrow (t s : State) : Prop :=
  ∀ p, ∃ (ks : NoticeSet) (a : Bool), t.port p = { s.port p with notices := (s.port p).notices ||| ks, attention := a }

theorem portsGrow_refl (s : State) : s.portsGrow s := fun p => ⟨0, (s.port p).attention, by simp⟩

theorem portsGrow_of_ports (h : t.ports = s.ports) : t.portsGrow s := by
  intro p
  rw [show t.port p = s.port p from congrArg (Table.rd · p) h]
  exact portsGrow_refl s p

theorem State.portsGrow.trans {u : State} (h : t.portsGrow s) (h' : u.portsGrow t) : u.portsGrow s := by
  intro p
  obtain ⟨ks, a, hp⟩ := h p
  obtain ⟨ks', a', hp'⟩ := h' p
  exact ⟨ks ||| ks', a', by rw [hp', hp, BitVec.or_assoc]⟩

theorem raise_portsGrow (s : State) (p : PortId) (k : Notice) : (s.raise p k).portsGrow s := by
  intro q
  have hport := port_modPort s p q (fun x => x.setSets (x.notices ||| k.one) x.enables)
  by_cases h : q = p
  · subst h
    exact ⟨k.one, _, hport.trans (if_pos rfl)⟩
  · obtain ⟨ks, a, hq⟩ := portsGrow_refl s q
    exact ⟨ks, a, (hport.trans (if_neg h)).trans hq⟩

theorem raiseAll_portsGrow (s : State) (k : Notice) : (s.raiseAll k).portsGrow s := by
  intro p
  rw [raiseAll_eq]
  exact ⟨k.one, _, Table.rd_each _ _ p⟩

theorem raiseOn_portsGrow (s : State) (ps : PortSet) (k : Notice) : (s.raiseOn ps k).portsGrow s := by
  have hfold : ∀ (l : List PortId) (u : State),
      (l.foldl (fun t p => if PortSet.has ps p then t.raise p k else t) u).portsGrow u := by
    intro l
    induction l with
    | nil => exact portsGrow_refl
    | cons p l ih =>
      intro u
      refine State.portsGrow.trans ?_ (ih _)
      dsimp only
      split
      · exact raise_portsGrow u p k
      · exact portsGrow_refl u
  exact hfold allPorts s

theorem evalCoverage_portsGrow (s : State) : s.evalCoverage.portsGrow s := by
  unfold State.evalCoverage
  dsimp only
  split
  · exact raiseAll_portsGrow _ _
  · exact portsGrow_refl s

/-- Ports that lose nothing keep their notices. -/
theorem State.portsGrow.noticed (h : t.portsGrow s) (hm : s.noticed p m = true) : t.noticed p m = true := by
  obtain ⟨ks, a, hp⟩ := h p
  simp only [State.noticed] at hm ⊢
  rw [hp, BitVec.getLsbD_or, hm]
  rfl

theorem State.portsGrow.role (h : t.portsGrow s) (p : PortId) : (t.port p).role = (s.port p).role := by
  obtain ⟨ks, a, hp⟩ := h p
  rw [hp]

theorem State.portsGrow.enables (h : t.portsGrow s) (p : PortId) : (t.port p).enables = (s.port p).enables := by
  obtain ⟨ks, a, hp⟩ := h p
  rw [hp]

theorem State.portsGrow.slot (h : t.portsGrow s) (p : PortId) : (t.port p).slot = (s.port p).slot := by
  obtain ⟨ks, a, hp⟩ := h p
  rw [hp]

theorem Stopped.portsGrow (h : Stopped s w x c t) : t.portsGrow s := by
  intro p
  have hport := h.ports p
  split at hport
  · exact ⟨_, _, hport⟩
  · obtain ⟨ks, a, hp⟩ := portsGrow_refl s p
    exact ⟨ks, a, hport.trans hp⟩

/-- A raise touches the ports alone. -/
theorem raiseOn_eq (s : State) (ps : PortSet) (k : Notice) : s.raiseOn ps k = { s with ports := (s.raiseOn ps k).ports } := by
  have hfold : ∀ (l : List PortId) (u : State),
      l.foldl (fun t p => if PortSet.has ps p then t.raise p k else t) u =
        { u with ports := (l.foldl (fun t p => if PortSet.has ps p then t.raise p k else t) u).ports } := by
    intro l
    induction l with
    | nil => exact fun u => rfl
    | cons p l ih =>
      intro u
      rw [List.foldl_cons, ih]
      split <;> rfl
  exact hfold allPorts s

end Sys2Proof.Machine

end

