-- ==== Sys2Proof/Proofs/WindowOrders.lean ====
section
/-! SUPPORT. Sys2Proof/Proofs/WindowOrders.lean: the requests on a window that is there: STOP (R85), RETIME (R80) and
CLOSE_WINDOW (R96), by its owner or a SUPERVISOR and by its state. -/

namespace Sys2Proof.Machine

variable {s : State} {w : WinId} {x : Window}

/-! ## The window named -/

theorem withWindow_idle (h : s.win w = none) (f : WinId → Window → State × Option Reply) :
    s.withWindow (BitVec.ofNat 8 w.val) f = refuse s .notFound := by
  simp only [State.withWindow, idxOf_byte (show 8 ≤ 256 by omega), h]

theorem withWindow_there (h : s.win w = some x) (f : WinId → Window → State × Option Reply) :
    s.withWindow (BitVec.ofNat 8 w.val) f = f w x := by
  simp only [State.withWindow, idxOf_byte (show 8 ≤ 256 by omega), h]

theorem mayEnd_iff {p : PortId} : s.mayEnd p x = true ↔ x.owner = p ∨ (s.port p).role = .supervisor := by
  simp [State.mayEnd]

theorem mayEnd_eq_false {p : PortId} (howner : x.owner ≠ p) (hrole : (s.port p).role ≠ .supervisor) :
    s.mayEnd p x = false := by
  simp [State.mayEnd, howner, hrole]

theorem mayEnd_working {r : Req} (p q : PortId) (tag : Byte) : (s.working r p tag).mayEnd q x = s.mayEnd q x := by
  simp only [State.mayEnd, port_working]

theorem winStateNum_of (h : s.win w = some x) : s.winStateNum w = x.state.num := by
  simp only [State.winStateNum, h]

theorem active_of_phase {a : WinState} (h : a.phase = true) : a.active = true := by
  simp [WinState.active, h]

/-! ## STOP -/

variable (p : PortId) (tag : Byte) (boundary : Bool)

theorem bodyStop_idle (h : s.win w = none) : bodyStop p tag (u8 w.val ++ enFlag boundary) s = refuse s .notFound := by
  simp only [bodyStop, u8, enFlag, List.cons_append, List.nil_append, flagOf_byte]
  exact withWindow_idle h _

/-- STOP of a window that is there, by the conditions in their order. -/
theorem bodyStop_there (h : s.win w = some x) : bodyStop p tag (u8 w.val ++ enFlag boundary) s =
    if !s.mayEnd p x then refuse s .notPermitted
    else if !x.state.active then refuse s .wrongState
    else
      let t := if boundary && x.state.phase then s.modWin w (fun y => { y with boundaryStop := true })
        else s.stopWindow w .stopNow
      accept t (u8 (t.winStateNum w)) := by
  simp only [bodyStop, u8, enFlag, List.cons_append, List.nil_append, flagOf_byte]
  exact withWindow_there h _

variable {p tag boundary}

theorem bodyStop_notPermitted (h : s.win w = some x) (hmay : s.mayEnd p x = false) :
    bodyStop p tag (u8 w.val ++ enFlag boundary) s = refuse s .notPermitted := by
  rw [bodyStop_there p tag boundary h]
  exact if_pos (by simp [hmay])

theorem bodyStop_ended (h : s.win w = some x) (hmay : s.mayEnd p x = true) (hended : x.state.active = false) :
    bodyStop p tag (u8 w.val ++ enFlag boundary) s = refuse s .wrongState := by
  rw [bodyStop_there p tag boundary h]
  simp [hmay, hended]

/-- A BOUNDARY stop of a window in a phase state only marks it. -/
theorem bodyStop_marks (h : s.win w = some x) (hmay : s.mayEnd p x = true) (hphase : x.state.phase = true) :
    bodyStop p tag (u8 w.val ++ enFlag true) s =
      accept (s.setWin w (some { x with boundaryStop := true })) (u8 x.state.num) := by
  have hmarked : (s.setWin w (some { x with boundaryStop := true })).winStateNum w = x.state.num :=
    winStateNum_of (x := { x with boundaryStop := true }) ((win_setWin s w w _).trans (if_pos rfl))
  rw [bodyStop_there p tag true h]
  simp only [hmay, active_of_phase hphase, hphase, Bool.and_self, Bool.not_true, if_true, modWin_eq_setWin h]
  simp only [Bool.false_eq_true, if_false, hmarked]

/-- Every other stop of an active window stops it. -/
theorem bodyStop_stops (h : s.win w = some x) (hmay : s.mayEnd p x = true) (hactive : x.state.active = true)
    (hnow : boundary = false ∨ x.state.phase = false) :
    bodyStop p tag (u8 w.val ++ enFlag boundary) s = accept (s.stopWindow w .stopNow) (u8 10) := by
  obtain ⟨y, hy, hstate, -⟩ := (stopWindow_spec .stopNow h hactive).window
  have hnum : (s.stopWindow w .stopNow).winStateNum w = 10 := by rw [winStateNum_of hy, hstate]; rfl
  have hkind : (boundary && x.state.phase) = false := by rcases hnow with hnow | hnow <;> simp [hnow]
  rw [bodyStop_there p tag boundary h]
  simp [hmay, hactive, hkind, hnum]

/-! ## RETIME -/

variable {r : Timing}

theorem bodyRetime_idle (p : PortId) (tag : Byte) (hlead : r.lead ≤ 65535) (hdwell : 1 ≤ r.dwell ∧ r.dwell ≤ 16777215)
    (hdead : r.dead ≤ 65535) (h : s.win w = none) :
    bodyRetime p tag (u8 w.val ++ enTiming r) s = refuse s .notFound := by
  have htiming : getTiming (enTiming r) = some (r, []) := by simpa using getTiming_enTiming hlead hdwell hdead []
  simp only [bodyRetime, u8, List.cons_append, List.nil_append, htiming]
  exact withWindow_idle h _

/-- RETIME of a window that is there, by the conditions in their order. -/
theorem bodyRetime_there (p : PortId) (tag : Byte) (hlead : r.lead ≤ 65535)
    (hdwell : 1 ≤ r.dwell ∧ r.dwell ≤ 16777215) (hdead : r.dead ≤ 65535) (h : s.win w = some x) :
    bodyRetime p tag (u8 w.val ++ enTiming r) s =
      if x.owner ≠ p then refuse s .notPermitted
      else if x.state.phase then accept (s.setWin w (some { x with retime := some r })) (enFlag false)
      else if x.state.active then
        accept (s.setWin w (some { x with timing := r, dwellLeft := r.dwell })) (enFlag true)
      else refuse s .wrongState := by
  have htiming : getTiming (enTiming r) = some (r, []) := by simpa using getTiming_enTiming hlead hdwell hdead []
  simp only [bodyRetime, u8, List.cons_append, List.nil_append, htiming]
  rw [withWindow_there h, modWin_eq_setWin h, modWin_eq_setWin h]

/-! ## CLOSE_WINDOW -/

theorem bodyCloseWindow_idle (p : PortId) (tag : Byte) (h : s.win w = none) :
    bodyCloseWindow p tag (u8 w.val) s = refuse s .notFound := withWindow_idle h _

/-- CLOSE_WINDOW of a window that is there, by the conditions in their order. -/
theorem bodyCloseWindow_there (p : PortId) (tag : Byte) (h : s.win w = some x) :
    bodyCloseWindow p tag (u8 w.val) s =
      if !s.mayEnd p x then refuse s .notPermitted
      else if x.state.active then refuse s .busy
      else accept (s.setWin w none) [] := withWindow_there h _

theorem active_iff {a : WinState} : a.active = true ↔ a ≠ .done ∧ a ≠ .stopped := by cases a <;> decide

end Sys2Proof.Machine

open Sys2Proof Sys2Proof.Machine

/-- Settles O38: the stop of an active window is `stopWindow_spec`. -/
theorem stopMarksOrStops : Obligations.StopMarksOrStops := by
  unfold Obligations.StopMarksOrStops
  intro s p w x boundary tag filler cut runsStop h
  have hworking := mayEnd_working (s := s) (x := x) (r := .stop) p p tag
  refine ⟨fun hidle => exec_refused h (bodyStop_idle p tag boundary hidle), fun hwin => ⟨fun howner hrole => ?_,
    fun hmay => ⟨fun hended => ?_, fun hphase hboundary => ?_, fun hactive hnow => ?_⟩⟩⟩
  · exact exec_refused h (bodyStop_notPermitted (tag := tag) hwin (hworking.trans (mayEnd_eq_false howner hrole)))
  · exact exec_refused h (bodyStop_ended (tag := tag) hwin (hworking.trans (mayEnd_iff.mpr hmay)) hended)
  · subst hboundary
    exact exec_accepted h (bodyStop_marks (tag := tag) hwin (hworking.trans (mayEnd_iff.mpr hmay)) hphase)
  · have hstop := stopWindow_spec (s := s.working .stop p tag) .stopNow hwin hactive
    obtain ⟨y, hy, hstate, hcause, -, hnamed, -⟩ := hstop.window
    refine ⟨_, y, exec_accepted h (bodyStop_stops (tag := tag) hwin (hworking.trans (mayEnd_iff.mpr hmay)) hactive hnow), hy,
      hstate, hcause, hnamed, fun r hr => ?_, hstop.others, ?_, ?_, answer_slot ..⟩
    · obtain ⟨-, -, -, -, -, hnaming⟩ := hstop.resources r
      exact hnaming.trans (if_pos hr)
    · rw [State.answerOk, noticed_answer]
      exact hstop.noticed (by decide)
    · exact congrArg (fun u => u.run.counters.windowsStopped) hstop.frame

/-- Settles O40. -/
theorem retimeAndCloseWindow : Obligations.RetimeAndCloseWindow := by
  unfold Obligations.RetimeAndCloseWindow
  constructor
  · intro s p w x r tag filler cut params hlead hlow hhigh hdead h
    have hthere := fun hwin : s.win w = some x =>
      bodyRetime_there (s := s.working .retime p tag) p tag hlead ⟨hlow, hhigh⟩ hdead hwin
    refine ⟨fun hidle => exec_refused h (bodyRetime_idle p tag hlead ⟨hlow, hhigh⟩ hdead hidle),
      fun hwin howner => exec_refused h ((hthere hwin).trans (if_pos howner)),
      fun hwin howner => ⟨fun hstate => exec_accepted h ((hthere hwin).trans ?_),
        fun hphase => exec_accepted h ((hthere hwin).trans ?_),
        fun hstate => exec_refused h ((hthere hwin).trans ?_)⟩⟩
    · rcases hstate with hstate | hstate <;> simp [howner, hstate, WinState.active, WinState.phase]
    · simp [howner, hphase]
    · rcases hstate with hstate | hstate <;> simp [howner, hstate, WinState.active, WinState.phase]
  · intro s p w tag filler cut h
    refine ⟨fun hidle => exec_refused h (bodyCloseWindow_idle p tag hidle), fun x hwin => ?_⟩
    have hthere := bodyCloseWindow_there (s := s.working .closeWindow p tag) p tag hwin
    rw [mayEnd_working] at hthere
    refine ⟨fun howner hrole => exec_refused h (hthere.trans ?_),
      fun hmay => ⟨fun hended => exec_accepted h (hthere.trans ?_),
        fun hdone hstopped => exec_refused h (hthere.trans ?_)⟩⟩
    · simp [mayEnd_eq_false howner hrole]
    · rcases hended with hended | hended <;> simp [mayEnd_iff.mpr hmay, hended, WinState.active, WinState.phase]
    · simp [mayEnd_iff.mpr hmay, active_iff.mpr ⟨hdone, hstopped⟩]

end

