-- ==== Sys2Proof/Proofs/Stopped.lean ====
section
/-! SUPPORT. Sys2Proof/Proofs/Stopped.lean: the record of a stopped window, the setup link after its stop and the
leases that its results are placed on (R83, R84, R124). -/

namespace Sys2Proof.Machine

variable {s t : State} {w : WinId} {x y : Window} {c : EndCause}

/-! ## The setup link -/

theorem kick_setup (hsetup : t.setup = s.setup) (hnow : t.now = s.now) (hmap : t.map = s.map) :
    t.kick.setup = s.kick.setup := by
  unfold State.kick
  rw [hsetup, hnow, hmap]
  cases s.setup.queue with
  | nil => exact hsetup
  | cons q rest =>
    dsimp only
    split
    · exact hsetup
    · rfl

theorem dropOutstanding_setup (hsetup : t.setup = s.setup) (hnow : t.now = s.now) (hmap : t.map = s.map) :
    (t.dropOutstanding w).setup = (s.dropOutstanding w).setup := by
  unfold State.dropOutstanding
  apply kick_setup
  · simp only [State.admitWaiting, State.setSetup, hsetup]
  · exact hnow
  · exact hmap

/-- The link starts at most one transaction and takes none off the link. -/
theorem mem_kick {q : Txn} (h : q ∈ s.kick.setup.queue) :
    ∃ u ∈ s.setup.queue, q = u ∨ q = { u with inFlight := true } := by
  unfold State.kick at h
  cases hqueue : s.setup.queue with
  | nil => rw [hqueue] at h; simp [hqueue] at h
  | cons u rest =>
    rw [hqueue] at h
    dsimp only at h
    split at h
    · rw [hqueue] at h
      exact ⟨q, h, Or.inl rfl⟩
    · rcases List.mem_cons.mp h with hq | hq
      · exact ⟨u, List.mem_cons_self, Or.inr hq⟩
      · exact ⟨q, List.mem_cons_of_mem _ hq, Or.inl rfl⟩

/-- A stopped window has no transaction left but one in flight with the discard mark, or one that waits in the group of
another window. -/
theorem dropOutstanding_leaves {q : Txn} (h : q ∈ (s.dropOutstanding w).setup.queue) (hw : q.win = w) :
    (q.inFlight = true ∧ q.discard = true) ∨ ∃ g ∈ s.setup.order, g.win ≠ w ∧ ∃ u ∈ g.group, u.win = w := by
  obtain ⟨u, hu, hq⟩ := mem_kick h
  have huw : u.win = w := by rcases hq with rfl | rfl <;> exact hw
  rcases (admitGroups_mem _ _).1 u hu with hu | ⟨g, hg, hu⟩
  · obtain ⟨v, -, hv⟩ := List.mem_filterMap.mp hu
    have hleft : u.inFlight = true ∧ u.discard = true := by
      unfold Txn.stopped at hv
      split at hv
      · split at hv
        · next hflight => obtain rfl := Option.some.inj hv; exact ⟨hflight, rfl⟩
        · cases hv
      · next hne => obtain rfl := Option.some.inj hv; exact absurd huw hne
    left
    rcases hq with rfl | rfl
    · exact hleft
    · exact ⟨rfl, hleft.2⟩
  · obtain ⟨hg, hne⟩ := List.mem_filter.mp hg
    exact Or.inr ⟨g, hg, of_decide_eq_true hne, u, hu, huw⟩

/-! ## The steps of a stop -/

/-- A window with the end of its own drive recorded, where it was driving (R84 step 1). -/
def Window.dropped (x : Window) (now : Nat) : Window :=
  { x with ownFall := if x.state.driving then some now else x.ownFall }

/-- The record of a window as its stop leaves it, but for the resources it named (R84 steps 1 to 4). -/
def Window.stopRecord (x : Window) (c : EndCause) (now losses : Nat) : Window :=
  (((x.dropped now).halted c now).keepLockLosses losses).markCause c

/-- A stop up to the placing of the results (R84 steps 1 to 4). -/
def State.haltWindow (s : State) (w : WinId) (x : Window) (c : EndCause) : State :=
  ((((((s.dropDrive w x).disableCapture x).modWin w (fun y => y.halted c s.now)).dropOutstanding w).disarm w).modWin w
    (fun y => (y.keepLockLosses (s.lossesOf x)).markCause c))

/-- A stop from the placing of the results on (R84 steps 5 and 6). -/
def State.endStop (s : State) (w : WinId) (y : Window) (owner : PortId) (c : EndCause) : State :=
  let t := (if c = EndCause.aborted then s else s.placeResults y).unnameAll w y
  let t := if c = EndCause.evicted then t else t.raise owner .windowEnd
  t.count (fun n => { n with windowsStopped := satAdd max16 n.windowsStopped 1 })

theorem dropDrive_win (h : s.win w = some x) : (s.dropDrive w x).win w = some (x.dropped s.now) := by
  obtain ⟨fall, txen, cken, wins, hdrop, -, -, hwins⟩ := dropDrive_eq s w x
  rw [hdrop]
  show Table.rd wins w = _
  rw [hwins]
  unfold Window.dropped
  split
  · exact win_modWin_some h _
  · exact h

theorem disableCapture_win (s : State) (x : Window) (v : WinId) : (s.disableCapture x).win v = s.win v := by
  obtain ⟨caps, hdisable, -⟩ := disableCapture_eq s x
  rw [hdisable]
  rfl

theorem dropOutstanding_win (s : State) (w v : WinId) : (s.dropOutstanding w).win v = s.win v := by
  obtain ⟨st, hst, -⟩ := dropOutstanding_eq s w
  rw [hst]
  rfl

theorem haltWindow_win (h : s.win w = some x) :
    (s.haltWindow w x c).win w = some (x.stopRecord c s.now (s.lossesOf x)) := by
  refine win_modWin_some ?_ _
  refine (dropOutstanding_win _ w w).trans ?_
  refine win_modWin_some ?_ _
  rw [disableCapture_win]
  exact dropDrive_win h

theorem stopWindow_steps (h : s.win w = some x) (ha : x.state.active = true) : s.stopWindow w c =
    (s.haltWindow w x c).endStop w (x.stopRecord c s.now (s.lossesOf x)) x.owner c := by
  have hwin := haltWindow_win (c := c) h
  unfold State.haltWindow at hwin
  unfold State.stopWindow
  simp only [h, ha, if_true, hwin]
  rfl

/-- Up to the placing of the results a stop touches the engine, the capture records, the setup link and the armed lists
alone. -/
theorem haltWindow_eq (s : State) (w : WinId) (x : Window) (c : EndCause) : s.haltWindow w x c = { s with
    eng := (s.haltWindow w x c).eng
    caps := (s.haltWindow w x c).caps
    setup := (s.dropOutstanding w).setup
    sems := (s.haltWindow w x c).sems } := by
  obtain ⟨fall, txen, cken, wins, hdrop, -⟩ := dropDrive_eq s w x
  obtain ⟨caps, hdisable, -⟩ := disableCapture_eq (s.dropDrive w x) x
  obtain ⟨st, hst, -⟩ :=
    dropOutstanding_eq (((s.dropDrive w x).disableCapture x).modWin w (fun y => y.halted c s.now)) w
  have hsetup : (s.dropOutstanding w).setup = st := by
    rw [← dropOutstanding_setup (t := ((s.dropDrive w x).disableCapture x).modWin w (fun y => y.halted c s.now)), hst]
    · rfl
    all_goals rw [hdisable, hdrop]; rfl
  unfold State.haltWindow
  rw [hst, hsetup, hdisable, hdrop]
  rfl

theorem endStop_win (h : s.win w = some y) (owner : PortId) :
    (s.endStop w y owner c).win w = some { y with named := [] } := by
  obtain ⟨res, hplace, -⟩ := placeResults_eq s y
  have hplaced : ∃ res', (if c = EndCause.aborted then s else s.placeResults y) = { s with dir := { s.dir with res := res' } } := by
    split
    · exact ⟨s.dir.res, rfl⟩
    · exact ⟨res, hplace⟩
  obtain ⟨res', hplaced⟩ := hplaced
  obtain ⟨res'', hnames, -⟩ := foldl_setNaming none y.named { s with dir := { s.dir with res := res' } }
  have hwin : ((if c = EndCause.aborted then s else s.placeResults y).unnameAll w y).win w = some { y with named := [] } := by
    rw [hplaced]
    unfold State.unnameAll
    rw [hnames]
    exact win_modWin_some h _
  unfold State.endStop
  dsimp only
  split
  · exact hwin
  · exact hwin

/-- The record of the stopped window. -/
theorem stopWindow_win (h : s.win w = some x) (ha : x.state.active = true) : (s.stopWindow w c).win w =
    some { x.stopRecord c s.now (s.lossesOf x) with named := [] } := by
  rw [stopWindow_steps h ha]
  exact endStop_win (haltWindow_win h) _

/-! ## What the steps from the placing of the results on leave -/

theorem endStop_setup (owner : PortId) : (s.endStop w y owner c).setup = s.setup := by
  obtain ⟨res, hplace, -⟩ := placeResults_eq s y
  have hplaced : ∃ res', (if c = EndCause.aborted then s else s.placeResults y) = { s with dir := { s.dir with res := res' } } := by
    split
    · exact ⟨s.dir.res, rfl⟩
    · exact ⟨res, hplace⟩
  obtain ⟨res', hplaced⟩ := hplaced
  obtain ⟨res'', hnames, -⟩ := foldl_setNaming none y.named { s with dir := { s.dir with res := res' } }
  unfold State.endStop State.unnameAll
  rw [hplaced, hnames]
  dsimp only
  split <;> rfl

/-- After a stop the setup link is what the drop of the window's transactions made of it. -/
theorem stopWindow_setup (h : s.win w = some x) (ha : x.state.active = true) :
    (s.stopWindow w c).setup = (s.dropOutstanding w).setup := by
  rw [stopWindow_steps h ha, endStop_setup, haltWindow_eq]

/-! ## The placing of results (R83) -/

/-- The result that a window places on a resource: the one of a direction that it receives there. -/
def State.placedOn (s : State) (x : Window) (r : ResId) (d : Dir) : Option Accumulator :=
  match x.acc d, s.receiveSlot x d with
  | some a, some i => if a.placed ∧ chkOf i = r then some a else none
  | _, _ => none

/-- A lease with a result placed on it, if there is one. -/
def Lease.placeIf (l : Lease) : Option Accumulator → Lease
  | some a => l.place a
  | none => l

theorem placeDir_lease (s : State) (x : Window) (d : Dir) (r : ResId) :
    ((s.placeDir x d).res r).lease = (s.res r).lease.placeIf (s.placedOn x r d) := by
  unfold State.placeDir State.placedOn
  cases x.acc d with
  | none => rfl
  | some a =>
    cases s.receiveSlot x d with
    | none => rfl
    | some i =>
      dsimp only
      by_cases hplaced : a.placed = true
      · rw [if_pos hplaced, res_modRes]
        by_cases hr : r = chkOf i
        · subst hr
          simp [hplaced, Lease.placeIf]
        · simp [hr, Ne.symm hr, Lease.placeIf]
      · simp [hplaced, Lease.placeIf]

theorem placedOn_congr (hmap : t.map = s.map) (x : Window) (r : ResId) (d : Dir) :
    t.placedOn x r d = s.placedOn x r d := by
  unfold State.placedOn State.receiveSlot State.link
  rw [hmap]

theorem placeDir_map (s : State) (x : Window) (d : Dir) : (s.placeDir x d).map = s.map := by
  unfold State.placeDir
  split
  · split <;> rfl
  · rfl

theorem placeResults_lease (s : State) (x : Window) (r : ResId) : ((s.placeResults x).res r).lease =
    ((s.res r).lease.placeIf (s.placedOn x r .fwd)).placeIf (s.placedOn x r .rev) := by
  unfold State.placeResults
  rw [placeDir_lease, placeDir_lease, placedOn_congr (placeDir_map s x .fwd)]

theorem endStop_lease (hc : c ≠ .aborted) (owner : PortId) (r : ResId) :
    ((s.endStop w y owner c).res r).lease = ((s.placeResults y).res r).lease := by
  obtain ⟨res, hnames, hres⟩ := foldl_setNaming none y.named (s.placeResults y)
  have hlease : (((s.placeResults y).unnameAll w y).res r).lease = ((s.placeResults y).res r).lease := by
    unfold State.unnameAll
    rw [hnames]
    show (Table.rd res r).lease = _
    rw [hres]
  unfold State.endStop
  rw [if_neg hc, ← hlease]
  dsimp only
  split <;> rfl

/-- The lease of a resource after a stop that places results. -/
theorem stopWindow_lease (h : s.win w = some x) (ha : x.state.active = true) (hc : c ≠ .aborted) (r : ResId) :
    let y := x.stopRecord c s.now (s.lossesOf x)
    ((s.stopWindow w c).res r).lease = ((s.res r).lease.placeIf (s.placedOn y r .fwd)).placeIf (s.placedOn y r .rev) := by
  rw [stopWindow_steps h ha, endStop_lease hc, placeResults_lease]
  rw [haltWindow_eq]
  rfl

end Sys2Proof.Machine

open Sys2Proof Sys2Proof.Machine

/-- Settles O39. -/
theorem stoppedWindowLeavesNothingRunning : Obligations.StoppedWindowLeavesNothingRunning := by
  unfold Obligations.StoppedWindowLeavesNothingRunning
  intro s w x c hwin hactive t
  have hstop : Stopped s w x c t := stopWindow_spec c hwin hactive
  obtain ⟨y, hy, hstate, hcause, htimer, hnamed, -⟩ := hstop.window
  refine ⟨⟨y, hy, hstate, hcause, htimer, hnamed⟩, fun q hq hw => ?_, hstop.order, fun k e he => ?_, fun i hi => ?_,
    fun hdriving i hi => ?_, fun hdriving i hi => ?_, hstop.noticed, hstop.aborted,
    congrArg (fun u => u.run.counters.windowsStopped) hstop.frame⟩
  · rw [show t.setup = (s.dropOutstanding w).setup from stopWindow_setup hwin hactive] at hq
    exact dropOutstanding_leaves hq hw
  · rw [hstop.sems] at he
    exact of_decide_eq_true (List.mem_filter.mp he).2
  · rw [hstop.caps, if_pos hi]
    rfl
  · simp [State.txenPin, hstop.txen, hdriving, hi]
  · simp [State.ckenPin, hstop.cken, hdriving, hi]

end

