-- ==== Sys2Proof/Proofs/Withdraws.lean ====
section
/-! SUPPORT. Sys2Proof/Proofs/Withdraws.lean: the regrade of the links that list a link (R149, R152), the completion of a
withdrawal (R166, R172), and the requests WITHDRAW, RESTORE, ACK_WITHDRAW and SYNC with its deadline. -/

namespace Sys2Proof.Machine

variable {s t u : State} {l m : LinkId} {d : Dir} {k : Link}

/-! ## What the grading reads -/

theorem link_of_map (h : t.map = s.map) (m : LinkId) : t.link m = s.link m := by
  unfold State.link
  rw [h]

theorem grade_of_map (h : t.map = s.map) (k : Link) (v : VerdictRecord) : t.grade k v = s.grade k v := by
  unfold State.grade State.hasFittedNeighbour State.linkNat State.link
  rw [h]

/-- The ladder does not read the verdict of before. -/
theorem grade_verdict (s : State) (k : Link) (v : VerdictRecord) (x : Verdict) :
    s.grade k { v with verdict := x } = s.grade k v := rfl

theorem gradedCount_congr (hlink : ∀ m, t.link m = s.link m) (hrec : ∀ m d, t.record m d = s.record m d) :
    t.gradedCount = s.gradedCount := by
  have hof : t.coverageOf = s.coverageOf := by
    funext m d
    simp only [State.coverageOf, hlink, hrec]
  unfold State.gradedCount
  rw [hof]

theorem record_of_table (h : t.table = s.table) (m : LinkId) (d : Dir) : t.record m d = s.record m d := by
  cases d <;> simp only [State.record, h]

/-! ## The links that list a link regraded (R149) -/

/-- A record as the regrade of the links that list `l` leaves it. -/
def State.listingRecord (s : State) (l m : LinkId) (d : Dir) : Option VerdictRecord :=
  match s.link m with
  | some k => if l.val ∈ k.neighbours then (s.record m d).map (fun v => { v with verdict := s.grade k v }) else s.record m d
  | none => s.record m d

/-- One link's part of the regrade. -/
def State.regradeIfLists (l : LinkId) (u : State) (m : LinkId) : State :=
  match u.link m with
  | some k => if k.neighbours.contains l.val then (u.regrade m .fwd).regrade m .rev else u
  | none => u

theorem regrade_both (hk : s.link m = some k) : ∃ tb, (s.regrade m .fwd).regrade m .rev = s.setTable tb
    ∧ ∀ n d, (s.setTable tb).record n d =
      if n = m then (s.record m d).map (fun v => { v with verdict := s.grade k v }) else s.record n d := by
  have hk' : (s.modRecord m .fwd (fun v => { v with verdict := s.grade k v })).link m = some k := hk
  have hboth : (s.regrade m .fwd).regrade m .rev =
      (s.modRecord m .fwd (fun v => { v with verdict := s.grade k v })).modRecord m .rev
        (fun v => { v with verdict := s.grade k v }) := by
    rw [regrade_of_link hk, regrade_of_link hk']
    congr 1
  refine ⟨_, hboth.trans rfl, fun n d => ?_⟩
  show ((s.modRecord m .fwd (fun v => { v with verdict := s.grade k v })).modRecord m .rev
    (fun v => { v with verdict := s.grade k v })).record n d = _
  by_cases h : n = m
  · subst h
    rw [if_pos rfl]
    cases d with
    | fwd => rw [record_modRecord_other (Or.inr (by decide)), record_modRecord_same]
    | rev => rw [record_modRecord_same, record_modRecord_other (Or.inr (by decide))]
  · rw [if_neg h, record_modRecord_other (Or.inl h), record_modRecord_other (Or.inl h)]

theorem regradeIfLists_spec (l m : LinkId) : ∃ tb, s.regradeIfLists l m = s.setTable tb
    ∧ ∀ n d, (s.setTable tb).record n d = if n = m then s.listingRecord l m d else s.record n d := by
  have hsame : ∀ n d, (s.setTable s.table).record n d = if n = m then s.record m d else s.record n d := by
    intro n d
    by_cases h : n = m
    · rw [if_pos h, h]
      rfl
    · rw [if_neg h]
      rfl
  unfold State.regradeIfLists State.listingRecord
  cases hk : s.link m with
  | none => exact ⟨s.table, rfl, hsame⟩
  | some k =>
    dsimp only
    by_cases hl : l.val ∈ k.neighbours
    · simp only [List.contains_iff_mem.mpr hl, hl, if_true]
      exact regrade_both hk
    · simp only [hl, List.contains_iff_mem, if_false]
      exact ⟨s.table, rfl, hsame⟩

/-- The links taken one after another. -/
theorem foldl_regradeIfLists_spec (ls : List LinkId) : ∃ tb, ls.foldl (State.regradeIfLists l) s = s.setTable tb
    ∧ ∀ n d, (s.setTable tb).record n d = if n ∈ ls then s.listingRecord l n d else s.record n d := by
  induction ls generalizing s with
  | nil => exact ⟨s.table, rfl, fun n d => by simp [State.setTable]⟩
  | cons a ls ih =>
    obtain ⟨tb, hstep, hrec⟩ := regradeIfLists_spec (s := s) l a
    obtain ⟨tb', hrest, hrec'⟩ := ih (s := s.setTable tb)
    refine ⟨tb', ?_, fun n d => ?_⟩
    · rw [List.foldl_cons, hstep, hrest]
      rfl
    · have hlisting : (s.setTable tb).listingRecord l n d = s.listingRecord l n d := by
        have hgrade := fun k v => grade_of_map (s := s) (t := s.setTable tb) rfl k v
        unfold State.listingRecord
        rw [show (s.setTable tb).link n = s.link n from rfl, hrec]
        by_cases h : n = a
        · subst h
          rw [if_pos rfl, State.listingRecord]
          cases s.link n with
          | none => rfl
          | some k =>
            by_cases hl : l.val ∈ k.neighbours
            · simp [hl, Function.comp_def, hgrade, grade_verdict]
            · simp [hl]
        · simp only [if_neg h, hgrade]
      have htable : (s.setTable tb').record n d = ((s.setTable tb).setTable tb').record n d := rfl
      rw [htable, hrec', hlisting, hrec]
      by_cases h : n ∈ ls <;> by_cases h' : n = a <;> simp [h, h']

theorem regradeListing_eq_foldl (s : State) (l : LinkId) :
    s.regradeListing l = allLinks.foldl (State.regradeIfLists l) s := by
  unfold State.regradeListing
  generalize allLinks = ls
  rfl

/-- The regrade with the coverage count and its flag following it (R149, R152, R32). -/
def State.regradeAround (s : State) (l : LinkId) : State := ((s.regradeListing l).recount).evalCoverage

/-- What the regrade around a link makes of the hub. -/
structure Regraded (s : State) (l : LinkId) (t : State) : Prop where
  frame : t = { s with table := t.table, run := { s.run with complete := t.run.complete }, ports := t.ports }
  records : ∀ m d, t.record m d = s.listingRecord l m d
  coverage : t.table.coverage = t.gradedCount
  evaluated : t.completeEvaluated
  noticed : t.completeNoticed s
  ports : t.portsGrow s

theorem regrade_recount_spec (s : State) (l : LinkId) : ∃ tb, (s.regradeListing l).recount = s.setTable tb
    ∧ tb.coverage = (s.setTable tb).gradedCount ∧ ∀ m d, (s.setTable tb).record m d = s.listingRecord l m d := by
  obtain ⟨tb, hfold, hrec⟩ := foldl_regradeIfLists_spec (s := s) (l := l) allLinks
  generalize hcount : (s.setTable tb).gradedCount = n
  have hcover : ∀ m d, (s.setTable { tb with coverage := n }).record m d = (s.setTable tb).record m d := by
    intro m d
    cases d <;> rfl
  have hgraded : (s.setTable { tb with coverage := n }).gradedCount = n :=
    (gradedCount_congr (fun _ => rfl) hcover).trans hcount
  refine ⟨{ tb with coverage := n }, ?_, hgraded.symm, fun m d => ?_⟩
  · rw [regradeListing_eq_foldl, hfold, State.recount, hcount]
    rfl
  · rw [hcover, hrec, if_pos (show m ∈ allLinks from List.mem_finRange m)]

theorem regradeAround_spec (s : State) (l : LinkId) : Regraded s l (s.regradeAround l) := by
  obtain ⟨tb, hregrade, hcov, hrec⟩ := regrade_recount_spec s l
  have heq : s.regradeAround l = (s.setTable tb).evalCoverage := by
    rw [State.regradeAround, hregrade]
  generalize hu : s.setTable tb = u at *
  have hframe := evalCoverage_eq u
  have htable : u.evalCoverage.table = tb := by
    rw [hframe, ← hu]
    rfl
  have hlink : ∀ m, u.evalCoverage.link m = u.link m := by
    intro m
    rw [hframe]
    rfl
  have hrecord : ∀ m d, u.evalCoverage.record m d = u.record m d := by
    intro m d
    apply record_of_table
    rw [htable, ← hu]
    rfl
  rw [heq]
  refine ⟨?_, fun m d => (hrecord m d).trans (hrec m d), ?_, evalCoverage_evaluated u, fun hclear hset => ?_, ?_⟩
  · rw [hframe, ← hu]
    rfl
  · rw [htable, hcov, gradedCount_congr hlink hrecord]
  · exact evalCoverage_noticed u (by rw [← hu]; exact hclear) hset
  · exact (portsGrow_of_ports (by rw [← hu]; rfl)).trans (evalCoverage_portsGrow u)

theorem Regraded.map (h : Regraded s l t) : t.map = s.map := by
  rw [h.frame]

theorem Regraded.link (h : Regraded s l t) (m : LinkId) : t.link m = s.link m := link_of_map h.map m

theorem Regraded.wd (h : Regraded s l t) : t.wd = s.wd := by
  rw [h.frame]

/-! ## The sync slots at the completion of a withdrawal (R172) -/

/-- A sync slot once a link is withdrawn. -/
def SyncSlot.without (l : LinkId) (x : SyncSlot) : SyncSlot :=
  match x with
  | .waiting awaited deadline =>
    if l ∈ awaited then
      if ∀ m ∈ awaited, m = l then .complete [] true
      else .waiting (awaited.filter (fun m => decide (m ≠ l))) deadline
    else x
  | .none => x
  | .complete _ _ => x

/-- The slot awaits nothing but the link. -/
def SyncSlot.awaitsOnly (l : LinkId) (x : SyncSlot) : Prop :=
  ∃ awaited deadline, x = .waiting awaited deadline ∧ l ∈ awaited ∧ ∀ m ∈ awaited, m = l

/-- What the update of some ports' sync slots makes of the hub. -/
structure SyncsGone (s : State) (l : LinkId) (ps : List PortId) (t : State) : Prop where
  frame : t = { s with wd := { s.wd with sync := t.wd.sync }, ports := t.ports }
  ports : t.portsGrow s
  slots : ∀ q, t.syncSlot q = if q ∈ ps then (s.syncSlot q).without l else s.syncSlot q
  done : ∀ q ∈ ps, (s.syncSlot q).awaitsOnly l → t.noticed q .syncDone = true

theorem filter_ne_isEmpty {awaited : List LinkId} :
    (awaited.filter (fun m => decide (m ≠ l))).isEmpty = true ↔ ∀ m ∈ awaited, m = l := by
  simp

theorem setSync_slot (s : State) (p : PortId) (x : SyncSlot) (q : PortId) :
    (s.setSync p x).syncSlot q = if q = p then x else s.syncSlot q := syncSlot_setSync s p q x

theorem syncGone_spec (s : State) (l : LinkId) (p : PortId) : SyncsGone s l [p] (s.syncGone l p) := by
  have hstay : (s.syncSlot p).without l = s.syncSlot p → ¬ (s.syncSlot p).awaitsOnly l → SyncsGone s l [p] s := by
    intro hsame honly
    refine ⟨rfl, portsGrow_refl s, fun q => ?_, fun q hq h => ?_⟩
    · by_cases hq : q = p
      · subst hq
        simp [hsame]
      · simp [hq]
    · rw [List.mem_singleton.mp hq] at h
      exact absurd h honly
  unfold State.syncGone
  cases hslot : s.syncSlot p with
  | none =>
    rw [hslot] at hstay
    exact hstay rfl (by rintro ⟨_, _, h, -⟩; cases h)
  | complete awaited ok =>
    rw [hslot] at hstay
    exact hstay rfl (by rintro ⟨_, _, h, -⟩; cases h)
  | waiting awaited deadline =>
    dsimp only
    by_cases hl : l ∈ awaited
    · rw [if_pos (List.contains_iff_mem.mpr hl)]
      by_cases hall : ∀ m ∈ awaited, m = l
      · rw [if_pos (filter_ne_isEmpty.mpr hall)]
        refine ⟨rfl, (portsGrow_of_ports (t := s.setSync p (.complete [] true)) rfl).trans (raise_portsGrow _ p _),
          fun q => ?_, fun q hq _ => ?_⟩
        · refine (setSync_slot s p _ q).trans ?_
          by_cases hq : q = p
          · subst hq
            simp only [List.mem_singleton, if_true, hslot, SyncSlot.without, hl]
            exact (if_pos hall).symm
          · simp [hq]
        · rw [noticed_raise]
          simp [List.mem_singleton.mp hq]
      · rw [if_neg (fun h => hall (filter_ne_isEmpty.mp h))]
        refine ⟨rfl, portsGrow_refl s, fun q => ?_, fun q hq h => ?_⟩
        · refine (setSync_slot s p _ q).trans ?_
          by_cases hq : q = p
          · subst hq
            simp only [List.mem_singleton, if_true, hslot, SyncSlot.without, hl, hall, if_false]
          · simp [hq]
        · rw [List.mem_singleton.mp hq, hslot] at h
          obtain ⟨_, _, heq, -, honly⟩ := h
          cases heq
          exact absurd honly hall
    · rw [if_neg (fun h => hl (List.contains_iff_mem.mp h))]
      rw [hslot] at hstay
      refine hstay (by simp [SyncSlot.without, hl]) ?_
      rintro ⟨_, _, heq, hmem, -⟩
      cases heq
      exact hl hmem

theorem foldl_syncGone_spec (ps : List PortId) (hps : ps.Nodup) :
    SyncsGone s l ps (ps.foldl (fun u p => u.syncGone l p) s) := by
  induction ps generalizing s with
  | nil => exact ⟨rfl, portsGrow_refl s, fun q => by simp, fun q hq => by cases hq⟩
  | cons p ps ih =>
    obtain ⟨hp, hrest⟩ := List.nodup_cons.mp hps
    have hone := syncGone_spec s l p
    have hmore := ih (s := s.syncGone l p) hrest
    have hslot : ∀ q, q ≠ p → (s.syncGone l p).syncSlot q = s.syncSlot q := by
      intro q hq
      rw [hone.slots, if_neg (by simpa using hq)]
    rw [List.foldl_cons]
    refine ⟨?_, hone.ports.trans hmore.ports, fun q => ?_, fun q hq h => ?_⟩
    · rw [hmore.frame, hone.frame]
    · rw [hmore.slots]
      by_cases hq : q = p
      · subst hq
        rw [if_neg hp, hone.slots]
        simp
      · rw [hslot q hq]
        simp [hq]
    · by_cases hqp : q = p
      · subst hqp
        exact hmore.ports.noticed (hone.done q List.mem_cons_self h)
      · rw [← hslot q hqp] at h
        exact hmore.done q ((List.mem_cons.mp hq).resolve_left hqp) h

/-! ## The completion of a withdrawal (R166) -/

/-- The link and its records marked WITHDRAWN, its entry gone from the Withdraw List. -/
def State.markWithdrawn (s : State) (l : LinkId) : State :=
  (((s.setWithdrawList (s.wd.list.filter (fun e => decide (e.link ≠ l)))).setLinkState l .withdrawn).modRecord l .fwd
    (fun v => { v with verdict := .withdrawn })).modRecord l .rev (fun v => { v with verdict := .withdrawn })

theorem completeWithdraw_steps (s : State) (evaluate : Bool) (l : LinkId) : s.completeWithdraw evaluate l =
    allPorts.foldl (fun u p => u.syncGone l p)
      (if evaluate then (s.markWithdrawn l).regradeAround l else ((s.markWithdrawn l).regradeListing l).recount) := by
  cases evaluate <;> rfl

theorem markWithdrawn_map (s : State) (l : LinkId) : (s.markWithdrawn l).map = (s.setLinkState l .withdrawn).map := rfl

theorem markWithdrawn_link (s : State) (l m : LinkId) : (s.markWithdrawn l).link m =
    if m = l then (s.link l).map (fun k => { k with state := .withdrawn }) else s.link m :=
  link_setLinkState s l m .withdrawn

theorem markWithdrawn_record (s : State) (l m : LinkId) (d : Dir) : (s.markWithdrawn l).record m d =
    if m = l then (s.record l d).map (fun v => { v with verdict := .withdrawn }) else s.record m d := by
  by_cases h : m = l
  · subst h
    rw [if_pos rfl]
    cases d with
    | fwd =>
      refine (record_modRecord_other (Or.inr (by decide))).trans ?_
      exact record_modRecord_same
    | rev =>
      refine record_modRecord_same.trans ?_
      rw [record_modRecord_other (Or.inr (by decide))]
      rfl
  · rw [if_neg h]
    refine (record_modRecord_other (Or.inl h)).trans ?_
    exact record_modRecord_other (Or.inl h)

/-- The records of other links around a link that has changed its state in `u`, seen from `s`. -/
theorem regradedFrom_of_records (hlink : ∀ m, m ≠ l → u.link m = s.link m) (hrec : ∀ m d, m ≠ l → u.record m d = s.record m d)
    (hmap : t.map = u.map) (hrecords : ∀ m d, t.record m d = u.listingRecord l m d)
    (hcov : t.table.coverage = t.gradedCount) : t.regradedFrom s l := by
  refine ⟨fun m k d v hm hk hv => ?_, hcov⟩
  have hgrade := grade_of_map hmap k v
  rw [← hlink m hm] at hk
  rw [← hrec m d hm] at hv
  refine ⟨fun hlists => ?_, fun hlists => ?_⟩
  · rw [hrecords, State.listingRecord, hk, hgrade]
    simp [hlists, hv]
  · rw [hrecords, State.listingRecord, hk]
    simp [hlists, hv]

/-- The records of a withdrawn link after the regrade. -/
theorem listingRecord_withdrawn {v : VerdictRecord} (hv : s.record l d = some v) :
    (s.markWithdrawn l).listingRecord l l d = some { v with verdict := .withdrawn } := by
  unfold State.listingRecord
  rw [markWithdrawn_link, markWithdrawn_record, if_pos rfl, if_pos rfl, hv]
  cases s.link l with
  | none => rfl
  | some k =>
    simp only [Option.map_some]
    split
    · rw [grade_of_withdrawn rfl]
    · rfl

/-- What the completion of a withdrawal makes of the hub. -/
structure Completed (s : State) (l : LinkId) (t : State) : Prop where
  frame : t = { s with map := t.map, table := t.table, wd := t.wd, ports := t.ports,
                       run := { s.run with complete := t.run.complete } }
  map : t.map = (s.setLinkState l .withdrawn).map
  withdrew : t.withdrewFrom s l
  ports : t.portsGrow s

/-- The last step of a completion, over the regraded hub `u`. -/
theorem completed_of_regraded
    (hframe : u = { s.markWithdrawn l with table := u.table, run := { s.run with complete := u.run.complete }, ports := u.ports })
    (hrecords : ∀ m d, u.record m d = (s.markWithdrawn l).listingRecord l m d)
    (hcov : u.table.coverage = u.gradedCount) (hports : u.portsGrow s) (hgone : SyncsGone u l allPorts t) :
    Completed s l t := by
  have hsync : ∀ q, u.syncSlot q = s.syncSlot q := by
    intro q
    rw [hframe]
    rfl
  have htable : t.table = u.table := by rw [hgone.frame]
  have hmap : t.map = u.map := by rw [hgone.frame]
  have humap : u.map = (s.markWithdrawn l).map := by rw [hframe]
  have hrecords' : ∀ m d, t.record m d = (s.markWithdrawn l).listingRecord l m d :=
    fun m d => (record_of_table htable m d).trans (hrecords m d)
  have hlink : ∀ m, t.link m = (s.markWithdrawn l).link m := link_of_map (hmap.trans humap)
  have hcov' : t.table.coverage = t.gradedCount := by
    rw [htable, hcov, gradedCount_congr (link_of_map hmap) (record_of_table htable)]
  have hslots : ∀ q, t.syncSlot q = (s.syncSlot q).without l := by
    intro q
    rw [hgone.slots, if_pos (show q ∈ allPorts from List.mem_finRange q), hsync]
  refine ⟨?_, hmap.trans humap, ⟨fun k hk => ?_, fun m hm => ?_, ?_, fun d v hv => ?_, ?_, fun q => ⟨?_, ?_⟩⟩,
    hports.trans hgone.ports⟩
  · rw [hgone.frame, hframe]
    rfl
  · rw [hlink, markWithdrawn_link, if_pos rfl, hk]
    rfl
  · rw [hlink, markWithdrawn_link, if_neg hm]
  · rw [hgone.frame, hframe]
    rfl
  · rw [hrecords', listingRecord_withdrawn hv]
  · refine regradedFrom_of_records (u := s.markWithdrawn l) (fun m hm => ?_) (fun m d hm => ?_) (hmap.trans humap)
      hrecords' hcov'
    · rw [markWithdrawn_link, if_neg hm]
    · rw [markWithdrawn_record, if_neg hm]
  · intro awaited deadline hslot
    rw [hslots, hslot]
    refine ⟨fun hl => if_neg hl, fun hl hall => ⟨?_, ?_⟩, fun hl hmore => ?_⟩
    · exact (if_pos hl).trans (if_pos hall)
    · exact hgone.done q (List.mem_finRange q) (by rw [hsync]; exact ⟨awaited, deadline, hslot, hl, hall⟩)
    · refine (if_pos hl).trans (if_neg fun hall => ?_)
      obtain ⟨m, hm, hne⟩ := hmore
      exact hne (hall m hm)
  · intro hnot
    rw [hslots]
    cases hslot : s.syncSlot q with
    | none => rfl
    | complete awaited ok => rfl
    | waiting awaited deadline => exact absurd hslot (hnot awaited deadline)

theorem completeWithdraw_spec (s : State) (l : LinkId) : Completed s l (s.completeWithdraw true l)
    ∧ (s.completeWithdraw true l).completeEvaluated ∧ (s.completeWithdraw true l).completeNoticed s := by
  have hregraded := regradeAround_spec (s.markWithdrawn l) l
  rw [completeWithdraw_steps, if_pos rfl]
  generalize (s.markWithdrawn l).regradeAround l = u at hregraded
  have hgone : SyncsGone u l allPorts _ := foldl_syncGone_spec allPorts (List.nodup_finRange 4)
  generalize allPorts.foldl (fun u p => u.syncGone l p) u = t at hgone
  have htable : t.table = u.table := by rw [hgone.frame]
  have hmap : t.map = u.map := by rw [hgone.frame]
  have hrun : t.run = u.run := by rw [hgone.frame]
  refine ⟨completed_of_regraded ?_ hregraded.records hregraded.coverage
    ((portsGrow_of_ports rfl).trans hregraded.ports) hgone, ?_, fun hclear hset p => ?_⟩
  · exact hregraded.frame
  · have htargets : t.targetLinks = u.targetLinks := by
      unfold State.targetLinks State.linkCount State.linkIs
      simp only [link_of_map hmap]
    unfold State.completeEvaluated
    rw [hrun, htable, htargets]
    exact hregraded.evaluated
  · rw [hrun] at hset
    exact hgone.ports.noticed (hregraded.noticed hclear hset p)

/-- The completion without the flag, as at the entry to CLOSED (R28). -/
theorem completeWithdraw_unevaluated_spec (s : State) (l : LinkId) : Completed s l (s.completeWithdraw false l)
    ∧ (s.completeWithdraw false l).run = s.run := by
  obtain ⟨tb, hregrade, hcov, hrec⟩ := regrade_recount_spec (s.markWithdrawn l) l
  rw [completeWithdraw_steps, if_neg (by decide), hregrade]
  have hgone : SyncsGone ((s.markWithdrawn l).setTable tb) l allPorts _ :=
    foldl_syncGone_spec allPorts (List.nodup_finRange 4)
  generalize allPorts.foldl (fun u p => u.syncGone l p) ((s.markWithdrawn l).setTable tb) = t at hgone
  exact ⟨completed_of_regraded rfl hrec hcov (portsGrow_of_ports rfl) hgone, by rw [hgone.frame]; rfl⟩

/-! ## RESTORE (R174) -/

variable (p : PortId) (tag : Byte)

/-- The link FITTED again with fresh records. -/
def State.markRestored (s : State) (l : LinkId) (lanes : Nat) : State :=
  ((s.setLinkState l .fitted).modRecord l .fwd (fun _ => VerdictRecord.untested lanes)).modRecord l .rev
    (fun _ => VerdictRecord.untested lanes)

theorem linkIdOf_number (h : (s.link l).isSome = true) : s.linkIdOf (BitVec.ofNat 8 l.val) = some l :=
  linkIdOf_eq_some_iff.mpr ⟨rfl, h⟩

/-- RESTORE of a link of the map, by its state. -/
theorem bodyRestore_there (hk : s.link l = some k) : bodyRestore p tag (u8 l.val) s = match k.state with
    | .fitted => refuse s .badParam
    | .withdrawing => refuse s .busy
    | .withdrawn => accept ((s.markRestored l k.lanes).regradeAround l) [] := by
  simp only [bodyRestore, u8, linkIdOf_number (by rw [hk]; rfl), hk]
  cases k.state <;> rfl

theorem markRestored_link (lanes : Nat) (m : LinkId) : (s.markRestored l lanes).link m =
    if m = l then (s.link l).map (fun k => { k with state := .fitted }) else s.link m :=
  link_setLinkState s l m .fitted

theorem markRestored_record (lanes : Nat) (m : LinkId) (d : Dir) : (s.markRestored l lanes).record m d =
    if m = l then (s.record l d).map (fun _ => VerdictRecord.untested lanes) else s.record m d := by
  by_cases h : m = l
  · subst h
    rw [if_pos rfl]
    cases d with
    | fwd => exact (record_modRecord_other (Or.inr (by decide))).trans record_modRecord_same
    | rev =>
      refine record_modRecord_same.trans ?_
      rw [record_modRecord_other (Or.inr (by decide))]
      rfl
  · rw [if_neg h]
    exact (record_modRecord_other (Or.inl h)).trans (record_modRecord_other (Or.inl h))

/-- A fresh record stays UNTESTED in the regrade. -/
theorem listingRecord_untested {lanes : Nat} (h : s.record l d = (u.record l d).map (fun _ => VerdictRecord.untested lanes))
    (hfitted : ∀ k, s.link l = some k → k.state ≠ .withdrawn) : s.listingRecord l l d =
      (u.record l d).map (fun _ => VerdictRecord.untested lanes) := by
  unfold State.listingRecord
  cases hk : s.link l with
  | none => exact h
  | some k =>
    dsimp only
    split
    · rw [h, Option.map_map]
      congr 1
      funext v
      simp only [Function.comp, grade_of_unmerged (hfitted k hk) (show (VerdictRecord.untested lanes).merged = 0 from rfl)]
      rfl
    · exact h

end Sys2Proof.Machine

open Sys2Proof Sys2Proof.Machine

/-- Settles O24: the link and its records marked, then the regrade around it. -/
theorem restoreFitsAWithdrawnLink : Obligations.RestoreFitsAWithdrawnLink := by
  unfold Obligations.RestoreFitsAWithdrawnLink
  intro s p l k tag filler cut h hk
  have hbody := bodyRestore_there (s := s.working .restore p tag) p tag hk
  refine ⟨fun hstate => ?_, fun hstate => ?_, fun hstate => ?_⟩
  · rw [hstate] at hbody
    have hregraded := regradeAround_spec ((s.working .restore p tag).markRestored l k.lanes) l
    generalize hu : ((s.working .restore p tag).markRestored l k.lanes).regradeAround l = u at hbody hregraded
    have hlink := fun m => (hregraded.link m).trans (markRestored_link (s := s.working .restore p tag) k.lanes m)
    have hkl := (hlink l).trans (if_pos rfl)
    rw [working_link, hk] at hkl
    refine ⟨_, exec_accepted h hbody, hkl, fun m hm => ?_, fun d => ?_, ?_, hregraded.evaluated,
      fun hclear hset q => ?_, answer_slot .., ?_, ?_, ?_, ?_, ?_⟩
    · exact (hlink m).trans (if_neg hm)
    · refine (hregraded.records l d).trans (listingRecord_untested ?_ fun k' hk' => ?_)
      · exact (markRestored_record k.lanes l d).trans (if_pos rfl)
      · rw [markRestored_link, if_pos rfl, working_link, hk] at hk'
        obtain rfl := Option.some.inj hk'
        nofun
    · refine regradedFrom_of_records (u := (s.working .restore p tag).markRestored l k.lanes)
        (fun m hm => (markRestored_link k.lanes m).trans (if_neg hm))
        (fun m d hm => (markRestored_record k.lanes m d).trans (if_neg hm)) hregraded.map hregraded.records ?_
      exact hregraded.coverage
    · rw [State.answerOk, noticed_answer]
      exact hregraded.noticed hclear hset q
    · exact (congrArg State.dir hregraded.frame :)
    · exact (congrArg State.eng hregraded.frame :)
    · exact (congrArg State.post hregraded.frame :)
    · exact (congrArg State.wd hregraded.frame :)
    · exact (congrArg (fun x => x.run.state) hregraded.frame :)
  · rw [hstate] at hbody
    exact exec_refused h hbody
  · rw [hstate] at hbody
    exact exec_refused h hbody

end

