-- ==== Sys2Proof/Proofs/WithdrawRequests.lean ====
section
/-! SUPPORT. Sys2Proof/Proofs/WithdrawRequests.lean: which ports a link's withdrawal waits for (R164), and the requests
WITHDRAW, ACK_WITHDRAW and SYNC (R162 to R165, R171), with the deadline of a sync slot (R172). -/

namespace Sys2Proof.Machine

variable {s t u : State} {l m : LinkId} {p q : PortId} {tag : Byte}

/-! ## Blocked ports (R164) -/

theorem namesLink_iff {x : Window} : x.namesLink l = true ↔ x.victim = l ∨ ∃ a ∈ x.aggressors, a.link = l := by
  simp [Window.namesLink]

theorem ownsNaming_iff : allWindows.any (fun w => match s.win w with
      | some x => decide (x.owner = q) && x.state.active && x.namesLink l
      | none => false) = true ↔
    ∃ w x, s.win w = some x ∧ x.owner = q ∧ x.state.active = true ∧ (x.victim = l ∨ ∃ a ∈ x.aggressors, a.link = l) := by
  rw [List.any_eq_true]
  constructor
  · rintro ⟨w, -, hw⟩
    split at hw
    · next x hx =>
      simp only [Bool.and_eq_true, decide_eq_true_eq, namesLink_iff] at hw
      obtain ⟨⟨howner, hactive⟩, hnames⟩ := hw
      exact ⟨w, x, hx, howner, hactive, hnames⟩
    · cases hw
  · rintro ⟨w, x, hx, howner, hactive, hnames⟩
    refine ⟨w, List.mem_finRange w, ?_⟩
    simp only [hx, Bool.and_eq_true, decide_eq_true_eq, namesLink_iff]
    exact ⟨⟨howner, hactive⟩, hnames⟩

theorem holdsFor_iff : allResources.any (fun r => match (s.res r).lease with
      | .heldUnposted h _ a => decide (h = q) && decide (a.link = l)
      | .held _ _ => false
      | .free => false
      | .watched _ => false) = true ↔
    ∃ r since a, (s.res r).lease = .heldUnposted q since a ∧ a.link = l := by
  rw [List.any_eq_true]
  constructor
  · rintro ⟨r, -, hr⟩
    split at hr
    · next h since a hlease =>
      simp only [Bool.and_eq_true, decide_eq_true_eq] at hr
      obtain ⟨rfl, hlink⟩ := hr
      exact ⟨r, since, a, hlease, hlink⟩
    all_goals cases hr
  · rintro ⟨r, since, a, hlease, hlink⟩
    refine ⟨r, List.mem_finRange r, ?_⟩
    simp [hlease, hlink]

theorem blocked_iff : s.blocked q l = true ↔ s.isBlocked q l := by
  unfold State.blocked State.isBlocked
  rw [Bool.or_eq_true]
  refine or_congr ?_ ?_
  · exact ownsNaming_iff
  · exact holdsFor_iff

theorem has_interestOf : PortSet.has (s.interestOf l) q = true ↔ s.isBlocked q l := by
  rw [← blocked_iff]
  exact iff_of_eq (congrArg (· = true) (has_gathered (fun p => s.blocked p l) q))

/-- Who is blocked depends on the windows and the leases alone. -/
theorem interestOf_congr (hdir : t.dir = s.dir) (heng : t.eng = s.eng) : t.interestOf l = s.interestOf l := by
  have hblocked : ∀ q, t.blocked q l = s.blocked q l := by
    intro q
    unfold State.blocked State.win State.res
    rw [hdir, heng]
  unfold State.interestOf
  simp only [hblocked]

/-! ## The answer of a request whose rule completes a withdrawal -/

theorem withdrewFrom_answer {r : Req} {data : List Byte} (h : t.withdrewFrom s l) :
    (t.answerOk r p tag data).withdrewFrom s l := by
  obtain ⟨hlink, hothers, hlist, hrecords, hregraded, hslots⟩ := h
  refine ⟨hlink, hothers, hlist, hrecords, hregraded, fun q => ⟨fun awaited deadline hq => ?_, (hslots q).2⟩⟩
  obtain ⟨hout, hlast, hmore⟩ := (hslots q).1 awaited deadline hq
  refine ⟨hout, fun hl hall => ?_, hmore⟩
  rw [State.answerOk, noticed_answer]
  exact hlast hl hall

theorem completeNoticed_answer {r : Req} {data : List Byte} (h : t.completeNoticed s) :
    (t.answerOk r p tag data).completeNoticed s := by
  intro hclear hset q
  rw [State.answerOk, noticed_answer]
  exact h hclear hset q

/-! ## WITHDRAW (R162, R163) -/

/-- The link WITHDRAWING, its entry in the Withdraw List and WITHDRAW raised on the ports it waits for. -/
def State.markWithdrawing (s : State) (p : PortId) (l : LinkId) : State :=
  ((s.setLinkState l .withdrawing).setWithdrawList
    (s.wd.list ++ [{ link := l, issuer := p, issuedAt := s.nowMs, interest := s.interestOf l }])).raiseOn
    (s.interestOf l) .withdraw

/-- WITHDRAW up to the completion. -/
theorem bodyWithdraw_fitted (p : PortId) (tag : Byte) (hfit : s.linkIs l .fitted = true) (hroom : s.wd.list.length < 8) :
    bodyWithdraw p tag (u8 l.val) s =
      accept (if s.interestOf l = 0 then ((s.markWithdrawing p l).regradeAround l).completeWithdraw true l
          else (s.markWithdrawing p l).regradeAround l)
        (enFlag (decide (s.interestOf l = 0)) ++ enPortSet (s.interestOf l)) := by
  have hthere : (s.link l).isSome = true := by
    unfold State.linkIs at hfit
    cases hk : s.link l with
    | none => rw [hk] at hfit; cases hfit
    | some k => rfl
  have hinterest : (s.setLinkState l .withdrawing).interestOf l = s.interestOf l := interestOf_congr rfl rfl
  simp only [bodyWithdraw, u8, linkIdOf_number hthere, hfit, Bool.not_true, Bool.false_eq_true, if_false,
    if_neg (Nat.not_le.mpr hroom), hinterest]
  rfl

theorem markWithdrawing_eq (s : State) (p : PortId) (l : LinkId) : s.markWithdrawing p l = { s with
    map := (s.setLinkState l .withdrawing).map
    wd := { s.wd with list := s.wd.list ++ [{ link := l, issuer := p, issuedAt := s.nowMs, interest := s.interestOf l }] }
    ports := (s.markWithdrawing p l).ports } := by
  unfold State.markWithdrawing
  rw [raiseOn_eq]
  rfl

theorem markWithdrawing_link (m : LinkId) : (s.markWithdrawing p l).link m =
    if m = l then (s.link l).map (fun k => { k with state := .withdrawing }) else s.link m := by
  rw [markWithdrawing_eq]
  exact link_setLinkState s l m .withdrawing

theorem markWithdrawing_record (m : LinkId) (d : Dir) : (s.markWithdrawing p l).record m d = s.record m d := by
  rw [markWithdrawing_eq]
  rfl

theorem markWithdrawing_portsGrow (s : State) (p : PortId) (l : LinkId) : (s.markWithdrawing p l).portsGrow s :=
  (portsGrow_of_ports rfl).trans (raiseOn_portsGrow _ _ _)

theorem markWithdrawing_noticed (h : s.isBlocked q l) : (s.markWithdrawing p l).noticed q .withdraw = true := by
  unfold State.markWithdrawing
  rw [noticed_raiseOn, has_interestOf.mpr h]
  simp

/-- A record of the table after a regrade has the contents it had, and its verdict too where it was not regraded. -/
theorem Regraded.record {v : VerdictRecord} {d : Dir} (h : Regraded s l t) (hv : s.record m d = some v) :
    (∃ x, t.record m d = some { v with verdict := x })
    ∧ (∀ k, s.link m = some k → l.val ∉ k.neighbours → t.record m d = some v) := by
  rw [h.records, State.listingRecord, hv]
  cases hk : s.link m with
  | none => exact ⟨⟨v.verdict, rfl⟩, fun k hk' => by cases hk'⟩
  | some k =>
    dsimp only
    by_cases hl : l.val ∈ k.neighbours
    · refine ⟨⟨s.grade k v, if_pos hl⟩, fun k' hk' hnot => ?_⟩
      obtain rfl := Option.some.inj hk'
      exact absurd hl hnot
    · exact ⟨⟨v.verdict, if_neg hl⟩, fun _ _ _ => if_neg hl⟩

/-- What an accepted WITHDRAW makes of the hub, whether or not a port is blocked. -/
structure Withdrew (s : State) (l : LinkId) (t : State) : Prop where
  frame : t = { s with map := t.map, table := t.table, wd := t.wd, ports := t.ports,
                       run := { s.run with complete := t.run.complete } }
  others : ∀ m, m ≠ l → t.link m = s.link m
  regraded : t.regradedFrom s l
  evaluated : t.completeEvaluated
  noticed : t.completeNoticed s

theorem withdrew_waiting (hu : Regraded (s.markWithdrawing p l) l u) : Withdrew s l u := by
  refine ⟨?_, fun m hm => ?_, ?_, hu.evaluated, fun hclear hset q => ?_⟩
  · rw [hu.frame, markWithdrawing_eq]
  · rw [hu.link, markWithdrawing_link, if_neg hm]
  · refine regradedFrom_of_records (u := s.markWithdrawing p l) (fun m hm => ?_) (fun m d _ => markWithdrawing_record m d)
      hu.map hu.records hu.coverage
    rw [markWithdrawing_link, if_neg hm]
  · refine hu.noticed ?_ hset q
    rw [markWithdrawing_eq]
    exact hclear

theorem withdrew_completed (hu : Regraded (s.markWithdrawing p l) l u) (ht : Completed u l t)
    (hevaluated : t.completeEvaluated) (hnoticed : t.completeNoticed u) : Withdrew s l t ∧ t.withdrewFrom s l := by
  have hwaiting := withdrew_waiting hu
  obtain ⟨hlink, hothers, hlist, hrecords, hregraded, hslots⟩ := ht.withdrew
  have hsync : ∀ q, u.syncSlot q = s.syncSlot q := by
    intro q
    rw [hu.frame, markWithdrawing_eq]
    rfl
  have hregraded' : t.regradedFrom s l := by
    refine ⟨fun m k d v hm hk hv => ?_, hregraded.2⟩
    rw [← hwaiting.others m hm] at hk
    have hkm : (s.markWithdrawing p l).link m = some k := by rw [← hu.link, hk]
    rw [← markWithdrawing_record (p := p) (l := l)] at hv
    obtain ⟨⟨x, hx⟩, hsame⟩ := hu.record hv
    refine ⟨fun hl => ?_, fun hl => ?_⟩
    · have h := (hregraded.1 m k d _ hm hk hx).1 hl
      rwa [grade_verdict] at h
    · exact (hregraded.1 m k d v hm hk (hsame k hkm hl)).2 hl
  refine ⟨⟨?_, fun m hm => ?_, hregraded', hevaluated, fun hclear hset q => ?_⟩, fun k hk => ?_, fun m hm => ?_, ?_,
    fun d v hv => ?_, hregraded', fun q => ?_⟩
  · rw [ht.frame, hwaiting.frame]
  · rw [hothers m hm, hwaiting.others m hm]
  · cases hcomplete : u.run.complete with
    | false => exact hnoticed hcomplete hset q
    | true => exact ht.ports.noticed (hwaiting.noticed hclear hcomplete q)
  · have hkl : u.link l = some { k with state := .withdrawing } := by
      rw [hu.link, markWithdrawing_link, if_pos rfl, hk]
      rfl
    exact hlink { k with state := .withdrawing } hkl
  · rw [hothers m hm, hwaiting.others m hm]
  · rw [hlist, hu.wd, markWithdrawing_eq]
    simp
  · rw [← markWithdrawing_record (p := p) (l := l)] at hv
    obtain ⟨⟨x, hx⟩, -⟩ := hu.record hv
    exact hrecords d { v with verdict := x } hx
  · have h := hslots q
    rwa [hsync] at h

/-- What an accepted WITHDRAW leaves alone. -/
theorem Withdrew.keeps {data : List Byte} (h : Withdrew (s.working .withdraw p tag) l t) :
    let a := t.answerOk .withdraw p tag data
    a.dir = s.dir ∧ a.eng = s.eng ∧ a.sems = s.sems ∧ a.setup = s.setup ∧ a.post = s.post
      ∧ a.run.state = s.run.state ∧ a.run.counters = s.run.counters ∧ ∀ m, m ≠ l → a.link m = s.link m := by
  refine ⟨(congrArg State.dir h.frame :), (congrArg State.eng h.frame :), (congrArg State.sems h.frame :),
    (congrArg State.setup h.frame :), (congrArg State.post h.frame :), (congrArg (fun x => x.run.state) h.frame :),
    (congrArg (fun x => x.run.counters) h.frame :), h.others⟩

/-- The refusals of WITHDRAW. -/
theorem bodyWithdraw_notFitted (p : PortId) (tag : Byte) (hthere : (s.link l).isSome = true)
    (hfit : s.linkIs l .fitted = false) : bodyWithdraw p tag (u8 l.val) s = refuse s .withdrawn := by
  simp [bodyWithdraw, u8, linkIdOf_number hthere, hfit]

theorem bodyWithdraw_full (p : PortId) (tag : Byte) (hthere : (s.link l).isSome = true)
    (hfit : s.linkIs l .fitted = true) (hfull : 8 ≤ s.wd.list.length) :
    bodyWithdraw p tag (u8 l.val) s = refuse s .listFull := by
  simp [bodyWithdraw, u8, linkIdOf_number hthere, hfit, hfull]

theorem linkIs_iff {st : LinkState} : s.linkIs l st = true ↔ ∃ k, s.link l = some k ∧ k.state = st := by
  unfold State.linkIs
  cases s.link l <;> simp

theorem isSome_of_linkIs {st : LinkState} (h : s.linkIs l st = true) : (s.link l).isSome = true := by
  obtain ⟨k, hk, -⟩ := linkIs_iff.mp h
  rw [hk]
  rfl

theorem linkIs_other {st st' : LinkState} (h : s.linkIs l st = true) (hne : st ≠ st') : s.linkIs l st' = false := by
  obtain ⟨k, hk, hstate⟩ := linkIs_iff.mp h
  simp [State.linkIs, hk, hstate, hne]

theorem linkId_byte_injective (h : u8 l.val = u8 m.val) : l = m := by
  have hl := idxOf_byte (show 128 ≤ 256 by omega) l
  have hm := idxOf_byte (show 128 ≤ 256 by omega) m
  obtain ⟨hbyte, -⟩ := List.cons.inj h
  rw [hbyte, hm] at hl
  exact (Option.some.inj hl).symm

/-! ## ACK_WITHDRAW (R165) -/

variable {e : WithdrawEntry}

/-- The entries of a link with another interest set. -/
def State.setInterest (s : State) (l : LinkId) (ps : PortSet) : State :=
  s.setWithdrawList (s.wd.list.map (fun x => if x.link = l then { x with interest := ps } else x))

/-- ACK_WITHDRAW of a link with an entry, by the conditions in their order. -/
theorem bodyAckWithdraw_entry (p : PortId) (tag : Byte) (hthere : (s.link l).isSome = true)
    (hfind : s.wd.list.find? (fun x => decide (x.link = l)) = some e) : bodyAckWithdraw p tag (u8 l.val) s =
      if !PortSet.has e.interest p then refuse s .notFound
      else if s.blocked p l then refuse s .busy
      else accept
        (if PortSet.drop e.interest p = 0 then (s.setInterest l (PortSet.drop e.interest p)).completeWithdraw true l
          else s.setInterest l (PortSet.drop e.interest p))
        (u8 (PortSet.size (PortSet.drop e.interest p))) := by
  simp only [bodyAckWithdraw, u8, linkIdOf_number hthere, hfind]
  rfl

theorem bodyAckWithdraw_noEntry (p : PortId) (tag : Byte) (hthere : (s.link l).isSome = true)
    (hnone : ∀ x ∈ s.wd.list, x.link ≠ l) : bodyAckWithdraw p tag (u8 l.val) s = refuse s .notFound := by
  have hfind : s.wd.list.find? (fun x => decide (x.link = l)) = none := by
    simpa [List.find?_eq_none] using hnone
  simp only [bodyAckWithdraw, u8, linkIdOf_number hthere, hfind]

theorem blocked_working (r : Req) : (s.working r p tag).blocked q l = s.blocked q l := rfl

/-- The other entries are the same whatever the interest of the link's own. -/
theorem setInterest_others (ps : PortSet) : (s.setInterest l ps).wd.list.filter (fun x => decide (x.link ≠ l)) =
    s.wd.list.filter (fun x => decide (x.link ≠ l)) := by
  show (s.wd.list.map _).filter _ = _
  induction s.wd.list with
  | nil => rfl
  | cons x rest ih =>
    rw [List.map_cons, List.filter_cons, List.filter_cons, ih]
    by_cases hx : x.link = l <;> simp [hx]

theorem withdrewFrom_setInterest {ps : PortSet} (h : t.withdrewFrom (s.setInterest l ps) l) : t.withdrewFrom s l := by
  obtain ⟨hlink, hothers, hlist, hrecords, hregraded, hslots⟩ := h
  exact ⟨hlink, hothers, hlist.trans (setInterest_others ps), hrecords, hregraded, hslots⟩

theorem size_zero : PortSet.size 0 = 0 := by decide

/-! ## SYNC and its deadline (R171, R172) -/

theorem bodySync_waiting {awaited : List LinkId} {deadline : Nat} (p : PortId) (tag : Byte)
    (h : s.syncSlot p = .waiting awaited deadline) : bodySync p tag [] s = refuse s .busy := by
  simp only [bodySync, h]

theorem bodySync_free (p : PortId) (tag : Byte) (h : ∀ awaited deadline, s.syncSlot p ≠ .waiting awaited deadline) :
    bodySync p tag [] s = bodySync.syncNow p s := by
  unfold bodySync
  cases hslot : s.syncSlot p with
  | none => rfl
  | complete awaited ok => rfl
  | waiting awaited deadline => exact absurd hslot (h awaited deadline)

theorem syncTimeout_waiting {awaited : List LinkId} {deadline : Nat} (h : s.syncSlot p = .waiting awaited deadline) :
    s.syncTimeout p = ((s.advanceTo (deadline * 1000)).setSync p (.complete awaited false)).raise p .syncDone := by
  simp only [State.syncTimeout, h]

theorem syncTimeout_other (h : ∀ awaited deadline, s.syncSlot p ≠ .waiting awaited deadline) : s.syncTimeout p = s := by
  unfold State.syncTimeout
  cases hslot : s.syncSlot p with
  | none => rfl
  | complete awaited ok => rfl
  | waiting awaited deadline => exact absurd hslot (h awaited deadline)

theorem exec_syncTimeout (hrst : s.rst = false) : exec (.syncTimeout p) s = .next (s.syncTimeout p) :=
  congrArg _ (live_out_of_reset hrst _)

end Sys2Proof.Machine

open Sys2Proof Sys2Proof.Machine

/-- Settles O23: the ports the withdrawal waits for are the blocked ones; without one it completes at once. -/
theorem withdrawWaitsForBlockedPorts : Obligations.WithdrawWaitsForBlockedPorts := by
  unfold Obligations.WithdrawWaitsForBlockedPorts
  refine ⟨fun s p l tag filler cut h hfit hroom => ?_, fun s p l tag filler cut h => ⟨fun hnone => ?_, fun hstate => ?_,
    fun hfit hfull => ?_⟩⟩
  · have hinterest : (s.working .withdraw p tag).interestOf l = s.interestOf l := interestOf_congr rfl rfl
    have hbody := bodyWithdraw_fitted (s := s.working .withdraw p tag) p tag hfit hroom
    have hu := regradeAround_spec ((s.working .withdraw p tag).markWithdrawing p l) l
    generalize ((s.working .withdraw p tag).markWithdrawing p l).regradeAround l = u at hbody hu
    rw [hinterest] at hbody
    by_cases hzero : s.interestOf l = 0
    · rw [if_pos hzero] at hbody
      obtain ⟨hcompleted, hevaluated, hnoticed⟩ := completeWithdraw_spec u l
      obtain ⟨hw, hfrom⟩ := withdrew_completed hu hcompleted hevaluated hnoticed
      generalize u.completeWithdraw true l = t at hbody hw hfrom
      exact ⟨_, exec_accepted h hbody, fun q => has_interestOf, answer_slot .., fun hne => absurd hzero hne,
        fun _ => withdrewFrom_answer hfrom, hw.regraded, hw.evaluated,
        completeNoticed_answer (s := s) fun hclear hset => by simpa using hw.noticed hclear hset, hw.keeps⟩
    · rw [if_neg hzero] at hbody
      have hw := withdrew_waiting hu
      have hlink := (hu.link l).trans ((markWithdrawing_link l).trans (if_pos rfl))
      refine ⟨_, exec_accepted h hbody, fun q => has_interestOf, answer_slot .., fun _ => ⟨?_, ?_, fun q hq => ?_,
        fun hself d => ?_, fun q => ?_⟩, fun hz => absurd hz hzero, hw.regraded, hw.evaluated,
        completeNoticed_answer (s := s) fun hclear hset => by simpa using hw.noticed hclear hset, hw.keeps⟩
      · obtain ⟨k, hk, -⟩ := linkIs_iff.mp hfit
        rw [working_link, hk] at hlink
        exact linkIs_iff.mpr ⟨_, hlink, rfl⟩
      · refine (congrArg WithdrawUnit.list (hu.wd.trans (congrArg State.wd (markWithdrawing_eq _ p l))) :).trans ?_
        rw [hinterest]
        rfl
      · rw [State.answerOk, noticed_answer]
        exact hu.ports.noticed (markWithdrawing_noticed (s := s.working .withdraw p tag) hq)
      · obtain ⟨k, hk, -⟩ := linkIs_iff.mp hfit
        have hnot := hself k hk
        refine (hu.records l d).trans ?_
        rw [State.listingRecord, markWithdrawing_link, if_pos rfl, working_link, hk]
        exact (if_neg hnot).trans (markWithdrawing_record l d)
      · exact (congrArg (fun x => Table.rd x.sync q) (hu.wd.trans (congrArg State.wd (markWithdrawing_eq _ p l))) :)
  · refine exec_badParam h (fun ⟨m, hm, hbyte⟩ => ?_) nofun
    rw [← linkId_byte_injective hbyte, hnone] at hm
    cases hm
  · have hother : s.linkIs l .fitted = false ∧ (s.link l).isSome = true := by
      rcases hstate with hstate | hstate <;> exact ⟨linkIs_other hstate (by decide), isSome_of_linkIs hstate⟩
    exact exec_refused h (bodyWithdraw_notFitted (s := s.working .withdraw p tag) p tag hother.2 hother.1)
  · exact exec_refused h (bodyWithdraw_full (s := s.working .withdraw p tag) p tag (isSome_of_linkIs hfit) hfit hfull)

/-- Settles O25: the last port of the interest set completes the withdrawal. -/
theorem ackWithdrawLeavesInterestSet : Obligations.AckWithdrawLeavesInterestSet := by
  unfold Obligations.AckWithdrawLeavesInterestSet
  refine ⟨fun s p l e tag filler cut h hthere hfind => ?_, fun s p l tag filler cut h hthere hnone =>
    exec_refused h (bodyAckWithdraw_noEntry (s := s.working .ackWithdraw p tag) p tag hthere hnone)⟩
  have hbody := bodyAckWithdraw_entry (s := s.working .ackWithdraw p tag) p tag hthere hfind
  rw [blocked_working] at hbody
  refine ⟨fun hhas hfree hleft => ?_, fun hhas hfree hlast => ?_, fun hhas hblocked => ?_, fun hhas => ?_⟩
  · refine exec_accepted h (hbody.trans ?_)
    rw [hhas, if_neg (by simp), if_neg (fun hb => hfree (blocked_iff.mp hb)), if_neg hleft]
    rfl
  · rw [hhas, if_neg (by simp), if_neg (fun hb => hfree (blocked_iff.mp hb)), if_pos hlast, hlast, size_zero] at hbody
    obtain ⟨hcompleted, hevaluated, hnoticed⟩ := completeWithdraw_spec ((s.working .ackWithdraw p tag).setInterest l 0) l
    generalize ((s.working .ackWithdraw p tag).setInterest l 0).completeWithdraw true l = t at *
    have hfrom : t.withdrewFrom s l := withdrewFrom_setInterest (s := s.working .ackWithdraw p tag) hcompleted.withdrew
    exact ⟨_, exec_accepted h hbody, withdrewFrom_answer hfrom, hevaluated,
      completeNoticed_answer (s := s) fun hclear hset => hnoticed hclear hset, answer_slot ..,
      (congrArg State.dir hcompleted.frame :), (congrArg State.eng hcompleted.frame :),
      (congrArg State.post hcompleted.frame :)⟩
  · refine exec_refused h (hbody.trans ?_)
    rw [hhas, if_neg (by simp), if_pos (blocked_iff.mpr hblocked)]
  · refine exec_refused h (hbody.trans ?_)
    rw [hhas, if_pos (by simp)]

/-- Settles O26: the request by the state of the slot and the Withdraw List, the deadline by the state of the slot, the
completion by `completeWithdraw_spec`. -/
theorem syncAwaitsTheWithdrawList : Obligations.SyncAwaitsTheWithdrawList := by
  unfold Obligations.SyncAwaitsTheWithdrawList
  refine ⟨fun s p tag filler cut h => ⟨fun awaited deadline hslot => ?_, fun hslot => ?_⟩,
    fun s p hrst => ⟨fun awaited deadline hslot => ?_, fun hslot => ?_⟩, fun s l => ?_⟩
  · exact exec_refused h (bodySync_waiting (s := s.working .sync p tag) p tag hslot)
  · have hbody := bodySync_free (s := s.working .sync p tag) p tag hslot
    unfold bodySync.syncNow at hbody
    refine ⟨fun hempty => exec_accepted h (hbody.trans (if_pos ?_)),
      fun hlist => exec_admitted h (hbody.trans (if_neg ?_))⟩
    · simp [hempty]
    · simpa using hlist
  · rw [exec_syncTimeout hrst, syncTimeout_waiting hslot]
    rfl
  · rw [exec_syncTimeout hrst, syncTimeout_other hslot]
  · obtain ⟨hcompleted, hevaluated, hnoticed⟩ := completeWithdraw_spec s l
    obtain ⟨hunevaluated, hrun⟩ := completeWithdraw_unevaluated_spec s l
    exact ⟨hcompleted.withdrew, hevaluated, hnoticed, hunevaluated.withdrew, hrun⟩

end

