-- ==== Sys2Proof/Proofs/Falls.lean ====
section
/-! SUPPORT. Sys2Proof/Proofs/Falls.lean: what the stops and pauses of windows have in common (R84, R88): the requests of
TXEN and CKEN and the counting only fall, leases keep their holders and watchers, and the rest of the hub stands. -/

namespace Sys2Proof.Machine

variable {s t u : State} {w : WinId} {x : Window} {c : EndCause}

theorem driveSlots_of_map (h : t.map = s.map) (x : Window) : t.driveSlots x = s.driveSlots x := by
  unfold State.driveSlots State.aggressorSlot State.link
  rw [h]

theorem receiveSlot_of_map (h : t.map = s.map) (x : Window) (d : Dir) : t.receiveSlot x d = s.receiveSlot x d := by
  unfold State.receiveSlot State.link
  rw [h]

/-- From `s` to `t` the engine has fallen: windows have been stopped or paused. -/
structure Falls (s t : State) : Prop where
  frame : t = { s with
    run := { s.run with counters := { s.run.counters with windowsStopped := t.run.counters.windowsStopped } }
    dir := { s.dir with res := t.dir.res }
    eng := t.eng
    sems := t.sems
    caps := t.caps
    setup := t.setup
    ports := t.ports }
  ports : t.portsGrow s
  leases : ∀ r, (t.res r).lease.holder = (s.res r).lease.holder ∧ (t.res r).lease.watchers = (s.res r).lease.watchers
    ∧ (t.res r).lease.since = (s.res r).lease.since
  recalls : ∀ r, (t.res r).recallState = (s.res r).recallState ∧ (t.res r).crossed = (s.res r).crossed
  names : ∀ r, (t.res r).naming = none ∨ (t.res r).naming = (s.res r).naming
  caps : ∀ i, t.cap i = s.cap i ∨ t.cap i = (s.cap i).disable
  txen : ∀ i, Table.rd t.eng.txen i = true → Table.rd s.eng.txen i = true
  cken : ∀ i, Table.rd t.eng.cken i = true → Table.rd s.eng.cken i = true

namespace Falls

theorem refl (s : State) : Falls s s :=
  ⟨rfl, portsGrow_refl s, fun _ => ⟨rfl, rfl, rfl⟩, fun _ => ⟨rfl, rfl⟩, fun _ => Or.inr rfl, fun _ => Or.inl rfl,
    fun _ => id, fun _ => id⟩

theorem trans (h : Falls s t) (h' : Falls t u) : Falls s u where
  frame := by rw [h'.frame, h.frame]
  ports := h.ports.trans h'.ports
  leases r := by
    obtain ⟨hholder, hwatchers, hsince⟩ := h.leases r
    obtain ⟨hholder', hwatchers', hsince'⟩ := h'.leases r
    exact ⟨hholder'.trans hholder, hwatchers'.trans hwatchers, hsince'.trans hsince⟩
  recalls r := by
    obtain ⟨hrecall, hcrossed⟩ := h.recalls r
    obtain ⟨hrecall', hcrossed'⟩ := h'.recalls r
    exact ⟨hrecall'.trans hrecall, hcrossed'.trans hcrossed⟩
  names r := by
    rcases h'.names r with hnone | hsame
    · exact Or.inl hnone
    · rw [hsame]
      exact h.names r
  caps i := by
    rcases h.caps i with hcap | hcap <;> rcases h'.caps i with hcap' | hcap' <;> rw [hcap', hcap]
    · exact Or.inl rfl
    · exact Or.inr rfl
    · exact Or.inr rfl
    · exact Or.inr rfl
  txen i hup := h.txen i (h'.txen i hup)
  cken i hup := h.cken i (h'.cken i hup)

theorem rst (h : Falls s t) : t.rst = s.rst := by rw [h.frame]
theorem now (h : Falls s t) : t.now = s.now := by rw [h.frame]
theorem map (h : Falls s t) : t.map = s.map := by rw [h.frame]
theorem table (h : Falls s t) : t.table = s.table := by rw [h.frame]
theorem loader (h : Falls s t) : t.loader = s.loader := by rw [h.frame]
theorem lamps (h : Falls s t) : t.lamps = s.lamps := by rw [h.frame]
theorem post (h : Falls s t) : t.post = s.post := by rw [h.frame]
theorem wd (h : Falls s t) : t.wd = s.wd := by rw [h.frame]
theorem waits (h : Falls s t) : t.dir.waits = s.dir.waits := by rw [h.frame]
theorem expired (h : Falls s t) : t.dir.expired = s.dir.expired := by rw [h.frame]
theorem runState (h : Falls s t) : t.run.state = s.run.state := by rw [h.frame]
theorem runTime (h : Falls s t) : t.run.time = s.run.time := by rw [h.frame]
theorem runNumber (h : Falls s t) : t.run.number = s.run.number := by rw [h.frame]
theorem runAborted (h : Falls s t) : t.run.aborted = s.run.aborted := by rw [h.frame]
theorem runComplete (h : Falls s t) : t.run.complete = s.run.complete := by rw [h.frame]
theorem latchings (h : Falls s t) : t.run.counters.faultLatchings = s.run.counters.faultLatchings := by rw [h.frame]

theorem fault (h : Falls s t) (i : SlotId) : t.fault i = s.fault i := by
  rw [h.frame]
  rfl

theorem latched (h : Falls s t) (i : SlotId) : t.latched i = s.latched i := congrArg FaultRecord.latch (h.fault i)

theorem live (h : Falls s t) (i : SlotId) : (t.cap i).live = (s.cap i).live := by
  rcases h.caps i with hcap | hcap <;> rw [hcap]
  rfl

theorem counting (h : Falls s t) {i : SlotId} (hoff : (s.cap i).counting = false) : (t.cap i).counting = false := by
  rcases h.caps i with hcap | hcap <;> rw [hcap]
  · exact hoff
  · rfl

theorem codes (h : Falls s t) (i : SlotId) : (t.cap i).filter = (s.cap i).filter ∧ (t.cap i).prescale = (s.cap i).prescale := by
  rcases h.caps i with hcap | hcap <;> rw [hcap] <;> exact ⟨rfl, rfl⟩

theorem txenPin (h : Falls s t) {i : SlotId} (hdown : s.txenPin i = false) : t.txenPin i = false := by
  cases hpin : t.txenPin i with
  | false => rfl
  | true =>
    simp only [State.txenPin, Bool.and_eq_true, h.latched i] at hpin hdown
    rw [h.txen i hpin.1, hpin.2] at hdown
    cases hdown

theorem ckenPin (h : Falls s t) {i : SlotId} (hdown : s.ckenPin i = false) : t.ckenPin i = false := by
  cases hpin : t.ckenPin i with
  | false => rfl
  | true => exact (h.cken i hpin).symm.trans hdown

end Falls

/-! ## The stop and the pause are falls -/

theorem Stopped.falls (h : Stopped s w x c t) : Falls s t where
  frame := by rw [h.frame]
  ports := h.portsGrow
  leases r := by
    obtain ⟨hholder, hwatchers, hsince, -⟩ := h.resources r
    exact ⟨hholder, hwatchers, hsince⟩
  recalls r := by
    obtain ⟨-, -, -, hrecall, hcrossed, -⟩ := h.resources r
    exact ⟨hrecall, hcrossed⟩
  names r := by
    obtain ⟨-, -, -, -, -, hnaming⟩ := h.resources r
    split at hnaming
    · exact Or.inl hnaming
    · exact Or.inr hnaming
  caps i := by
    rw [h.caps]
    split
    · exact Or.inr rfl
    · exact Or.inl rfl
  txen i hup := by
    rw [h.txen, Bool.and_eq_true] at hup
    exact hup.1
  cken i hup := by
    rw [h.cken, Bool.and_eq_true] at hup
    exact hup.1

theorem stopWindow_ended (h : s.win w = some x) (ha : x.state.active = false) : s.stopWindow w c = s := by
  simp only [State.stopWindow, h, ha, Bool.false_eq_true, if_false]

theorem stopWindow_idle (h : s.win w = none) : s.stopWindow w c = s := by
  simp only [State.stopWindow, h]

theorem stopWindow_falls (s : State) (w : WinId) (c : EndCause) : Falls s (s.stopWindow w c)
    ∧ ∀ v, v ≠ w → (s.stopWindow w c).win v = s.win v := by
  cases h : s.win w with
  | none =>
    rw [stopWindow_idle h]
    exact ⟨Falls.refl s, fun _ _ => rfl⟩
  | some x =>
    cases ha : x.state.active with
    | false =>
      rw [stopWindow_ended h ha]
      exact ⟨Falls.refl s, fun _ _ => rfl⟩
    | true =>
      have hstop := stopWindow_spec c h ha
      exact ⟨hstop.falls, hstop.others⟩

/-- The record of a window as its pause leaves it (R88). -/
def Window.pauseRecord (x : Window) (now : Nat) : Window :=
  { (x.dropped now).modAcc x.dir (fun a => { a with flags := { a.flags with interrupted := true } }) with
    state := .paused
    dwellLeft := x.dwellToRun now
    timerEnd := none }

theorem dropDrive_others (s : State) (x : Window) {v : WinId} (hv : v ≠ w) : (s.dropDrive w x).win v = s.win v := by
  obtain ⟨fall, txen, cken, wins, hdrop, -, -, hwins⟩ := dropDrive_eq s w x
  rw [hdrop]
  show Table.rd wins v = _
  rw [hwins]
  split
  · exact (win_modWin s w v _).trans (if_neg hv)
  · rfl

/-- The drop of a window's drive with the disable of its counting is a fall, whatever becomes of the window's record. -/
theorem dropped_falls (s : State) (w : WinId) (x : Window) (f : Window → Window) :
    Falls s (((s.dropDrive w x).disableCapture x).modWin w f) := by
  obtain ⟨fall, txen, cken, wins, hdrop, htxen, hcken, -⟩ := dropDrive_eq s w x
  obtain ⟨caps, hdisable, hcaps⟩ := disableCapture_eq (s.dropDrive w x) x
  have hcap : ∀ i, (s.dropDrive w x).cap i = s.cap i := by
    intro i
    rw [hdrop]
    rfl
  rw [hdisable]
  refine ⟨?_, ?_, fun r => ?_, fun r => ?_, fun r => ?_, fun i => ?_, fun i hup => ?_, fun i hup => ?_⟩
  · rw [hdrop]
    rfl
  · exact portsGrow_of_ports (by rw [hdrop]; rfl)
  · rw [hdrop]
    exact ⟨rfl, rfl, rfl⟩
  · rw [hdrop]
    exact ⟨rfl, rfl⟩
  · rw [hdrop]
    exact Or.inr rfl
  · have h := hcaps i
    rw [hcap] at h
    split at h
    · exact Or.inr h
    · exact Or.inl h
  · rw [hdrop] at hup
    have h := (htxen i).symm.trans hup
    rw [Bool.and_eq_true] at h
    exact h.1
  · rw [hdrop] at hup
    have h := (hcken i).symm.trans hup
    rw [Bool.and_eq_true] at h
    exact h.1

/-- The drop of the drive of a driving window: its requests and its counting are down. -/
theorem dropped_down (s : State) (w : WinId) (f : Window → Window) (hdriving : x.state.driving = true) :
    (∀ j ∈ s.driveSlots x, (((s.dropDrive w x).disableCapture x).modWin w f).txenPin j = false)
    ∧ ∀ j, s.receiveSlot x x.dir = some j → (((s.dropDrive w x).disableCapture x).modWin w f).ckenPin j = false
      ∧ ((((s.dropDrive w x).disableCapture x).modWin w f).cap j).counting = false := by
  obtain ⟨fall, txen, cken, wins, hdrop, htxen, hcken, -⟩ := dropDrive_eq s w x
  obtain ⟨caps, hdisable, hcaps⟩ := disableCapture_eq (s.dropDrive w x) x
  have hslot : (s.dropDrive w x).receiveSlot x x.dir = s.receiveSlot x x.dir := by
    rw [hdrop]
    rfl
  rw [hdisable]
  refine ⟨fun j hj => ?_, fun j hj => ⟨?_, ?_⟩⟩
  · rw [hdrop]
    show (Table.rd txen j && _) = false
    rw [htxen, hdriving]
    simp [hj]
  · rw [hdrop]
    show Table.rd cken j = false
    rw [hcken, hdriving]
    simp [hj]
  · show (Table.rd caps j).counting = false
    rw [hcaps, hslot, if_pos hj]
    rfl

/-! ## Windows taken one after another -/

/-- A step taken for each window of a list: what it makes of the hub at the turn of one window stands at the end. -/
theorem foldl_windows_falls {f : State → WinId → State} (ls : List WinId) (hls : ls.Nodup) (s : State)
    (hf : ∀ u, Falls s u → ∀ w, Falls u (f u w) ∧ ∀ v, v ≠ w → (f u w).win v = u.win v) :
    Falls s (ls.foldl f s) ∧ (∀ v, v ∉ ls → (ls.foldl f s).win v = s.win v)
    ∧ ∀ w ∈ ls, ∃ u, Falls s u ∧ u.win w = s.win w ∧ Falls (f u w) (ls.foldl f s)
      ∧ (ls.foldl f s).win w = (f u w).win w := by
  induction ls generalizing s with
  | nil => exact ⟨Falls.refl s, fun _ _ => rfl, fun w hw => by cases hw⟩
  | cons a ls ih =>
    obtain ⟨ha, hrest⟩ := List.nodup_cons.mp hls
    obtain ⟨hfalls, hothers⟩ := hf s (Falls.refl s) a
    obtain ⟨hfalls', hothers', hturn⟩ := ih hrest (f s a) (fun u hu => hf u (hfalls.trans hu))
    rw [List.foldl_cons]
    refine ⟨hfalls.trans hfalls', fun v hv => ?_, fun w hw => ?_⟩
    · obtain ⟨hva, hvls⟩ := not_or.mp (fun h => hv (List.mem_cons.mpr h))
      rw [hothers' v hvls, hothers v hva]
    · rcases List.mem_cons.mp hw with rfl | hw
      · exact ⟨s, Falls.refl s, rfl, hfalls', hothers' w ha⟩
      · obtain ⟨u, hu, hwin, hafter, hend⟩ := hturn w hw
        have hne : w ≠ a := fun h => ha (h ▸ hw)
        exact ⟨u, hfalls.trans hu, hwin.trans (hothers w hne), hafter, hend⟩

end Sys2Proof.Machine

end

