-- ==== Sys2Proof/Proofs/Latches.lean ====
section
/-! SUPPORT. Sys2Proof/Proofs/Latches.lean: how the windows react to the latch of a slot (R87, R88), all that a latching
does (R131), and the two obligations on the FLT edges (R130, R136) and on the qualify deadline. -/

namespace Sys2Proof.Machine

variable {s t u : State} {w : WinId} {x : Window} {i : SlotId}

/-! ## One window (R87, R88) -/

theorem namesSlot_iff : x.namesSlot i = true ↔ ∃ r ∈ x.named, resSlot r = i := by
  simp [Window.namesSlot]

theorem latchesClear_iff : s.latchesClear x = true ↔ ∀ r ∈ x.named, s.latched (resSlot r) = false := by
  simp [State.latchesClear]

theorem tryResume_blocked (h : s.win w = some x) (hblocked : s.latchesClear x = false) : s.tryResume w = s := by
  simp [State.tryResume, h, hblocked]

/-- While a slot that the window names is latched, its pause is only that. -/
theorem pauseWindow_eq (h : s.win w = some x) (hlatched : s.latched i = true) (hnames : x.namesSlot i = true) :
    Falls s (s.pauseWindow w x) ∧ (∀ v, v ≠ w → (s.pauseWindow w x).win v = s.win v)
    ∧ (s.pauseWindow w x).win w = some (x.pauseRecord s.now)
    ∧ (x.state.driving = true → (∀ j ∈ s.driveSlots x, (s.pauseWindow w x).txenPin j = false)
      ∧ ∀ j, s.receiveSlot x x.dir = some j → (s.pauseWindow w x).ckenPin j = false
        ∧ ((s.pauseWindow w x).cap j).counting = false) := by
  let f : Window → Window := fun y => { y.modAcc x.dir (fun a => { a with flags := { a.flags with interrupted := true } }) with
    state := .paused, dwellLeft := x.dwellToRun s.now, timerEnd := none }
  have hfalls := dropped_falls s w x f
  have hdown := dropped_down (x := x) s w f
  have hothers : ∀ v, v ≠ w → (((s.dropDrive w x).disableCapture x).modWin w f).win v = s.win v := by
    intro v hv
    rw [win_modWin, if_neg hv, disableCapture_win, dropDrive_others s x hv]
  have hrecord : (((s.dropDrive w x).disableCapture x).modWin w f).win w = some (x.pauseRecord s.now) := by
    refine win_modWin_some ?_ f
    rw [disableCapture_win]
    exact dropDrive_win h
  have hblocked : (((s.dropDrive w x).disableCapture x).modWin w f).latchesClear (x.pauseRecord s.now) = false := by
    rw [Bool.eq_false_iff, Ne, latchesClear_iff]
    intro hclear
    obtain ⟨r, hr, hslot⟩ := namesSlot_iff.mp hnames
    have hnamed : (x.pauseRecord s.now).named = x.named := by
      unfold Window.pauseRecord
      cases x.dir <;> rfl
    have h := hclear r (hnamed ▸ hr)
    rw [hfalls.latched, hslot, hlatched] at h
    cases h
  have heq : s.pauseWindow w x = ((s.dropDrive w x).disableCapture x).modWin w f := tryResume_blocked hrecord hblocked
  rw [heq]
  exact ⟨hfalls, hothers, hrecord, hdown⟩

theorem faultWindow_falls (hlatched : s.latched i = true) (w : WinId) :
    Falls s (s.faultWindow i w) ∧ ∀ v, v ≠ w → (s.faultWindow i w).win v = s.win v := by
  unfold State.faultWindow
  cases h : s.win w with
  | none => exact ⟨Falls.refl s, fun _ _ => rfl⟩
  | some x =>
    dsimp only
    split
    · next hreacts =>
      obtain ⟨hphase, hnames⟩ := hreacts
      split
      · exact stopWindow_falls s w .fault
      · split
        · obtain ⟨hfalls, hothers, -⟩ := pauseWindow_eq h hlatched hnames
          exact ⟨hfalls, hothers⟩
        · exact ⟨Falls.refl s, fun _ _ => rfl⟩
    · exact ⟨Falls.refl s, fun _ _ => rfl⟩

theorem faultWindow_stands (h : s.win w = some x) (hnot : ¬ (x.state.phase = true ∧ x.namesSlot i = true)) :
    s.faultWindow i w = s := by
  simp only [State.faultWindow, h]
  exact if_neg hnot

theorem faultWindow_idle (h : s.win w = none) : s.faultWindow i w = s := by
  simp only [State.faultWindow, h]

theorem faultWindow_halts (h : s.win w = some x) (hreacts : x.state.phase = true ∧ x.namesSlot i = true)
    (hmode : x.faultMode = .halt) : s.faultWindow i w = s.stopWindow w .fault := by
  simp only [State.faultWindow, h, hmode]
  exact if_pos hreacts

theorem faultWindow_pauses (h : s.win w = some x) (hreacts : x.state.phase = true ∧ x.namesSlot i = true)
    (hmode : x.faultMode = .pause) : s.faultWindow i w = if x.state.driving then s.pauseWindow w x else s := by
  simp only [State.faultWindow, h, hmode]
  exact if_pos hreacts

/-! ## The slot (R131) -/

/-- A latching up to the windows: the latch, the fall of TXEN, the counts and the notices. -/
def State.latchUnit (s : State) (i : SlotId) : State :=
  ((((if s.txenPin i then s.setFall i s.now else s).modFault i (fun f => { f with
    latch := true, latchedAt := some s.nowMs, qualifying := none, count := satAdd max8 f.count 1 })).count (fun c =>
      { c with faultLatchings := satAdd max16 c.faultLatchings 1 })).raiseOn (s.faultRecipients i) .fault)

theorem latch_eq (s : State) (i : SlotId) : s.latch i = (s.latchUnit i).faultWindows i := by
  rfl

/-- The fault record of a slot as its latching leaves it. -/
def FaultRecord.latchedAtMs (f : FaultRecord) (ms : Nat) : FaultRecord :=
  { f with latch := true, latchedAt := some ms, qualifying := none, count := min 255 (f.count + 1) }

theorem latchUnit_eq (s : State) (i : SlotId) : s.latchUnit i = { s with
    eng := { s.eng with fall := (s.latchUnit i).eng.fall }
    faults := Table.upd s.faults i (fun f => f.latchedAtMs s.nowMs)
    run := { s.run with counters := { s.run.counters with
      faultLatchings := min 65535 (s.run.counters.faultLatchings + 1) } }
    ports := (s.latchUnit i).ports } := by
  unfold State.latchUnit
  rw [raiseOn_eq]
  split <;> rfl

theorem latchUnit_fault (s : State) (i j : SlotId) :
    (s.latchUnit i).fault j = if j = i then (s.fault i).latchedAtMs s.nowMs else s.fault j := by
  rw [latchUnit_eq]
  exact Table.rd_upd ..

theorem latchUnit_latched (s : State) (i : SlotId) : (s.latchUnit i).latched i = true := by
  unfold State.latched
  rw [latchUnit_fault, if_pos rfl]
  rfl

theorem latchUnit_win (s : State) (i : SlotId) (w : WinId) : (s.latchUnit i).win w = s.win w := by
  rw [latchUnit_eq]
  rfl

theorem latchUnit_dir (s : State) (i : SlotId) : (s.latchUnit i).dir = s.dir := by rw [latchUnit_eq]
theorem latchUnit_now (s : State) (i : SlotId) : (s.latchUnit i).now = s.now := by rw [latchUnit_eq]
theorem latchUnit_map (s : State) (i : SlotId) : (s.latchUnit i).map = s.map := by rw [latchUnit_eq]
theorem latchUnit_caps (s : State) (i : SlotId) : (s.latchUnit i).caps = s.caps := by rw [latchUnit_eq]

theorem latchUnit_portsGrow (s : State) (i : SlotId) : (s.latchUnit i).portsGrow s := by
  unfold State.latchUnit
  refine State.portsGrow.trans (portsGrow_of_ports ?_) (raiseOn_portsGrow _ _ _)
  split <;> rfl

/-- The ports that a latching tells (R131). -/
theorem latchUnit_noticed {q : PortId} (h : s.faultParty i q = true) : (s.latchUnit i).noticed q .fault = true := by
  unfold State.latchUnit
  rw [noticed_raiseOn]
  have hhas : PortSet.has (s.faultRecipients i) q = true := (has_gathered (s.faultParty i) q).trans h
  simp [hhas]

theorem faultParty_of {q : PortId} (h : (s.port q).role = .supervisor ∨ s.holds q (genOf i) = true
    ∨ s.holds q (chkOf i) = true ∨ s.watches q (chkOf i) = true
    ∨ ∃ w x, s.win w = some x ∧ x.owner = q ∧ x.state.active = true ∧ x.namesSlot i = true) :
    s.faultParty i q = true := by
  unfold State.faultParty
  simp only [Bool.or_eq_true, decide_eq_true_eq, List.any_eq_true]
  rcases h with hrole | hgen | hchk | hwatch | ⟨w, x, hx, howner, hactive, hnames⟩
  · exact Or.inr hrole
  · exact Or.inl (Or.inl (Or.inl (Or.inl hgen)))
  · exact Or.inl (Or.inl (Or.inl (Or.inr hchk)))
  · exact Or.inl (Or.inl (Or.inr hwatch))
  · refine Or.inl (Or.inr ⟨w, List.mem_finRange w, ?_⟩)
    simp [hx, howner, hactive, hnames]

/-- All that the windows do at a latch is a fall; the turn of each stands at the end. -/
theorem faultWindows_falls (hlatched : s.latched i = true) : Falls s (s.faultWindows i)
    ∧ ∀ w, ∃ u, Falls s u ∧ u.win w = s.win w ∧ Falls (u.faultWindow i w) (s.faultWindows i)
      ∧ (s.faultWindows i).win w = (u.faultWindow i w).win w := by
  obtain ⟨hfalls, -, hturn⟩ := foldl_windows_falls (f := fun t w => t.faultWindow i w) (List.finRange 8)
    (List.nodup_finRange 8) s (fun u hu w => faultWindow_falls ((hu.latched i).trans hlatched) w)
  exact ⟨hfalls, fun w => hturn w (List.mem_finRange w)⟩

/-! ## A latching as a whole (R131) -/

theorem latch_falls (s : State) (i : SlotId) : Falls (s.latchUnit i) (s.latch i) :=
  (faultWindows_falls (latchUnit_latched s i)).1

theorem latch_fault (s : State) (i j : SlotId) :
    (s.latch i).fault j = if j = i then (s.fault i).latchedAtMs s.nowMs else s.fault j := by
  rw [(latch_falls s i).fault, latchUnit_fault]

theorem latch_portsGrow (s : State) (i : SlotId) : (s.latch i).portsGrow s :=
  (latchUnit_portsGrow s i).trans (latch_falls s i).ports

/-- A window at a latching: at its turn the hub is as before but for what has fallen. -/
theorem latch_window (s : State) (i : SlotId) (w : WinId) : ∃ u, Falls (s.latchUnit i) u ∧ u.win w = s.win w
    ∧ u.latched i = true ∧ Falls (u.faultWindow i w) (s.latch i) ∧ (s.latch i).win w = (u.faultWindow i w).win w := by
  obtain ⟨u, hu, hwin, hafter, hend⟩ := (faultWindows_falls (latchUnit_latched s i)).2 w
  exact ⟨u, hu, hwin.trans (latchUnit_win s i w), (hu.latched i).trans (latchUnit_latched s i), hafter, hend⟩

/-- A HALT stop marks every result. -/
theorem stopRecord_faulted {now losses : Nat} {b : Dir} {a : Accumulator}
    (h : (x.stopRecord .fault now losses).acc b = some a) : a.flags.faulted = true := by
  unfold Window.stopRecord Window.markCause Window.modAccs at h
  generalize ((x.dropped now).halted .fault now).keepLockLosses losses = y at h
  cases b with
  | fwd =>
    obtain ⟨a', -, rfl⟩ := Option.map_eq_some_iff.mp (show y.accFwd.map _ = some a from h)
    rfl
  | rev =>
    obtain ⟨a', -, rfl⟩ := Option.map_eq_some_iff.mp (show y.accRev.map _ = some a from h)
    rfl

/-- A pause marks the result of the direction in progress. -/
theorem pauseRecord_interrupted {now : Nat} {a : Accumulator} (h : (x.pauseRecord now).acc x.dir = some a) :
    a.flags.interrupted = true := by
  unfold Window.pauseRecord at h
  cases hdir : x.dir with
  | fwd =>
    rw [hdir] at h
    obtain ⟨a', -, rfl⟩ := Option.map_eq_some_iff.mp (show x.accFwd.map _ = some a from h)
    rfl
  | rev =>
    rw [hdir] at h
    obtain ⟨a', -, rfl⟩ := Option.map_eq_some_iff.mp (show x.accRev.map _ = some a from h)
    rfl

theorem pauseRecord_fields (x : Window) (now : Nat) : (x.pauseRecord now).state = .paused
    ∧ (x.pauseRecord now).timerEnd = none ∧ (x.pauseRecord now).dwellLeft = x.dwellToRun now
    ∧ (x.pauseRecord now).ownFall = (x.dropped now).ownFall := by
  refine ⟨rfl, rfl, rfl, ?_⟩
  unfold Window.pauseRecord
  cases x.dir <;> rfl

/-! ## The edges of FLT (R130, R136) -/

theorem fault_modFault_same (f : FaultRecord → FaultRecord) : (s.modFault i f).fault i = f (s.fault i) := by
  rw [fault_modFault, if_pos rfl]

theorem modFault_modFault (f g : FaultRecord → FaultRecord) :
    (s.modFault i f).modFault i g = s.modFault i (fun x => g (f x)) := by
  unfold State.modFault
  congr 1
  apply Table.ext_rd
  intro j
  simp only [Table.rd_upd]
  split <;> simp_all

/-- The input of the slot asks for qualifying: the slot is fitted, its latch clear and its FLT up. -/
def State.asserted (s : State) (i : SlotId) : Prop :=
  s.isFitted i = true ∧ (s.fault i).level = true ∧ s.latched i = false

theorem qualify_stands (h : ¬ s.asserted i) : s.qualify i = s := by
  refine if_neg fun hq => h ?_
  obtain ⟨hfit, hclear, hlevel⟩ := hq
  exact ⟨hfit, hlevel, by simpa using hclear⟩

theorem qualify_runs (h : s.asserted i) (htime : (s.slotEntry i).qualify ≠ 0) : s.qualify i =
    s.modFault i (fun f => { f with qualifying := some (s.now + (s.slotEntry i).qualify) }) := by
  obtain ⟨hfit, hlevel, hclear⟩ := h
  exact (if_pos ⟨hfit, by simp [hclear], hlevel⟩).trans (if_neg htime)

theorem qualify_latches (h : s.asserted i) (htime : (s.slotEntry i).qualify = 0) : s.qualify i = s.latch i := by
  obtain ⟨hfit, hlevel, hclear⟩ := h
  exact (if_pos ⟨hfit, by simp [hclear], hlevel⟩).trans (if_pos htime)

theorem exec_fltAssert_live (hrst : s.rst = false) (hlow : (s.fault i).level = false) :
    exec (.fltAssert i) s = .next ((s.modFault i (fun f => { f with level := true })).fltRose i) := by
  rw [exec_fltAssert_rises hlow]
  exact congrArg _ (live_out_of_reset (s := s.modFault i _) hrst _)

/-- In LOADING a rise of FLT is its level alone. -/
theorem exec_fltAssert_loading (hrst : s.rst = false) (hlow : (s.fault i).level = false) (hrun : s.run.state = .loading) :
    exec (.fltAssert i) s = .next (s.modFault i (fun f => { f with level := true })) := by
  rw [exec_fltAssert_live hrst hlow]
  exact congrArg _ (fltRose_in_loading (s.modFault i _) i hrun)

/-- Elsewhere qualifying follows it. -/
theorem exec_fltAssert_qualifies (hrst : s.rst = false) (hlow : (s.fault i).level = false)
    (hrun : s.run.state ≠ .loading) :
    exec (.fltAssert i) s = .next ((s.modFault i (fun f => { f with level := true })).qualify i) := by
  rw [exec_fltAssert_live hrst hlow]
  exact congrArg _ (fltRose_elsewhere (s.modFault i _) i hrun)

/-- A slot whose FLT has just risen. -/
theorem asserted_of_rise (hfit : s.isFitted i = true) (hclear : s.latched i = false) :
    (s.modFault i (fun f => { f with level := true })).asserted i := by
  refine ⟨hfit, ?_, ?_⟩
  · rw [fault_modFault_same]
  · unfold State.latched
    rw [fault_modFault_same]
    exact hclear

theorem exec_faultQualifyExpiry (hrst : s.rst = false) :
    exec (.faultQualifyExpiry i) s = .next (s.qualified i) := congrArg _ (live_out_of_reset hrst _)

end Sys2Proof.Machine

open Sys2Proof Sys2Proof.Machine

/-- Settles O52. -/
theorem fltEdgesQualify : Obligations.FltEdgesQualify := by
  unfold Obligations.FltEdgesQualify
  intro s i hrst
  refine ⟨rfl, fun hup => ?_, fun hlow hrun hfit hclear htime => ?_, fun hlow hrun hfit hclear htime => ?_,
    fun hlow hnot => ?_⟩
  · exact congrArg _ (if_pos hup)
  · rw [exec_fltAssert_qualifies hrst hlow hrun, qualify_runs (asserted_of_rise hfit hclear) (Nat.pos_iff_ne_zero.mp htime),
      modFault_modFault]
    rfl
  · refine ⟨_, exec_fltAssert_qualifies hrst hlow hrun, ?_⟩
    rw [qualify_latches (asserted_of_rise hfit hclear) htime]
    unfold State.latched
    rw [latch_fault, if_pos rfl, fault_modFault_same]
    exact ⟨rfl, rfl⟩
  · by_cases hrun : s.run.state = .loading
    · exact exec_fltAssert_loading hrst hlow hrun
    · rw [exec_fltAssert_qualifies hrst hlow hrun, qualify_stands]
      rintro ⟨hfit, -, hclear⟩
      unfold State.latched at hclear
      rw [fault_modFault_same] at hclear
      rcases hnot with hloading | hunfitted | hlatched
      · exact hrun hloading
      · exact absurd (hunfitted.symm.trans hfit) (by decide)
      · exact absurd (hlatched.symm.trans hclear) (by decide)

/-- Settles O53: the unit of the slot, then the turn of each window. -/
theorem qualifiedFaultLatches : Obligations.QualifiedFaultLatches := by
  unfold Obligations.QualifiedFaultLatches
  intro s i hrst
  refine ⟨fun hidle => ?_, fun d hrunning => ?_⟩
  · rw [exec_faultQualifyExpiry hrst]
    simp only [State.qualified, hidle]
  · have hexec : exec (.faultQualifyExpiry i) s = .next ((s.advanceTo d).latch i) := by
      rw [exec_faultQualifyExpiry hrst]
      simp only [State.qualified, hrunning]
    have hfalls := latch_falls (s.advanceTo d) i
    refine ⟨_, hexec, ?_, fun j hj => ?_, ?_, ?_, fun q hq => ?_, fun r => ?_, fun w x hwin => ?_⟩
    · rw [latch_fault, if_pos rfl]
      rfl
    · rw [latch_fault, if_neg hj]
      rfl
    · rw [hfalls.latchings, latchUnit_eq]
      rfl
    · unfold State.txenPin State.latched
      rw [latch_fault, if_pos rfl]
      exact Bool.and_false _
    · exact hfalls.ports.noticed (latchUnit_noticed (s := s.advanceTo d) (faultParty_of hq))
    · obtain ⟨hholder, hwatchers, -⟩ := hfalls.leases r
      rw [hholder, hwatchers, State.res, latchUnit_dir]
      exact ⟨rfl, rfl⟩
    · obtain ⟨u, hu, huwin, hlatched, hafter, hend⟩ := latch_window (s.advanceTo d) i w
      have hnow : u.now = max s.now d := by rw [hu.now, latchUnit_now]; rfl
      replace huwin : u.win w = some x := huwin.trans hwin
      have hmap : u.map = s.map := by rw [hu.map, latchUnit_map]; rfl
      rw [hend]
      intro reacts
      refine ⟨fun hnot => ?_, fun hreacts hhalt => ?_, fun hreacts hpause hlead hdwell => ?_,
        fun hreacts hpause hdrives => ?_⟩
      · rw [faultWindow_stands huwin hnot, huwin]
      · have hactive := active_of_phase hreacts.1
        obtain ⟨y, hy, hstate, hcause, -⟩ := (stopWindow_spec .fault huwin hactive).window
        rw [faultWindow_halts huwin hreacts hhalt]
        refine ⟨y, hy, hstate, hcause, fun b a ha => ?_⟩
        rw [stopWindow_win huwin hactive] at hy
        obtain rfl := Option.some.inj hy
        exact stopRecord_faulted (x := x) (b := b) (by cases b <;> exact ha)
      · have hnotDriving : ¬ x.state.driving = true := by simp [WinState.driving, hlead, hdwell]
        rw [faultWindow_pauses huwin hreacts hpause, if_neg hnotDriving, huwin]
      · have hdriving : x.state.driving = true := by rcases hdrives with h | h <;> simp [WinState.driving, h]
        rw [faultWindow_pauses huwin hreacts hpause, if_pos hdriving] at hafter ⊢
        obtain ⟨hpfalls, -, hrecord, hdown⟩ := pauseWindow_eq huwin hlatched hreacts.2
        obtain ⟨htxen, hreceive⟩ := hdown hdriving
        obtain ⟨hstate, htimer, hleft, hfall⟩ := pauseRecord_fields x u.now
        refine ⟨x.pauseRecord u.now, hrecord, hstate, htimer, ?_, fun hlead => ?_, fun e hdwell htimerEnd => ?_,
          fun a ha => pauseRecord_interrupted ha, fun j hj => ?_, fun j hj => ?_⟩
        · rw [hfall, Window.dropped, if_pos hdriving, hnow]
        · rw [hleft, dwellToRun_elsewhere (by rw [hlead]; decide)]
        · rw [hleft, dwellToRun_in_dwell hdwell, htimerEnd, hnow]
          rfl
        · exact hafter.txenPin (htxen j (by rwa [driveSlots_of_map hmap]))
        · obtain ⟨hcken, hcounting⟩ := hreceive j (by rwa [receiveSlot_of_map hmap])
          refine ⟨hafter.ckenPin hcken, hafter.counting hcounting, ?_⟩
          rw [hafter.live, hpfalls.live, hu.live, State.cap, latchUnit_caps]
          rfl

end

