-- ==== Sys2Proof/Proofs/LinkRecords.lean ====
section
/-! SUPPORT. Sys2Proof/Proofs/LinkRecords.lean: the tests of a link record, one by one in their order (R12, R199). -/

namespace Sys2Proof.Machine

variable {m : LinkMap} {l : LinkId} {a b : EndPoint} {id sa pa sb pb n ctl k na nb nc nd : Byte}

theorem idxOf_toNat {j : Nat} {x : Byte} {i : Fin j} (h : x.toNat = i.val) : idxOf j x = some i :=
  finOf_eq_some_iff.mpr h

theorem endPointOf_numbers {e : EndPoint} {slot port : Byte} (hslot : slot.toNat = e.slot.val)
    (hport : port.toNat = e.port.val) : endPointOf slot port = some e := by
  simp only [endPointOf, idxOf_toNat hslot, idxOf_toNat hport]

theorem endPointOf_badPort {slot port : Byte} (h : 15 ≤ port.toNat) : endPointOf slot port = none := by
  unfold endPointOf
  rw [idxOf_eq_none h]
  cases idxOf 16 slot <;> rfl

/-- The record of R199: id, the two ends, lanes, control, neighbour count and four neighbours. -/
def linkRecord (id sa pa sb pb n ctl k na nb nc nd : Byte) : List Byte := [id, sa, pa, sb, pb, n, ctl, k, na, nb, nc, nd]

theorem judgeRecord_idRange (h : 128 ≤ id.toNat) :
    m.judgeRecord (linkRecord id sa pa sb pb n ctl k na nb nc nd) = .error .idRange := by
  have hid : idxOf 128 (byteAt (linkRecord id sa pa sb pb n ctl k na nb nc nd) 0) = none := idxOf_eq_none h
  simp only [LinkMap.judgeRecord, hid]

/-- A record with an id of the map, by its tests. -/
theorem judgeRecord_id (h : id.toNat = l.val) :
    m.judgeRecord (linkRecord id sa pa sb pb n ctl k na nb nc nd) =
      if (Table.rd m.links l).isSome then .error .duplicateId
      else if m.fitted ≤ sa.toNat ∨ m.fitted ≤ sb.toNat then .error .slotNotFitted
      else match endPointOf sa pa, endPointOf sb pb with
        | some a, some b =>
          if a = b then .error .sameEndpoint
          else if m.usesEndPoint a || m.usesEndPoint b then .error .endpointUsed
          else match linkOf (linkRecord id sa pa sb pb n ctl k na nb nc nd) a b with
            | .ok k => .ok (l, k)
            | .error e => .error e
        | _, _ => .error .portRange := by
  have hid : idxOf 128 (byteAt (linkRecord id sa pa sb pb n ctl k na nb nc nd) 0) = some l := idxOf_toNat h
  simp only [LinkMap.judgeRecord, hid]
  rfl

/-- The last three tests of a record, and the link it gives. -/
theorem linkOf_record : linkOf (linkRecord id sa pa sb pb n ctl k na nb nc nd) a b =
    if n.toNat = 0 ∨ 4 < n.toNat then .error .lanesRange
    else match finOf 4 (ctl.toNat % 128) with
      | none => .error .limitSetRange
      | some lim =>
        if 4 < k.toNat then .error .neighbourCount
        else .ok { endA := a, endB := b, lanes := n.toNat, reversed := decide (128 ≤ ctl.toNat), limitSet := lim,
                   neighbours := ([na, nb, nc, nd].take k.toNat).map (fun x => x.toNat), state := .fitted } := by
  have hreversed : ctl.getLsbD 7 = decide (128 ≤ ctl.toNat) := by
    simpa [BitVec.msb, BitVec.getMsbD] using ctl.msb_eq_decide
  rw [← hreversed]
  rfl

end Sys2Proof.Machine

open Sys2Proof Sys2Proof.Machine

/-- Settles O21. -/
theorem linkRecordsAreTestedInOrder : Obligations.LinkRecordsAreTestedInOrder := by
  unfold Obligations.LinkRecordsAreTestedInOrder
  intro m id sa pa sb pb n ctl k na nb nc nd r
  refine ⟨fun hid => judgeRecord_idRange hid, fun l hid => ?_⟩
  have hjudge : m.judgeRecord r = _ := judgeRecord_id hid
  rw [hjudge]
  refine ⟨fun hdup => if_pos hdup, fun hnew => ?_⟩
  rw [if_neg (by simp [hnew])]
  refine ⟨fun hslot => if_pos hslot, fun hsa hsb hfitted => ?_⟩
  rw [if_neg (by omega)]
  refine ⟨fun hport => ?_, fun ea eb hsa hpa hsb hpb => ?_⟩
  · rcases hport with hport | hport
    · rw [endPointOf_badPort hport]
    · rw [endPointOf_badPort hport]
      cases endPointOf sa pa <;> rfl
  · rw [endPointOf_numbers hsa hpa, endPointOf_numbers hsb hpb]
    refine ⟨fun heq => if_pos heq, fun hne => ?_⟩
    dsimp only
    rw [if_neg hne]
    refine ⟨fun hused => if_pos (by simpa using hused), fun ha hb => ?_⟩
    rw [if_neg (by simp [ha, hb]), linkOf_record]
    refine ⟨fun hlanes => by rw [if_pos hlanes], fun hlow hhigh => ?_⟩
    rw [if_neg (by omega)]
    refine ⟨fun hlim => ?_, fun lim hlim => ?_⟩
    · rw [show finOf 4 (ctl.toNat % 128) = none from dif_neg (Nat.not_lt.mpr hlim)]
    · rw [finOf_eq_some_iff.mpr hlim]
      exact ⟨fun hcount => by simp only [if_pos hcount], fun hcount => by simp only [if_neg (Nat.not_lt.mpr hcount)]⟩

end

