-- ==== Sys2Proof/Proofs/LoadEnd.lean ====
section
/-! SUPPORT. Sys2Proof/Proofs/LoadEnd.lean: the end of a load (R15): what it hands to the Verdict Table, the ports, the
Capture Unit, the lamps and the Fault Unit (R157, R175, R109, R191, R136), and the read of the header (R7, R8). -/

namespace Sys2Proof.Machine

variable {s t u : State} {i : SlotId}

/-! ## Ports and capture records (R175, R185, R109) -/

/-- A port with the settings of the map. -/
def AgentPort.settle (x : AgentPort) (a : PortSettings) : AgentPort :=
  ({ x with role := a.role } : AgentPort).setSets x.notices a.enableDefault

/-- One port's part of the end of a load. -/
def State.settlePort (u : State) (p : PortId) : State := u.modPort p (fun x => x.settle (Table.rd u.map.ports p))

theorem foldl_settlePort (ls : List PortId) (s : State) :
    ls.foldl State.settlePort s = { s with ports := (ls.foldl State.settlePort s).ports }
    ∧ ∀ q, (ls.foldl State.settlePort s).port q =
      if q ∈ ls then (s.port q).settle (Table.rd s.map.ports q) else s.port q := by
  induction ls generalizing s with
  | nil => exact ⟨rfl, fun q => rfl⟩
  | cons p ls ih =>
    obtain ⟨hframe, hport⟩ := ih (s.settlePort p)
    rw [List.foldl_cons]
    refine ⟨by rw [hframe]; rfl, fun q => ?_⟩
    rw [hport, State.settlePort, port_modPort]
    by_cases hq : q = p
    · subst hq
      by_cases hmem : q ∈ ls
      · rw [if_pos hmem, if_pos rfl, if_pos List.mem_cons_self]
        rfl
      · rw [if_neg hmem, if_pos rfl, if_pos List.mem_cons_self]
    · simp [hq]

theorem takePortSettings_eq (s : State) : s.takePortSettings = allPorts.foldl State.settlePort s := rfl

/-- A capture record with the codes of a slot entry. -/
def Capture.settle (c : Capture) (e : SlotEntry) : Capture := { c with filter := e.filter, prescale := e.prescale }

/-- One slot's part of the end of a load. -/
def State.settleCapture (u : State) (i : SlotId) : State := u.modCap i (fun c => c.settle (u.slotEntry i))

theorem foldl_settleCapture (ls : List SlotId) (s : State) :
    ls.foldl State.settleCapture s = { s with caps := (ls.foldl State.settleCapture s).caps }
    ∧ ∀ j, (ls.foldl State.settleCapture s).cap j = if j ∈ ls then (s.cap j).settle (s.slotEntry j) else s.cap j := by
  induction ls generalizing s with
  | nil => exact ⟨rfl, fun j => rfl⟩
  | cons i ls ih =>
    obtain ⟨hframe, hcap⟩ := ih (s.settleCapture i)
    rw [List.foldl_cons]
    refine ⟨by rw [hframe]; rfl, fun j => ?_⟩
    rw [hcap, State.settleCapture, cap_modCap]
    by_cases hj : j = i
    · subst hj
      by_cases hmem : j ∈ ls
      · rw [if_pos hmem, if_pos rfl, if_pos List.mem_cons_self]
        rfl
      · rw [if_neg hmem, if_pos rfl, if_pos List.mem_cons_self]
    · have hentry : (s.settleCapture i).slotEntry j = s.slotEntry j := rfl
      rw [if_neg hj, ← State.settleCapture, hentry]
      simp [hj]

theorem takeCaptureSettings_eq (s : State) : s.takeCaptureSettings = allSlots.foldl State.settleCapture s := rfl

/-! ## The Fault Unit (R136) -/

/-- A fault record as the begin of qualifying leaves it. -/
def State.settledFault (s : State) (i : SlotId) : FaultRecord :=
  if s.isFitted i = true ∧ (s.fault i).level = true ∧ s.latched i = false then
    if (s.slotEntry i).qualify = 0 then (s.fault i).latchedAtMs s.nowMs
    else { s.fault i with qualifying := some (s.now + (s.slotEntry i).qualify) }
  else s.fault i

theorem settledFault_latches (h : s.asserted i) (htime : (s.slotEntry i).qualify = 0) :
    s.settledFault i = (s.fault i).latchedAtMs s.nowMs := (if_pos h).trans (if_pos htime)

theorem settledFault_runs (h : s.asserted i) (htime : (s.slotEntry i).qualify ≠ 0) :
    s.settledFault i = { s.fault i with qualifying := some (s.now + (s.slotEntry i).qualify) } :=
  (if_pos h).trans (if_neg htime)

theorem settledFault_stands (h : ¬ s.asserted i) : s.settledFault i = s.fault i := if_neg h

/-- What the begin of qualifying at some slots makes of the hub. -/
structure Qualifies (s : State) (ls : List SlotId) (t : State) : Prop where
  frame : t = { s with
    run := { s.run with counters := t.run.counters }
    dir := { s.dir with res := t.dir.res }
    eng := t.eng
    sems := t.sems
    caps := t.caps
    setup := t.setup
    faults := t.faults
    ports := t.ports }
  ports : t.portsGrow s
  codes : ∀ j, (t.cap j).filter = (s.cap j).filter ∧ (t.cap j).prescale = (s.cap j).prescale
  faults : ∀ j, t.fault j = if j ∈ ls then s.settledFault j else s.fault j

theorem qualifies_latch (h : s.asserted i) (htime : (s.slotEntry i).qualify = 0) : Qualifies s [i] (s.latch i) := by
  have hfalls := latch_falls s i
  refine ⟨?_, latch_portsGrow s i, fun j => ?_, fun j => ?_⟩
  · rw [hfalls.frame, latchUnit_eq]
  · obtain ⟨hfilter, hprescale⟩ := hfalls.codes j
    rw [hfilter, hprescale, State.cap, latchUnit_caps]
    exact ⟨rfl, rfl⟩
  · rw [latch_fault]
    by_cases hj : j = i
    · subst hj
      rw [if_pos rfl, if_pos (List.mem_singleton.mpr rfl), settledFault_latches h htime]
    · rw [if_neg hj, if_neg (by simpa using hj)]

theorem qualify_qualifies (s : State) (i : SlotId) : Qualifies s [i] (s.qualify i) := by
  by_cases h : s.asserted i
  · by_cases htime : (s.slotEntry i).qualify = 0
    · rw [qualify_latches h htime]
      exact qualifies_latch h htime
    · rw [qualify_runs h htime]
      refine ⟨rfl, portsGrow_of_ports rfl, fun j => ⟨rfl, rfl⟩, fun j => ?_⟩
      rw [fault_modFault]
      by_cases hj : j = i
      · subst hj
        rw [if_pos rfl, if_pos (List.mem_singleton.mpr rfl), settledFault_runs h htime]
      · rw [if_neg hj, if_neg (by simpa using hj)]
  · rw [qualify_stands h]
    refine ⟨rfl, portsGrow_refl s, fun j => ⟨rfl, rfl⟩, fun j => ?_⟩
    by_cases hj : j = i
    · subst hj
      rw [if_pos (List.mem_singleton.mpr rfl), settledFault_stands h]
    · rw [if_neg (by simpa using hj)]

theorem settledFault_congr (hmap : t.map = s.map) (hnow : t.now = s.now) (hfault : t.fault i = s.fault i) :
    t.settledFault i = s.settledFault i := by
  unfold State.settledFault State.isFitted State.latched State.slotEntry State.nowMs
  rw [hmap, hnow, hfault]

theorem foldl_qualify (ls : List SlotId) (hls : ls.Nodup) (s : State) : Qualifies s ls (ls.foldl State.qualify s) := by
  induction ls generalizing s with
  | nil => exact ⟨rfl, portsGrow_refl s, fun j => ⟨rfl, rfl⟩, fun j => rfl⟩
  | cons i ls ih =>
    obtain ⟨hi, hrest⟩ := List.nodup_cons.mp hls
    have hone := qualify_qualifies s i
    have hmore := ih hrest (s.qualify i)
    rw [List.foldl_cons]
    refine ⟨?_, hone.ports.trans hmore.ports, fun j => ?_, fun j => ?_⟩
    · rw [hmore.frame, hone.frame]
    · obtain ⟨hfilter, hprescale⟩ := hone.codes j
      obtain ⟨hfilter', hprescale'⟩ := hmore.codes j
      exact ⟨hfilter'.trans hfilter, hprescale'.trans hprescale⟩
    · rw [hmore.faults]
      by_cases hj : j = i
      · subst hj
        rw [if_neg hi, hone.faults, if_pos (List.mem_singleton.mpr rfl), if_pos List.mem_cons_self]
      · have hfault : (s.qualify i).fault j = s.fault j := by
          rw [hone.faults, if_neg (by simpa using hj)]
        have hsettled : (s.qualify i).settledFault j = s.settledFault j :=
          settledFault_congr (by rw [hone.frame]) (by rw [hone.frame]) hfault
        rw [hfault, hsettled]
        simp [hj]

theorem takeFaultSettings_qualifies (s : State) : Qualifies s allSlots s.takeFaultSettings :=
  foldl_qualify (List.finRange 16) (List.nodup_finRange 16) s

/-- Where no input asks for it nothing qualifies. -/
theorem takeFaultSettings_stands (h : ∀ i, ¬ s.asserted i) : s.takeFaultSettings = s := by
  have hfold : ∀ ls : List SlotId, ls.foldl State.qualify s = s := by
    intro ls
    induction ls with
    | nil => rfl
    | cons i ls ih => rw [List.foldl_cons, qualify_stands (h i), ih]
  exact hfold allSlots

/-! ## The whole (R15) -/

/-- A load before its end is handed on: a fatal cause noted and the map emptied, the loader at rest. -/
def State.closeLoad (s : State) (cause : Option FatalCause) : State :=
  let t := match cause with
    | some c => ((s.setMap LinkMap.empty).noteError c.error 0).modReport (fun r => { r with fatal := some c })
    | none => s
  t.setLoader { t.loader with stage := .idle, noted := [] }

/-- The outcome of a load handed to the table, the ports, the Capture Unit and the lamps. -/
def State.handOn (s : State) : State := s.rebuildTable.takePortSettings.takeCaptureSettings.takeLampSettings

theorem loadEnd_eq (s : State) (cause : Option FatalCause) : s.loadEnd cause =
    ((s.closeLoad cause).handOn.takeFaultSettings.evalCoverage).enterRunState
      (if cause.isSome then .unloaded else .ready) := rfl

/-- What the hand-over makes of the hub, but for the Fault Unit. -/
structure HandedOn (s t : State) : Prop where
  frame : t = { s with table := t.table, ports := t.ports, caps := t.caps, lamps := t.lamps }
  records : ∀ l d, t.record l d = (s.link l).map (fun k => VerdictRecord.untested k.lanes)
  coverage : t.table.coverage = 0
  ports : ∀ q, t.port q = (s.port q).settle (Table.rd s.map.ports q)
  caps : ∀ j, t.cap j = (s.cap j).settle (s.slotEntry j)
  rate : t.lamps.rate = s.map.blink
  lamps : ∀ j, t.lamp j = { mode := (s.slotEntry j).lampMode, blink := (s.slotEntry j).lampBlink,
                            invert := (s.slotEntry j).lampInvert }

theorem handOn_spec (s : State) : HandedOn s s.handOn := by
  obtain ⟨hports, hport⟩ := foldl_settlePort allPorts s.rebuildTable
  rw [← takePortSettings_eq] at hports hport
  unfold State.handOn
  generalize s.rebuildTable.takePortSettings = b at hports hport
  obtain ⟨hcaps, hcap⟩ := foldl_settleCapture allSlots b
  rw [← takeCaptureSettings_eq] at hcaps hcap
  generalize b.takeCaptureSettings = c at hcaps hcap
  have hmap : c.map = s.map := by
    rw [hcaps, hports]
    rfl
  refine ⟨?_, fun l d => ?_, ?_, fun q => ?_, fun j => ?_, congrArg LinkMap.blink hmap, fun j => ?_⟩
  · show { c with lamps := _ } = _
    rw [hcaps, hports]
    rfl
  · have htable : c.takeLampSettings.table = s.rebuildTable.table := by
      show c.table = _
      rw [hcaps, hports]
    rw [record_of_table htable]
    cases d <;> exact Table.rd_each _ _ l
  · show c.table.coverage = 0
    rw [hcaps, hports]
    rfl
  · have hq : c.takeLampSettings.port q = b.port q := by
      show c.port q = _
      rw [hcaps]
      rfl
    rw [hq, hport, if_pos (show q ∈ allPorts from List.mem_finRange q)]
    rfl
  · refine (hcap j).trans ?_
    rw [if_pos (show j ∈ allSlots from List.mem_finRange j), hports]
    rfl
  · have hj : c.takeLampSettings.lamp j = _ := Table.rd_each _ _ j
    rw [hj, hmap]
    rfl

/-- What the end of a load makes of the hub `s` in which the map and the loader's report are final. -/
structure Loaded (s : State) (r : RunState) (t : State) : Prop where
  state : t.run.state = r
  complete : t.run.complete = false
  map : t.map = s.map
  loader : t.loader = s.loader
  records : ∀ l d, t.record l d = (s.link l).map (fun k => VerdictRecord.untested k.lanes)
  coverage : t.table.coverage = 0
  ports : ∀ q, (t.port q).role = (Table.rd s.map.ports q).role
    ∧ (t.port q).enables = (Table.rd s.map.ports q).enableDefault ∧ t.noticed q .runState = true
    ∧ (t.port q).slot = (s.port q).slot
  codes : ∀ j, (t.cap j).filter = (s.slotEntry j).filter ∧ (t.cap j).prescale = (s.slotEntry j).prescale
  rate : t.lamps.rate = s.map.blink
  lamps : ∀ j, t.lamp j = { mode := (s.slotEntry j).lampMode, blink := (s.slotEntry j).lampBlink,
                            invert := (s.slotEntry j).lampInvert }
  faults : ∀ j, t.fault j = s.settledFault j
  quiet : (∀ i, ¬ s.asserted i) → ∀ q, (t.port q).notices = (s.port q).notices ||| Notice.runState.one

/-- The last two steps of the end of a load, over a hub whose coverage count is 0. -/
theorem enterLoaded_eq (r : RunState) (h : s.table.coverage = 0) : s.evalCoverage.enterRunState r = { s with
    run := { s.run with complete := false, state := r }
    ports := Table.each (fun x => x.setSets (x.notices ||| Notice.runState.one) x.enables) s.ports } := by
  rw [evalCoverage_of_zero h, State.enterRunState, raiseAll_eq]
  rfl

theorem loadEnd_spec (s : State) (cause : Option FatalCause) :
    Loaded (s.closeLoad cause) (if cause.isSome then .unloaded else .ready) (s.loadEnd cause) := by
  rw [loadEnd_eq]
  generalize s.closeLoad cause = a
  generalize (if cause.isSome then RunState.unloaded else RunState.ready) = r
  have hhand := handOn_spec a
  have hq := takeFaultSettings_qualifies a.handOn
  have hstands := fun h => takeFaultSettings_stands (s := a.handOn) h
  generalize a.handOn.takeFaultSettings = b at *
  generalize a.handOn = c at *
  have htable : b.table = c.table := by rw [hq.frame]
  have hmap : b.map = a.map := by rw [hq.frame, hhand.frame]
  rw [enterLoaded_eq r (by rw [htable, hhand.coverage])]
  have hport : ∀ q, Table.rd (Table.each (fun x : AgentPort => x.setSets (x.notices ||| Notice.runState.one) x.enables) b.ports) q
      = (b.port q).setSets ((b.port q).notices ||| Notice.runState.one) (b.port q).enables := fun q => Table.rd_each _ _ q
  have hsettled : ∀ j, c.settledFault j = a.settledFault j := by
    intro j
    apply settledFault_congr
    all_goals rw [hhand.frame]
    rfl
  have hasserted : (∀ j, ¬ a.asserted j) → ∀ j, ¬ c.asserted j := by
    intro h j hj
    refine h j ?_
    rw [hhand.frame] at hj
    exact hj
  refine ⟨rfl, rfl, hmap, ?_, fun l d => ?_, ?_, fun q => ⟨?_, ?_, ?_, ?_⟩, fun j => ?_, ?_, fun j => ?_, fun j => ?_,
    fun hquiet q => ?_⟩
  · show b.loader = _
    rw [hq.frame, hhand.frame]
  · refine Eq.trans ?_ (hhand.records l d)
    exact record_of_table (t := { b with run := _, ports := _ }) htable l d
  · exact (congrArg VerdictTable.coverage htable).trans hhand.coverage
  · refine (congrArg AgentPort.role (hport q)).trans ((hq.ports.role q).trans ?_)
    rw [hhand.ports]
    rfl
  · refine (congrArg AgentPort.enables (hport q)).trans ((hq.ports.enables q).trans ?_)
    rw [hhand.ports]
    rfl
  · refine (noticed_of_added (s := b) (k := .runState) ?_).trans (by simp)
    exact congrArg AgentPort.notices (hport q)
  · refine (congrArg AgentPort.slot (hport q)).trans ((hq.ports.slot q).trans ?_)
    rw [hhand.ports]
    rfl
  · obtain ⟨hfilter, hprescale⟩ := hq.codes j
    rw [hhand.caps] at hfilter hprescale
    exact ⟨hfilter, hprescale⟩
  · show b.lamps.rate = _
    rw [hq.frame]
    exact hhand.rate
  · refine Eq.trans ?_ (hhand.lamps j)
    show Table.rd b.lamps.recs j = _
    rw [hq.frame]
    rfl
  · refine (hq.faults j).trans ((if_pos (show j ∈ allSlots from List.mem_finRange j)).trans (hsettled j))
  · refine (congrArg AgentPort.notices (hport q)).trans ?_
    rw [hstands (hasserted hquiet), hhand.ports]
    rfl

/-! ## A load that fails (R15) -/

variable {c : FatalCause}

theorem closeLoad_fatal (s : State) (c : FatalCause) : s.closeLoad (some c) = { s with
    map := LinkMap.empty
    loader := { stage := .idle, noted := [], report := { s.loader.report.note c.error 0 with fatal := some c } } } := rfl

theorem empty_link (l : LinkId) : Table.rd LinkMap.empty.links l = none := Table.rd_fill ..

theorem empty_port (q : PortId) : Table.rd LinkMap.empty.ports q = PortSettings.default q := Table.rd_build ..

/-- In the emptied map no slot is fitted. -/
theorem not_asserted_of_empty (h : s.map = LinkMap.empty) (i : SlotId) : ¬ s.asserted i := by
  rintro ⟨hfit, -⟩
  unfold State.isFitted at hfit
  rw [h] at hfit
  exact Nat.not_lt_zero _ (of_decide_eq_true hfit)

/-- What a load that fails makes of the hub. -/
structure Failed (s : State) (c : FatalCause) (t : State) : Prop where
  state : t.run.state = .unloaded
  map : t.map = LinkMap.empty
  stage : t.loader.stage = .idle
  noted : t.loader.noted = []
  report : t.loader.report = { s.loader.report.note c.error 0 with fatal := some c }
  records : ∀ l d, t.record l d = none
  coverage : t.table.coverage = 0
  ports : ∀ q, (t.port q).role = Role.default q ∧ (t.port q).enables = BitVec.allOnes 11
    ∧ (t.port q).notices = (s.port q).notices ||| Notice.runState.one ∧ (t.port q).slot = (s.port q).slot
    ∧ t.noticed q .runState = true

theorem loadEnd_fails (s : State) (c : FatalCause) : Failed s c (s.loadEnd (some c)) := by
  have h := loadEnd_spec s (some c)
  rw [closeLoad_fatal] at h
  refine ⟨h.state, h.map, ?_, ?_, ?_, fun l d => ?_, h.coverage, fun q => ?_⟩
  · rw [h.loader]
  · rw [h.loader]
  · rw [h.loader]
  · exact (h.records l d).trans (congrArg (Option.map _) (empty_link l))
  · obtain ⟨hrole, henables, hnoticed, hslot⟩ := h.ports q
    refine ⟨hrole.trans ?_, henables.trans ?_, h.quiet (not_asserted_of_empty rfl) q, hslot, hnoticed⟩
    · exact congrArg PortSettings.role (empty_port q)
    · exact congrArg PortSettings.enableDefault (empty_port q)

/-! ## The header (R7, R8) -/

theorem exec_headerRead (hrst : s.rst = false) (bytes : List Byte) :
    exec (.headerRead bytes) s = .next (s.headerRead bytes) := congrArg _ (live_out_of_reset hrst _)

theorem addrAt_bytes {bs : List Byte} {i : Nat} {a b c : Byte} (ha : byteAt bs i = a) (hb : byteAt bs (i + 1) = b)
    (hc : byteAt bs (i + 2) = c) : addrAt bs i = num32 0 a b c := by
  have hzero : num16 0 a = a.toNat := by simp [num16]
  rw [addrAt, num8At, num16At, ha, hb, hc, num32, hzero]

/-- A header with the signature and its CRC-8. -/
theorem headerRead_good {rev a b c : Byte} (hstage : s.loader.stage = .header) :
    s.headerRead [0xC5#8, 0x16#8, rev, a, b, c, crc8 [0xC5#8, 0x16#8, rev, a, b, c]] =
      (s.modReport (fun r => { r with revision := rev })).follow 0 0 (num32 0 a b c) := by
  refine (if_neg (not_not_intro hstage)).trans ((if_pos ⟨rfl, rfl, rfl⟩).trans ?_)
  rw [addrAt_bytes (a := a) (b := b) (c := c) rfl rfl rfl]
  rfl

/-- Any other header. -/
theorem headerRead_bad {x y rev a b c d : Byte} (hstage : s.loader.stage = .header)
    (hbad : x ≠ 0xC5#8 ∨ y ≠ 0x16#8 ∨ d ≠ crc8 [x, y, rev, a, b, c]) :
    s.headerRead [x, y, rev, a, b, c, d] = s.loadEnd (some .noSignature) := by
  refine (if_neg (not_not_intro hstage)).trans (if_neg ?_)
  rintro ⟨hx, hy, hd⟩
  rcases hbad with h | h | h
  · exact h hx
  · exact h hy
  · exact h hd

theorem follow_leads {current index next : Nat} (hnext : current < next) (hroom : s.loader.report.visited < 32) :
    s.follow current index next =
      (s.modReport (fun r => { r with visited := r.visited + 1 })).toStage (.area next) := by
  unfold State.follow
  rw [if_neg (by omega), if_neg (by omega), if_neg (by omega)]

theorem follow_ends (s : State) (current index : Nat) : s.follow current index 0 = s.walkEnd := if_pos rfl

theorem walkEnd_noSlots (h : s.loader.report.slotsTaken = false) : s.walkEnd = s.loadEnd (some .noSlots) := by
  simp [State.walkEnd, LoadReport.fatalCause, h]

end Sys2Proof.Machine

open Sys2Proof Sys2Proof.Machine

/-- Settles O19. -/
theorem headerReadBeginsTheWalk : Obligations.HeaderReadBeginsTheWalk := by
  unfold Obligations.HeaderReadBeginsTheWalk
  intro s hrst hstage
  refine ⟨fun rev a b c haddr hroom => ?_, fun rev hslots => ?_, fun x y rev a b c d hbad => ?_⟩
  · rw [exec_headerRead hrst, headerRead_good hstage]
    exact congrArg _ (follow_leads (s := s.modReport _) haddr hroom)
  · have hfailed := loadEnd_fails (s.modReport (fun r => { r with revision := rev })) .noSlots
    refine ⟨_, exec_headerRead hrst _, ?_⟩
    rw [headerRead_good hstage, show num32 0 0 0 0 = 0 from rfl, follow_ends,
      walkEnd_noSlots (s := s.modReport (fun r => { r with revision := rev })) hslots]
    refine ⟨hfailed.state, hfailed.map, hfailed.stage, ?_, ?_⟩
    · rw [hfailed.report]
    · rw [hfailed.report]
      rfl
  · have hfailed := loadEnd_fails s .noSignature
    refine ⟨_, exec_headerRead hrst _, ?_⟩
    rw [headerRead_bad hstage hbad]
    refine ⟨hfailed.state, hfailed.map, hfailed.stage, ?_, hfailed.records, hfailed.coverage, fun q => ?_⟩
    · rw [hfailed.report]
    · obtain ⟨hrole, henables, hnotices, hslot, -⟩ := hfailed.ports q
      exact ⟨hrole, henables, hnotices, hslot⟩

end

