-- ==== Sys2Proof/Proofs/Neighbours.lean ====
section
/-! SUPPORT. Sys2Proof/Proofs/Neighbours.lean: the resolution of the neighbour lists (R13): the ids kept, the ids dropped
and their count, and the end of the link pass. -/

namespace Sys2Proof.Machine

variable {s t : State} {l : LinkId} {k : Link}

/-! ## One list -/

/-- The ids that a link's resolved list keeps. -/
def State.keptOf (s : State) (l : LinkId) (k : Link) : List Nat :=
  (k.neighbours.filter (fun n => decide (n ≠ l.val) && (s.linkNat n).isSome)).eraseDups

/-- The number of ids that the resolution of a link's list drops. -/
def State.droppedOf (s : State) (l : LinkId) : Nat :=
  match s.link l with
  | some k => k.neighbours.length - (s.keptOf l k).length
  | none => 0

theorem keptNeighbours_cons (s : State) (self n : Nat) (kept rest : List Nat) :
    s.map.keptNeighbours self kept (n :: rest) =
      if (s.linkNat n).isSome && decide (n ≠ self) && !kept.contains n then s.map.keptNeighbours self (kept ++ [n]) rest
      else s.map.keptNeighbours self kept rest := by
  rw [LinkMap.keptNeighbours]
  unfold finOf State.linkNat State.link
  by_cases h : n < 128
  · simp only [h, dite_true]
  · simp only [h, dite_false]
    rfl

/-- The model gathers the kept ids at the end, the library at the front. -/
theorem keptNeighbours_loop (s : State) (self : Nat) (ns kept : List Nat) : s.map.keptNeighbours self kept ns =
    List.eraseDupsBy.loop (· == ·) (ns.filter (fun n => decide (n ≠ self) && (s.linkNat n).isSome)) kept.reverse := by
  induction ns generalizing kept with
  | nil => simp [LinkMap.keptNeighbours, List.eraseDupsBy.loop]
  | cons n rest ih =>
    have hany : (kept.reverse.any fun x => n == x) = kept.contains n := by
      rw [List.any_reverse, List.contains_eq_any_beq]
    rw [keptNeighbours_cons, ih, ih, List.filter_cons]
    by_cases hself : n = self <;> cases hknown : (s.linkNat n).isSome <;> cases hdup : kept.contains n <;>
      simp_all [List.eraseDupsBy.loop]

theorem keptNeighbours_eq (s : State) (l : LinkId) (k : Link) :
    s.map.keptNeighbours l.val [] k.neighbours = s.keptOf l k := keptNeighbours_loop s l.val k.neighbours []

/-! ## One link -/

/-- A report with some ids dropped. -/
def LoadReport.dropping (r : LoadReport) (n : Nat) : LoadReport :=
  { r with
    dropped := r.dropped + n
    firstError := if n = 0 then r.firstError else some (r.firstError.getD (.neighbourDropped, 0)) }

theorem dropping_zero (r : LoadReport) : r.dropping 0 = r := rfl

theorem dropping_dropping (r : LoadReport) (n m : Nat) : (r.dropping n).dropping m = r.dropping (n + m) := by
  unfold LoadReport.dropping
  by_cases hn : n = 0 <;> by_cases hm : m = 0 <;> simp [hn, hm, Nat.add_assoc]

theorem note_firstError (r : LoadReport) (e : LoadError) (i : Nat) :
    (r.note e i).firstError = some (r.firstError.getD (e, i)) := by
  unfold LoadReport.note
  cases r.firstError <;> rfl

theorem resolveLink_none (h : s.link l = none) : s.resolveLink l = s := by
  simp only [State.resolveLink, h]

theorem resolveLink_some (h : s.link l = some k) : s.resolveLink l = { s with
    map := { s.map with links := Table.put s.map.links l (some { k with neighbours := s.keptOf l k }) }
    loader := { s.loader with report := s.loader.report.dropping (k.neighbours.length - (s.keptOf l k).length) } } := by
  simp only [State.resolveLink, h, keptNeighbours_eq]
  unfold LoadReport.dropping
  by_cases hzero : k.neighbours.length - (s.keptOf l k).length = 0
  · simp only [hzero, if_true]
    rfl
  · simp only [hzero, if_false, ← note_firstError]
    rfl

/-! ## Every link -/

/-- What the resolution of the lists of some links makes of the hub. -/
structure Resolved (s : State) (ls : List LinkId) (t : State) : Prop where
  frame : t = { s with map := { s.map with links := t.map.links }, loader := { s.loader with report := t.loader.report } }
  links : ∀ l, t.link l =
    if l ∈ ls then (s.link l).map (fun k => { k with neighbours := s.keptOf l k }) else s.link l
  report : t.loader.report = s.loader.report.dropping ((ls.map s.droppedOf).sum)

theorem resolveLink_resolved (s : State) (l : LinkId) : Resolved s [l] (s.resolveLink l) := by
  cases h : s.link l with
  | none =>
    rw [resolveLink_none h]
    refine ⟨rfl, fun m => ?_, ?_⟩
    · by_cases hm : m = l
      · subst hm
        simp [h]
      · simp [hm]
    · simp [State.droppedOf, h, dropping_zero]
  | some k =>
    rw [resolveLink_some h]
    refine ⟨rfl, fun m => ?_, ?_⟩
    · show Table.rd (Table.put s.map.links l _) m = _
      rw [Table.rd_put]
      by_cases hm : m = l
      · subst hm
        simp [h]
      · simp only [if_neg hm, List.mem_singleton]
        rfl
    · simp [State.droppedOf, h]

theorem isSome_linkNat_congr (h : ∀ l, (t.link l).isSome = (s.link l).isSome) (n : Nat) :
    (t.linkNat n).isSome = (s.linkNat n).isSome := by
  unfold State.linkNat
  split
  · exact h _
  · rfl

theorem keptOf_congr (h : ∀ l, (t.link l).isSome = (s.link l).isSome) (l : LinkId) (k : Link) :
    t.keptOf l k = s.keptOf l k := by
  unfold State.keptOf
  simp only [isSome_linkNat_congr h]

theorem foldl_resolveLink (ls : List LinkId) (hls : ls.Nodup) (s : State) :
    Resolved s ls (ls.foldl State.resolveLink s) := by
  induction ls generalizing s with
  | nil => exact ⟨rfl, fun l => rfl, (dropping_zero _).symm⟩
  | cons a ls ih =>
    obtain ⟨ha, hrest⟩ := List.nodup_cons.mp hls
    have hone := resolveLink_resolved s a
    have hmore := ih hrest (s.resolveLink a)
    have hother : ∀ l, l ≠ a → (s.resolveLink a).link l = s.link l := by
      intro l hl
      rw [hone.links, if_neg (by simpa using hl)]
    have hsome : ∀ l, ((s.resolveLink a).link l).isSome = (s.link l).isSome := by
      intro l
      rw [hone.links]
      split <;> simp
    have hdropped : ls.map (s.resolveLink a).droppedOf = ls.map s.droppedOf := by
      refine List.map_congr_left fun l hl => ?_
      unfold State.droppedOf
      simp only [hother l (fun h => ha (h ▸ hl)), keptOf_congr hsome]
    rw [List.foldl_cons]
    refine ⟨?_, fun l => ?_, ?_⟩
    · rw [hmore.frame, hone.frame]
    · rw [hmore.links]
      simp only [keptOf_congr hsome]
      by_cases hl : l = a
      · subst hl
        rw [if_neg ha, hone.links]
        simp
      · rw [hother l hl]
        simp [hl]
    · rw [hmore.report, hdropped, hone.report, dropping_dropping]
      simp

theorem resolveNeighbours_resolved (s : State) : Resolved s allLinks s.resolveNeighbours :=
  foldl_resolveLink (List.finRange 128) (List.nodup_finRange 128) s

theorem Resolved.accepted {ls : List LinkId} (h : Resolved s ls t) :
    t.loader.report.accepted = s.loader.report.accepted := by rw [h.report]; rfl

theorem Resolved.slotsTaken {ls : List LinkId} (h : Resolved s ls t) :
    t.loader.report.slotsTaken = s.loader.report.slotsTaken := by rw [h.report]; rfl

end Sys2Proof.Machine

end

