-- ==== Sys2Proof/Proofs/AreaFields.lean ====
section
/-! SUPPORT. Sys2Proof/Proofs/AreaFields.lean: the fields of a SLOTS, PORTS or LIMITS area and the number of those that
their defaults replace (R11, R199). -/

namespace Sys2Proof.Machine

/-! ## One field -/

theorem orDefault_fst {α : Type} (ok : Bool) (v d : α) : (orDefault ok v d).1 = if ok then v else d := by
  cases ok <;> rfl

theorem orDefault_snd {α : Type} (ok : Bool) (v d : α) : (orDefault ok v d).2 = [!ok].count true := by
  cases ok <;> rfl

theorem namedOr_fst {α : Type} (v : Option α) (d : α) : (namedOr v d).1 = v.getD d := by cases v <;> rfl

theorem namedOr_snd {α : Type} (v : Option α) (d : α) : (namedOr v d).2 = [v.isNone].count true := by cases v <;> rfl

theorem count_add_count (b : Bool) (bs : List Bool) : [b].count true + bs.count true = (b :: bs).count true :=
  List.count_append.symm

variable {p : List Byte}

theorem byteAt_drop (n i : Nat) : byteAt (p.drop n) i = byteAt p (n + i) := by
  simp [byteAt, List.getD_eq_getElem?_getD]

theorem num8At_drop (n i : Nat) : num8At (p.drop n) i = num8At p (n + i) := by
  rw [num8At, num8At, byteAt_drop]

theorem num16At_drop (n i : Nat) : num16At (p.drop n) i = num16At p (n + i) := by
  rw [num16At, num16At, byteAt_drop, byteAt_drop, Nat.add_assoc]

theorem num32At_drop (n i : Nat) : num32At (p.drop n) i = num32At p (n + i) := by
  simp [num32At, List.getD_eq_getElem?_getD, Nat.add_assoc]

theorem lampModeOf_isNone (b : Byte) : (lampModeOf b).isNone = decide (7 < b.toNat) := by
  have h := List.getElem?_eq_none_iff (l := [LampMode.off, .on, .link, .activity, .linkAct, .verdict, .fault, .held])
    (i := b.toNat)
  rw [Bool.eq_iff_iff, Option.isNone_iff_eq_none, decide_eq_true_iff]
  refine h.trans ?_
  simp only [List.length_cons, List.length_nil]
  omega

theorem roleOf_isNone (b : Byte) : (roleOf b).isNone = decide (2 < b.toNat) := by
  have h := List.getElem?_eq_none_iff (l := [Role.supervisor, .tester, .observer]) (i := b.toNat)
  rw [Bool.eq_iff_iff, Option.isNone_iff_eq_none, decide_eq_true_iff]
  refine h.trans ?_
  simp only [List.length_cons, List.length_nil]
  omega

theorem rateOf_getD (b : Byte) : (rateOf b).getD .slow = if b.toNat = 1 then .fast else .slow := by
  revert b; decide

theorem rateOf_isNone (b : Byte) : (rateOf b).isNone = decide (1 < b.toNat) := by
  revert b; decide

/-! ## SLOTS -/

/-- A slot's entry from a SLOTS payload, where it has no replacement its own fields. -/
def slotEntryAt (p : List Byte) (base : Nat) : SlotEntry :=
  { quiet := num16At p base
    filter := if num8At p (base + 2) ≤ 4 then num8At p (base + 2) else 0
    prescale := if num8At p (base + 3) ≤ 3 then num8At p (base + 3) else 0
    qualify := if num16At p (base + 4) ≤ 1000 then num16At p (base + 4) else 100
    lampMode := (lampModeOf (byteAt p (base + 6))).getD .off
    lampBlink := (byteAt p (base + 7)).getLsbD 0
    lampInvert := (byteAt p (base + 7)).getLsbD 1 }

/-- The number of an entry's fields that are out of their ranges. -/
def slotReplaced (p : List Byte) (base : Nat) : Nat :=
  [decide (4 < num8At p (base + 2)), decide (3 < num8At p (base + 3)), decide (1000 < num16At p (base + 4)),
    decide (7 < num8At p (base + 6))].count true

theorem not_decide_le (a b : Nat) : (!decide (a ≤ b)) = decide (b < a) := by
  rw [← decide_not]
  exact decide_eq_decide.mpr Nat.not_le

theorem slotEntryOf_drop (p : List Byte) (base : Nat) :
    slotEntryOf (p.drop base) = (slotEntryAt p base, slotReplaced p base) := by
  have hcount : ∀ a b c d : Bool, [a].count true + [b].count true + [c].count true + [d].count true
      = [a, b, c, d].count true := by decide
  unfold slotEntryOf slotEntryAt slotReplaced
  simp only [orDefault_fst, orDefault_snd, namedOr_fst, namedOr_snd, num8At_drop, num16At_drop, byteAt_drop,
    lampModeOf_isNone, not_decide_le, decide_eq_true_eq, Nat.add_zero, hcount]
  rfl

/-- The sum of a number over the slots of which a property holds. -/
theorem sumSlots_filter (f : SlotId → Nat) (keep : SlotId → Prop) [DecidablePred keep] :
    sumSlots (fun i => if keep i then f i else 0) = ((allSlots.filter (fun i => decide (keep i))).map f).sum := by
  have hfold : ∀ (l : List SlotId) (n : Nat),
      l.foldl (fun n i => n + if keep i then f i else 0) n = n + ((l.filter (fun i => decide (keep i))).map f).sum := by
    intro l
    induction l with
    | nil => simp
    | cons i l ih =>
      intro n
      rw [List.foldl_cons, ih, List.filter_cons]
      by_cases h : keep i <;> simp [h, Nat.add_assoc]
  exact (hfold allSlots 0).trans (Nat.zero_add _)

/-- The map of a SLOTS payload. -/
def LinkMap.withSlots (m : LinkMap) (p : List Byte) : LinkMap :=
  { m with
    fitted := num8At p 0
    blink := if num8At p 1 = 1 then .fast else .slow
    replyTimeout := if 10 ≤ num16At p 2 ∧ num16At p 2 ≤ 1000 then num16At p 2 else 100
    slots := Table.build (fun i : SlotId =>
      if i.val < num8At p 0 then slotEntryAt p (4 + 8 * i.val) else SlotEntry.default) }

/-- The number of its fields that their defaults replace. -/
def slotsReplaced (p : List Byte) : Nat :=
  [decide (1 < num8At p 1), decide (num16At p 2 < 10 ∨ 1000 < num16At p 2)].count true
    + ((allSlots.filter (fun i => decide (i.val < num8At p 0))).map (fun i => slotReplaced p (4 + 8 * i.val))).sum

theorem takeSlots_eq (m : LinkMap) (p : List Byte) : m.takeSlots p = (m.withSlots p, slotsReplaced p) := by
  have htimeout : (!decide (10 ≤ num16At p 2 ∧ num16At p 2 ≤ 1000)) = decide (num16At p 2 < 10 ∨ 1000 < num16At p 2) := by
    rw [← decide_not]
    exact decide_eq_decide.mpr (by omega)
  have hentry : ∀ i : SlotId, (if i.val < num8At p 0 then slotEntryOf (p.drop (4 + 8 * i.val)) else (SlotEntry.default, 0))
      = (if i.val < num8At p 0 then slotEntryAt p (4 + 8 * i.val) else SlotEntry.default,
         if i.val < num8At p 0 then slotReplaced p (4 + 8 * i.val) else 0) := by
    intro i
    by_cases h : i.val < num8At p 0
    · simp [h, slotEntryOf_drop]
    · simp [h]
  unfold LinkMap.takeSlots LinkMap.withSlots slotsReplaced
  simp only [hentry, orDefault_fst, orDefault_snd, namedOr_fst, namedOr_snd, rateOf_getD, rateOf_isNone, htimeout,
    count_add_count, decide_eq_true_eq, sumSlots_filter (fun i => slotReplaced p (4 + 8 * i.val))]
  rfl

/-! ## PORTS -/

/-- The map of a PORTS payload. -/
def LinkMap.withPorts (m : LinkMap) (b : List Byte) : LinkMap :=
  { m with
    ports := Table.build (fun p : PortId =>
      { role := (roleOf (byteAt b (5 * p.val))).getD (Role.default p)
        enableDefault := BitVec.ofNat 11 (num16At b (5 * p.val + 1))
        leaseLimit := num16At b (5 * p.val + 3) })
    recallTimeout := if num16At b 20 = 0 then 500 else num16At b 20
    syncTimeout := if num16At b 22 = 0 then 2000 else num16At b 22 }

/-- The number of its fields that their defaults replace. -/
def portsReplaced (b : List Byte) : Nat :=
  [decide (2 < num8At b 0), decide (2 < num8At b 5), decide (2 < num8At b 10), decide (2 < num8At b 15),
    decide (num16At b 20 = 0), decide (num16At b 22 = 0)].count true

theorem portSettingsOf_drop (q : PortId) (b : List Byte) (n : Nat) : portSettingsOf q (b.drop n) =
    ({ role := (roleOf (byteAt b n)).getD (Role.default q), enableDefault := BitVec.ofNat 11 (num16At b (n + 1)),
       leaseLimit := num16At b (n + 3) }, [decide (2 < num8At b n)].count true) := by
  simp only [portSettingsOf, namedOr_fst, namedOr_snd, roleOf_isNone, byteAt_drop, num16At_drop, Nat.add_zero]
  rfl

theorem ite_ne_zero {α : Type} (n : Nat) (a b : α) : (if n ≠ 0 then a else b) = if n = 0 then b else a := ite_not ..

theorem takePorts_eq (m : LinkMap) (b : List Byte) : m.takePorts b = (m.withPorts b, portsReplaced b) := by
  have hports : allPorts = [0, 1, 2, 3] := by decide
  have hzero : ∀ n : Nat, (!decide (n ≠ 0)) = decide (n = 0) := by
    intro n
    by_cases h : n = 0 <;> simp [h]
  have hcount : ∀ x y a b c d : Bool, [x].count true + [y].count true + [a].count true + [b].count true + [c].count true
      + [d].count true = [a, b, c, d, x, y].count true := by decide
  unfold LinkMap.takePorts LinkMap.withPorts portsReplaced
  simp only [portSettingsOf_drop, orDefault_fst, orDefault_snd, decide_eq_true_eq, ite_ne_zero, hzero, hports,
    List.foldl_cons, List.foldl_nil, hcount]
  rfl

/-! ## LIMITS -/

/-- A limit set that stands as it is written. -/
def limitGood (b : List Byte) (k : Fin 4) : Bool :=
  decide (num32At b (9 * k.val) ≠ 0 ∧ num16At b (9 * k.val + 4) ≤ num16At b (9 * k.val + 6))

/-- The map of a LIMITS payload. -/
def LinkMap.withLimits (m : LinkMap) (b : List Byte) : LinkMap :=
  { m with limits := Table.build (fun k : Fin 4 => if limitGood b k then
      { minDwell := num32At b (9 * k.val), passLimit := num16At b (9 * k.val + 4)
        failLimit := num16At b (9 * k.val + 6), lockLimit := num8At b (9 * k.val + 8) }
    else { minDwell := 1000000, passLimit := 0, failLimit := 10, lockLimit := 0 }) }

/-- The number of its limit sets that the default replaces. -/
def limitsReplaced (b : List Byte) : Nat := [limitGood b 0, limitGood b 1, limitGood b 2, limitGood b 3].count false

theorem limitSetOf_drop (b : List Byte) (k : Fin 4) : limitSetOf (b.drop (9 * k.val)) =
    (if limitGood b k then
      { minDwell := num32At b (9 * k.val), passLimit := num16At b (9 * k.val + 4)
        failLimit := num16At b (9 * k.val + 6), lockLimit := num8At b (9 * k.val + 8) }
    else { minDwell := 1000000, passLimit := 0, failLimit := 10, lockLimit := 0 }, [!limitGood b k].count true) := by
  have hpair : ∀ x : LimitSet × Nat, x = (x.1, x.2) := fun _ => rfl
  rw [hpair (limitSetOf _)]
  simp only [limitSetOf, orDefault_fst, orDefault_snd, num32At_drop, num16At_drop, num8At_drop, Nat.add_zero]
  rfl

theorem takeLimits_eq (m : LinkMap) (b : List Byte) : m.takeLimits b = (m.withLimits b, limitsReplaced b) := by
  have hnumbers : List.finRange 4 = [0, 1, 2, 3] := by decide
  have hcount : ∀ a b c d : Bool, 0 + [!a].count true + [!b].count true + [!c].count true + [!d].count true
      = [a, b, c, d].count false := by decide
  unfold LinkMap.takeLimits LinkMap.withLimits limitsReplaced
  simp only [limitSetOf_drop, hnumbers, List.foldl_cons, List.foldl_nil, hcount]

end Sys2Proof.Machine

end

