-- ==== Sys2Proof/Proofs/Areas.lean ====
section
/-! SUPPORT. Sys2Proof/Proofs/Areas.lean: the visit of an area, judged by its header, its CRC-8 and its kind, and where
the walk goes on from it (R8 to R11, R15). -/

namespace Sys2Proof.Machine

variable {s t u : State} {addr n : Nat}

/-! ## The report in the terms of the obligation -/

/-- The report replaced. -/
def State.withReport (u : State) (r : LoadReport) : State := { u with loader := { u.loader with report := r } }

/-- An error noted, the first one staying (R16). -/
def State.noting (u : State) (e : LoadError) (i : Nat) : State :=
  u.withReport { u.loader.report with firstError := some (u.loader.report.firstError.getD (e, i)) }

theorem noteError_eq (u : State) (e : LoadError) (i : Nat) : u.noteError e i = u.noting e i := by
  unfold State.noting
  rw [← note_firstError]
  rfl

/-! ## The end of the walk (R12, R15) -/

/-- A load that fails at the end of the walk of `u`. -/
def State.walkFails (u t : State) (c : FatalCause) : Prop :=
  t.run.state = .unloaded ∧ t.map = LinkMap.empty
    ∧ t.loader.stage = .idle ∧ t.loader.noted = [] ∧ t.loader.report.fatal = some c
    ∧ (∀ x, u.loader.report.firstError = some x → t.loader.report.firstError = some x)
    ∧ (u.loader.report.firstError = none → (∀ l, u.link l = none) → t.loader.report.firstError = some (c.error, 0))
    ∧ (∀ l d, t.record l d = none) ∧ t.table.coverage = 0
    ∧ ∀ q, (t.port q).role = Role.default q ∧ (t.port q).enables = BitVec.allOnes 11 ∧ t.noticed q .runState = true

/-- The walk of `u` has ended in `t`. -/
def State.walkEnds (u t : State) : Prop :=
  (u.loader.report.slotsTaken = true → u.loader.noted ≠ [] → t = { u with loader := { u.loader with stage := .links } })
    ∧ (u.loader.report.slotsTaken = true → u.loader.noted = [] → u.loader.report.accepted = 0 → u.walkFails t .noLinks)
    ∧ (u.loader.report.slotsTaken = false → u.walkFails t .noSlots)

theorem walkFails_of_failed {c : FatalCause} {v : State} (h : Failed v c t)
    (hkept : ∀ x, u.loader.report.firstError = some x → v.loader.report.firstError = some x)
    (hnone : u.loader.report.firstError = none → (∀ l, u.link l = none) → v.loader.report.firstError = none) :
    u.walkFails t c := by
  refine ⟨h.state, h.map, h.stage, h.noted, ?_, fun x hx => ?_, fun hclear hlinks => ?_, h.records, h.coverage, fun q => ?_⟩
  · rw [h.report]
  · rw [h.report]
    show (v.loader.report.note _ _).firstError = _
    rw [note_firstError, hkept x hx]
    rfl
  · rw [h.report]
    show (v.loader.report.note _ _).firstError = _
    rw [note_firstError, hnone hclear hlinks]
    rfl
  · obtain ⟨hrole, henables, -, -, hnoticed⟩ := h.ports q
    exact ⟨hrole, henables, hnoticed⟩

/-- Without a link nothing is resolved and so nothing dropped. -/
theorem droppedOf_none (h : ∀ l, s.link l = none) (ls : List LinkId) : (ls.map s.droppedOf).sum = 0 := by
  have hzero : ls.map s.droppedOf = ls.map (fun _ => 0) := List.map_congr_left fun l _ => by
    simp only [State.droppedOf, h l]
  rw [hzero]
  simp

theorem walkEnd_ends (u : State) : u.walkEnds u.walkEnd := by
  refine ⟨fun hslots hnoted => ?_, fun hslots hnoted hlinks => ?_, fun hslots => ?_⟩
  · have hlist : u.loader.noted.isEmpty = false := by simpa using hnoted
    simp only [State.walkEnd, hslots, hlist, if_true, Bool.false_eq_true, if_false]
    rfl
  · have hresolved := resolveNeighbours_resolved u
    have hcause : u.resolveNeighbours.loader.report.fatalCause = some .noLinks := by
      unfold LoadReport.fatalCause
      rw [hresolved.slotsTaken, hresolved.accepted, hslots, hlinks]
      rfl
    have hend : u.walkEnd = u.resolveNeighbours.loadEnd (some .noLinks) := by
      simp only [State.walkEnd, hslots, hnoted, State.linkPassEnd, hcause, List.isEmpty_nil, if_true]
    rw [hend]
    refine walkFails_of_failed (loadEnd_fails u.resolveNeighbours .noLinks) (fun x hx => ?_) (fun hclear hnone => ?_)
    · rw [hresolved.report]
      unfold LoadReport.dropping
      rw [hx]
      dsimp only
      split <;> rfl
    · rw [hresolved.report, droppedOf_none hnone]
      exact hclear
  · rw [walkEnd_noSlots hslots]
    exact walkFails_of_failed (loadEnd_fails u .noSlots) (fun x hx => hx) (fun hclear _ => hclear)

/-! ## The next pointer (R8) -/

/-- The pointer `next` of the area at `addr`, the `n`th visited, followed from `u` to `t`. -/
def State.leadsOn (addr n next : Nat) (u t : State) : Prop :=
  (next = 0 → u.walkEnds t)
    ∧ (next ≠ 0 → next ≤ addr → (u.noting .chainBackward n).walkEnds t)
    ∧ (addr < next → 32 ≤ n → (u.noting .chainTooLong 32).walkEnds t)
    ∧ (addr < next → n < 32 → t = { u with loader := { u.loader with
        stage := .area next, report := { u.loader.report with visited := n + 1 } } })

theorem follow_leadsOn (hvisited : u.loader.report.visited = n) (addr next : Nat) :
    State.leadsOn addr n next u (u.follow addr n next) := by
  refine ⟨fun hzero => ?_, fun hne hback => ?_, fun hlead hlong => ?_, fun hlead hroom => ?_⟩
  · rw [hzero, follow_ends]
    exact walkEnd_ends u
  · unfold State.follow
    rw [if_neg hne, if_pos hback, noteError_eq]
    exact walkEnd_ends _
  · unfold State.follow
    rw [if_neg (by omega), if_neg (by omega), if_pos (by omega), noteError_eq]
    exact walkEnd_ends _
  · rw [follow_leads hlead (by omega), ← hvisited]
    rfl

theorem exec_areaVisit (hrst : s.rst = false) (hstage : s.loader.stage = .area addr) (bytes : List Byte) :
    exec (.areaVisit bytes) s =
      .next ((s.visitArea addr bytes).1.follow addr s.loader.report.visited (s.visitArea addr bytes).2) := by
  refine (congrArg _ (live_out_of_reset hrst _)).trans ?_
  simp only [State.areaVisited, hstage]

/-- An area whose visit leaves `u` and its pointer `next`. -/
theorem exec_areaVisit_leads {next : Nat} {bytes : List Byte} (hrst : s.rst = false)
    (hstage : s.loader.stage = .area addr) (hvisit : s.visitArea addr bytes = (u, next))
    (hvisited : u.loader.report.visited = s.loader.report.visited) :
    ∃ t, exec (.areaVisit bytes) s = .next t ∧ State.leadsOn addr s.loader.report.visited next u t := by
  refine ⟨_, exec_areaVisit hrst hstage bytes, ?_⟩
  rw [hvisit]
  exact follow_leadsOn hvisited addr next

/-! ## The judgement (R9) -/

/-- The report of a bad area. -/
def State.markBad (s : State) (e : LoadError) : State :=
  (s.withReport { s.loader.report with bad := s.loader.report.bad + 1 }).noting e s.loader.report.visited

theorem badArea_eq (s : State) (e : LoadError) : s.badArea e s.loader.report.visited = s.markBad e := noteError_eq _ _ _

theorem visitArea_beyond (h : 16777210 < addr) (bytes : List Byte) : s.visitArea addr bytes = (s.markBad .areaLength, 0) := by
  rw [← badArea_eq]
  exact if_pos h

variable {kind hi lo a b c : Byte} {more payload : List Byte}

theorem sampledFrom_take (i n : Nat) {bs : List Byte} (h : n ≤ bs.length) : sampledFrom i n bs = bs.take n := by
  induction n generalizing i bs with
  | zero => rfl
  | succ n ih =>
    cases bs with
    | nil => simp at h
    | cons x bs =>
      rw [sampledFrom, ih (i + 1) (by simpa using h)]
      rfl

theorem sampled_take {n : Nat} {bs : List Byte} (h : n ≤ bs.length) : sampled n bs = bs.take n := sampledFrom_take 0 n h

/-- The six bytes of an area's header. -/
def areaHead (kind hi lo a b c : Byte) : List Byte := [kind, hi, lo, a, b, c]

theorem sampled_head : sampled 6 (areaHead kind hi lo a b c ++ more) = areaHead kind hi lo a b c := by
  rw [sampled_take (by simp [areaHead])]
  rfl

theorem addrAt_head : addrAt (areaHead kind hi lo a b c) 3 = num32 0 a b c := addrAt_bytes rfl rfl rfl

theorem areaLength_head : areaLength (areaHead kind hi lo a b c ++ more) = num16 hi lo := by
  rw [areaLength, sampled_head]
  rfl

/-- An area within the flash, by its length and its CRC-8. -/
theorem visitArea_within (haddr : addr ≤ 16777210) (bytes : List Byte) : s.visitArea addr bytes =
    if 4096 < areaLength bytes ∨ 16777215 < addr + 6 + areaLength bytes then
      (s.markBad .areaLength, addrAt (sampled 6 bytes) 3)
    else
      let area := sampled (7 + areaLength bytes) bytes
      if area.getLast? ≠ some (crc8 area.dropLast) then (s.markBad .areaChecksum, addrAt (sampled 6 bytes) 3)
      else (s.takeArea addr s.loader.report.visited (byteAt (sampled 6 bytes) 0) (area.dropLast.drop 6),
        addrAt (sampled 6 bytes) 3) := by
  rw [← badArea_eq, ← badArea_eq]
  exact if_neg (Nat.not_lt.mpr haddr)

theorem visitArea_long (haddr : addr ≤ 16777210) (hlong : 4096 < num16 hi lo ∨ 16777215 < addr + 6 + num16 hi lo) :
    s.visitArea addr (areaHead kind hi lo a b c ++ more) = (s.markBad .areaLength, num32 0 a b c) := by
  rw [visitArea_within haddr, areaLength_head, if_pos hlong, sampled_head, addrAt_head]

theorem num16_length {n : Nat} (h : n ≤ 4096) : num16 (BitVec.ofNat 8 (n / 256)) (BitVec.ofNat 8 n) = n := by
  unfold num16
  rw [toNat_byte (by omega), BitVec.toNat_ofNat]
  omega

/-- The header of an area of a payload. -/
def headOf (kind a b c : Byte) (payload : List Byte) : List Byte :=
  areaHead kind (BitVec.ofNat 8 (payload.length / 256)) (BitVec.ofNat 8 payload.length) a b c

/-- A whole area is judged by its CRC-8. -/
theorem visitArea_whole (d : Byte) (hend : addr + 6 + payload.length ≤ 16777215) (hlen : payload.length ≤ 4096) :
    s.visitArea addr (headOf kind a b c payload ++ payload ++ [d]) =
      if d = crc8 (headOf kind a b c payload ++ payload) then
        (s.takeArea addr s.loader.report.visited kind payload, num32 0 a b c)
      else (s.markBad .areaChecksum, num32 0 a b c) := by
  have hbytes : headOf kind a b c payload ++ payload ++ [d] = headOf kind a b c payload ++ (payload ++ [d]) :=
    List.append_assoc ..
  have hlength : areaLength (headOf kind a b c payload ++ payload ++ [d]) = payload.length := by
    rw [hbytes]
    exact areaLength_head.trans (num16_length hlen)
  have hhead : sampled 6 (headOf kind a b c payload ++ payload ++ [d]) = headOf kind a b c payload := by
    rw [hbytes]
    exact sampled_head
  have harea : sampled (7 + payload.length) (headOf kind a b c payload ++ payload ++ [d]) =
      headOf kind a b c payload ++ payload ++ [d] := by
    have hcount : (headOf kind a b c payload ++ payload ++ [d]).length = 7 + payload.length := by
      simp [headOf, areaHead]
      omega
    rw [sampled_take (Nat.le_of_eq hcount.symm), ← hcount, List.take_length]
  rw [visitArea_within (by omega), hlength, if_neg (by omega), hhead, harea]
  simp only [List.getLast?_append, List.getLast?_singleton, List.dropLast_concat, Option.some_or]
  have hnext : addrAt (headOf kind a b c payload) 3 = num32 0 a b c := addrAt_head
  have hpayload : (headOf kind a b c payload ++ payload).drop 6 = payload := rfl
  rw [hnext, hpayload]
  by_cases hd : d = crc8 (headOf kind a b c payload ++ payload)
  · rw [if_pos hd, if_neg (not_not_intro (congrArg some hd))]
    rfl
  · rw [if_neg hd, if_pos (fun h => hd (Option.some.inj h))]

/-! ## The taking (R10, R11) -/

/-- The report of a skipped area. -/
def State.markSkipped (s : State) : State :=
  s.withReport { s.loader.report with skipped := s.loader.report.skipped + 1 }

/-- The fields of an area taken, its kind marked, the replacements counted and noted. -/
def State.fieldsTaken (s : State) (m : LinkMap) (replaced : Nat) (mark : LoadReport → LoadReport) : State :=
  let v : State := { s with map := m, loader := { s.loader with report :=
    { mark s.loader.report with defaulted := min 255 (s.loader.report.defaulted + replaced) } } }
  if replaced = 0 then v else v.noting .fieldRange s.loader.report.visited

/-- A mark of a kind touches neither the count of replacements nor the first error. -/
structure IsMark (mark : LoadReport → LoadReport) : Prop where
  defaulted : ∀ r n, mark { r with defaulted := n } = { mark r with defaulted := n }
  firstError : ∀ r e, mark { r with firstError := e } = { mark r with firstError := e }
  keeps : ∀ r, (mark r).firstError = r.firstError

theorem isMark_slots : IsMark (fun r => { r with slotsTaken := true }) := ⟨fun _ _ => rfl, fun _ _ => rfl, fun _ => rfl⟩

theorem isMark_ports : IsMark (fun r => { r with portsTaken := true }) := ⟨fun _ _ => rfl, fun _ _ => rfl, fun _ => rfl⟩

theorem isMark_limits : IsMark (fun r => { r with limitsTaken := true }) := ⟨fun _ _ => rfl, fun _ _ => rfl, fun _ => rfl⟩

theorem modReport_noting {mark : LoadReport → LoadReport} (hmark : IsMark mark) (u : State) (e : LoadError) (i : Nat) :
    (u.noting e i).modReport mark = (u.modReport mark).noting e i := by
  show u.withReport (mark { u.loader.report with firstError := some (u.loader.report.firstError.getD (e, i)) }) =
    u.withReport { mark u.loader.report with firstError := some ((mark u.loader.report).firstError.getD (e, i)) }
  rw [hmark.firstError, hmark.keeps]

theorem takeFields_mark {mark : LoadReport → LoadReport} (hmark : IsMark mark) (m : LinkMap) (replaced : Nat) :
    (s.takeFields (m, replaced) s.loader.report.visited).modReport mark = s.fieldsTaken m replaced mark := by
  have hcounted : ((s.setMap m).modReport (fun r => { r with defaulted := satAdd max8 r.defaulted replaced })).modReport mark
      = { s with map := m, loader := { s.loader with report :=
          { mark s.loader.report with defaulted := min 255 (s.loader.report.defaulted + replaced) } } } := by
    rw [← hmark.defaulted]
    rfl
  unfold State.takeFields State.fieldsTaken
  by_cases h : replaced = 0
  · simp only [if_pos h, hcounted]
  · simp only [if_neg h, noteError_eq, modReport_noting hmark, hcounted]

theorem fieldsTaken_visited {m : LinkMap} {replaced : Nat} {mark : LoadReport → LoadReport}
    (h : (mark s.loader.report).visited = s.loader.report.visited) :
    (s.fieldsTaken m replaced mark).loader.report.visited = s.loader.report.visited := by
  unfold State.fieldsTaken
  dsimp only
  split <;> exact h

section Once

variable {taken lengthOk contentOk : Bool} {m : LinkMap} {replaced : Nat} {mark : LoadReport → LoadReport}

theorem takeOnce_repeated :
    s.takeOnce s.loader.report.visited true lengthOk contentOk (m, replaced) mark =
      s.markSkipped.noting .areaRepeated s.loader.report.visited := noteError_eq _ _ _

theorem takeOnce_badLength :
    s.takeOnce s.loader.report.visited false false contentOk (m, replaced) mark = s.markBad .areaLength := badArea_eq _ _

theorem takeOnce_badContent :
    s.takeOnce s.loader.report.visited false true false (m, replaced) mark = s.markBad .areaContent := badArea_eq _ _

theorem takeOnce_good (hmark : IsMark mark) :
    s.takeOnce s.loader.report.visited false true true (m, replaced) mark = s.fieldsTaken m replaced mark :=
  takeFields_mark hmark m replaced

end Once

theorem takeArea_slots (s : State) (addr : Nat) (payload : List Byte) :
    s.takeArea addr s.loader.report.visited 0x01#8 payload =
      s.takeOnce s.loader.report.visited s.loader.report.slotsTaken (decide (payload.length = 132))
        (decide (1 ≤ num8At payload 0 ∧ num8At payload 0 ≤ 16)) (s.map.withSlots payload, slotsReplaced payload)
        (fun r => { r with slotsTaken := true }) := by
  rw [← takeSlots_eq]
  rfl

theorem takeArea_ports (s : State) (addr : Nat) (payload : List Byte) :
    s.takeArea addr s.loader.report.visited 0x02#8 payload =
      s.takeOnce s.loader.report.visited s.loader.report.portsTaken (decide (payload.length = 24)) true
        (s.map.withPorts payload, portsReplaced payload) (fun r => { r with portsTaken := true }) := by
  rw [← takePorts_eq]
  rfl

theorem takeArea_limits (s : State) (addr : Nat) (payload : List Byte) :
    s.takeArea addr s.loader.report.visited 0x03#8 payload =
      s.takeOnce s.loader.report.visited s.loader.report.limitsTaken (decide (payload.length = 36)) true
        (s.map.withLimits payload, limitsReplaced payload) (fun r => { r with limitsTaken := true }) := by
  rw [← takeLimits_eq]
  rfl

theorem takeArea_links (s : State) (addr : Nat) (payload : List Byte) :
    s.takeArea addr s.loader.report.visited 0x04#8 payload = { s with loader := { s.loader with
      noted := s.loader.noted ++ [{ addr := addr, index := s.loader.report.visited }] } } := rfl

theorem takeArea_unknown (s : State) (addr : Nat) (payload : List Byte) (h : kind.toNat = 0 ∨ 4 < kind.toNat) :
    s.takeArea addr s.loader.report.visited kind payload = s.markSkipped := by
  have hne : ∀ x : Byte, 1 ≤ x.toNat ∧ x.toNat ≤ 4 → kind ≠ x := by
    rintro x hx rfl
    omega
  unfold State.takeArea
  dsimp only
  rw [if_neg (hne _ (by decide)), if_neg (hne _ (by decide)), if_neg (hne _ (by decide)), if_neg (hne _ (by decide))]
  rfl

/-- A whole area with its CRC-8 is taken by its kind. -/
theorem visitArea_good {d : Byte} (hend : addr + 6 + payload.length ≤ 16777215) (hlen : payload.length ≤ 4096)
    (hd : d = crc8 (headOf kind a b c payload ++ payload))
    (htake : s.takeArea addr s.loader.report.visited kind payload = u) :
    s.visitArea addr (headOf kind a b c payload ++ payload ++ [d]) = (u, num32 0 a b c) := by
  rw [visitArea_whole d hend hlen, if_pos hd, htake]

end Sys2Proof.Machine

open Sys2Proof Sys2Proof.Machine

/-- Settles O20: the judgement of the area gives the hub `u` from which its next pointer is followed. -/
theorem areaVisitJudgesAndFollows : Obligations.AreaVisitJudgesAndFollows := by
  unfold Obligations.AreaVisitJudgesAndFollows
  intro s addr hrst hstage n withReport noting bad skipped fatal ends leads
  refine ⟨fun hbeyond bytes => ?_, fun kind hi lo a b c haddr hlong more => ?_,
    fun kind a b c d payload hend hlen => ?_⟩
  · exact exec_areaVisit_leads hrst hstage (visitArea_beyond hbeyond bytes) rfl
  · exact exec_areaVisit_leads hrst hstage (visitArea_long haddr hlong) rfl
  · intro head visits at1 at2 taken
    have visit : ∀ {u : State}, d = crc8 (head ++ payload) → s.takeArea addr n kind payload = u →
        u.loader.report.visited = n → visits u := fun hd htake hvisited =>
      exec_areaVisit_leads hrst hstage (visitArea_good hend hlen hd htake) hvisited
    refine ⟨fun hd => ?_, fun hd => ⟨fun hkind => ?_, fun hkind => ?_, fun hkind => ?_, fun hkind => ?_, fun hkind => ?_⟩⟩
    · exact exec_areaVisit_leads hrst hstage ((visitArea_whole d hend hlen).trans (if_neg hd)) rfl
    · exact visit hd (takeArea_unknown s addr payload hkind) rfl
    · subst hkind
      exact visit hd (takeArea_links s addr payload) rfl
    · subst hkind
      have htake := takeArea_slots s addr payload
      refine ⟨fun htaken => ?_, fun htaken => ?_⟩ <;> rw [htaken] at htake
      · exact visit hd (htake.trans takeOnce_repeated) rfl
      · refine ⟨fun hlength => ?_, fun hlength hcontent => ?_, fun hlength hlow hhigh => ?_⟩
        · rw [decide_eq_false hlength] at htake
          exact visit hd (htake.trans takeOnce_badLength) rfl
        · replace hcontent : ¬ (1 ≤ num8At payload 0 ∧ num8At payload 0 ≤ 16) := by
            have houtside : num8At payload 0 = 0 ∨ 16 < num8At payload 0 := hcontent
            omega
          rw [decide_eq_true hlength, decide_eq_false hcontent] at htake
          exact visit hd (htake.trans takeOnce_badContent) rfl
        · rw [decide_eq_true hlength, decide_eq_true ⟨hlow, hhigh⟩] at htake
          have hgood : visits (s.fieldsTaken (s.map.withSlots payload) (slotsReplaced payload)
              (fun r => { r with slotsTaken := true })) :=
            visit hd (htake.trans (takeOnce_good isMark_slots)) (fieldsTaken_visited rfl)
          exact hgood
    · subst hkind
      have htake := takeArea_ports s addr payload
      refine ⟨fun htaken => ?_, fun htaken => ?_⟩ <;> rw [htaken] at htake
      · exact visit hd (htake.trans takeOnce_repeated) rfl
      · refine ⟨fun hlength => ?_, fun hlength => ?_⟩
        · rw [decide_eq_false hlength] at htake
          exact visit hd (htake.trans takeOnce_badLength) rfl
        · rw [decide_eq_true hlength] at htake
          have hgood : visits (s.fieldsTaken (s.map.withPorts payload) (portsReplaced payload)
              (fun r => { r with portsTaken := true })) :=
            visit hd (htake.trans (takeOnce_good isMark_ports)) (fieldsTaken_visited rfl)
          exact hgood
    · subst hkind
      have htake := takeArea_limits s addr payload
      refine ⟨fun htaken => ?_, fun htaken => ?_⟩ <;> rw [htaken] at htake
      · exact visit hd (htake.trans takeOnce_repeated) rfl
      · refine ⟨fun hlength => ?_, fun hlength => ?_⟩
        · rw [decide_eq_false hlength] at htake
          exact visit hd (htake.trans takeOnce_badLength) rfl
        · rw [decide_eq_true hlength] at htake
          have hgood : visits (s.fieldsTaken (s.map.withLimits payload) (limitsReplaced payload)
              (fun r => { r with limitsTaken := true })) :=
            visit hd (htake.trans (takeOnce_good isMark_limits)) (fieldsTaken_visited rfl)
          exact hgood

end

