-- ==== Sys2Proof/Proofs/LinkPass.lean ====
section
/-! SUPPORT. Sys2Proof/Proofs/LinkPass.lean: the second read of a noted LINKS area, record by record (R12), and the end of
the link pass (R13, R15). -/

namespace Sys2Proof.Machine

variable {s t u : State} {index : Nat}

/-! ## The records in the terms of the obligation -/

/-- A record rejected with its reason. -/
def State.rejecting (index : Nat) (e : RejectReason) (u : State) : State :=
  { u with loader := { u.loader with report := { u.loader.report with
      rejected := min 65535 (u.loader.report.rejected + 1)
      rejects := Table.upd u.loader.report.rejects e.num (fun n => min 65535 (n + 1))
      firstError := some (u.loader.report.firstError.getD (.linkRejected, index)) } } }

/-- A record accepted with the link that it gives. -/
def State.accepting (l : LinkId) (k : Link) (u : State) : State :=
  { u with
    map := { u.map with links := Table.put u.map.links l (some k) }
    loader := { u.loader with report := { u.loader.report with accepted := u.loader.report.accepted + 1 } } }

theorem rejectRecord_eq (u : State) (e : RejectReason) (index : Nat) : u.rejectRecord e index = u.rejecting index e := by
  unfold State.rejectRecord
  rw [noteError_eq]
  rfl

theorem readRecord_accepts {l : LinkId} {k : Link} {r : List Byte} (h : u.map.judgeRecord r = .ok (l, k)) :
    u.readRecord index r = u.accepting l k := by
  simp only [State.readRecord, h]
  rfl

theorem readRecord_rejects {e : RejectReason} {r : List Byte} (h : u.map.judgeRecord r = .error e) :
    u.readRecord index r = u.rejecting index e := by
  simp only [State.readRecord, h, rejectRecord_eq]

/-- What the records of a payload leave alone. -/
structure Reads (s t : State) : Prop where
  frame : t = { s with map := { s.map with links := t.map.links }, loader := { s.loader with report := t.loader.report } }
  slotsTaken : t.loader.report.slotsTaken = s.loader.report.slotsTaken

theorem Reads.refl (s : State) : Reads s s := ⟨rfl, rfl⟩

theorem Reads.trans (h : Reads s t) (h' : Reads t u) : Reads s u :=
  ⟨by rw [h'.frame, h.frame], h'.slotsTaken.trans h.slotsTaken⟩

theorem rejecting_reads (u : State) (index : Nat) (e : RejectReason) : Reads u (u.rejecting index e) := ⟨rfl, rfl⟩

theorem readRecord_reads (u : State) (index : Nat) (r : List Byte) : Reads u (u.readRecord index r) := by
  cases h : u.map.judgeRecord r with
  | ok a =>
    rw [readRecord_accepts h]
    exact ⟨rfl, rfl⟩
  | error e =>
    rw [readRecord_rejects h]
    exact rejecting_reads u index e

theorem foldl_readRecord_reads (records : List (List Byte)) (s : State) :
    Reads s (records.foldl (fun u r => u.readRecord index r) s) := by
  induction records generalizing s with
  | nil => exact Reads.refl s
  | cons r records ih => exact (readRecord_reads s index r).trans (ih _)

/-- The hub after a payload of whole records and a tail. -/
def State.readPayload (s : State) (index : Nat) (records : List (List Byte)) (tail : List Byte) : State :=
  if tail = [] then records.foldl (fun u r => u.readRecord index r) s
  else (records.foldl (fun u r => u.readRecord index r) s).rejecting index .truncated

theorem readPayload_reads (s : State) (index : Nat) (records : List (List Byte)) (tail : List Byte) :
    Reads s (s.readPayload index records tail) := by
  unfold State.readPayload
  split
  · exact foldl_readRecord_reads records s
  · exact (foldl_readRecord_reads records s).trans (rejecting_reads _ _ _)

theorem readRecords_eq (records : List (List Byte)) (tail : List Byte) (h : ∀ r ∈ records, r.length = 12) (s : State) :
    s.readRecords index records.length (records.flatten ++ tail) = s.readPayload index records tail := by
  induction records generalizing s with
  | nil =>
    cases tail with
    | nil => rfl
    | cons b tail => exact rejectRecord_eq _ _ _
  | cons r records ih =>
    have hr : r.length = 12 := h r List.mem_cons_self
    have htake : (r ++ (records.flatten ++ tail)).take 12 = r := by rw [← hr, List.take_left]
    have hdrop : (r ++ (records.flatten ++ tail)).drop 12 = records.flatten ++ tail := by rw [← hr, List.drop_left]
    rw [List.flatten_cons, List.append_assoc, List.length_cons, State.readRecords, htake, hdrop,
      ih (fun q hq => h q (List.mem_cons_of_mem r hq))]
    rfl

theorem length_records {records : List (List Byte)} (h : ∀ r ∈ records, r.length = 12) :
    records.flatten.length = 12 * records.length := by
  induction records with
  | nil => rfl
  | cons r records ih =>
    rw [List.flatten_cons, List.length_append, h r List.mem_cons_self, ih (fun q hq => h q (List.mem_cons_of_mem r hq)),
      List.length_cons]
    omega

/-! ## The area -/

theorem exec_linksAreaRead (hrst : s.rst = false) (bytes : List Byte) :
    exec (.linksAreaRead bytes) s = .next (s.linksRead bytes) := congrArg _ (live_out_of_reset hrst _)

/-- The payload that the second read of an area takes. -/
theorem payload_of_area {payload next : List Byte} {kind d : Byte} (hlen : payload.length ≤ 4096) (hnext : next.length = 3) :
    let area := [kind, BitVec.ofNat 8 (payload.length / 256), BitVec.ofNat 8 payload.length] ++ next ++ payload ++ [d]
    (sampled (6 + areaLength area) area).drop 6 = payload := by
  obtain ⟨a, b, c, rfl⟩ := List.length_eq_three.mp hnext
  intro area
  have harea : area = headOf kind a b c payload ++ (payload ++ [d]) := by
    simp [area, headOf, areaHead]
  have hlength : areaLength area = payload.length := by
    rw [harea]
    exact areaLength_head.trans (num16_length hlen)
  have hhead : (headOf kind a b c payload).length = 6 := rfl
  rw [hlength, harea, sampled_take (by simp [hhead]), List.take_append, hhead, Nat.add_sub_cancel_left,
    List.take_left, List.take_of_length_le (by omega)]
  exact List.drop_left' hhead

/-- The state after the records, with the noted areas left. -/
theorem linksRead_eq {x : NotedArea} {rest : List NotedArea} (hstage : s.loader.stage = .links)
    (hnoted : s.loader.noted = x :: rest) {records : List (List Byte)} {tail next : List Byte} {d : Byte}
    (hrecords : ∀ r ∈ records, r.length = 12) (htail : tail.length < 12) (hnext : next.length = 3) :
    let payload := records.flatten ++ tail
    let area := [0x04#8, BitVec.ofNat 8 (payload.length / 256), BitVec.ofNat 8 payload.length] ++ next ++ payload ++ [d]
    let read := s.readPayload x.index records tail
    payload.length ≤ 4096 → s.linksRead area =
      if rest.isEmpty then (read.setLoader { read.loader with noted := rest }).linkPassEnd
      else read.setLoader { read.loader with noted := rest } := by
  intro payload area read hlen
  have hpayload : (sampled (6 + areaLength area) area).drop 6 = payload := payload_of_area hlen hnext
  have hcount : payload.length / 12 = records.length := by
    rw [show payload.length = 12 * records.length + tail.length by
      rw [List.length_append, length_records hrecords]]
    omega
  have hread : s.readRecords x.index (payload.length / 12) payload = read := by
    rw [hcount]
    exact readRecords_eq records tail hrecords s
  simp only [State.linksRead, hstage, hnoted, hpayload, hread]

end Sys2Proof.Machine

end

