-- ==== Sys2Proof/Proofs/LinkPassEnd.lean ====
section
/-! SUPPORT. Sys2Proof/Proofs/LinkPassEnd.lean: the last noted area ends the load (R13, R15), and what the load's end makes
of the fault inputs (R136). -/

namespace Sys2Proof.Machine

variable {s t u a : State} {i : SlotId}

/-- A record taken, in the terms of the obligation. -/
def State.takeRecord (index : Nat) (u : State) (record : List Byte) : State := match u.map.judgeRecord record with
  | .ok (l, k) => u.accepting l k
  | .error e => u.rejecting index e

theorem readRecord_eq_takeRecord (index : Nat) :
    (fun (u : State) (r : List Byte) => u.readRecord index r) = State.takeRecord index := by
  funext u r
  unfold State.takeRecord
  cases h : u.map.judgeRecord r with
  | ok x =>
    obtain ⟨l, k⟩ := x
    exact readRecord_accepts h
  | error e => exact readRecord_rejects h

/-- The fault inputs after the end of a load, in the terms of the hub before it. -/
theorem settledFault_of_loaded (hfault : t.fault i = a.settledFault i) (hmap : t.map = a.map) (hnow : a.now = s.now)
    (hstood : a.fault i = s.fault i) :
    let asserted := t.isFitted i = true ∧ (s.fault i).level = true ∧ s.latched i = false
    (¬ asserted → t.fault i = s.fault i)
    ∧ (asserted → 0 < (t.slotEntry i).qualify → t.fault i = { s.fault i with
        qualifying := some (s.now + (t.slotEntry i).qualify) })
    ∧ (asserted → (t.slotEntry i).qualify = 0 → t.fault i = { s.fault i with
        latch := true, latchedAt := some s.nowMs, qualifying := none, count := min 255 ((s.fault i).count + 1) }) := by
  have hfit : t.isFitted i = a.isFitted i := by rw [State.isFitted, State.isFitted, hmap]
  have hentry : t.slotEntry i = a.slotEntry i := by rw [State.slotEntry, State.slotEntry, hmap]
  have hlatched : s.latched i = a.latched i := by rw [State.latched, State.latched, hstood]
  have hms : s.nowMs = a.nowMs := by rw [State.nowMs, State.nowMs, hnow]
  rw [hfault, hfit, hentry, hlatched, hms, ← hstood, ← hnow]
  intro asserted
  exact ⟨fun h => settledFault_stands h, fun h htime => settledFault_runs h (Nat.ne_of_gt htime),
    fun h htime => settledFault_latches h htime⟩

/-! ## The end of the link pass -/

/-- The map and the report after the end of the link pass over the hub `u`. -/
structure PassEnded (u t : State) (a : State) : Prop where
  loaded : Loaded a t.run.state t
  fault : a.faults = u.faults
  now : a.now = u.now
  stage : t.loader.stage = .idle
  noted : t.loader.noted = []
  accepted : t.loader.report.accepted = u.loader.report.accepted
  rejected : t.loader.report.rejected = u.loader.report.rejected
  rejects : t.loader.report.rejects = u.loader.report.rejects

/-- A link pass that accepted a link. -/
structure PassReady (u t : State) : Prop where
  state : t.run.state = .ready
  map : t.map = { u.map with links := t.map.links }
  links : ∀ l, t.link l = (u.link l).map (fun k => { k with neighbours := u.keptOf l k })
  report : t.loader.report = u.loader.report.dropping ((allLinks.map u.droppedOf).sum)

/-- A link pass that accepted none. -/
structure PassFailed (u t : State) : Prop where
  state : t.run.state = .unloaded
  fatal : t.loader.report.fatal = some .noLinks
  map : t.map = LinkMap.empty
  firstError : ∀ e, u.loader.report.firstError = some e → t.loader.report.firstError = some e

theorem dropping_firstError {r : LoadReport} {e : LoadError × Nat} (h : r.firstError = some e) (n : Nat) :
    (r.dropping n).firstError = some e := by
  unfold LoadReport.dropping
  rw [h]
  dsimp only
  split <;> rfl

theorem dropping_counts (r : LoadReport) (n : Nat) : (r.dropping n).accepted = r.accepted
    ∧ (r.dropping n).rejected = r.rejected ∧ (r.dropping n).rejects = r.rejects := ⟨rfl, rfl, rfl⟩

theorem linkPassEnd_ready (hslots : u.loader.report.slotsTaken = true) (hlinks : u.loader.report.accepted ≠ 0) :
    (∃ a, PassEnded u u.linkPassEnd a) ∧ PassReady u u.linkPassEnd := by
  have hresolved := resolveNeighbours_resolved u
  have hcause : u.resolveNeighbours.loader.report.fatalCause = none := by
    simp [LoadReport.fatalCause, hresolved.slotsTaken, hresolved.accepted, hslots, hlinks]
  have hend : u.linkPassEnd = u.resolveNeighbours.loadEnd none := by rw [State.linkPassEnd, hcause]
  have hloaded := loadEnd_spec u.resolveNeighbours none
  rw [hend]
  generalize u.resolveNeighbours = v at *
  have hstate : (v.loadEnd none).run.state = .ready := hloaded.state
  have hreport : (v.loadEnd none).loader.report = u.loader.report.dropping ((allLinks.map u.droppedOf).sum) := by
    rw [hloaded.loader, ← hresolved.report]
    rfl
  have hmap : (v.loadEnd none).map = v.map := hloaded.map
  obtain ⟨haccepted, hrejected, hrejects⟩ := dropping_counts u.loader.report ((allLinks.map u.droppedOf).sum)
  refine ⟨⟨v.closeLoad none, ⟨?_, ?_, ?_, ?_, ?_, ?_, ?_, ?_⟩⟩, hstate, ?_, fun l => ?_, hreport⟩
  · rw [hstate]
    exact hloaded
  · exact (congrArg State.faults hresolved.frame :)
  · exact (congrArg State.now hresolved.frame :)
  · rw [hloaded.loader]
    rfl
  · rw [hloaded.loader]
    rfl
  · exact (congrArg LoadReport.accepted hreport).trans haccepted
  · exact (congrArg LoadReport.rejected hreport).trans hrejected
  · exact (congrArg LoadReport.rejects hreport).trans hrejects
  · rw [hmap]
    exact (congrArg State.map hresolved.frame :)
  · have hlink : (v.loadEnd none).link l = v.link l := by rw [State.link, State.link, hmap]
    exact hlink.trans ((hresolved.links l).trans (if_pos (show l ∈ allLinks from List.mem_finRange l)))

theorem linkPassEnd_failed (hslots : u.loader.report.slotsTaken = true) (hlinks : u.loader.report.accepted = 0) :
    (∃ a, PassEnded u u.linkPassEnd a) ∧ PassFailed u u.linkPassEnd := by
  have hresolved := resolveNeighbours_resolved u
  have hcause : u.resolveNeighbours.loader.report.fatalCause = some .noLinks := by
    simp [LoadReport.fatalCause, hresolved.slotsTaken, hresolved.accepted, hslots, hlinks]
  have hend : u.linkPassEnd = u.resolveNeighbours.loadEnd (some .noLinks) := by rw [State.linkPassEnd, hcause]
  have hloaded := loadEnd_spec u.resolveNeighbours (some .noLinks)
  have hfailed := loadEnd_fails u.resolveNeighbours .noLinks
  rw [hend]
  generalize u.resolveNeighbours = v at *
  have hreport := hfailed.report
  rw [hresolved.report] at hreport
  obtain ⟨haccepted, hrejected, hrejects⟩ := dropping_counts u.loader.report ((allLinks.map u.droppedOf).sum)
  have hfirst := fun e (he : u.loader.report.firstError = some e) =>
    dropping_firstError he ((allLinks.map u.droppedOf).sum)
  generalize u.loader.report.dropping ((allLinks.map u.droppedOf).sum) = r at *
  refine ⟨⟨v.closeLoad (some .noLinks), ⟨?_, ?_, ?_, hfailed.stage, hfailed.noted, ?_, ?_, ?_⟩⟩,
    hfailed.state, ?_, hfailed.map, fun e he => ?_⟩
  · rw [hfailed.state]
    exact hloaded
  · exact (congrArg State.faults hresolved.frame :)
  · exact (congrArg State.now hresolved.frame :)
  · exact (congrArg LoadReport.accepted hreport).trans haccepted
  · exact (congrArg LoadReport.rejected hreport).trans hrejected
  · exact (congrArg LoadReport.rejects hreport).trans hrejects
  · exact (congrArg LoadReport.fatal hreport :)
  · rw [hreport]
    show (LoadReport.note _ _ _).firstError = _
    rw [note_firstError, hfirst e he]
    rfl

end Sys2Proof.Machine

open Sys2Proof Sys2Proof.Machine

/-- Settles O22. -/
theorem linksAreaReadFillsTheMap : Obligations.LinksAreaReadFillsTheMap := by
  unfold Obligations.LinksAreaReadFillsTheMap
  intro s x rest hrst hstage hnoted reject accept take records tail next d hrecords htail hnext payload area read hlen
  have htake : take = fun u r => u.readRecord x.index r := (readRecord_eq_takeRecord x.index).symm
  have hread : read = s.readPayload x.index records tail := by
    unfold State.readPayload
    rw [← htake]
    rfl
  have hreads : Reads s read := hread ▸ readPayload_reads s x.index records tail
  have hexec : exec (.linksAreaRead area) s = _ := (exec_linksAreaRead hrst area).trans
    (congrArg _ (linksRead_eq hstage hnoted hrecords htail hnext hlen))
  rw [← hread] at hexec
  clear_value read
  refine ⟨fun hrest => ?_, fun hrest hslots => ?_⟩
  · rw [hexec, if_neg (by simpa using hrest)]
    rfl
  · subst hrest
    rw [if_pos (show ([] : List NotedArea).isEmpty = true from rfl)] at hexec
    have hslots' : (read.setLoader { read.loader with noted := [] }).loader.report.slotsTaken = true :=
      hreads.slotsTaken.trans hslots
    refine ⟨_, hexec, ?_⟩
    have hpass := fun h => linkPassEnd_ready hslots' h
    have hnone := fun h => linkPassEnd_failed hslots' h
    obtain ⟨a, hended⟩ : ∃ a, PassEnded (read.setLoader { read.loader with noted := [] }) _ a :=
      (Decidable.em _).elim (fun h => (hnone h).1) (fun h => (hpass h).1)
    generalize (read.setLoader { read.loader with noted := [] }).linkPassEnd = t at *
    have hloaded := hended.loaded
    have hmap := hloaded.map
    have hentry : ∀ i, t.slotEntry i = a.slotEntry i := fun i => by rw [State.slotEntry, State.slotEntry, hmap]
    refine ⟨hended.stage, hended.noted, hended.accepted, hended.rejected, hended.rejects, fun h => ?_, fun h => ?_,
      fun l d => ?_, hloaded.coverage, hloaded.complete, fun i => ?_, fun q => ?_, ?_, fun i => ?_, fun i => ?_⟩
    · obtain ⟨-, hready⟩ := hpass h
      exact ⟨hready.state, hready.map, hready.links, hready.report⟩
    · obtain ⟨-, hfailed⟩ := hnone h
      exact ⟨hfailed.state, hfailed.fatal, hfailed.map, hfailed.firstError⟩
    · rw [hloaded.records, State.link, State.link, hmap]
    · rw [hentry]
      exact hloaded.codes i
    · obtain ⟨hrole, henables, hrun, -⟩ := hloaded.ports q
      rw [hmap]
      exact ⟨hrole, henables, hrun⟩
    · rw [hmap]
      exact hloaded.rate
    · rw [hentry]
      exact hloaded.lamps i
    · refine settledFault_of_loaded (hloaded.faults i) hmap ?_ ?_
      · exact hended.now.trans (congrArg State.now hreads.frame :)
      · exact congrArg (Table.rd · i) (hended.fault.trans (congrArg State.faults hreads.frame :))

end

