-- ==== Sys2Proof/Proofs/WaitLeaves.lean ====
section
/-! SUPPORT. Sys2Proof/Proofs/WaitLeaves.lean: the request CANCEL_WAIT (R47), and a lease age that comes to exceed its
holder's limit (R45). -/

namespace Sys2Proof.Machine

variable {s : State} {r : ResId} {p : PortId} {x : Byte}

theorem waits_any_isEntry :
    s.dir.waits.any (isEntry p x) = true ↔ ∃ e ∈ s.dir.waits, e.port = p ∧ e.tag = x := by
  simp [isEntry]

theorem bodyCancelWait_leaves (p : PortId) (tag x : Byte) (s : State) (h : ∃ e ∈ s.dir.waits, e.port = p ∧ e.tag = x) :
    bodyCancelWait p tag [x] s = accept (s.setWaits (s.dir.waits.filter (fun e => !isEntry p x e))).grantPass [] :=
  if_pos (waits_any_isEntry.mpr h)

theorem bodyCancelWait_notFound (p : PortId) (tag x : Byte) (s : State) (h : ∀ e ∈ s.dir.waits, e.port = p → e.tag ≠ x) :
    bodyCancelWait p tag [x] s = refuse s .notFound :=
  if_neg fun hany => by
    obtain ⟨e, he, hport, htag⟩ := waits_any_isEntry.mp hany
    exact h e he hport htag

theorem exec_leaseLimitCrossed (hrst : s.rst = false) (r : ResId) :
    exec (.leaseLimitCrossed r) s = .next (s.limitCrossed r) := congrArg _ (live_out_of_reset hrst _)

theorem limitCrossed_none (h : s.crossingAt r = none) : s.limitCrossed r = s := by
  rw [State.limitCrossed, h]

theorem limitCrossed_some {t : Nat} (h : s.crossingAt r = some t) :
    s.limitCrossed r = ((s.advanceTo (t * 1000)).modRes r (fun x => { x with crossed := true })).grantPass := by
  rw [State.limitCrossed, h]

theorem crossingAt_of_free (h : (s.res r).lease.holder = none) : s.crossingAt r = none := by
  simp only [State.crossingAt, h]

/-- A crossing that has no limit or was taken already. -/
theorem crossingAt_taken (h : ∀ p, (s.res r).lease.holder = some p → s.leaseLimit p = 0 ∨ (s.res r).crossed = true) :
    s.crossingAt r = none := by
  unfold State.crossingAt
  split
  · next p since hp hs => rw [if_pos (h p hp)]
  · rfl

theorem crossingAt_due {since : Nat} (hp : (s.res r).lease.holder = some p) (hs : (s.res r).lease.since = some since)
    (hlimit : s.leaseLimit p ≠ 0) (hcrossed : (s.res r).crossed = false) :
    s.crossingAt r = some (since + s.leaseLimit p + 1) := by
  simp only [State.crossingAt, hp, hs]
  exact if_neg (by simp [hlimit, hcrossed])

end Sys2Proof.Machine

open Sys2Proof Sys2Proof.Machine

/-- Settles O33. -/
theorem cancelWaitAndCrossedLimitTakeGrantPass : Obligations.CancelWaitAndCrossedLimitTakeGrantPass := by
  unfold Obligations.CancelWaitAndCrossedLimitTakeGrantPass
  refine ⟨fun s p x tag filler cut hadm => ⟨fun hentry => ?_, fun hnone => ?_⟩, fun s r hrst => ⟨?_, ?_, ?_, ?_⟩⟩
  · exact exec_accepted hadm (bodyCancelWait_leaves p tag x (s.working .cancelWait p tag) hentry)
  · exact exec_refused hadm (bodyCancelWait_notFound p tag x (s.working .cancelWait p tag) hnone)
  · intro p since hp hs hlimit hcrossed
    rw [exec_leaseLimitCrossed hrst, limitCrossed_some (crossingAt_due hp hs hlimit hcrossed)]
    rfl
  · intro hfree
    rw [exec_leaseLimitCrossed hrst, limitCrossed_none (crossingAt_of_free hfree)]
  · intro p hp hlimit
    rw [exec_leaseLimitCrossed hrst, limitCrossed_none (crossingAt_taken fun q hq => ?_)]
    obtain rfl := Option.some.inj (hp.symm.trans hq)
    exact Or.inl hlimit
  · intro hcrossed
    rw [exec_leaseLimitCrossed hrst, limitCrossed_none (crossingAt_taken fun q _ => Or.inr hcrossed)]

end

