-- ==== Sys2Proof/Proofs/SettleTimes.lean ====
section
/-! SUPPORT. Sys2Proof/Proofs/SettleTimes.lean: the times that a window in SETTLE waits for, its conditions, and its entry
into LEAD (R73, R74). -/

namespace Sys2Proof.Machine

variable {s : State} {w : WinId} {x : Window}

/-! ## The earliest time -/

/-- A time that the window in SETTLE still waits for. -/
def State.waitsUntil (s : State) (x : Window) (n : Nat) : Prop :=
  s.now < n ∧ ((∃ f, x.ownFall = some f ∧ n = f + x.timing.dead)
    ∨ ∃ i ∈ s.driveSlots x, ∃ f, Table.rd s.eng.fall i = some f ∧ n = f + (s.slotEntry i).quiet)

theorem mem_settleTimes {n : Nat} : n ∈ s.settleTimes x ↔ s.waitsUntil x n := by
  unfold State.settleTimes State.waitsUntil
  rw [List.mem_filter, List.mem_append, List.mem_filterMap, and_comm, decide_eq_true_iff]
  simp only [Option.mem_toList, Option.map_eq_some_iff, eq_comm (b := n)]

theorem earliest_eq_none {ls : List Nat} : earliest ls = none ↔ ls = [] := by
  cases ls with
  | nil => exact ⟨fun _ => rfl, fun _ => rfl⟩
  | cons t rest => exact ⟨nofun, nofun⟩

theorem foldl_min_spec (ls : List Nat) (t : Nat) :
    (ls.foldl min t = t ∨ ls.foldl min t ∈ ls) ∧ ls.foldl min t ≤ t ∧ ∀ n ∈ ls, ls.foldl min t ≤ n := by
  induction ls generalizing t with
  | nil => exact ⟨Or.inl rfl, Nat.le_refl t, nofun⟩
  | cons a ls ih =>
    obtain ⟨hmem, hle, hall⟩ := ih (min t a)
    rw [List.foldl_cons]
    refine ⟨?_, by omega, fun n hn => ?_⟩
    · rcases hmem with heq | hin
      · rcases Nat.le_total t a with h | h
        · exact Or.inl (by omega)
        · exact Or.inr (List.mem_cons.mpr (Or.inl (by omega)))
      · exact Or.inr (List.mem_cons_of_mem a hin)
    · rcases List.mem_cons.mp hn with rfl | hn
      · omega
      · exact hall n hn

/-- The earliest of some times is in the list and not after any other. -/
theorem earliest_of_least {ls : List Nat} {t : Nat} (hmem : t ∈ ls) (hleast : ∀ n ∈ ls, t ≤ n) :
    earliest ls = some t := by
  cases ls with
  | nil => cases hmem
  | cons a rest =>
    obtain ⟨hin, hle, hall⟩ := foldl_min_spec rest a
    have hfold : rest.foldl min a ∈ a :: rest := by
      rcases hin with h | h
      · exact List.mem_cons.mpr (Or.inl h)
      · exact List.mem_cons_of_mem a h
    have hge := hleast _ hfold
    rcases List.mem_cons.mp hmem with rfl | ht
    · exact congrArg some (Nat.le_antisymm hle hge)
    · exact congrArg some (Nat.le_antisymm (hall t ht) hge)

/-! ## The command -/

theorem exec_settleTimeReached (hrst : s.rst = false) (w : WinId) :
    exec (.settleTimeReached w) s = .next (s.settleReached w) := congrArg _ (live_out_of_reset hrst _)

theorem settleReached_elsewhere (h : s.win w = some x) (hstate : x.state ≠ .settle) : s.settleReached w = s := by
  simp only [State.settleReached, h, if_neg hstate]

/-- At the earliest time that it still waits for, or now where it waits for none, the window evaluates its conditions. -/
theorem settleReached_tries {n : Nat} (h : s.win w = some x) (hstate : x.state = .settle)
    (hn : (s.waitsUntil x n ∧ ∀ m, s.waitsUntil x m → n ≤ m) ∨ (n = s.now ∧ ∀ m, ¬ s.waitsUntil x m)) :
    s.settleReached w = State.tryLead { s with now := n } w := by
  simp only [State.settleReached, h, if_pos hstate]
  rcases hn with ⟨hwaits, hleast⟩ | ⟨rfl, hnone⟩
  · rw [earliest_of_least (mem_settleTimes.mpr hwaits) (fun m hm => hleast m (mem_settleTimes.mp hm))]
    have hlater : max s.now n = n := Nat.max_eq_right (Nat.le_of_lt hwaits.1)
    simp only [State.advanceTo, hlater]
  · rw [earliest_eq_none.mpr (List.eq_nil_iff_forall_not_mem.mpr fun m hm => hnone m (mem_settleTimes.mp hm))]

/-! ## The conditions of R73 -/

theorem passed_iff {now gap : Nat} {f : Option Nat} : passed now gap f = true ↔ ∀ t, f = some t → t + gap ≤ now := by
  cases f with
  | none => exact ⟨fun _ => nofun, fun _ => rfl⟩
  | some t => simp [passed]

theorem mayDrive_iff : s.mayDrive x = true ↔ (∀ f, x.ownFall = some f → f + x.timing.dead ≤ s.now)
    ∧ (∀ i ∈ s.driveSlots x, ∀ f, Table.rd s.eng.fall i = some f → f + (s.slotEntry i).quiet ≤ s.now)
    ∧ ∀ r ∈ x.named, s.latched (resSlot r) = false := by
  unfold State.mayDrive
  rw [Bool.and_eq_true, Bool.and_eq_true, List.all_eq_true, latchesClear_iff, passed_iff, and_assoc]
  simp only [passed_iff]

theorem tryLead_enters (h : s.win w = some x) (hstate : x.state = .settle) (hmay : s.mayDrive x = true) :
    s.tryLead w = s.enterLead w := by
  simp only [State.tryLead, h]
  exact if_pos ⟨hstate, hmay⟩

theorem tryLead_waits (h : s.win w = some x) (hmay : s.mayDrive x = false) : s.tryLead w = s := by
  simp [State.tryLead, h, hmay]

/-! ## The entry into LEAD (R74) -/

theorem foldl_setTxen_up (ls : List SlotId) (s : State) : ∃ txen,
    ls.foldl (fun u i => u.setTxen i true) s = { s with eng := { s.eng with txen := txen } }
      ∧ ∀ i, Table.rd txen i = (decide (i ∈ ls) || Table.rd s.eng.txen i) := by
  induction ls generalizing s with
  | nil => exact ⟨s.eng.txen, rfl, fun i => rfl⟩
  | cons a ls ih =>
    obtain ⟨txen, hfold, htxen⟩ := ih (s.setTxen a true)
    refine ⟨txen, hfold, fun i => (htxen i).trans ?_⟩
    show (decide (i ∈ ls) || Table.rd (Table.put s.eng.txen a true) i) = _
    by_cases hi : i = a
    · subst hi
      simp
    · simp [hi]

theorem enterLead_waits (h : s.win w = some x) (hlead : 0 < x.timing.lead) : ∃ txen,
    s.enterLead w = { s with eng := { s.eng with
        txen := txen, wins := Table.put s.eng.wins w (some { x with
          state := .lead, timerEnd := some (s.now + x.timing.lead) }) } }
      ∧ ∀ i, Table.rd txen i = (decide (i ∈ s.driveSlots x) || Table.rd s.eng.txen i) := by
  obtain ⟨txen, hfold, htxen⟩ := foldl_setTxen_up (s.driveSlots x) s
  refine ⟨txen, ?_, htxen⟩
  simp only [State.enterLead, h, hfold, if_neg (Nat.ne_of_gt hlead)]
  exact modWin_eq_setWin (s := { s with eng := { s.eng with txen := txen } }) h _

end Sys2Proof.Machine

open Sys2Proof Sys2Proof.Machine

/-- Settles O41. -/
theorem settleTimeEntersLead : Obligations.SettleTimeEntersLead := by
  unfold Obligations.SettleTimeEntersLead
  intro s w x n hrst hwin waits u ready hn
  have hu : u.win w = some x := hwin
  have htries := fun hstate => settleReached_tries hwin hstate hn
  refine ⟨fun hstate => ?_, fun hstate hnot => ?_, fun hstate hready hlead => ?_, fun hstate hready => ?_⟩
  · rw [exec_settleTimeReached hrst, settleReached_elsewhere hwin hstate]
  · have hmay : u.mayDrive x = false := Bool.eq_false_iff.mpr fun h => hnot (mayDrive_iff.mp h)
    rw [exec_settleTimeReached hrst, htries hstate, tryLead_waits hu hmay]
  · obtain ⟨txen, hlead, htxen⟩ := enterLead_waits hu hlead
    have hexec := (exec_settleTimeReached hrst w).trans
      (congrArg _ ((htries hstate).trans ((tryLead_enters hu hstate (mayDrive_iff.mpr hready)).trans hlead)))
    refine ⟨_, hexec, ?_, htxen, ?_, fun v hv => ?_⟩
    · exact (Table.rd_put ..).trans (if_pos rfl)
    · rfl
    · exact (Table.rd_put ..).trans (if_neg hv)
  · rw [exec_settleTimeReached hrst, htries hstate, tryLead_enters hu hstate (mayDrive_iff.mpr hready)]

end

