-- ==== Sys2Proof/Proofs/SemSets.lean ====
section
/-! SUPPORT. Sys2Proof/Proofs/SemSets.lean: the sets of semaphores with nothing armed on them (R100). -/

namespace Sys2Proof.Machine

variable {s t : State} {w : WinId} {x : Window} {k : SemId}

/-- A set of a semaphore with nothing armed: the flag, and the overrun flag when it was set already. -/
def State.setFlag (s : State) (k : SemId) : State :=
  s.modSem k (fun x => { x with set := true, overrun := x.overrun || x.set })

theorem setFlag_sem (s : State) (k : SemId) :
    (s.setFlag k).sem k = { s.sem k with set := true, overrun := (s.sem k).overrun || (s.sem k).set } :=
  (sem_modSem ..).trans (if_pos rfl)

theorem modSem_stands {f : Semaphore → Semaphore} (h : f (s.sem k) = s.sem k) : s.modSem k f = s := by
  have hsems : Table.upd s.sems k f = s.sems := Table.ext_rd fun j => by
    rw [Table.rd_upd]
    split
    · next hj =>
      subst hj
      exact h
    · rfl
  unfold State.modSem
  rw [hsems]

theorem startList_unarmed (h : (s.sem k).armed = []) : s.startList k = (s, [], []) := by
  have hstands : s.modSem k (fun x => { x with armed := [], set := x.set && !false }) = s :=
    modSem_stands (by rw [Bool.not_false, Bool.and_true, ← h])
  unfold State.startList
  rw [h]
  exact congrArg (fun t => (t, ([] : List WinId), ([] : List SemId))) hstands

theorem takeSet_unarmed (h : (s.sem k).armed = []) : s.takeSet k = (s.setFlag k, [], []) := by
  have harmed : ((s.setFlag k).sem k).armed = [] := by rw [setFlag_sem, h]
  exact startList_unarmed harmed

theorem doSets_nil (s : State) : s.doSets [] = s := rfl

theorem doSets_unarmed (h : (s.sem k).armed = []) : s.doSets [k] = s.setFlag k := by
  unfold State.doSets
  rw [State.takeSets, takeSet_unarmed h]
  rfl

theorem signal_of (h : s.win w = some x) (e : SignalEvent) : s.signal w e = s.doSets (x.setsAt e) := by
  simp only [State.signal, h]

end Sys2Proof.Machine

end

