-- ==== Sys2Proof/Proofs/DwellEntry.lean ====
section
/-! SUPPORT. Sys2Proof/Proofs/DwellEntry.lean: the lead timer, and the entry into DWELL with its lock check and its
FIRST_DWELL signal (R75, R90, R114, R86). -/

namespace Sys2Proof.Machine

variable {s u : State} {w : WinId} {x : Window} {e : Nat} {i : SlotId}

/-! ## The command -/

theorem exec_leadExpiry (hrst : s.rst = false) (w : WinId) :
    exec (.leadExpiry w) s = .next (s.leadExpired w) := congrArg _ (live_out_of_reset hrst _)

theorem leadExpired_elsewhere (h : s.win w = some x) (hstate : x.state ≠ .lead) : s.leadExpired w = s := by
  simp only [State.leadExpired, h, if_neg hstate]

theorem leadExpired_enters (h : s.win w = some x) (hstate : x.state = .lead) (htimer : x.timerEnd = some e) :
    s.leadExpired w = (s.advanceTo e).enterDwell w := by
  simp only [State.leadExpired, h, if_pos hstate, htimer, Option.getD_some]

/-! ## The entry -/

/-- The record of a window that enters DWELL. -/
def Window.dwelling (x : Window) (now : Nat) : Window :=
  { x with state := .dwell, dwelt := true, firstDwelt := true, timerEnd := some (now + x.dwellLeft) }

/-- The live values that an entry into DWELL begins with. -/
def State.enteredLive (s : State) (x : Window) (i : SlotId) : Live := if x.dwelt then (s.cap i).live else Live.cleared

/-- The entry into DWELL of a window that receives on slot `i`, before its lock check. -/
def State.beginDwell (s : State) (w : WinId) (x : Window) (i : SlotId) : State := { s with
  eng := { s.eng with wins := Table.put s.eng.wins w (some (x.dwelling s.now)), cken := Table.put s.eng.cken i true }
  caps := Table.put s.caps i { s.cap i with
    counting := true, receiving := some w, live := s.enteredLive x i } }

theorem beginDwell_win (s : State) (w : WinId) (x : Window) (i : SlotId) :
    (s.beginDwell w x i).win w = some (x.dwelling s.now) := (Table.rd_put ..).trans (if_pos rfl)

theorem beginDwell_cap (s : State) (w : WinId) (x : Window) (i : SlotId) :
    (s.beginDwell w x i).cap i = { s.cap i with counting := true, receiving := some w, live := s.enteredLive x i } :=
  (Table.rd_put ..).trans (if_pos rfl)

/-- The steps of R75 with the lock check and the signal. -/
theorem enterDwell_eq (h : s.win w = some x) (hslot : s.receiveSlot x x.dir = some i) {y : Window}
    (hafter : ((s.beginDwell w x i).lockCheck w x i).win w = some y) : s.enterDwell w =
      if y.state = .dwell ∧ !x.firstDwelt then ((s.beginDwell w x i).lockCheck w x i).signal w .firstDwell
      else (s.beginDwell w x i).lockCheck w x i := by
  have hbegin : (((s.setCken i true).modCap i (fun c => if x.dwelt then c.resume w else c.start w)).modWin w (fun y =>
      { y with state := .dwell, dwelt := true, timerEnd := some (s.now + y.dwellLeft), firstDwelt := true }))
      = s.beginDwell w x i := by
    rw [modWin_eq_setWin (s := (s.setCken i true).modCap i (fun c => if x.dwelt then c.resume w else c.start w)) h]
    unfold State.beginDwell State.enteredLive
    cases x.dwelt <;> rfl
  simp only [State.enterDwell, h, hslot, hbegin, hafter]

/-! ## The lock check -/

/-- The live values after the lock check of an entry into DWELL. -/
def State.checkedLive (s : State) (x : Window) (i : SlotId) : Live :=
  if s.lnkUp i then s.enteredLive x i
  else { s.enteredLive x i with lockLosses := min 65535 ((s.enteredLive x i).lockLosses + 1) }

/-- An entry into DWELL with the lock check's count. -/
def State.checkedDwell (s : State) (w : WinId) (x : Window) (i : SlotId) : State := { s.beginDwell w x i with
  caps := Table.put s.caps i { s.cap i with counting := true, receiving := some w, live := s.checkedLive x i } }

theorem checkedDwell_cap (s : State) (w : WinId) (x : Window) (i : SlotId) :
    (s.checkedDwell w x i).cap i = { s.cap i with counting := true, receiving := some w, live := s.checkedLive x i } :=
  (Table.rd_put ..).trans (if_pos rfl)

theorem checkedDwell_win (s : State) (w : WinId) (x : Window) (i : SlotId) :
    (s.checkedDwell w x i).win w = some (x.dwelling s.now) := beginDwell_win s w x i

theorem beginDwell_lockLoss (hdown : s.lnkUp i = false) :
    (s.beginDwell w x i).modLive i Live.lockLoss = s.checkedDwell w x i := by
  have hcaps : ((s.beginDwell w x i).modLive i Live.lockLoss).caps = (s.checkedDwell w x i).caps :=
    Table.ext_rd fun j => by
      show ((s.beginDwell w x i).modLive i Live.lockLoss).cap j = (s.checkedDwell w x i).cap j
      by_cases hj : j = i
      · subst hj
        rw [cap_modLive_same, beginDwell_cap, checkedDwell_cap, State.checkedLive, hdown]
        rfl
      · have hleft : ((s.beginDwell w x i).modLive i Live.lockLoss).cap j = s.cap j :=
          (cap_modCap ..).trans ((if_neg hj).trans ((Table.rd_put ..).trans (if_neg hj)))
        have hright : (s.checkedDwell w x i).cap j = s.cap j := (Table.rd_put ..).trans (if_neg hj)
        rw [hleft, hright]
  exact congrArg (fun caps => ({ s.beginDwell w x i with caps := caps } : State)) hcaps

/-- The dwell goes on, with LNK up or without STOP_ON_LOCKLOSS. -/
theorem lockCheck_goes_on (h : s.lnkUp i = true ∨ x.stopOnLockLoss = false) :
    (s.beginDwell w x i).lockCheck w x i = s.checkedDwell w x i := by
  have hlnk : (s.beginDwell w x i).lnkUp i = s.lnkUp i := rfl
  cases hup : s.lnkUp i with
  | true =>
    rw [State.lockCheck, hlnk, if_pos hup]
    unfold State.checkedDwell State.checkedLive
    rw [if_pos hup]
    rfl
  | false =>
    rw [State.lockCheck, hlnk, hup, beginDwell_lockLoss hup]
    have hstop : x.stopOnLockLoss = false := h.resolve_left (by simp [hup])
    simp [hstop]

theorem lockCheck_stops (hdown : s.lnkUp i = false) (hstop : x.stopOnLockLoss = true) :
    (s.beginDwell w x i).lockCheck w x i = (s.checkedDwell w x i).stopWindow w .lockLoss := by
  have hlnk : (s.beginDwell w x i).lnkUp i = s.lnkUp i := rfl
  rw [State.lockCheck, hlnk, hdown, beginDwell_lockLoss hdown]
  simp [hstop]

/-! ## The outcomes -/

section Outcomes

variable (h : s.win w = some x) (hslot : s.receiveSlot x x.dir = some i)

include h hslot

/-- The dwell goes on, its FIRST_DWELL signal still to be given. -/
theorem enterDwell_goes_on (hgoes : s.lnkUp i = true ∨ x.stopOnLockLoss = false) : s.enterDwell w =
    if x.firstDwelt then s.checkedDwell w x i else (s.checkedDwell w x i).doSets (x.setsAt .firstDwell) := by
  have hafter : ((s.beginDwell w x i).lockCheck w x i).win w = some (x.dwelling s.now) := by
    rw [lockCheck_goes_on hgoes]
    exact checkedDwell_win s w x i
  rw [enterDwell_eq h hslot hafter, lockCheck_goes_on hgoes, signal_of (checkedDwell_win s w x i)]
  cases hfirst : x.firstDwelt with
  | true => simp
  | false =>
    rw [if_pos ⟨rfl, by simp⟩]
    rfl

/-- With no signal due. -/
theorem enterDwell_quiet (hgoes : s.lnkUp i = true ∨ x.stopOnLockLoss = false)
    (hquiet : x.firstDwelt = true ∨ x.setsAt .firstDwell = []) : s.enterDwell w = s.checkedDwell w x i := by
  rw [enterDwell_goes_on h hslot hgoes]
  split
  · rfl
  · next hfirst => rw [hquiet.resolve_left hfirst, doSets_nil]

theorem enterDwell_stops (hdown : s.lnkUp i = false) (hstop : x.stopOnLockLoss = true) :
    s.enterDwell w = (s.checkedDwell w x i).stopWindow w .lockLoss := by
  have hstopped := stopWindow_spec (s := s.checkedDwell w x i) .lockLoss (checkedDwell_win s w x i) rfl
  obtain ⟨y, hy, hstate, -⟩ := hstopped.window
  rw [← lockCheck_stops hdown hstop] at hy
  rw [enterDwell_eq h hslot hy, lockCheck_stops hdown hstop]
  exact if_neg fun hdwell => by rw [hstate] at hdwell; exact absurd hdwell.1 (by decide)

end Outcomes

theorem checkedDwell_receiveSlot (hslot : s.receiveSlot x x.dir = some i) :
    (s.checkedDwell w x i).receiveSlot (x.dwelling s.now) (x.dwelling s.now).dir = some i := hslot

/-- The accumulator of the direction in progress after the stop by the lock check. -/
theorem lockLoss_acc (hslot : s.receiveSlot x x.dir = some i) {a : Accumulator} (ha : x.acc x.dir = some a) :
    ∃ y, ((s.checkedDwell w x i).stopWindow w .lockLoss).win w = some y ∧ y.acc x.dir = some { a with
      lockLosses := min 65535 (a.lockLosses + (s.checkedLive x i).lockLosses) } := by
  refine ⟨_, stopWindow_win (checkedDwell_win s w x i) rfl, ?_⟩
  have hlosses : (s.checkedDwell w x i).lossesOf (x.dwelling s.now) = (s.checkedLive x i).lockLosses := by
    rw [State.lossesOf, checkedDwell_receiveSlot hslot]
    exact congrArg (fun c => c.live.lockLosses) (checkedDwell_cap s w x i)
  rw [hlosses]
  cases hdir : x.dir <;> rw [hdir] at ha
  · show Window.acc (Window.keepLockLosses _ _) .fwd = _
    simp only [Window.keepLockLosses, Window.halted, Window.dropped, Window.dwelling, if_true, Window.modAcc, hdir,
      Window.acc] at ha ⊢
    rw [ha]
    rfl
  · show Window.acc (Window.keepLockLosses _ _) .rev = _
    simp only [Window.keepLockLosses, Window.halted, Window.dropped, Window.dwelling, if_true, Window.modAcc, hdir,
      Window.acc] at ha ⊢
    rw [ha]
    rfl

end Sys2Proof.Machine

open Sys2Proof Sys2Proof.Machine

/-- Settles O42. -/
theorem leadExpiryEntersDwell : Obligations.LeadExpiryEntersDwell := by
  unfold Obligations.LeadExpiryEntersDwell
  intro s w x e i hrst hwin entered checked goesOn
  have hexec : x.state = .lead → x.timerEnd = some e →
      exec (.leadExpiry w) s = .next ((s.advanceTo e).enterDwell w) := fun hstate htimer => by
    rw [exec_leadExpiry hrst, leadExpired_enters hwin hstate htimer]
  have hwin' : (s.advanceTo e).win w = some x := hwin
  refine ⟨fun hstate => ?_, fun hstate htimer hslot hgoes hquiet => ?_, fun hstate htimer hslot hdown hstop => ?_,
    fun n hstate htimer hslot hgoes hfirst hsets harmed => ?_, hexec⟩
  · rw [exec_leadExpiry hrst, leadExpired_elsewhere hwin hstate]
  · have henters := (hexec hstate htimer).trans (congrArg _ (enterDwell_quiet hwin' hslot hgoes hquiet))
    refine ⟨_, henters, checkedDwell_win _ w x i, ?_, fun j hj => ?_, checkedDwell_cap _ w x i, fun j hj => ?_,
      fun v hv => ?_, rfl⟩
    · exact (Table.rd_put ..).trans (if_pos rfl)
    · exact (Table.rd_put ..).trans (if_neg hj)
    · exact (Table.rd_put ..).trans (if_neg hj)
    · exact (Table.rd_put ..).trans (if_neg hv)
  · have henters := (hexec hstate htimer).trans (congrArg _ (enterDwell_stops hwin' hslot hdown hstop))
    have hstopped := stopWindow_spec .lockLoss (checkedDwell_win (s.advanceTo e) w x i) rfl
    obtain ⟨y, hy, hended, hcause, -⟩ := hstopped.window
    have hcap := hstopped.caps i
    rw [if_pos (checkedDwell_receiveSlot (s := s.advanceTo e) hslot), checkedDwell_cap] at hcap
    refine ⟨_, y, henters, hy, hended, hcause, ?_, ?_, fun n => ?_, fun a ha => ?_⟩
    · rw [hcap]
      rfl
    · rw [hcap]
      rfl
    · rw [hstopped.sems]
      exact ⟨rfl, rfl⟩
    · obtain ⟨z, hz, hacc⟩ := lockLoss_acc (s := s.advanceTo e) (w := w) hslot ha
      obtain rfl := Option.some.inj (hy.symm.trans hz)
      exact ⟨_, hacc, rfl, rfl⟩
  · have henters := (hexec hstate htimer).trans (congrArg _ (enterDwell_goes_on hwin' hslot hgoes))
    have hsets' : (State.checkedDwell (s.advanceTo e) w x i).doSets (x.setsAt .firstDwell) =
        (State.checkedDwell (s.advanceTo e) w x i).setFlag n := by
      rw [hsets]
      exact doSets_unarmed (s := State.checkedDwell (s.advanceTo e) w x i) harmed
    rw [hfirst, hsets'] at henters
    refine ⟨_, henters, ?_, ?_, checkedDwell_win _ w x i⟩
    · exact congrArg Semaphore.set (setFlag_sem (State.checkedDwell (s.advanceTo e) w x i) n)
    · exact congrArg Semaphore.overrun (setFlag_sem (State.checkedDwell (s.advanceTo e) w x i) n)

end

