-- ==== Sys2Proof/Proofs/DwellEnd.lean ====
section
/-! SUPPORT. Sys2Proof/Proofs/DwellEnd.lean: what a window's group finds on the setup link (R118, R120), and the end of a
DWELL (R76). -/

namespace Sys2Proof.Machine

variable {s t : State} {w : WinId} {x : Window} {group : List Txn} {e : Nat} {q : Txn}

/-! ## Submitting -/

theorem kick_idle (h : s.setup.queue = []) : s.kick = s := by
  simp only [State.kick, h]

theorem kick_flying {rest : List Txn} (h : s.setup.queue = q :: rest) (hflight : q.inFlight = true) : s.kick = s := by
  simp only [State.kick, h, if_pos hflight]

theorem kick_starts {rest : List Txn} (h : s.setup.queue = q :: rest) (hflight : q.inFlight = false) :
    s.kick = s.setSetup { s.setup with
      queue := { q with inFlight := true } :: rest
      exchange := .awaiting q.word (s.now + 2 + s.map.replyTimeout) } := by
  simp [State.kick, h, hflight]

/-- The transaction that goes in flight stays in the queue. -/
theorem kick_keeps (h : q ∈ s.setup.queue) : ∃ b, { q with inFlight := b } ∈ s.kick.setup.queue := by
  cases hqueue : s.setup.queue with
  | nil =>
    rw [hqueue] at h
    cases h
  | cons u rest =>
    cases hflight : u.inFlight with
    | true =>
      rw [kick_flying hqueue hflight]
      exact ⟨q.inFlight, h⟩
    | false =>
      rw [kick_starts hqueue hflight]
      rw [hqueue] at h
      rcases List.mem_cons.mp h with rfl | h
      · exact ⟨true, List.mem_cons_self⟩
      · exact ⟨q.inFlight, List.mem_cons_of_mem _ h⟩

theorem submit_admitted (horder : s.setup.order = []) (hroom : s.setup.queue.length + group.length ≤ 16) :
    s.submit w group = (s.setSetup { s.setup with queue := s.setup.queue ++ group }).kick := by
  unfold State.submit
  rw [if_pos]
  simp [horder, queuePlaces, hroom]

theorem submit_waits (h : s.setup.order ≠ [] ∨ 16 < s.setup.queue.length + group.length) :
    s.submit w group =
      (s.setSetup { s.setup with order := s.setup.order ++ [{ win := w, group := group }] }).kick := by
  unfold State.submit
  refine congrArg State.kick (if_neg ?_)
  rcases h with horder | hroom
  · simp [horder]
  · have hfull : decide (s.setup.queue.length + group.length ≤ queuePlaces) = false :=
      decide_eq_false (Nat.not_le.mpr hroom)
    simp [hfull]

theorem kick_order (s : State) : s.kick.setup.order = s.setup.order := by
  obtain ⟨st, hkick, horder, -⟩ := kick_eq s
  rw [hkick]
  exact horder

theorem kick_frame (s : State) : s.kick = s.setSetup s.kick.setup := by
  obtain ⟨st, hkick, -⟩ := kick_eq s
  rw [hkick]
  rfl

theorem submit_frame (s : State) (w : WinId) (group : List Txn) :
    s.submit w group = s.setSetup (s.submit w group).setup := by
  unfold State.submit
  split
  · rw [kick_frame]
    rfl
  · rw [kick_frame]
    rfl

/-- A transaction submitted is in the queue or waits in its group. -/
theorem submit_holds (h : q ∈ group) : ∃ b, { q with inFlight := b } ∈ (s.submit w group).setup.queue
    ∨ ∃ g ∈ (s.submit w group).setup.order, { q with inFlight := b } ∈ g.group := by
  by_cases hadmit : s.setup.order = [] ∧ s.setup.queue.length + group.length ≤ 16
  · obtain ⟨horder, hroom⟩ := hadmit
    rw [submit_admitted horder hroom]
    obtain ⟨b, hb⟩ := kick_keeps (s := s.setSetup { s.setup with queue := s.setup.queue ++ group })
      (List.mem_append_right s.setup.queue h)
    exact ⟨b, Or.inl hb⟩
  · have hwaits : s.setup.order ≠ [] ∨ 16 < s.setup.queue.length + group.length := by
      rw [not_and_or, Nat.not_le] at hadmit
      exact hadmit
    rw [submit_waits hwaits]
    refine ⟨q.inFlight, Or.inr ⟨{ win := w, group := group }, ?_, h⟩⟩
    rw [kick_order]
    exact List.mem_append_right s.setup.order List.mem_cons_self

/-! ## The command -/

theorem exec_dwellExpiry (hrst : s.rst = false) (w : WinId) :
    exec (.dwellExpiry w) s = .next (s.dwellExpired w) := congrArg _ (live_out_of_reset hrst _)

theorem dwellExpired_elsewhere (h : s.win w = some x) (hstate : x.state ≠ .dwell) : s.dwellExpired w = s := by
  simp only [State.dwellExpired, h, if_neg hstate]

theorem dwellExpired_ends (h : s.win w = some x) (hstate : x.state = .dwell) (htimer : x.timerEnd = some e) :
    s.dwellExpired w = (s.advanceTo e).endDwell w x := by
  simp only [State.dwellExpired, h, if_pos hstate, htimer, Option.getD_some]

/-! ## The end of a DWELL -/

/-- The record of a window that enters HARVEST. -/
def Window.harvesting (x : Window) (now : Nat) (aggressed : Bool) : Window :=
  { x.dropped now with aggressedMark := aggressed, state := .harvest, dwellLeft := 0, timerEnd := none }

/-- The hub at the end of a DWELL before the HARVEST transaction is submitted. -/
def State.leaveDwell (s : State) (w : WinId) (x : Window) : State :=
  ((s.dropDrive w x).disableCapture x).modWin w (fun _ => x.harvesting s.now (s.isAggressed x))

theorem isAggressed_congr {y : Window} (hmap : t.map = s.map) (hvictim : y.victim = x.victim)
    (haggressors : y.aggressors = x.aggressors) : t.isAggressed y = s.isAggressed x := by
  unfold State.isAggressed State.hasFittedNeighbour State.linkNat State.link
  rw [hmap, hvictim, haggressors]

theorem modWin_modWin {y : Window} (h : s.win w = some y) (f g : Window → Window) :
    (s.modWin w f).modWin w g = s.modWin w (fun _ => g (f y)) := by
  rw [modWin_eq_setWin (s := s.modWin w f) (win_modWin_some h f), modWin_eq_setWin h, modWin_eq_setWin h]
  unfold State.setWin
  have hput : Table.put (Table.put s.eng.wins w (some (f y))) w (some (g (f y))) =
      Table.put s.eng.wins w (some (g (f y))) := Table.ext_rd fun v => by
    simp only [Table.rd_put]
    split <;> rfl
  exact congrArg (fun wins => ({ s with eng := { s.eng with wins := wins } } : State)) hput

theorem endDwell_quiet (h : s.win w = some x) (hquiet : x.setsAt .eachDwellEnd = []) :
    s.endDwell w x = (s.leaveDwell w x).submit w ((s.leaveDwell w x).harvestGroup w x) := by
  have hdropped : ((s.dropDrive w x).disableCapture x).win w = some (x.dropped s.now) := by
    rw [disableCapture_win]
    exact dropDrive_win h
  have hmap : ((s.dropDrive w x).disableCapture x).map = s.map := (dropped_falls s w x id).map
  have hmark : ((s.dropDrive w x).disableCapture x).isAggressed (x.dropped s.now) = s.isAggressed x :=
    isAggressed_congr hmap rfl rfl
  unfold State.endDwell
  dsimp only
  generalize hu : (s.dropDrive w x).disableCapture x = u at hdropped hmark
  have hsignal : (u.modWin w (fun y => { y with aggressedMark := u.isAggressed y })).signal w .eachDwellEnd =
      u.modWin w (fun y => { y with aggressedMark := u.isAggressed y }) := by
    rw [signal_of (win_modWin_some hdropped _)]
    exact congrArg (State.doSets _) hquiet
  have hleave : (u.modWin w (fun y => { y with aggressedMark := u.isAggressed y })).modWin w
      (fun y => { y with state := .harvest, dwellLeft := 0, timerEnd := none }) = s.leaveDwell w x := by
    rw [modWin_modWin hdropped]
    unfold State.leaveDwell Window.harvesting
    rw [hu, hmark]
  rw [hsignal, hleave]
  congr 1
  unfold State.leaveDwell
  rw [hu]
  rfl

theorem leaveDwell_win (h : s.win w = some x) :
    (s.leaveDwell w x).win w = some (x.harvesting s.now (s.isAggressed x)) := by
  have hdropped : ((s.dropDrive w x).disableCapture x).win w = some (x.dropped s.now) := by
    rw [disableCapture_win]
    exact dropDrive_win h
  exact win_modWin_some hdropped _

theorem leaveDwell_others (s : State) (x : Window) {v : WinId} (hv : v ≠ w) : (s.leaveDwell w x).win v = s.win v := by
  refine (win_modWin ..).trans ((if_neg hv).trans ?_)
  rw [disableCapture_win]
  exact dropDrive_others s x hv

/-- What the end of a DWELL leaves alone. -/
theorem leaveDwell_frame (s : State) (w : WinId) (x : Window) : s.leaveDwell w x = { s with
    eng := (s.leaveDwell w x).eng, caps := (s.leaveDwell w x).caps } := by
  obtain ⟨fall, txen, cken, wins, hdrop, -⟩ := dropDrive_eq s w x
  obtain ⟨caps, hdisable, -⟩ := disableCapture_eq (s.dropDrive w x) x
  unfold State.leaveDwell
  rw [hdisable, hdrop]
  rfl

/-- The HARVEST transaction of a window. -/
def harvestTxn (w : WinId) (x : Window) (k : Link) : Txn :=
  { kind := .harvest, slot := (k.receiveEnd x.dir).slot, port := (k.receiveEnd x.dir).port, lanes := k.lanes,
    pattern := x.pattern, win := w, inFlight := false, discard := false }

theorem harvestGroup_of_link {k : Link} (h : s.link x.victim = some k) : s.harvestGroup w x = [harvestTxn w x k] := by
  simp only [State.harvestGroup, h]
  rfl

end Sys2Proof.Machine

open Sys2Proof Sys2Proof.Machine

/-- Settles O43. -/
theorem dwellExpiryHarvests : Obligations.DwellExpiryHarvests := by
  unfold Obligations.DwellExpiryHarvests
  intro s w x k e hrst hwin
  have hexec : x.state = .dwell → x.timerEnd = some e →
      exec (.dwellExpiry w) s = .next ((s.advanceTo e).endDwell w x) := fun hstate htimer => by
    rw [exec_dwellExpiry hrst, dwellExpired_ends hwin hstate htimer]
  refine ⟨fun hstate => ?_, fun hstate htimer hlink hquiet => ?_, hexec⟩
  · rw [exec_dwellExpiry hrst, dwellExpired_elsewhere hwin hstate]
  · have hwin' : (s.advanceTo e).win w = some x := hwin
    have hdriving : x.state.driving = true := by rw [hstate]; rfl
    have hslot : (s.advanceTo e).receiveSlot x x.dir = some (k.receiveEnd x.dir).slot :=
      congrArg (Option.map _) hlink
    have hends := (hexec hstate htimer).trans (congrArg _ (endDwell_quiet hwin' hquiet))
    have hfalls : Falls (s.advanceTo e) ((s.advanceTo e).leaveDwell w x) := dropped_falls ..
    have hleft := leaveDwell_frame (s.advanceTo e) w x
    have hrec := leaveDwell_win hwin'
    have hothers := fun v hv => leaveDwell_others (w := w) (s.advanceTo e) x (v := v) hv
    obtain ⟨htxen, hreceives⟩ := dropped_down (s.advanceTo e) w
      (fun _ => x.harvesting (s.advanceTo e).now ((s.advanceTo e).isAggressed x)) hdriving
    obtain ⟨hcken, hcount⟩ := hreceives _ hslot
    have htxen' : ∀ j ∈ s.driveSlots x, ((s.advanceTo e).leaveDwell w x).txenPin j = false := htxen
    have hcken' : ((s.advanceTo e).leaveDwell w x).ckenPin (k.receiveEnd x.dir).slot = false := hcken
    have hcount' : (((s.advanceTo e).leaveDwell w x).cap (k.receiveEnd x.dir).slot).counting = false := hcount
    have hlive := hfalls.live (k.receiveEnd x.dir).slot
    have hlink' : ((s.advanceTo e).leaveDwell w x).link x.victim = some k := by
      rw [hleft]
      exact hlink
    rw [harvestGroup_of_link hlink'] at hends
    generalize (s.advanceTo e).leaveDwell w x = u at *
    obtain ⟨b, hq⟩ := submit_holds (s := u) (w := w) (List.mem_singleton_self (harvestTxn w x k))
    have hframe := submit_frame u w [harvestTxn w x k]
    generalize u.submit w [harvestTxn w x k] = t at *
    have hdwell : x.dropped (s.advanceTo e).now = { x with ownFall := some (max s.now e) } := by
      unfold Window.dropped
      rw [if_pos hdriving]
      rfl
    unfold Window.harvesting at hrec
    rw [hdwell] at hrec
    have hwinT : t.win w = u.win w := by
      rw [hframe]
      rfl
    refine ⟨t, _, hends, hwinT.trans hrec, rfl, rfl, rfl, rfl, rfl, ?_, ?_, ?_, ?_, ⟨_, hq, rfl, rfl, rfl, rfl, rfl⟩, fun v hv => ?_,
      ?_, ?_, ?_, ?_, ?_⟩
    · rw [hframe]
      exact htxen'
    · rw [hframe]
      exact hcken'
    · rw [hframe]
      exact hcount'
    · rw [hframe]
      exact hlive
    · rw [hframe]
      exact hothers v hv
    all_goals rw [hframe, hleft]; rfl

end

