-- ==== Sys2Proof/Proofs/FailedExchanges.lean ====
section
/-! SUPPORT. Sys2Proof/Proofs/FailedExchanges.lean: the start bit of a reply, and an exchange that ends by its timeout or
with a bad reply (R121 to R123). -/

namespace Sys2Proof.Machine

variable {s : State} {q : Txn} {rest : List Txn} {word : BitVec 16} {deadline : Nat} {o : ExchangeOutcome}
  {reply : List Byte}

/-! ## The commands -/

theorem exec_replyStartBit (hrst : s.rst = false) : exec .replyStartBit s = .next s.replyStart :=
  congrArg _ (live_out_of_reset hrst _)

theorem exec_setupReplyTimeout (hrst : s.rst = false) : exec .setupReplyTimeout s = .next s.replyTimeout :=
  congrArg _ (live_out_of_reset hrst _)

theorem exec_setupExchangeEnd (hrst : s.rst = false) (reply : List Byte) :
    exec (.setupExchangeEnd reply) s = .next (s.exchangeEnd reply) := congrArg _ (live_out_of_reset hrst _)

theorem replyStart_awaited (h : s.setup.exchange = .awaiting word deadline) :
    s.replyStart = { s with setup := { s.setup with exchange := .receiving word } } := by
  simp only [State.replyStart, h]
  rfl

theorem replyStart_unawaited (h : ∀ word deadline, s.setup.exchange ≠ .awaiting word deadline) : s.replyStart = s := by
  unfold State.replyStart
  split
  · next word deadline hawaiting => exact absurd hawaiting (h word deadline)
  · rfl
  · rfl

theorem replyTimeout_unawaited (h : ∀ word deadline, s.setup.exchange ≠ .awaiting word deadline) :
    s.replyTimeout = s := by
  unfold State.replyTimeout
  split
  · next word deadline hawaiting => exact absurd hawaiting (h word deadline)
  · rfl
  · rfl

theorem exchangeEnd_idle (h : s.setup.exchange = .idle) (reply : List Byte) : s.exchangeEnd reply = s := by
  simp only [State.exchangeEnd, h]

/-! ## The end of the exchange in flight -/

theorem endExchange_of (hqueue : s.setup.queue = q :: rest) (hflight : q.inFlight = true) (outcome : Txn → ExchangeOutcome)
    (bytes : Txn → List Byte) : s.endExchange outcome bytes = s.completeTxn q rest (outcome q) (bytes q) := by
  simp only [State.endExchange, hqueue, if_pos hflight]

theorem replyTimeout_ends (hexchange : s.setup.exchange = .awaiting word deadline) (hqueue : s.setup.queue = q :: rest)
    (hflight : q.inFlight = true) : s.replyTimeout = (s.advanceTo deadline).completeTxn q rest .noReply [] := by
  simp only [State.replyTimeout, hexchange]
  exact endExchange_of (s := s.advanceTo deadline) hqueue hflight _ _

/-- A reply that is clocked in whole is judged as it is. -/
theorem exchangeEnd_ends (hexchange : s.setup.exchange = .receiving word) (hqueue : s.setup.queue = q :: rest)
    (hflight : q.inFlight = true) (hlen : reply.length = q.kind.replyLength) :
    s.exchangeEnd reply = s.completeTxn q rest (judgeReply q reply) reply := by
  have hbytes : sampled q.kind.replyLength reply = reply := by
    rw [sampled_take (Nat.le_of_eq hlen.symm), ← hlen, List.take_length]
  simp only [State.exchangeEnd, hexchange]
  rw [endExchange_of hqueue hflight, hbytes]

/-- The link without the transaction that completes. -/
def State.withoutTxn (u : State) (st : SetupLink) (rest : List Txn) : State :=
  u.setSetup { st with queue := rest, exchange := .idle }

theorem hear_failed (ho : o ≠ .ok) (reply : List Byte) : s.hear q o reply = s.stopWindow q.win .paddle := by
  cases hwin : s.win q.win with
  | none =>
    rw [stopWindow_idle hwin]
    simp only [State.hear, hwin]
  | some x => simp only [State.hear, hwin, if_pos ho]

theorem completeTxn_fails (hdiscard : q.discard = false) (ho : o ≠ .ok) (reply : List Byte) :
    s.completeTxn q rest o reply = ((s.withoutTxn s.setup rest).stopWindow q.win .paddle).admitWaiting.kick := by
  rw [← hear_failed ho reply]
  simp [State.completeTxn, hdiscard, State.withoutTxn]

theorem completeTxn_discards (hdiscard : q.discard = true) (o : ExchangeOutcome) (reply : List Byte) :
    s.completeTxn q rest o reply = (s.withoutTxn s.setup rest).admitWaiting.kick := by
  simp [State.completeTxn, hdiscard, State.withoutTxn]

/-- A reply that is not good. -/
theorem judgeReply_bad (h : reply.getLast? ≠ some (crc8 reply.dropLast) ∨ reply.head? ≠ some 0x00#8
    ∨ (q.kind = .harvest ∧ ∃ c ∈ (paddleCounts reply).drop q.lanes, c ≠ 0)) : judgeReply q reply ≠ .ok := by
  unfold judgeReply
  split
  · nofun
  · next hcrc =>
    split
    · nofun
    · next hstatus =>
      rw [if_pos]
      · nofun
      · rcases h with h | h | ⟨hkind, c, hc, hne⟩
        · exact absurd h hcrc
        · exact absurd h hstatus
        · exact ⟨hkind, List.any_eq_true.mpr ⟨c, hc, decide_eq_true hne⟩⟩

theorem admitWaiting_kick_win (s : State) (v : WinId) : s.admitWaiting.kick.win v = s.win v := by
  rw [kick_frame]
  rfl

theorem replyLength_eq (kind : TxnKind) : kind.replyLength = if kind = .harvest then 18 else 2 := by
  cases kind <;> rfl

end Sys2Proof.Machine

open Sys2Proof Sys2Proof.Machine

/-- Settles O48. -/
theorem failedExchangeStopsTheWindow : Obligations.FailedExchangeStopsTheWindow := by
  unfold Obligations.FailedExchangeStopsTheWindow
  refine ⟨fun s hrst => ⟨fun word deadline hexchange => ?_, fun hnot => ?_⟩, ?_, fun s hrst => ⟨fun hidle reply => ?_, fun hnot => ?_⟩⟩
  · rw [exec_replyStartBit hrst, replyStart_awaited hexchange]
  · rw [exec_replyStartBit hrst, replyStart_unawaited hnot]
  · intro s q rest word deadline hrst hqueue hflight without stopped dropped late bad
    refine ⟨fun hexchange => ⟨fun hdiscard => ?_, fun hdiscard => ?_⟩,
      fun hexchange reply hlen => ⟨fun hdiscard hbad => ?_, fun hdiscard => ?_⟩, fun x hwin hactive u hu => ?_⟩
    · rw [exec_setupReplyTimeout hrst, replyTimeout_ends hexchange hqueue hflight,
        completeTxn_fails hdiscard (by nofun)]
      rfl
    · rw [exec_setupReplyTimeout hrst, replyTimeout_ends hexchange hqueue hflight, completeTxn_discards hdiscard]
      rfl
    · rw [exec_setupExchangeEnd hrst, exchangeEnd_ends hexchange hqueue hflight (hlen.trans (replyLength_eq _).symm),
        completeTxn_fails hdiscard (judgeReply_bad hbad)]
      rfl
    · rw [exec_setupExchangeEnd hrst, exchangeEnd_ends hexchange hqueue hflight (hlen.trans (replyLength_eq _).symm),
        completeTxn_discards hdiscard]
      rfl
    · have hthere : (without u).win q.win = some x := by
        rcases hu with rfl | rfl <;> exact hwin
      obtain ⟨y, hy, hstate, hcause, -⟩ := (stopWindow_spec .paddle hthere hactive).window
      exact ⟨y, (admitWaiting_kick_win _ _).trans hy, hstate, hcause⟩
  · rw [exec_setupExchangeEnd hrst, exchangeEnd_idle hidle]
  · rw [exec_setupReplyTimeout hrst, replyTimeout_unawaited hnot]

end

