-- ==== Sys2Proof/Proofs/Grants.lean ====
section
/-! SUPPORT. Sys2Proof/Proofs/Grants.lean: which leases may be granted, what a grant does, and the request LEASE that is
granted (R38 to R41). -/

namespace Sys2Proof.Machine

variable {s t u : State} {p q : PortId} {m : LeaseMode} {r : ResId} {rs reserved : List ResId} {wait : Bool}

/-! ## Which leases may be granted -/

theorem open_iff {l : Lease} : l.open = true ↔ l.holder = none := by
  cases l <;> simp [Lease.open, Lease.holder]

theorem leasable_iff : s.leasable p m r = true ↔ (s.res r).lease.holder = none
    ∧ (m = .hold → isGen r = true → s.latched (resSlot r) = false)
    ∧ (m = .watch → isGen r = false ∧ s.watches p r = false) := by
  unfold State.leasable
  rw [Bool.and_eq_true, open_iff]
  cases m <;> cases isGen r <;> simp

theorem mem_reservedBy {es : List WaitEntry} : r ∈ reservedBy es ↔ ∃ e ∈ es, r ∈ e.resources := List.mem_flatMap

theorem grantable_iff : s.grantable p m rs reserved = true ↔ ∀ r ∈ rs, s.leasable p m r = true ∧ r ∉ reserved := by
  simp [State.grantable]

/-! ## What a grant does (R41) -/

theorem port_raiseOn_out {ps : PortSet} {k : Notice} (h : PortSet.has ps q = false) :
    (s.raiseOn ps k).port q = s.port q := by
  have hfold : ∀ (l : List PortId) (u : State),
      (l.foldl (fun t p => if PortSet.has ps p then t.raise p k else t) u).port q = u.port q := by
    intro l
    induction l with
    | nil => exact fun _ => rfl
    | cons a l ih =>
      intro u
      rw [List.foldl_cons, ih]
      split
      · next ha =>
        refine (port_modPort u a q _).trans (if_neg ?_)
        rintro rfl
        rw [h] at ha
        cases ha
      · rfl
  exact hfold allPorts s

/-- A resource as a grant leaves it. -/
def State.grantedRes (s : State) (p : PortId) (m : LeaseMode) (r : ResId) : Resource :=
  match m with
  | .hold => { s.res r with lease := .held p s.nowMs, crossed := false }
  | .watch => { s.res r with lease := .watched (PortSet.add (s.res r).lease.watchers p) }

/-- What the grant of some resources makes of the hub. -/
structure Granted (s : State) (p : PortId) (m : LeaseMode) (rs : List ResId) (t : State) : Prop where
  frame : t = { s with dir := { s.dir with res := t.dir.res }, ports := t.ports }
  named : ∀ r ∈ rs, t.res r = s.grantedRes p m r
  others : ∀ r, r ∉ rs → t.res r = s.res r
  ports : t.portsGrow s
  lost : m = .hold → ∀ q, q ≠ p → (∃ r ∈ rs, s.watches q r = true) → t.noticed q .leaseLost = true
  spared : ∀ q, (m = .hold → q ≠ p → ∀ r ∈ rs, s.watches q r = false) → t.port q = s.port q

theorem grantOne_granted (s : State) (p : PortId) (m : LeaseMode) (r : ResId) : Granted s p m [r] (s.grantOne p m r) := by
  cases m with
  | hold =>
    have hraise := raiseOn_eq s (PortSet.drop (s.res r).lease.watchers p) .leaseLost
    have hgrow := raiseOn_portsGrow s (PortSet.drop (s.res r).lease.watchers p) .leaseLost
    have hres : ∀ j, (s.grantOne p .hold r).res j = if j = r then s.grantedRes p .hold r else s.res j := by
      intro j
      refine (res_modRes ..).trans ?_
      rw [hraise]
      rfl
    refine ⟨?_, fun j hj => ?_, fun j hj => ?_, hgrow, fun _ q hq ⟨j, hj, hwatch⟩ => ?_, fun q hq => ?_⟩
    · unfold State.grantOne
      dsimp only
      rw [hraise]
      rfl
    · obtain rfl := List.mem_singleton.mp hj
      rw [hres, if_pos rfl]
    · rw [hres, if_neg (fun h => hj (List.mem_singleton.mpr h))]
    · obtain rfl := List.mem_singleton.mp hj
      refine (noticed_raiseOn s _ .leaseLost .leaseLost q).trans ?_
      have hhas : PortSet.has (s.res j).lease.watchers q = true := hwatch
      rw [has_drop, hhas]
      simp [hq]
    · refine port_raiseOn_out ?_
      rw [has_drop]
      by_cases hqp : q = p
      · simp [hqp]
      · have hno : PortSet.has (s.res r).lease.watchers q = false := hq rfl hqp r (List.mem_singleton_self r)
        rw [hno]
        rfl
  | watch =>
    have hres : ∀ j, (s.grantOne p .watch r).res j = if j = r then s.grantedRes p .watch r else s.res j :=
      fun j => res_modRes ..
    refine ⟨rfl, fun j hj => ?_, fun j hj => ?_, portsGrow_refl s, nofun, fun _ _ => rfl⟩
    · obtain rfl := List.mem_singleton.mp hj
      rw [hres, if_pos rfl]
    · rw [hres, if_neg (fun h => hj (List.mem_singleton.mpr h))]

theorem add_add (ps : PortSet) (p : PortId) : PortSet.add (PortSet.add ps p) p = PortSet.add ps p :=
  portSet_ext fun q => by rw [has_add, has_add, Bool.or_assoc, Bool.or_self]

/-- A resource granted twice in one request is granted once. -/
theorem grantedRes_again (hres : u.res r = s.grantedRes p m r) (hms : u.nowMs = s.nowMs) :
    u.grantedRes p m r = s.grantedRes p m r := by
  unfold State.grantedRes at hres ⊢
  rw [hres, hms]
  cases m with
  | hold => rfl
  | watch =>
    dsimp only [Lease.watchers]
    rw [add_add]

theorem grantedRes_same (hres : u.res r = s.res r) (hms : u.nowMs = s.nowMs) :
    u.grantedRes p m r = s.grantedRes p m r := by
  unfold State.grantedRes
  rw [hres, hms]

theorem grant_granted (s : State) (p : PortId) (m : LeaseMode) (rs : List ResId) :
    Granted s p m rs (s.grant p m rs) := by
  unfold State.grant
  induction rs generalizing s with
  | nil => exact ⟨rfl, nofun, fun _ _ => rfl, portsGrow_refl s, fun _ _ _ ⟨_, h, _⟩ => (List.not_mem_nil h).elim,
      fun _ _ => rfl⟩
  | cons a rs ih =>
    have hone := grantOne_granted s p m a
    have hmore := ih (s.grantOne p m a)
    rw [List.foldl_cons]
    generalize s.grantOne p m a = u at *
    have hms : u.nowMs = s.nowMs := by rw [hone.frame]; rfl
    have hself : u.res a = s.grantedRes p m a := hone.named a (List.mem_singleton_self a)
    have hsame : ∀ j, j ≠ a → u.res j = s.res j := fun j hj => hone.others j fun h => hj (List.mem_singleton.mp h)
    have hwatches : ∀ j, j ≠ a → ∀ q, u.watches q j = s.watches q j := fun j hj q => by
      rw [State.watches, State.watches, hsame j hj]
    refine ⟨?_, fun j hj => ?_, fun j hj => ?_, hone.ports.trans hmore.ports, fun hm q hq ⟨j, hj, hwatch⟩ => ?_,
      fun q hq => ?_⟩
    · rw [hmore.frame, hone.frame]
    · by_cases hja : j = a
      · subst hja
        by_cases hjrs : j ∈ rs
        · exact (hmore.named j hjrs).trans (grantedRes_again hself hms)
        · exact (hmore.others j hjrs).trans hself
      · have hjrs : j ∈ rs := (List.mem_cons.mp hj).resolve_left hja
        exact (hmore.named j hjrs).trans (grantedRes_same (hsame j hja) hms)
    · obtain ⟨hja, hjrs⟩ := not_or.mp (fun h => hj (List.mem_cons.mpr h))
      rw [hmore.others j hjrs, hsame j hja]
    · by_cases hja : j = a
      · subst hja
        exact hmore.ports.noticed (hone.lost hm q hq ⟨j, List.mem_singleton_self j, hwatch⟩)
      · have hjrs : j ∈ rs := (List.mem_cons.mp hj).resolve_left hja
        exact hmore.lost hm q hq ⟨j, hjrs, (hwatches j hja q).trans hwatch⟩
    · refine (hmore.spared q fun hm hqp j hj => ?_).trans
        (hone.spared q fun hm hqp j hj => hq hm hqp j (List.mem_singleton.mp hj ▸ List.mem_cons_self))
      by_cases hja : j = a
      · subst hja
        subst hm
        rw [State.watches, hself]
        exact has_zero q
      · exact (hwatches j hja q).trans (hq hm hqp j (List.mem_cons_of_mem a hj))

/-! ## The request LEASE (R38) -/

/-- The parameter bytes of a LEASE as sent. -/
def leaseBytes (m : LeaseMode) (wait : Bool) (rs : List ResId) : List Byte := u8 m.num ++ enFlag wait ++ enResources rs

theorem bodyLease_bytes (p : PortId) (tag : Byte) (hgood : s.resourcesGood rs)
    (hrole : m = .hold → (s.port p).role ≠ .observer) :
    bodyLease p tag (leaseBytes m wait rs) s = s.leaseRequest p tag m wait rs := by
  have hlist : s.resListOf (BitVec.ofNat 8 rs.length) (enSeq (fun r : ResId => u8 r.val) rs) = some rs :=
    resListOf_eq_some_iff.mpr ⟨hgood, rfl⟩
  have hmode : leaseModeOf (BitVec.ofNat 8 m.num) = some m := by cases m <;> rfl
  have hpass : ¬ ((s.port p).role = .observer ∧ (leaseBytes m wait rs).head? = some 0) := by
    rintro ⟨hobserver, hhead⟩
    cases m with
    | hold => exact hrole rfl hobserver
    | watch => exact absurd (Option.some.inj hhead) (by decide)
  refine (if_neg hpass).trans ?_
  show (match leaseModeOf (BitVec.ofNat 8 m.num), flagOf (BitVec.ofNat 8 (if wait then 1 else 0)),
    s.resListOf (BitVec.ofNat 8 rs.length) (enSeq (fun r : ResId => u8 r.val) rs) with
    | some mode, some wait, some rs => s.leaseRequest p tag mode wait rs
    | _, _, _ => refuse s .badParam) = _
  rw [hmode, flagOf_byte, hlist]

section Outcomes

variable (p) (tag : Byte) (hwatch : m = .watch → ∀ r ∈ rs, isGen r = false)

theorem any_isGen (hwatch : m = .watch → ∀ r ∈ rs, isGen r = false) : ¬ (m = .watch ∧ rs.any isGen = true) := by
  rintro ⟨hm, hany⟩
  obtain ⟨r, hr, hgen⟩ := List.any_eq_true.mp hany
  rw [hwatch hm r hr] at hgen
  cases hgen

include hwatch

theorem leaseRequest_tagWaits (htag : wait = true ∧ ∃ e ∈ s.dir.waits, e.port = p ∧ e.tag = tag) :
    s.leaseRequest p tag m wait rs = refuse s .badParam := by
  unfold State.leaseRequest
  rw [if_neg (any_isGen hwatch), if_pos]
  obtain ⟨hwait, e, he, hport, htag⟩ := htag
  simpa [hwait] using ⟨e, he, hport, htag⟩

theorem leaseRequest_untagged (htag : ¬ (wait = true ∧ ∃ e ∈ s.dir.waits, e.port = p ∧ e.tag = tag)) :
    s.leaseRequest p tag m wait rs =
      if rs.any (fun r => s.holds p r || (decide (m = .watch) && s.watches p r)) then refuse s .alreadyHeld
      else if s.grantable p m rs (reservedBy s.dir.waits) then accept (s.grant p m rs) []
      else s.waitOrConflict p tag m wait rs := by
  unfold State.leaseRequest
  rw [if_neg (any_isGen hwatch), if_neg]
  simpa using htag

end Outcomes

/-- A request that is not refused by R38. -/
theorem leaseRequest_passes (p : PortId) (tag : Byte) (hheld : ∀ r ∈ rs, s.holds p r = false)
    (hwatch : m = .watch → ∀ r ∈ rs, isGen r = false ∧ s.watches p r = false)
    (htag : wait = true → ∀ e ∈ s.dir.waits, e.port = p → e.tag ≠ tag) :
    s.leaseRequest p tag m wait rs =
      if s.grantable p m rs (reservedBy s.dir.waits) then accept (s.grant p m rs) []
      else s.waitOrConflict p tag m wait rs := by
  rw [leaseRequest_untagged p tag (fun hm r hr => (hwatch hm r hr).1)
    (fun ⟨hwait, e, he, hport, heq⟩ => htag hwait e he hport heq), if_neg]
  simp only [List.any_eq_true, Bool.or_eq_true, Bool.and_eq_true, decide_eq_true_iff, not_exists, not_and, not_or]
  intro r hr
  exact ⟨by simp [hheld r hr], fun hm => by simp [(hwatch hm r hr).2]⟩

theorem bodyLease_grants (p : PortId) (tag : Byte) (hgood : s.resourcesGood rs)
    (hrole : m = .hold → (s.port p).role ≠ .observer)
    (htag : wait = true → ∀ e ∈ s.dir.waits, e.port = p → e.tag ≠ tag)
    (hreserved : ∀ r ∈ rs, ∀ e ∈ s.dir.waits, r ∉ e.resources) (hfree : ∀ r ∈ rs, (s.res r).lease.holder = none)
    (hhold : m = .hold → ∀ r ∈ rs, isGen r = true → s.latched (resSlot r) = false)
    (hwatch : m = .watch → ∀ r ∈ rs, isGen r = false ∧ s.watches p r = false) :
    bodyLease p tag (leaseBytes m wait rs) s = accept (s.grant p m rs) [] := by
  have hheld : ∀ r ∈ rs, s.holds p r = false := fun r hr => by
    rw [State.holds, hfree r hr]
    rfl
  rw [bodyLease_bytes p tag hgood hrole, leaseRequest_passes p tag hheld hwatch htag, if_pos]
  refine grantable_iff.mpr fun r hr => ⟨leasable_iff.mpr ⟨hfree r hr, fun hm => hhold hm r hr, fun hm => hwatch hm r hr⟩, ?_⟩
  rw [mem_reservedBy]
  rintro ⟨e, he, hmem⟩
  exact hreserved r hr e he hmem

/-- What the granted request leaves, in the terms of the hub before it was taken. -/
theorem Granted.answered {tag : Byte} {y : Reply} {c : Byte} (h : Granted (s.working .lease p tag) p m rs u) :
    (∀ r ∈ rs, (u.answer p c tag y).res r = s.grantedRes p m r)
    ∧ (∀ r, r ∉ rs → (u.answer p c tag y).res r = s.res r)
    ∧ (∀ q, q ≠ p → (m = .hold → ∀ r ∈ rs, s.watches q r = false) → (u.answer p c tag y).port q = s.port q)
    ∧ u.answer p c tag y = { s with
        dir := { s.dir with res := (u.answer p c tag y).dir.res }, ports := (u.answer p c tag y).ports } := by
  refine ⟨h.named, h.others, fun q hq hspared => ?_, ?_⟩
  · rw [port_answer, if_neg hq, h.spared q fun hm _ => hspared hm, working_port_other hq]
  · have hframe := h.frame
    generalize hv : u.answer p c tag y = v
    have hans : v = { u with ports := v.ports } := by
      rw [← hv]
      rfl
    rw [hans, hframe]
    rfl

end Sys2Proof.Machine

open Sys2Proof Sys2Proof.Machine

/-- Settles O27. -/
theorem grantableLeaseIsGranted : Obligations.GrantableLeaseIsGranted := by
  unfold Obligations.GrantableLeaseIsGranted
  intro s p tag wait rs filler cut hlow hhigh hnodup hfit htag hreserved hfree
  have hgood : s.resourcesGood rs := ⟨hlow, hhigh, hnodup, hfit⟩
  refine ⟨fun hadm hrole hlatch => ?_, fun hadm hwatch => ?_⟩
  · have hbody : bodyLease p tag (leaseBytes .hold wait rs) (s.working .lease p tag) = _ :=
      bodyLease_grants p tag hgood (fun _ => by rwa [port_working]) htag hreserved hfree (fun _ => hlatch) nofun
    have hgranted := grant_granted (s.working .lease p tag) p .hold rs
    obtain ⟨hnamed, hothers, hports, hframe⟩ :=
      hgranted.answered (tag := tag) (c := Req.lease.code) (y := .ok [])
    refine ⟨_, exec_accepted hadm hbody, fun r hr => ?_, hothers, fun r hr => ?_, fun q hq hlost => ?_,
      fun q hq hno => hports q hq fun _ => hno, ?_, answer_slot .., hframe⟩
    · exact congrArg Resource.lease (hnamed r hr)
    · exact ⟨(congrArg Resource.recallState (hnamed r hr) :), (congrArg Resource.naming (hnamed r hr) :)⟩
    · exact (noticed_answer ..).trans (hgranted.lost rfl q hq hlost)
    · have hself := hgranted.spared p (fun _ hne => absurd rfl hne)
      refine (port_answer_sets (p := p) (tag := tag) _ Req.lease.code (.ok []) p).1.trans ?_
      rw [hself]
      exact (port_working_fields .lease p).1
  · have hbody : bodyLease p tag (leaseBytes .watch wait rs) (s.working .lease p tag) = _ :=
      bodyLease_grants p tag hgood nofun htag hreserved hfree nofun (fun _ => hwatch)
    have hgranted := grant_granted (s.working .lease p tag) p .watch rs
    obtain ⟨hnamed, hothers, hports, hframe⟩ :=
      hgranted.answered (tag := tag) (c := Req.lease.code) (y := .ok [])
    exact ⟨_, exec_accepted hadm hbody, fun r hr => congrArg Resource.lease (hnamed r hr), hothers,
      fun q hq => hports q hq nofun, answer_slot .., hframe⟩

end

