-- ==== Sys2Proof/Proofs/Waits.lean ====
section
/-! SUPPORT. Sys2Proof/Proofs/Waits.lean: the recall check of a waiting entry (R52), and the request LEASE that is not
grantable or is refused (R38, R42, R43). -/

namespace Sys2Proof.Machine

variable {s t u : State} {p q : PortId} {m : LeaseMode} {r : ResId} {rs : List ResId} {wait : Bool}

/-! ## The recall check (R52) -/

theorem recallWanted_iff : s.recallWanted p r = true ↔ ∃ h since, (s.res r).lease.holder = some h
    ∧ (s.res r).lease.since = some since ∧ h ≠ p ∧ (Table.rd s.map.ports h).leaseLimit ≠ 0
    ∧ (Table.rd s.map.ports h).leaseLimit < s.nowMs - since ∧ (s.res r).recallState = .none
    ∧ (isGen r = true → s.latched (resSlot r) = false) := by
  unfold State.recallWanted State.leaseLimit
  constructor
  · intro h
    split at h
    · next q since hholder hsince =>
      simp only [Bool.and_eq_true, decide_eq_true_iff, Bool.or_eq_true, Bool.not_eq_true'] at h
      obtain ⟨⟨⟨⟨hne, hlimit⟩, hover⟩, hnone⟩, hlatch⟩ := h
      exact ⟨q, since, hholder, hsince, hne, hlimit, hover, hnone, fun hgen => hlatch.resolve_left (by simp [hgen])⟩
    · cases h
  · rintro ⟨h, since, hholder, hsince, hne, hlimit, hover, hnone, hlatch⟩
    simp only [hholder, hsince, Bool.and_eq_true, decide_eq_true_iff, Bool.or_eq_true, Bool.not_eq_true']
    refine ⟨⟨⟨⟨hne, hlimit⟩, hover⟩, hnone⟩, ?_⟩
    cases hgen : isGen r with
    | false => exact Or.inl rfl
    | true => exact Or.inr (hlatch hgen)

/-- A resource as the start of a recall leaves it. -/
def State.recalledRes (s : State) (r : ResId) : Resource :=
  { s.res r with recallState := .recalling (s.nowMs + s.map.recallTimeout) }

/-- What the recall check of some resources for a waiting port makes of the hub. -/
structure RecallsStarted (s : State) (p : PortId) (rs : List ResId) (t : State) : Prop where
  frame : t = { s with dir := { s.dir with res := t.dir.res }, ports := t.ports }
  ports : t.portsGrow s
  wanted : ∀ r ∈ rs, s.recallWanted p r = true → t.res r = s.recalledRes r
    ∧ ∀ h, (s.res r).lease.holder = some h → t.noticed h .recalled = true
  others : ∀ r, r ∉ rs ∨ s.recallWanted p r = false → t.res r = s.res r

/-- The recall check of one resource. -/
def State.checkOne (s : State) (p : PortId) (r : ResId) : State :=
  if s.recallWanted p r then s.startRecall r else s

theorem checkOne_started (s : State) (p : PortId) (r : ResId) : RecallsStarted s p [r] (s.checkOne p r) := by
  unfold State.checkOne
  cases hwanted : s.recallWanted p r with
  | false =>
    rw [if_neg Bool.false_ne_true]
    refine ⟨rfl, portsGrow_refl s, fun j hj hyes => ?_, fun _ _ => rfl⟩
    obtain rfl := List.mem_singleton.mp hj
    rw [hwanted] at hyes
    cases hyes
  | true =>
    obtain ⟨h, since, hholder, -⟩ := recallWanted_iff.mp hwanted
    rw [if_pos rfl, startRecall_held hholder]
    have hres : ∀ j, ((s.modRes r (fun x => { x with recallState := .recalling (s.nowMs + s.map.recallTimeout) })).raise h
        .recalled).res j = if j = r then s.recalledRes r else s.res j := fun j => res_modRes ..
    refine ⟨rfl, raise_portsGrow (s.modRes r _) h .recalled, fun j hj _ => ⟨?_, fun h' hh' => ?_⟩, fun j hj => ?_⟩
    · obtain rfl := List.mem_singleton.mp hj
      rw [hres, if_pos rfl]
    · obtain rfl := List.mem_singleton.mp hj
      obtain rfl := Option.some.inj (hholder.symm.trans hh')
      rw [noticed_raise]
      simp
    · refine (hres j).trans (if_neg ?_)
      rintro rfl
      rcases hj with hj | hj
      · exact hj (List.mem_singleton_self j)
      · rw [hwanted] at hj
        cases hj

theorem recallWanted_congr (hres : u.res r = s.res r) (hnow : u.now = s.now) (hmap : u.map = s.map)
    (hfaults : u.faults = s.faults) : u.recallWanted p r = s.recallWanted p r := by
  unfold State.recallWanted State.leaseLimit State.nowMs State.latched State.fault
  rw [hres, hnow, hmap, hfaults]

theorem recallCheck_started (s : State) (p : PortId) (rs : List ResId) :
    RecallsStarted s p rs (rs.foldl (fun t r => t.checkOne p r) s) := by
  induction rs generalizing s with
  | nil => exact ⟨rfl, portsGrow_refl s, nofun, fun _ _ => rfl⟩
  | cons a rs ih =>
    have hone := checkOne_started s p a
    have hmore := ih (s.checkOne p a)
    rw [List.foldl_cons]
    generalize s.checkOne p a = u at *
    have hnow : u.now = s.now := by rw [hone.frame]
    have hmap : u.map = s.map := by rw [hone.frame]
    have hfaults : u.faults = s.faults := by rw [hone.frame]
    have hsame : ∀ j, j ≠ a → u.res j = s.res j := fun j hj => hone.others j (Or.inl fun h => hj (List.mem_singleton.mp h))
    have hself : s.recallWanted p a = true → u.recallWanted p a = false := fun hwanted => by
      obtain ⟨hres, -⟩ := hone.wanted a (List.mem_singleton_self a) hwanted
      refine Bool.eq_false_iff.mpr fun hagain => ?_
      obtain ⟨_, _, _, _, _, _, _, hnone, _⟩ := recallWanted_iff.mp hagain
      rw [hres] at hnone
      cases hnone
    refine ⟨?_, hone.ports.trans hmore.ports, fun j hj hwanted => ?_, fun j hj => ?_⟩
    · rw [hmore.frame, hone.frame]
    · by_cases hja : j = a
      · subst hja
        obtain ⟨hres, hnotice⟩ := hone.wanted j (List.mem_singleton_self j) hwanted
        exact ⟨(hmore.others j (Or.inr (hself hwanted))).trans hres,
          fun h hh => hmore.ports.noticed (hnotice h hh)⟩
      · have hwanted' := (recallWanted_congr (hsame j hja) hnow hmap hfaults).trans hwanted
        obtain ⟨hres, hnotice⟩ := hmore.wanted j ((List.mem_cons.mp hj).resolve_left hja) hwanted'
        have hrec : u.recalledRes j = s.recalledRes j := by
          unfold State.recalledRes State.nowMs
          rw [hsame j hja, hnow, hmap]
        exact ⟨hres.trans hrec, fun h hh => hnotice h (by rw [hsame j hja]; exact hh)⟩
    · by_cases hja : j = a
      · subst hja
        have hnot : s.recallWanted p j = false := hj.resolve_left (fun h => h List.mem_cons_self)
        have hres := hone.others j (Or.inr hnot)
        exact (hmore.others j (Or.inr ((recallWanted_congr hres hnow hmap hfaults).trans hnot))).trans hres
      · refine (hmore.others j ?_).trans (hsame j hja)
        rcases hj with hj | hj
        · exact Or.inl fun h => hj (List.mem_cons_of_mem a h)
        · exact Or.inr ((recallWanted_congr (hsame j hja) hnow hmap hfaults).trans hj)

theorem recallCheck_eq (s : State) (e : WaitEntry) :
    s.recallCheck e = e.resources.foldl (fun t r => t.checkOne e.port r) s := rfl

/-! ## A request that is not grantable (R42, R43) -/

/-- The resource fails a condition of its mode. -/
def State.leaseFails (s : State) (m : LeaseMode) (r : ResId) : Prop :=
  (s.res r).lease.holder ≠ none ∨ (m = .hold ∧ isGen r = true ∧ s.latched (resSlot r) = true)
    ∨ ∃ e ∈ s.dir.waits, r ∈ e.resources

theorem leaseFails_iff (hwatch : m = .watch → isGen r = false ∧ s.watches p r = false) :
    (!s.leasable p m r || (reservedBy s.dir.waits).contains r) = true ↔ s.leaseFails m r := by
  have hleasable : s.leasable p m r = false ↔
      (s.res r).lease.holder ≠ none ∨ (m = .hold ∧ isGen r = true ∧ s.latched (resSlot r) = true) := by
    rw [Bool.eq_false_iff, ne_eq, leasable_iff]
    constructor
    · intro h
      by_contra hnot
      obtain ⟨hfree, hclear⟩ := not_or.mp hnot
      exact h ⟨not_not.mp hfree, fun hm hgen => Bool.eq_false_iff.mpr fun hlatch => hclear ⟨hm, hgen, hlatch⟩, hwatch⟩
    · rintro (hheld | ⟨hm, hgen, hlatch⟩) ⟨hfree, hclear, -⟩
      · exact hheld hfree
      · rw [hclear hm hgen] at hlatch
        cases hlatch
  rw [Bool.or_eq_true, Bool.not_eq_true', hleasable, List.contains_iff_mem, mem_reservedBy, or_assoc]
  rfl

theorem not_grantable (hwatch : m = .watch → ∀ r ∈ rs, isGen r = false ∧ s.watches p r = false) (hr : r ∈ rs)
    (hfails : s.leaseFails m r) : s.grantable p m rs (reservedBy s.dir.waits) = false := by
  refine Bool.eq_false_iff.mpr fun hgrant => ?_
  obtain ⟨hleasable, hnot⟩ := grantable_iff.mp hgrant r hr
  have hbad := (leaseFails_iff (p := p) fun hm => hwatch hm r hr).mpr hfails
  simp [hleasable, hnot] at hbad

/-- The first resource that fails gives the conflict. -/
theorem waitOrConflict_conflict {pre post : List ResId} (p : PortId) (tag : Byte)
    (hwatch : m = .watch → ∀ q ∈ pre ++ r :: post, isGen q = false ∧ s.watches p q = false)
    (hpre : ∀ q ∈ pre, ¬ s.leaseFails m q) (hfails : s.leaseFails m r) :
    s.waitOrConflict p tag m false (pre ++ r :: post) =
      (s, some { status := .conflict, data := u8 r.val ++ u8 (s.conflictCause r) }) := by
  have hfind : (pre ++ r :: post).find? (fun r => !s.leasable p m r || (reservedBy s.dir.waits).contains r) = some r := by
    rw [List.find?_append, List.find?_eq_none.mpr fun q hq hbad =>
      hpre q hq ((leaseFails_iff fun hm => hwatch hm q (List.mem_append_left _ hq)).mp hbad), Option.none_or]
    refine List.find?_cons_of_pos ?_
    exact (leaseFails_iff fun hm => hwatch hm r (List.mem_append_right _ List.mem_cons_self)).mpr hfails
  simp only [State.waitOrConflict, Bool.not_false, if_true, hfind]

theorem conflictCause_cases (hwatch : m = .watch → isGen r = false) :
    ((s.res r).lease.holder ≠ none → s.conflictCause r = 0)
    ∧ ((s.res r).lease.holder = none → (m = .hold ∧ isGen r = true ∧ s.latched (resSlot r) = true) → s.conflictCause r = 1)
    ∧ ((s.res r).lease.holder = none → ¬ (m = .hold ∧ isGen r = true ∧ s.latched (resSlot r) = true) →
      s.conflictCause r = 2) := by
  have hopen : (s.res r).lease.holder = none → (s.res r).lease.open = true := open_iff.mpr
  unfold State.conflictCause
  refine ⟨fun hheld => ?_, fun hfree ⟨_, hgen, hlatch⟩ => ?_, fun hfree hnot => ?_⟩
  · have hclosed : (s.res r).lease.open = false := Bool.eq_false_iff.mpr fun h => hheld (open_iff.mp h)
    simp [hclosed]
  · simp [hopen hfree, hgen, hlatch]
  · have hclear : (isGen r && s.latched (resSlot r)) = false := by
      cases m with
      | hold =>
        refine Bool.eq_false_iff.mpr fun h => hnot ?_
        rw [Bool.and_eq_true] at h
        exact ⟨rfl, h⟩
      | watch => rw [hwatch rfl]; rfl
    simp [hopen hfree, hclear]

/-- The entry that a waiting request makes. -/
def State.waitEntry (s : State) (p : PortId) (tag : Byte) (m : LeaseMode) (rs : List ResId) : WaitEntry :=
  { port := p, tag := tag, mode := m, resources := rs, queuedAt := s.nowMs }

theorem waitOrConflict_queues (p : PortId) (tag : Byte) (hroom : s.dir.waits.length < 8)
    (hfew : (s.dir.waits.filter (fun e => decide (e.port = p))).length < 2) :
    s.waitOrConflict p tag m true rs = ((s.setWaits (s.dir.waits ++ [s.waitEntry p tag m rs])).recallCheck
      (s.waitEntry p tag m rs), some (.bare .queued)) :=
  (if_neg (by decide)).trans (if_neg (by omega))

theorem waitOrConflict_full (p : PortId) (tag : Byte) (hfull : 8 ≤ s.dir.waits.length
    ∨ 2 ≤ (s.dir.waits.filter (fun e => decide (e.port = p))).length) :
    s.waitOrConflict p tag m true rs = refuse s .waitFull :=
  (if_neg (by decide)).trans (if_pos hfull)

/-- A LEASE that is neither refused by R38 nor grantable. -/
theorem bodyLease_waits (p : PortId) (tag : Byte) (hgood : s.resourcesGood rs)
    (hrole : m = .hold → (s.port p).role ≠ .observer) (hheld : ∀ r ∈ rs, s.holds p r = false)
    (hwatch : m = .watch → ∀ r ∈ rs, isGen r = false ∧ s.watches p r = false)
    (htag : wait = true → ∀ e ∈ s.dir.waits, e.port = p → e.tag ≠ tag) (hr : r ∈ rs) (hfails : s.leaseFails m r) :
    bodyLease p tag (leaseBytes m wait rs) s = s.waitOrConflict p tag m wait rs := by
  rw [bodyLease_bytes p tag hgood hrole, leaseRequest_passes p tag hheld hwatch htag, not_grantable hwatch hr hfails]
  rfl

end Sys2Proof.Machine

open Sys2Proof Sys2Proof.Machine

/-- Settles O28. -/
theorem ungrantableLeaseConflictsOrWaits : Obligations.UngrantableLeaseConflictsOrWaits := by
  unfold Obligations.UngrantableLeaseConflictsOrWaits
  refine ⟨?_, ?_⟩
  · intro s p tag m pre post r filler cut rs params reserved faulted fails overdue hlen hnodup hnamed hrole hwatch hpre hr
    have hmem : r ∈ rs := List.mem_append_right pre List.mem_cons_self
    have hgood : (s.working .lease p tag).resourcesGood rs :=
      ⟨List.length_pos_of_mem hmem, hlen, hnodup, fun q hq => (hnamed q hq).1⟩
    have hrole' : m = .hold → ((s.working .lease p tag).port p).role ≠ .observer := fun hm => by
      rw [port_working]
      exact hrole hm
    have hheld : ∀ q ∈ rs, s.holds p q = false := fun q hq => (hnamed q hq).2
    refine ⟨fun hadm => ?_, fun hadm htag => ⟨fun hroom hfew => ?_, fun hfull => ?_⟩⟩
    · have hbody : bodyLease p tag (leaseBytes m false rs) (s.working .lease p tag) = _ :=
        (bodyLease_waits (wait := false) p tag hgood hrole' hheld hwatch nofun hmem hr).trans
          (waitOrConflict_conflict p tag hwatch hpre hr)
      obtain ⟨hholder, hfault, hreserve⟩ := conflictCause_cases (s := s) (r := r) fun hm => (hwatch hm r hmem).1
      exact ⟨_, exec_admitted hadm hbody, hholder, hfault, hreserve⟩
    · have hbody : bodyLease p tag (leaseBytes m true rs) (s.working .lease p tag) =
          (rs.foldl (fun t r => t.checkOne p r) ((s.working .lease p tag).setWaits
            (s.dir.waits ++ [s.waitEntry p tag m rs])), some (.bare .queued)) :=
        (bodyLease_waits p tag hgood hrole' hheld hwatch (fun _ => htag) hmem hr).trans
          (waitOrConflict_queues p tag hroom hfew)
      have hstarted := recallCheck_started ((s.working .lease p tag).setWaits
        (s.dir.waits ++ [s.waitEntry p tag m rs])) p rs
      refine ⟨_, exec_admitted hadm hbody, ?_, fun q => ?_, fun q hq h hover => ?_, fun q hq => ?_, answer_slot .., ?_⟩
      · exact (congrArg (fun u => u.dir.waits) hstarted.frame :)
      · by_cases hq : q ∈ rs ∧ s.recallWanted p q = true
        · obtain ⟨hres, -⟩ := hstarted.wanted q hq.1 hq.2
          exact ⟨(congrArg Resource.lease hres :), (congrArg Resource.naming hres :)⟩
        · have hres := hstarted.others q ((not_and_or.mp hq).imp_right (Bool.eq_false_iff.mpr ·))
          exact ⟨(congrArg Resource.lease hres :), (congrArg Resource.naming hres :)⟩
      · obtain ⟨hholder, ⟨since, hsince, hlimit⟩, hne, hnone, hlatch⟩ := hover
        have hother : h ≠ p := fun heq => by
          have := hheld q hq
          rw [State.holds, hholder, heq] at this
          exact absurd this (by simp)
        obtain ⟨hres, hnotice⟩ := hstarted.wanted q hq
          (recallWanted_iff.mpr ⟨h, since, hholder, hsince, hother, hne, hlimit, hnone, hlatch⟩)
        exact ⟨(noticed_answer ..).trans (hnotice h hholder), (congrArg Resource.recallState hres :)⟩
      · refine (congrArg Resource.recallState (hstarted.others q ?_) :)
        refine hq.imp_right fun hnot => Bool.eq_false_iff.mpr fun hwanted => ?_
        obtain ⟨h, since, hholder, hsince, -, hne, hlimit, hnone, hlatch⟩ := recallWanted_iff.mp hwanted
        exact hnot h ⟨hholder, ⟨since, hsince, hlimit⟩, hne, hnone, hlatch⟩
      · have hframe := hstarted.frame
        generalize List.foldl _ _ rs = u at *
        rw [hframe]
        rfl
    · exact exec_refused hadm ((bodyLease_waits p tag hgood hrole' hheld hwatch (fun _ => htag) hmem hr).trans
        (waitOrConflict_full p tag hfull))
  · intro s p tag params filler cut refused hadm
    refine ⟨fun hobserver hhead => ?_, fun hhead hbad => ?_, ?_⟩
    · refine exec_refused hadm (if_pos ⟨?_, hhead⟩)
      rw [port_working]
      exact hobserver
    · exact exec_badParam hadm hbad fun _ => hhead
    · rintro m wait rs rfl hgood hgen hrole tagWaits
      have hbytes : bodyLease p tag (leaseBytes m wait rs) (s.working .lease p tag) = _ :=
        bodyLease_bytes p tag hgood (fun hm => by rw [port_working]; exact hrole hm)
      refine ⟨fun htag => exec_refused hadm ?_, fun htag ⟨r, hr, hheld⟩ => exec_refused hadm ?_⟩
      · exact hbytes.trans (leaseRequest_tagWaits p tag hgen htag)
      · refine hbytes.trans ((leaseRequest_untagged (s := s.working .lease p tag) p tag hgen htag).trans (if_pos ?_))
        refine List.any_eq_true.mpr ⟨r, hr, ?_⟩
        rcases hheld with hheld | ⟨hm, hwatches⟩
        · simp [hheld]
        · simp [hm, hwatches]

end

