-- ==== Sys2Proof/Proofs/GrantPasses.lean ====
section
/-! SUPPORT. Sys2Proof/Proofs/GrantPasses.lean: the grant pass (R46): what it leaves alone, which entries stay, and what
each entry finds at its visit. -/

namespace Sys2Proof.Machine

variable {s t u : State} {kept es : List WaitEntry} {e f : WaitEntry} {r : ResId}

/-! ## What a pass leaves alone -/

/-- From `s` to `t` leases have been granted and recalls started. -/
structure Passed (s t : State) : Prop where
  frame : t = { s with dir := { s.dir with res := t.dir.res, waits := t.dir.waits }, ports := t.ports }
  ports : t.portsGrow s
  held : ∀ r, (s.res r).lease.holder ≠ none → (t.res r).lease = (s.res r).lease
  watchers : ∀ r q, s.watches q r = true → t.watches q r = true
    ∨ ∃ p, (t.res r).lease = .held p s.nowMs ∧ (q = p ∨ t.noticed q .leaseLost = true)
  recalls : ∀ r, (t.res r).recallState = (s.res r).recallState
    ∨ ((t.res r).recallState = .recalling (s.nowMs + s.map.recallTimeout)
      ∧ ∀ h, (s.res r).lease.holder = some h → t.noticed h .recalled = true)

namespace Passed

theorem refl (s : State) : Passed s s :=
  ⟨rfl, portsGrow_refl s, fun _ _ => rfl, fun _ _ h => Or.inl h, fun _ => Or.inl rfl⟩

theorem now (h : Passed s t) : t.now = s.now := by rw [h.frame]
theorem map (h : Passed s t) : t.map = s.map := by rw [h.frame]
theorem faults (h : Passed s t) : t.faults = s.faults := by rw [h.frame]
theorem nowMs (h : Passed s t) : t.nowMs = s.nowMs := by rw [State.nowMs, State.nowMs, h.now]

theorem latched (h : Passed s t) (i : SlotId) : t.latched i = s.latched i := by
  rw [State.latched, State.fault, h.faults]
  rfl

theorem trans (h : Passed s t) (h' : Passed t u) : Passed s u where
  frame := by rw [h'.frame, h.frame]
  ports := h.ports.trans h'.ports
  held r hr := by
    have hsame := h.held r hr
    rw [h'.held r (by rwa [hsame]), hsame]
  watchers r q hq := by
    rcases h.watchers r q hq with hwatch | ⟨p, hheld, hlost⟩
    · have hafter := h'.watchers r q hwatch
      rwa [h.nowMs] at hafter
    · refine Or.inr ⟨p, ?_, hlost.imp_right h'.ports.noticed⟩
      rw [h'.held r (by rw [hheld]; nofun), hheld]
  recalls r := by
    have hlater := h'.recalls r
    rw [h.nowMs, h.map] at hlater
    rcases h.recalls r with hsame | ⟨hrecall, hnotice⟩
    · rcases hlater with hsame' | ⟨hrecall', hnotice'⟩
      · exact Or.inl (hsame'.trans hsame)
      · refine Or.inr ⟨hrecall', fun p hp => hnotice' p ?_⟩
        rw [h.held r (by rw [hp]; nofun), hp]
    · refine Or.inr ⟨?_, fun p hp => h'.ports.noticed (hnotice p hp)⟩
      rcases hlater with hsame' | ⟨hrecall', -⟩
      · exact hsame'.trans hrecall
      · exact hrecall'

end Passed

theorem Granted.passed {p : PortId} {m : LeaseMode} {rs reserved : List ResId} (h : Granted s p m rs t)
    (hgrant : s.grantable p m rs reserved = true) : Passed s t where
  frame := by rw [h.frame]
  ports := h.ports
  held r hr := by
    by_cases hmem : r ∈ rs
    · exact absurd (leasable_iff.mp (grantable_iff.mp hgrant r hmem).1).1 hr
    · rw [h.others r hmem]
  watchers r q hq := by
    by_cases hmem : r ∈ rs
    · have hres := h.named r hmem
      cases m with
      | hold =>
        refine Or.inr ⟨p, congrArg Resource.lease hres, ?_⟩
        by_cases hqp : q = p
        · exact Or.inl hqp
        · exact Or.inr (h.lost rfl q hqp ⟨r, hmem, hq⟩)
      | watch =>
        refine Or.inl ?_
        rw [State.watches, hres]
        refine (has_add ..).trans ?_
        have hbefore : PortSet.has (s.res r).lease.watchers q = true := hq
        rw [hbefore]
        rfl
    · rw [State.watches, h.others r hmem]
      exact Or.inl hq
  recalls r := by
    refine Or.inl ?_
    by_cases hmem : r ∈ rs
    · rw [h.named r hmem]
      cases m <;> rfl
    · rw [h.others r hmem]

theorem raise_passed (s : State) (p : PortId) (k : Notice) : Passed s (s.raise p k) :=
  ⟨rfl, raise_portsGrow s p k, fun _ _ => rfl, fun _ _ h => Or.inl h, fun _ => Or.inl rfl⟩

theorem setWaits_passed (s : State) (ws : List WaitEntry) : Passed s (s.setWaits ws) :=
  ⟨rfl, portsGrow_refl s, fun _ _ => rfl, fun _ _ h => Or.inl h, fun _ => Or.inl rfl⟩

theorem RecallsStarted.lease {p : PortId} {rs : List ResId} (h : RecallsStarted s p rs t) (r : ResId) :
    (t.res r).lease = (s.res r).lease := by
  by_cases hr : r ∈ rs ∧ s.recallWanted p r = true
  · rw [(h.wanted r hr.1 hr.2).1]
    rfl
  · rw [h.others r ((not_and_or.mp hr).imp_right (Bool.eq_false_iff.mpr ·))]

theorem RecallsStarted.passed {p : PortId} {rs : List ResId} (h : RecallsStarted s p rs t) : Passed s t where
  frame := by rw [h.frame]
  ports := h.ports
  held r _ := h.lease r
  watchers r q hq := Or.inl (by rw [State.watches, h.lease]; exact hq)
  recalls r := by
    by_cases hr : r ∈ rs ∧ s.recallWanted p r = true
    · obtain ⟨hres, hnotice⟩ := h.wanted r hr.1 hr.2
      exact Or.inr ⟨congrArg Resource.recallState hres, hnotice⟩
    · rw [h.others r ((not_and_or.mp hr).imp_right (Bool.eq_false_iff.mpr ·))]
      exact Or.inl rfl

/-! ## The entries of a pass -/

/-- The entry's request may be granted, `kept` being the older entries that stay. -/
def State.entryGrantable (s : State) (kept : List WaitEntry) (e : WaitEntry) : Bool :=
  s.grantable e.port e.mode e.resources (reservedBy kept)

/-- An entry's request granted, with its notice. -/
def State.grantEntry (s : State) (e : WaitEntry) : State :=
  (s.grant e.port e.mode e.resources).raise e.port .leaseGranted

theorem grantEntry_granted (s : State) (e : WaitEntry) :
    ∃ v, Granted s e.port e.mode e.resources v ∧ s.grantEntry e = v.raise e.port .leaseGranted :=
  ⟨_, grant_granted s e.port e.mode e.resources, rfl⟩

theorem grantEntry_passed (h : s.entryGrantable kept e = true) : Passed s (s.grantEntry e) :=
  ((grant_granted ..).passed h).trans (raise_passed ..)

theorem recallCheck_spec (s : State) (e : WaitEntry) : RecallsStarted s e.port e.resources (s.recallCheck e) := by
  rw [recallCheck_eq]
  exact recallCheck_started s e.port e.resources

theorem grantFrom_grants (rest : List WaitEntry) (h : s.entryGrantable kept e = true) :
    s.grantFrom kept (e :: rest) = (s.grantEntry e).grantFrom kept rest := if_pos h

theorem grantFrom_keeps (rest : List WaitEntry) (h : s.entryGrantable kept e = false) :
    s.grantFrom kept (e :: rest) = (s.recallCheck e).grantFrom (kept ++ [e]) rest := if_neg (by
  show ¬ s.entryGrantable kept e = true
  rw [h]
  exact Bool.false_ne_true)

theorem grantFrom_passed (s : State) (kept es : List WaitEntry) : Passed s (s.grantFrom kept es) := by
  induction es generalizing s kept with
  | nil => exact setWaits_passed s kept
  | cons e rest ih =>
    cases h : s.entryGrantable kept e with
    | true =>
      rw [grantFrom_grants rest h]
      exact (grantEntry_passed h).trans (ih _ _)
    | false =>
      rw [grantFrom_keeps rest h]
      exact (recallCheck_spec s e).passed.trans (ih _ _)

theorem grantPass_passed (s : State) : Passed s s.grantPass := grantFrom_passed s [] s.dir.waits

/-- With no entry waiting a grant pass does nothing. -/
theorem grantPass_of_empty (h : s.dir.waits = []) : s.grantPass = s := by
  unfold State.grantPass
  rw [h]
  show ({ s with dir := { s.dir with waits := [] } } : State) = s
  rw [← h]

/-! ## Which entries stay -/

/-- For each entry of a pass whether it stays. -/
def State.staysFrom (s : State) (kept : List WaitEntry) : List WaitEntry → List Bool
  | [] => []
  | e :: rest =>
    if s.entryGrantable kept e then false :: (s.grantEntry e).staysFrom kept rest
    else true :: (s.recallCheck e).staysFrom (kept ++ [e]) rest

theorem staysFrom_grants (rest : List WaitEntry) (h : s.entryGrantable kept e = true) :
    s.staysFrom kept (e :: rest) = false :: (s.grantEntry e).staysFrom kept rest := if_pos h

theorem staysFrom_keeps (rest : List WaitEntry) (h : s.entryGrantable kept e = false) :
    s.staysFrom kept (e :: rest) = true :: (s.recallCheck e).staysFrom (kept ++ [e]) rest := by
  rw [State.staysFrom, h]
  rfl

theorem length_staysFrom (s : State) (kept es : List WaitEntry) : (s.staysFrom kept es).length = es.length := by
  induction es generalizing s kept with
  | nil => rfl
  | cons e rest ih =>
    cases h : s.entryGrantable kept e with
    | true => rw [staysFrom_grants rest h, List.length_cons, ih, List.length_cons]
    | false => rw [staysFrom_keeps rest h, List.length_cons, ih, List.length_cons]

/-- The entries that stay, by their marks. -/
def stayers (es : List WaitEntry) (stays : List Bool) : List WaitEntry :=
  ((es.zip stays).filter (fun x => x.2)).map (fun x => x.1)

theorem grantFrom_waits (s : State) (kept es : List WaitEntry) :
    (s.grantFrom kept es).dir.waits = kept ++ stayers es (s.staysFrom kept es) := by
  induction es generalizing s kept with
  | nil => exact (List.append_nil kept).symm
  | cons e rest ih =>
    cases h : s.entryGrantable kept e with
    | true =>
      rw [grantFrom_grants rest h, staysFrom_grants rest h, ih]
      rfl
    | false =>
      rw [grantFrom_keeps rest h, staysFrom_keeps rest h, ih, List.append_assoc]
      rfl

theorem stayers_sublist (es : List WaitEntry) (stays : List Bool) (h : stays.length = es.length) :
    (stayers es stays).Sublist es := by
  have hmap : (es.zip stays).map (fun x => x.1) = es := List.map_fst_zip (Nat.le_of_eq h.symm)
  have hsub := (List.filter_sublist (p := fun x : WaitEntry × Bool => x.2) (l := es.zip stays)).map (fun x => x.1)
  rwa [hmap] at hsub

theorem mem_stayers {stays : List Bool} :
    e ∈ stayers es stays ↔ ∃ i : Nat, es[i]? = some e ∧ stays[i]? = some true := by
  unfold stayers
  simp only [List.mem_map, List.mem_filter, Prod.exists, exists_and_right, exists_eq_right]
  constructor
  · intro hmem
    obtain ⟨i, hi⟩ := List.getElem?_of_mem hmem
    exact ⟨i, List.getElem?_zip_eq_some.mp hi⟩
  · rintro ⟨i, he, hb⟩
    exact List.mem_of_getElem? (List.getElem?_zip_eq_some.mpr ⟨he, hb⟩)

/-! ## The visit of an entry -/

/-- What a pass over `es` finds at entry `e` in place `i`: the hub `u`, with the older entries `older` that stay. -/
structure Visit (s : State) (kept es : List WaitEntry) (i : Nat) (e : WaitEntry) (older : List WaitEntry) (u : State) :
    Prop where
  passed : Passed s u
  members : ∀ f, f ∈ older ↔ f ∈ kept ∨ ∃ j, j < i ∧ es[j]? = some f ∧ (s.staysFrom kept es)[j]? = some true
  leases : ∀ r, (∀ j f, j < i → es[j]? = some f → (s.staysFrom kept es)[j]? = some false → r ∉ f.resources) →
    (u.res r).lease = (s.res r).lease
  stays : (s.staysFrom kept es)[i]? = some (!u.entryGrantable older e)
  after : Passed (if u.entryGrantable older e then u.grantEntry e else u.recallCheck e) (s.grantFrom kept es)

theorem grantEntry_lease (s : State) (h : r ∉ e.resources) : ((s.grantEntry e).res r).lease = (s.res r).lease := by
  obtain ⟨v, hgranted, heq⟩ := grantEntry_granted s e
  rw [heq]
  exact congrArg Resource.lease (hgranted.others r h)

theorem exists_visit (s : State) (kept es : List WaitEntry) {i : Nat} (h : es[i]? = some e) :
    ∃ older u, Visit s kept es i e older u := by
  induction es generalizing s kept i with
  | nil => cases h
  | cons a rest ih =>
    cases i with
    | zero =>
      obtain rfl : a = e := Option.some.inj h
      refine ⟨kept, s, Passed.refl s, fun f => ?_, fun _ _ => rfl, ?_, ?_⟩
      · exact ⟨Or.inl, fun hf => hf.resolve_right fun ⟨j, hj, _⟩ => absurd hj (Nat.not_lt_zero j)⟩
      · cases hgrant : s.entryGrantable kept a with
        | true => rw [staysFrom_grants rest hgrant]; rfl
        | false => rw [staysFrom_keeps rest hgrant]; rfl
      · cases hgrant : s.entryGrantable kept a with
        | true =>
          rw [grantFrom_grants rest hgrant]
          exact grantFrom_passed ..
        | false =>
          rw [grantFrom_keeps rest hgrant]
          exact grantFrom_passed ..
    | succ i =>
      have hrest : rest[i]? = some e := h
      cases hgrant : s.entryGrantable kept a with
      | true =>
        obtain ⟨older, u, hv⟩ := ih (s.grantEntry a) kept hrest
        have hstays := staysFrom_grants rest hgrant
        refine ⟨older, u, (grantEntry_passed hgrant).trans hv.passed, fun f => (hv.members f).trans ?_, fun r hr => ?_, ?_, ?_⟩
        · rw [hstays]
          refine or_congr_right ⟨fun ⟨j, hj, hf, hs⟩ => ⟨j + 1, Nat.succ_lt_succ hj, hf, hs⟩, fun ⟨j, hj, hf, hs⟩ => ?_⟩
          cases j with
          | zero => cases hs
          | succ j => exact ⟨j, Nat.lt_of_succ_lt_succ hj, hf, hs⟩
        · rw [hstays] at hr
          refine (hv.leases r fun j f hj hf hs => hr (j + 1) f (Nat.succ_lt_succ hj) hf hs).trans ?_
          exact grantEntry_lease s (hr 0 a (Nat.succ_pos i) rfl rfl)
        · rw [hstays]
          exact hv.stays
        · rw [grantFrom_grants rest hgrant]
          exact hv.after
      | false =>
        obtain ⟨older, u, hv⟩ := ih (s.recallCheck a) (kept ++ [a]) hrest
        have hstays := staysFrom_keeps rest hgrant
        refine ⟨older, u, (recallCheck_spec s a).passed.trans hv.passed, fun f => (hv.members f).trans ?_, fun r hr => ?_, ?_,
          ?_⟩
        · rw [hstays, List.mem_append, List.mem_singleton, or_assoc]
          refine or_congr_right ⟨?_, fun ⟨j, hj, hf, hs⟩ => ?_⟩
          · rintro (rfl | ⟨j, hj, hf, hs⟩)
            · exact ⟨0, Nat.succ_pos i, rfl, rfl⟩
            · exact ⟨j + 1, Nat.succ_lt_succ hj, hf, hs⟩
          · cases j with
            | zero => exact Or.inl (Option.some.inj hf).symm
            | succ j => exact Or.inr ⟨j, Nat.lt_of_succ_lt_succ hj, hf, hs⟩
        · rw [hstays] at hr
          refine (hv.leases r fun j f hj hf hs => hr (j + 1) f (Nat.succ_lt_succ hj) hf hs).trans ?_
          exact (recallCheck_spec s a).lease r
        · rw [hstays]
          exact hv.stays
        · rw [grantFrom_keeps rest hgrant]
          exact hv.after

/-- A lease changes only where an entry granted names its resource. -/
theorem grantFrom_lease (s : State) (kept es : List WaitEntry)
    (h : ∀ (j : Nat) (f : WaitEntry), es[j]? = some f → (s.staysFrom kept es)[j]? = some false → r ∉ f.resources) :
    ((s.grantFrom kept es).res r).lease = (s.res r).lease := by
  induction es generalizing s kept with
  | nil => rfl
  | cons a rest ih =>
    cases hgrant : s.entryGrantable kept a with
    | true =>
      rw [staysFrom_grants rest hgrant] at h
      rw [grantFrom_grants rest hgrant]
      exact (ih _ _ fun j f hf hs => h (j + 1) f hf hs).trans (grantEntry_lease s (h 0 a rfl rfl))
    | false =>
      rw [staysFrom_keeps rest hgrant] at h
      rw [grantFrom_keeps rest hgrant]
      exact (ih _ _ fun j f hf hs => h (j + 1) f hf hs).trans ((recallCheck_spec s a).lease r)

/-- A resource that no entry names is as before. -/
theorem grantFrom_unnamed (s : State) (kept es : List WaitEntry) (h : ∀ e ∈ es, r ∉ e.resources) :
    (s.grantFrom kept es).res r = s.res r := by
  induction es generalizing s kept with
  | nil => rfl
  | cons a rest ih =>
    have hself := h a List.mem_cons_self
    have hmore := fun e he => h e (List.mem_cons_of_mem a he)
    cases hgrant : s.entryGrantable kept a with
    | true =>
      obtain ⟨v, hgranted, heq⟩ := grantEntry_granted s a
      rw [grantFrom_grants rest hgrant, ih _ _ hmore, heq]
      exact hgranted.others r hself
    | false =>
      rw [grantFrom_keeps rest hgrant, ih _ _ hmore]
      exact (recallCheck_spec s a).others r (Or.inl hself)

/-! ## An entry granted -/

/-- An entry granted in a pass that goes on to `t`. -/
theorem grantEntry_after (hgrant : u.entryGrantable kept e = true) (hafter : Passed (u.grantEntry e) t) :
    t.noticed e.port .leaseGranted = true
    ∧ (e.mode = .hold → ∀ r ∈ e.resources, (t.res r).lease = .held e.port u.nowMs)
    ∧ (e.mode = .watch → ∀ r ∈ e.resources, isGen r = false ∧ (t.watches e.port r = true
      ∨ ∃ q, (t.res r).lease = .held q u.nowMs ∧ (q = e.port ∨ t.noticed e.port .leaseLost = true))) := by
  obtain ⟨v, hgranted, heq⟩ := grantEntry_granted u e
  have hms : (u.grantEntry e).nowMs = u.nowMs := (grantEntry_passed hgrant).nowMs
  refine ⟨hafter.ports.noticed ?_, fun hm r hr => ?_, fun hm r hr => ⟨?_, ?_⟩⟩
  · rw [heq, noticed_raise]
    simp
  · have hres : ((u.grantEntry e).res r).lease = .held e.port u.nowMs := by
      rw [heq]
      refine (congrArg Resource.lease (hgranted.named r hr)).trans ?_
      rw [hm]
      rfl
    rw [hafter.held r (by rw [hres]; nofun), hres]
  · exact ((leasable_iff.mp (grantable_iff.mp hgrant r hr).1).2.2 hm).1
  · have hwatch : (u.grantEntry e).watches e.port r = true := by
      have hlease : ((u.grantEntry e).res r).lease = .watched (PortSet.add (u.res r).lease.watchers e.port) := by
        rw [heq]
        refine (congrArg Resource.lease (hgranted.named r hr)).trans ?_
        rw [hm]
        rfl
      rw [State.watches, hlease]
      refine (has_add ..).trans ?_
      simp
    have hlater := hafter.watchers r e.port hwatch
    rw [hms] at hlater
    exact hlater.imp_right fun ⟨q, hq, hlost⟩ => ⟨q, hq, hlost.imp_left Eq.symm⟩

/-- An entry that a pass grants. -/
theorem Visit.granted {i : Nat} {older : List WaitEntry} (h : Visit s kept es i e older u)
    (hs : (s.staysFrom kept es)[i]? = some false) : u.entryGrantable older e = true
      ∧ Passed (u.grantEntry e) (s.grantFrom kept es) := by
  have hgrant : u.entryGrantable older e = true := by
    have heq := Option.some.inj (h.stays.symm.trans hs)
    simpa using heq
  have hafter := h.after
  rw [if_pos hgrant] at hafter
  exact ⟨hgrant, hafter⟩

/-- An entry that stays. -/
theorem Visit.stayed {i : Nat} {older : List WaitEntry} (h : Visit s kept es i e older u)
    (hs : (s.staysFrom kept es)[i]? = some true) : u.entryGrantable older e = false
      ∧ Passed (u.recallCheck e) (s.grantFrom kept es) := by
  have hgrant : u.entryGrantable older e = false := by
    have heq := Option.some.inj (h.stays.symm.trans hs)
    simpa using heq
  have hafter := h.after
  rw [hgrant] at hafter
  exact ⟨hgrant, hafter⟩

end Sys2Proof.Machine

end

