-- ==== Sys2Proof/Proofs/OldestFirst.lean ====
section
/-! SUPPORT. Sys2Proof/Proofs/OldestFirst.lean: what a grant pass does for each entry of the Lease Wait List (R44, R46,
R52). -/

namespace Sys2Proof.Machine

variable {s t : State} {e : WaitEntry} {r : ResId} {i : Nat}

/-- For each entry of the Lease Wait List whether it stays in a grant pass. -/
def State.stays (s : State) : List Bool := s.staysFrom [] s.dir.waits

theorem grantPass_waits (s : State) : s.grantPass.dir.waits = stayers s.dir.waits s.stays :=
  grantFrom_waits s [] s.dir.waits

theorem length_stays (s : State) : s.stays.length = s.dir.waits.length := length_staysFrom ..

theorem mark_of_entry (h : s.dir.waits[i]? = some e) : s.stays[i]? = some true ∨ s.stays[i]? = some false := by
  obtain ⟨older, u, hv⟩ := exists_visit s [] s.dir.waits h
  have hmark : s.stays[i]? = some (!u.entryGrantable older e) := hv.stays
  rw [hmark]
  cases u.entryGrantable older e
  · exact Or.inl rfl
  · exact Or.inr rfl

/-- What an entry that leaves the list in the pass to `t` was granted. -/
structure LeftGranted (s t : State) (e : WaitEntry) : Prop where
  noticed : t.noticed e.port .leaseGranted = true
  hold : e.mode = .hold → ∀ r ∈ e.resources, (t.res r).lease = .held e.port s.nowMs
  watch : e.mode = .watch → ∀ r ∈ e.resources, isGen r = false ∧ (t.watches e.port r = true
    ∨ ∃ q, (t.res r).lease = .held q s.nowMs ∧ (q = e.port ∨ t.noticed e.port .leaseLost = true))

theorem leftGranted_of_mark (h : s.dir.waits[i]? = some e) (hs : s.stays[i]? = some false) :
    LeftGranted s s.grantPass e := by
  obtain ⟨older, u, hv⟩ := exists_visit s [] s.dir.waits h
  obtain ⟨hgrant, hafter⟩ := hv.granted hs
  obtain ⟨hnotice, hhold, hwatch⟩ := grantEntry_after hgrant hafter
  rw [hv.passed.nowMs] at hhold hwatch
  exact ⟨hnotice, hhold, hwatch⟩

/-- An entry stays in the list or was granted. -/
theorem stays_or_granted (h : e ∈ s.dir.waits) : e ∈ s.grantPass.dir.waits ∨ LeftGranted s s.grantPass e := by
  obtain ⟨i, hi⟩ := List.getElem?_of_mem h
  rcases mark_of_entry hi with hs | hs
  · rw [grantPass_waits]
    exact Or.inl (mem_stayers.mpr ⟨i, hi, hs⟩)
  · exact Or.inr (leftGranted_of_mark hi hs)

/-- The oldest entry, where it may be granted, is granted and leaves. -/
theorem oldest_granted {rest : List WaitEntry} (h : s.dir.waits = e :: rest)
    (hleasable : ∀ r ∈ e.resources, s.leasable e.port e.mode r = true) :
    s.grantPass.dir.waits.Sublist rest ∧ LeftGranted s s.grantPass e := by
  have hgrant : s.entryGrantable [] e = true :=
    grantable_iff.mpr fun r hr => ⟨hleasable r hr, fun hmem => by
      obtain ⟨f, hf, -⟩ := mem_reservedBy.mp hmem
      cases hf⟩
  constructor
  · unfold State.grantPass
    rw [h, grantFrom_grants rest hgrant, grantFrom_waits]
    exact stayers_sublist rest _ (length_staysFrom ..)
  · refine leftGranted_of_mark (i := 0) (by rw [h]; rfl) ?_
    unfold State.stays
    rw [h, staysFrom_grants rest hgrant]
    rfl

/-! ## Reservations (R44) -/

theorem stays_of_reserved (h : s.dir.waits[i]? = some e) (hr : r ∈ e.resources)
    (hreserved : ∃ (f : WaitEntry) (j : Nat), (j < i ∧ s.dir.waits[j]? = some f) ∧ s.stays[j]? = some true ∧ r ∈ f.resources) :
    s.stays[i]? = some true := by
  obtain ⟨older, u, hv⟩ := exists_visit s [] s.dir.waits h
  obtain ⟨f, j, ⟨hj, hf⟩, hs, hrf⟩ := hreserved
  have hnot : u.entryGrantable older e = false := by
    refine Bool.eq_false_iff.mpr fun hgrant => ?_
    exact (grantable_iff.mp hgrant r hr).2 (mem_reservedBy.mpr ⟨f, (hv.members f).mpr (Or.inr ⟨j, hj, hf, hs⟩), hrf⟩)
  have hmark : s.stays[i]? = some (!u.entryGrantable older e) := hv.stays
  rw [hmark, hnot]
  rfl

/-- Whether a resource may be leased depends on its lease and its latch alone. -/
theorem leasable_congr {p : PortId} {m : LeaseMode} (hlease : (t.res r).lease = (s.res r).lease)
    (hlatched : t.latched (resSlot r) = s.latched (resSlot r)) : t.leasable p m r = s.leasable p m r := by
  unfold State.leasable State.watches
  rw [hlease, hlatched]

theorem leaves_of_leasable (h : s.dir.waits[i]? = some e) (hleasable : ∀ r ∈ e.resources,
    s.leasable e.port e.mode r = true ∧ ∀ (f : WaitEntry) (j : Nat), j < i ∧ s.dir.waits[j]? = some f → r ∉ f.resources) :
    s.stays[i]? = some false := by
  obtain ⟨older, u, hv⟩ := exists_visit s [] s.dir.waits h
  have hgrant : u.entryGrantable older e = true := grantable_iff.mpr fun r hr => by
    obtain ⟨hbefore, hunnamed⟩ := hleasable r hr
    refine ⟨?_, fun hmem => ?_⟩
    · rw [leasable_congr (hv.leases r fun j f hj hf _ => hunnamed f j ⟨hj, hf⟩) (hv.passed.latched _)]
      exact hbefore
    · obtain ⟨f, hf, hrf⟩ := mem_reservedBy.mp hmem
      rcases (hv.members f).mp hf with hf | ⟨j, hj, hf, -⟩
      · cases hf
      · exact hunnamed f j ⟨hj, hf⟩ hrf
  have hmark : s.stays[i]? = some (!u.entryGrantable older e) := hv.stays
  rw [hmark, hgrant]
  rfl

/-- What an entry that stays reserves, no entry is granted, but for the older ones that leave. -/
theorem reserved_lease (h : s.dir.waits[i]? = some e) (hs : s.stays[i]? = some true) (hr : r ∈ e.resources)
    (holder : ∀ (f : WaitEntry) (j : Nat), j < i ∧ s.dir.waits[j]? = some f → r ∈ f.resources → s.stays[j]? = some true) :
    (s.grantPass.res r).lease = (s.res r).lease := by
  refine grantFrom_lease s [] s.dir.waits fun j f hf hleft hrf => ?_
  have hleft' : s.stays[j]? = some false := hleft
  rcases Nat.lt_trichotomy j i with hj | rfl | hj
  · have hstays := holder f j ⟨hj, hf⟩ hrf
    rw [hleft'] at hstays
    cases hstays
  · rw [hleft'] at hs
    cases hs
  · have hstays := stays_of_reserved hf hrf ⟨e, i, ⟨hj, h⟩, hs, hr⟩
    rw [hleft'] at hstays
    cases hstays

/-! ## Recalls (R52) -/

theorem stayed_recalls {h : PortId} (he : e ∈ s.grantPass.dir.waits) (hr : r ∈ e.resources)
    (hwanted : s.recallWanted e.port r = true) (hholder : (s.res r).lease.holder = some h) :
    (s.grantPass.res r).recallState = .recalling (s.nowMs + s.map.recallTimeout)
      ∧ s.grantPass.noticed h .recalled = true := by
  rw [grantPass_waits] at he
  obtain ⟨i, hi, hs⟩ := mem_stayers.mp he
  obtain ⟨older, u, hv⟩ := exists_visit s [] s.dir.waits hi
  obtain ⟨-, hafter⟩ := hv.stayed hs
  have hcheck := recallCheck_spec u e
  have hheld : (s.res r).lease.holder ≠ none := by rw [hholder]; nofun
  have hlease : (u.res r).lease = (s.res r).lease := hv.passed.held r hheld
  have hbefore : ((u.recallCheck e).res r).recallState = .recalling (s.nowMs + s.map.recallTimeout)
      ∧ (u.recallCheck e).noticed h .recalled = true := by
    rcases hv.passed.recalls r with hsame | ⟨hrecall, hnotice⟩
    · have hwanted' : u.recallWanted e.port r = true := by
        obtain ⟨p, since, hp, hsince, hother, hlimit, hover, hnone, hlatch⟩ := recallWanted_iff.mp hwanted
        refine recallWanted_iff.mpr ⟨p, since, by rw [hlease, hp], by rw [hlease, hsince], hother, ?_, ?_, ?_, ?_⟩
        · rwa [hv.passed.map]
        · rwa [hv.passed.map, hv.passed.nowMs]
        · rw [hsame, hnone]
        · rwa [hv.passed.latched]
      obtain ⟨hres, hnotice⟩ := hcheck.wanted r hr hwanted'
      refine ⟨?_, hnotice h (by rw [hlease, hholder])⟩
      rw [hres, ← hv.passed.nowMs, ← hv.passed.map]
      rfl
    · have hrunning : u.recallWanted e.port r = false := by
        refine Bool.eq_false_iff.mpr fun hagain => ?_
        obtain ⟨_, _, _, _, _, _, _, hnone, _⟩ := recallWanted_iff.mp hagain
        rw [hrecall] at hnone
        cases hnone
      rw [hcheck.others r (Or.inr hrunning)]
      exact ⟨hrecall, hcheck.ports.noticed (hnotice h hholder)⟩
  obtain ⟨hrecall, hnotice⟩ := hbefore
  refine ⟨?_, hafter.ports.noticed hnotice⟩
  rcases hafter.recalls r with hsame | ⟨hagain, -⟩
  · exact hsame.trans hrecall
  · refine hagain.trans ?_
    rw [hcheck.passed.nowMs, hcheck.passed.map, hv.passed.nowMs, hv.passed.map]

end Sys2Proof.Machine

open Sys2Proof Sys2Proof.Machine

/-- Settles O29. -/
theorem grantPassGrantsOldestFirst : Obligations.GrantPassGrantsOldestFirst := by
  unfold Obligations.GrantPassGrantsOldestFirst
  intro s
  refine ⟨?_, fun e he hm => ?_, fun e he hm => ?_, fun e rest hwaits hfree => ⟨fun hm hlatch => ?_, fun hm hwatch => ?_⟩,
    ⟨s.stays, length_stays s, grantPass_waits s, fun i e he => ?_⟩,
    fun e he r hr h since hholder hsince hother hlimit hover hnone hlatch => ?_,
    fun r hr => grantFrom_unnamed s [] s.dir.waits hr⟩
  · rw [grantPass_waits]
    exact stayers_sublist _ _ (length_stays s)
  · exact (stays_or_granted he).imp_right fun hleft => ⟨hleft.hold hm, hleft.noticed⟩
  · exact (stays_or_granted he).imp_right fun hleft => ⟨hleft.watch hm, hleft.noticed⟩
  · obtain ⟨hsub, hleft⟩ := oldest_granted hwaits fun r hr =>
      leasable_iff.mpr ⟨hfree r hr, fun _ => hlatch r hr, fun hw => by (rw [hm] at hw; cases hw)⟩
    exact ⟨hsub, hleft.noticed, hleft.hold hm⟩
  · obtain ⟨hsub, hleft⟩ := oldest_granted hwaits fun r hr =>
      leasable_iff.mpr ⟨hfree r hr, fun hh => by (rw [hm] at hh; cases hh), fun _ => hwatch r hr⟩
    exact ⟨hsub, hleft.noticed, fun r hr => (hleft.watch hm r hr).2⟩
  · refine ⟨fun ⟨r, hr, hreserved⟩ => stays_of_reserved he hr hreserved, fun hleasable => ?_,
      fun hs r hr holder => reserved_lease he hs hr fun f j hj => holder f j hj⟩
    exact leaves_of_leasable he fun r hr => ⟨leasable_iff.mpr (hleasable r hr).1, fun f j => (hleasable r hr).2 f j⟩
  · exact stayed_recalls he hr
      (recallWanted_iff.mpr ⟨h, since, hholder, hsince, hother, hlimit, hover, hnone, hlatch⟩) hholder

end

