-- ==== Sys2Proof/Proofs/Arrivals.lean ====
section
/-! SUPPORT. Sys2Proof/Proofs/Arrivals.lean: flush sets (R155), the engine's taking of a result (R141), and the arrival of
a result in a buffer (R139, R140). -/

namespace Sys2Proof.Machine

variable {s t u : State} {p q : PortId} {gone : List Nat} {a : Accumulator} {x : Posted}

/-! ## Flush sets -/

theorem flushPort_frame (s : State) (gone : List Nat) (q : PortId) :
    s.flushPort gone q = { s with ports := (s.flushPort gone q).ports } := by
  unfold State.flushPort
  split
  · dsimp only
    split <;> rfl
  · rfl
  · rfl
  · rfl

theorem flushPort_other (s : State) (gone : List Nat) (h : q ≠ p) : (s.flushPort gone p).port q = s.port q := by
  unfold State.flushPort
  split
  · dsimp only
    split
    · exact (port_modPort ..).trans (if_neg h)
    · exact (port_modPort ..).trans (if_neg h)
  · rfl
  · rfl
  · rfl

/-- The answer of a READ_VERDICT depends on the map, the table and the results in the buffers alone. -/
theorem verdictReply_congr (hmap : t.map = s.map) (htable : t.table = s.table)
    (hordinary : t.post.ordinary.map (fun x => x.result) = s.post.ordinary.map (fun x => x.result))
    (hrecall : t.post.recallBuf.map (fun x => x.result) = s.post.recallBuf.map (fun x => x.result)) (l : LinkId)
    (c : DirChoice) : t.verdictReply l c = s.verdictReply l c := by
  have hlength : t.post.ordinary.length = s.post.ordinary.length := by
    simpa using congrArg List.length hordinary
  have hsome : t.post.recallBuf.isSome = s.post.recallBuf.isSome := by
    simpa using congrArg Option.isSome hrecall
  have hlist : t.posted.map (fun x => x.result) = s.posted.map (fun x => x.result) := by
    have hrecalls : t.post.recallBuf.toList.map (fun x => x.result) = s.post.recallBuf.toList.map (fun x => x.result) := by
      rw [← Option.toList_map, ← Option.toList_map, hrecall]
    unfold State.posted
    rw [List.map_append, List.map_append, hordinary, hrecalls]
  have hpending : ∀ l d, t.pendingFor l d = s.pendingFor l d := by
    intro l d
    have hcount : ∀ u : State, u.pendingFor l d =
        ((u.posted.map (fun x => x.result)).filter (fun b => decide (b.link = l) && decide (b.dir = d))).length := by
      intro u
      rw [List.filter_map, List.length_map]
      rfl
    rw [hcount, hcount, hlist]
  have hrecord : ∀ l k d, t.enRecord l k d = s.enRecord l k d := by
    intro l k d
    unfold State.enRecord State.record
    rw [htable, hpending]
  unfold State.verdictReply State.link State.freeBuffers
  simp only [hmap, hlength, hsome, hrecord]

theorem flushPort_congr (hmap : t.map = s.map) (htable : t.table = s.table) (hpost : t.post = s.post)
    (hport : t.port q = s.port q) : (t.flushPort gone q).port q = (s.flushPort gone q).port q := by
  have hreply : ∀ l c, t.verdictReply l c = s.verdictReply l c :=
    verdictReply_congr hmap htable (by rw [hpost]) (by rw [hpost])
  unfold State.flushPort
  rw [hport]
  cases hslot : (s.port q).slot with
  | ready => exact hport
  | answered frame => exact hport
  | working code tag wait =>
    cases wait with
    | none => exact hport
    | some f =>
      dsimp only
      rw [hreply]
      split
      · refine (port_modPort ..).trans (Eq.trans ?_ (port_modPort ..).symm)
        rw [if_pos rfl, if_pos rfl, hport]
      · refine (port_modPort ..).trans (Eq.trans ?_ (port_modPort ..).symm)
        rw [if_pos rfl, if_pos rfl, hport]

/-- Results that leave the queue: each port by itself, nothing but the ports. -/
theorem flushGone_spec (s : State) (gone : List Nat) : s.flushGone gone = { s with ports := (s.flushGone gone).ports }
    ∧ ∀ q, (s.flushGone gone).port q = (s.flushPort gone q).port q := by
  have hfold : ∀ (ls : List PortId) (u : State), ls.Nodup →
      ls.foldl (fun t p => t.flushPort gone p) u =
        { u with ports := (ls.foldl (fun t p => t.flushPort gone p) u).ports }
      ∧ ∀ q, (ls.foldl (fun t p => t.flushPort gone p) u).port q =
        if q ∈ ls then (u.flushPort gone q).port q else u.port q := by
    intro ls
    induction ls with
    | nil => exact fun u _ => ⟨rfl, fun q => rfl⟩
    | cons p ls ih =>
      intro u hnodup
      obtain ⟨hp, hls⟩ := List.nodup_cons.mp hnodup
      obtain ⟨hframe, hports⟩ := ih (u.flushPort gone p) hls
      have hone := flushPort_frame u gone p
      rw [List.foldl_cons]
      refine ⟨by rw [hframe, hone], fun q => (hports q).trans ?_⟩
      by_cases hq : q = p
      · subst hq
        rw [if_neg hp, if_pos List.mem_cons_self]
      · have hsame : ((u.flushPort gone p).flushPort gone q).port q = (u.flushPort gone q).port q := by
          refine flushPort_congr ?_ ?_ ?_ (flushPort_other u gone hq)
          all_goals rw [hone]
        rw [hsame, flushPort_other u gone hq]
        simp [hq]
  obtain ⟨hframe, hports⟩ := hfold allPorts s (List.nodup_finRange 4)
  exact ⟨hframe, fun q => (hports q).trans (if_pos (List.mem_finRange q))⟩

section OnePort

variable {code tag : Byte} {f : FlushWait}

theorem flushPort_empties (h : (s.port q).slot = .working code tag (some f)) (hall : ∀ n ∈ f.members, n ∈ gone) :
    (s.flushPort gone q).port q = { s.port q with
      slot := .answered (responseFrame (s.verdictReply f.link f.dirs) code tag) } := by
  have hleft : (f.members.filter (fun n => !gone.contains n)).isEmpty = true := by
    simpa using hall
  have hflush : s.flushPort gone q = s.answer q code tag (s.verdictReply f.link f.dirs) := by
    simp only [State.flushPort, h, hleft, if_true]
  rw [hflush, port_answer, if_pos rfl]

theorem flushPort_shrinks (h : (s.port q).slot = .working code tag (some f)) (hsome : ∃ n ∈ f.members, n ∉ gone) :
    (s.flushPort gone q).port q = { s.port q with
      slot := .working code tag (some { f with members := f.members.filter (fun n => decide (n ∉ gone)) }) } := by
  have hleft : (f.members.filter (fun n => !gone.contains n)).isEmpty = false := by
    obtain ⟨n, hn, hnot⟩ := hsome
    refine Bool.eq_false_iff.mpr fun hempty => ?_
    have hmem : n ∈ f.members.filter (fun n => !gone.contains n) := List.mem_filter.mpr ⟨hn, by simpa using hnot⟩
    rw [List.isEmpty_iff.mp hempty] at hmem
    cases hmem
  have hmembers : f.members.filter (fun n => !gone.contains n) = f.members.filter (fun n => decide (n ∉ gone)) :=
    List.filter_congr fun n _ => by simp
  have hflush : s.flushPort gone q =
      s.setSlot q (.working code tag (some { f with members := f.members.filter (fun n => !gone.contains n) })) := by
    simp only [State.flushPort, h, hleft, Bool.false_eq_true, if_false]
  rw [hflush, ← hmembers]
  exact (port_modPort ..).trans (if_pos rfl)

theorem flushPort_stands (h : ∀ code tag f, (s.port q).slot ≠ .working code tag (some f)) : s.flushPort gone q = s := by
  unfold State.flushPort
  split
  · next code tag f hslot => exact absurd hslot (h code tag f)
  · rfl
  · rfl
  · rfl

end OnePort

/-- Flushes touch the response slots of ports alone. -/
theorem flushPort_sets (s : State) (gone : List Nat) (q : PortId) :
    ∃ slot, (s.flushPort gone q).port q = { s.port q with slot := slot } := by
  unfold State.flushPort
  split
  · dsimp only
    split
    · exact ⟨_, (port_modPort ..).trans (if_pos rfl)⟩
    · exact ⟨_, (port_modPort ..).trans (if_pos rfl)⟩
  · exact ⟨_, rfl⟩
  · exact ⟨_, rfl⟩
  · exact ⟨_, rfl⟩

/-! ## The engine takes a result -/

/-- A posted result as the engine's taking leaves it. -/
def Posted.marked (x y : Posted) : Prop := y = x ∨ y = { x with inFlight := true }

theorem Posted.marked.fields {y : Posted} (h : x.marked y) :
    y.result = x.result ∧ y.port = x.port ∧ y.serial = x.serial ∧ y.promoted = x.promoted := by
  rcases h with rfl | rfl <;> exact ⟨rfl, rfl, rfl, rfl⟩

theorem map_marked {f : Posted → Posted} (hf : ∀ x : Posted, x.marked (f x)) (ls : List Posted) :
    (ls.map f).map (fun x => x.result) = ls.map (fun x => x.result) := by
  rw [List.map_map]
  exact List.map_congr_left fun x _ => (hf x).fields.1

theorem markInFlight_marked (n : Nat) (x : Posted) : x.marked (markInFlight n x) := by
  unfold markInFlight
  split
  · exact Or.inr rfl
  · exact Or.inl rfl

/-- The engine may mark one result in flight; a busy engine marks none. -/
theorem takeCommit_marks (s : State) : ∃ f : Posted → Posted, (∀ x : Posted, x.marked (f x))
    ∧ (s.post.commit ≠ none → f = id)
    ∧ s.takeCommit = { s with
        post := { s.post with
          ordinary := s.post.ordinary.map f
          recallBuf := s.post.recallBuf.map f
          commit := s.takeCommit.post.commit }
        freeIndex := s.takeCommit.freeIndex } := by
  have hid : s = { s with
      post := { s.post with
        ordinary := s.post.ordinary.map id, recallBuf := s.post.recallBuf.map id, commit := s.post.commit }
      freeIndex := s.freeIndex } := by
    rw [List.map_id, Option.map_id]
    rfl
  cases hcommit : s.post.commit with
  | some c =>
    have hbusy := takeCommit_busy hcommit
    refine ⟨id, fun x => Or.inl rfl, fun _ => rfl, ?_⟩
    rw [hbusy]
    exact hid
  | none =>
    cases hnext : s.nextCommit with
    | none =>
      refine ⟨id, fun x => Or.inl rfl, fun h => absurd rfl h, ?_⟩
      rw [takeCommit_nothing hcommit hnext]
      exact hid
    | some n =>
      refine ⟨markInFlight n, markInFlight_marked n, fun h => absurd rfl h, ?_⟩
      rw [takeCommit_takes hcommit hnext]
      rfl

theorem takeCommit_isSome (h : s.post.ordinary ≠ []) : s.takeCommit.post.commit.isSome = true := by
  cases hcommit : s.post.commit with
  | some c => rw [takeCommit_busy hcommit, hcommit]; rfl
  | none =>
    have hnext : ∃ n, s.nextCommit = some n := by
      cases hrecall : s.post.recallBuf with
      | some x => exact ⟨x.serial, nextCommit_recall hrecall⟩
      | none =>
        unfold State.nextCommit
        rw [hrecall]
        dsimp only
        split
        · exact ⟨_, rfl⟩
        · obtain ⟨x, rest, hcons⟩ := List.exists_cons_of_ne_nil h
          exact ⟨x.serial, by rw [hcons]; rfl⟩
    obtain ⟨n, hn⟩ := hnext
    rw [takeCommit_takes hcommit hn]
    rfl

/-! ## Arrivals -/

/-- The older results that stay when a result arrives. -/
def State.stayingFor (s : State) (a : Accumulator) : List Posted := s.post.ordinary.filter (fun x => !cancelledBy a x)

/-- The serials of the results that an arriving one cancels. -/
def State.cancelledFor (s : State) (a : Accumulator) : List Nat :=
  (s.post.ordinary.filter (cancelledBy a)).map (fun x => x.serial)

theorem cancelledBy_iff : cancelledBy a x = true ↔
    a.retest = true ∧ x.result.link = a.link ∧ x.result.dir = a.dir ∧ x.inFlight = false := by
  simp only [cancelledBy, sameDirection, Bool.and_eq_true, decide_eq_true_iff, Bool.not_eq_true', and_assoc,
    eq_comm (a := a.link), eq_comm (a := a.dir)]

theorem stayingFor_of_plain (h : a.retest = false) : s.stayingFor a = s.post.ordinary :=
  List.filter_eq_self.mpr fun x _ => by simp [cancelledBy, h]

theorem length_stayingFor (s : State) (a : Accumulator) :
    (s.stayingFor a).length + (s.cancelledFor a).length = s.post.ordinary.length := by
  rw [State.cancelledFor, List.length_map, State.stayingFor, Nat.add_comm]
  have h := List.length_eq_length_filter_add (l := s.post.ordinary) (cancelledBy a)
  omega

/-- The hub into which a result has been put, its cancellations counted. -/
def State.putResult (s : State) (a : Accumulator) (put : List Posted → PostQueue) : State :=
  (s.setPost (put (s.stayingFor a))).count (fun c =>
    { c with postsSuperseded := satAdd max16 c.postsSuperseded (s.cancelledFor a).length })

theorem arrive_eq (s : State) (a : Accumulator) (put : List Posted → PostQueue) : s.arrive a put =
    (if s.cancelledFor a = [] then s.putResult a put else (s.putResult a put).flushGone (s.cancelledFor a)).takeCommit := by
  have hcount : (s.cancelledFor a).length = (s.post.ordinary.filter (cancelledBy a)).length := List.length_map _
  have hempty : s.cancelledFor a = [] ↔ (s.post.ordinary.filter (cancelledBy a)).isEmpty = true := by
    rw [State.cancelledFor, List.map_eq_nil_iff, List.isEmpty_iff]
  unfold State.arrive State.putResult
  rw [hcount]
  by_cases h : s.cancelledFor a = []
  · rw [if_pos h]
    dsimp only
    rw [if_pos (hempty.mp h)]
    rfl
  · rw [if_neg h]
    dsimp only
    rw [if_neg (fun h' => h (hempty.mpr h'))]
    rfl

/-- What the arrival of a result makes of the hub. -/
structure Arrived (s : State) (a : Accumulator) (put : List Posted → PostQueue) (t : State) : Prop where
  frame : t = { s with
    run := { s.run with counters := { s.run.counters with
      postsSuperseded := min 65535 (s.run.counters.postsSuperseded + (s.cancelledFor a).length) } }
    post := t.post
    ports := t.ports
    freeIndex := t.freeIndex }
  post : ∃ f : Posted → Posted, (∀ x : Posted, x.marked (f x)) ∧ ((put (s.stayingFor a)).commit ≠ none → f = id)
    ∧ t.post = { put (s.stayingFor a) with
        ordinary := (put (s.stayingFor a)).ordinary.map f
        recallBuf := (put (s.stayingFor a)).recallBuf.map f
        commit := t.post.commit }
  quiet : s.cancelledFor a = [] → t.ports = s.ports
  port : s.cancelledFor a ≠ [] → ∀ q, t.port q = ((s.putResult a put).flushPort (s.cancelledFor a) q).port q
  commit : (put (s.stayingFor a)).ordinary ≠ [] → t.post.commit.isSome = true

theorem arrive_arrived (s : State) (a : Accumulator) (put : List Posted → PostQueue) :
    Arrived s a put (s.arrive a put) := by
  rw [arrive_eq]
  by_cases h : s.cancelledFor a = []
  · rw [if_pos h]
    obtain ⟨f, hf, hbusy, htake⟩ := takeCommit_marks (s.putResult a put)
    have hcommit := fun hne => takeCommit_isSome (s := s.putResult a put) hne
    generalize (s.putResult a put).takeCommit = t at *
    refine ⟨?_, ⟨f, hf, hbusy, ?_⟩, fun _ => ?_, fun hne => absurd h hne, hcommit⟩
    · rw [htake]
      rfl
    · rw [htake]
      rfl
    · rw [htake]
      rfl
  · rw [if_neg h]
    obtain ⟨hframe, hports⟩ := flushGone_spec (s.putResult a put) (s.cancelledFor a)
    generalize (s.putResult a put).flushGone (s.cancelledFor a) = v at *
    have hpost : v.post = put (s.stayingFor a) := by
      rw [hframe]
      rfl
    obtain ⟨f, hf, hbusy, htake⟩ := takeCommit_marks v
    have hcommit := fun hne => takeCommit_isSome (s := v) hne
    rw [hpost] at hbusy hcommit
    generalize v.takeCommit = t at *
    refine ⟨?_, ⟨f, hf, hbusy, ?_⟩, fun hnone => absurd hnone h, fun _ q => ?_, hcommit⟩
    · rw [htake, hframe]
      rfl
    · rw [htake, hpost]
    · rw [htake]
      exact hports q

/-- The response slots alone of the ports change at an arrival. -/
theorem Arrived.sets {put : List Posted → PostQueue} (h : Arrived s a put t) (q : PortId) :
    ∃ slot, t.port q = { s.port q with slot := slot } := by
  by_cases hgone : s.cancelledFor a = []
  · refine ⟨(s.port q).slot, ?_⟩
    have hport : t.port q = s.port q := congrArg (Table.rd · q) (h.quiet hgone)
    rw [hport]
  · rw [h.port hgone]
    exact flushPort_sets (s.putResult a put) (s.cancelledFor a) q

/-- A port that waits for no flush is as before. -/
theorem Arrived.port_stands {put : List Posted → PostQueue} (h : Arrived s a put t)
    (hslot : ∀ code tag f, (s.port q).slot ≠ .working code tag (some f)) : t.port q = s.port q := by
  by_cases hgone : s.cancelledFor a = []
  · exact congrArg (Table.rd · q) (h.quiet hgone)
  · rw [h.port hgone, flushPort_stands (s := s.putResult a put) hslot]
    rfl

/-! ## Posting a holding (R50) -/

variable {r : ResId} {since : Nat}

/-- The buffers with a result at their young end. -/
def State.postedBehind (s : State) (a : Accumulator) (p : PortId) (older : List Posted) : PostQueue :=
  { s.post with ordinary := older ++ [s.postedOf a p], nextSerial := s.post.nextSerial + 1 }

theorem postHolding_none (h : (s.res r).lease.holding = none) : s.postHolding r = s := by
  unfold State.postHolding
  cases hlease : (s.res r).lease with
  | heldUnposted p since a =>
    rw [hlease] at h
    cases h
  | held p since => rfl
  | free => rfl
  | watched ws => rfl

/-- What the posting of a holding makes of the hub. -/
theorem postHolding_arrived (h : (s.res r).lease = .heldUnposted p since a) :
    Arrived (s.setLease r (.held p since)) a (s.postedBehind a p) (s.postHolding r) := by
  have hpost : s.postHolding r = (s.setLease r (.held p since)).arriveOrdinary a p := by
    simp only [State.postHolding, h]
  rw [hpost]
  exact arrive_arrived ..

end Sys2Proof.Machine

end

