-- ==== Sys2Proof/Proofs/PostDiscard.lean ====
section
/-! SUPPORT. Sys2Proof/Proofs/PostDiscard.lean: the requests POST and DISCARD (R50, R51). -/

namespace Sys2Proof.Machine

variable {s t : State} {p q : PortId} {i : SlotId} {since : Nat} {a : Accumulator} {tag : Byte}

theorem chkIdOf_number (h : s.isFitted i = true) : s.chkIdOf (BitVec.ofNat 8 (chkOf i).val) = some (chkOf i) :=
  chkIdOf_eq_some_iff.mpr ⟨rfl, by rw [resSlot_chkOf]; exact h, isGen_chkOf i⟩

section Bodies

variable (p tag) (hfit : s.isFitted i = true)

include hfit

theorem bodyPost_number : bodyPost p tag (u8 (chkOf i).val) s =
    if !s.holds p (chkOf i) then refuse s .notHeld
    else if (s.res (chkOf i)).lease.holding.isNone then accept s (u8 0)
    else if s.freeBuffers = 0 then refuse s .postFull
    else accept (s.postHolding (chkOf i)) (u8 1) := by
  simp only [bodyPost, u8, chkIdOf_number hfit]

theorem bodyPost_notHeld (h : s.holds p (chkOf i) = false) :
    bodyPost p tag (u8 (chkOf i).val) s = refuse s .notHeld := by
  rw [bodyPost_number p tag hfit, h]
  rfl

theorem bodyPost_nothing (h : (s.res (chkOf i)).lease = .held p since) :
    bodyPost p tag (u8 (chkOf i).val) s = accept s (u8 0) := by
  simp [bodyPost_number p tag hfit, State.holds, h, Lease.holder, Lease.holding]

theorem bodyPost_full (h : (s.res (chkOf i)).lease = .heldUnposted p since a) (hfull : 4 ≤ s.post.ordinary.length) :
    bodyPost p tag (u8 (chkOf i).val) s = refuse s .postFull := by
  have hfree : s.freeBuffers = 0 := Nat.sub_eq_zero_of_le hfull
  simp [bodyPost_number p tag hfit, State.holds, h, Lease.holder, Lease.holding, hfree]

theorem bodyPost_posts (h : (s.res (chkOf i)).lease = .heldUnposted p since a) (hroom : s.post.ordinary.length < 4) :
    bodyPost p tag (u8 (chkOf i).val) s = accept (s.postHolding (chkOf i)) (u8 1) := by
  have hfree : s.freeBuffers ≠ 0 := Nat.sub_ne_zero_of_lt hroom
  simp [bodyPost_number p tag hfit, State.holds, h, Lease.holder, Lease.holding, hfree]

theorem bodyDiscard_drops (h : (s.res (chkOf i)).lease = .heldUnposted q since a) :
    bodyDiscard p tag (u8 (chkOf i).val) s = accept ((s.setLease (chkOf i) (.held q since)).count
      (fun c => { c with resultsDiscarded := satAdd max16 c.resultsDiscarded 1 })) [] := by
  simp only [bodyDiscard, u8, chkIdOf_number hfit, h]

theorem bodyDiscard_notFound (h : (s.res (chkOf i)).lease = .held q since) :
    bodyDiscard p tag (u8 (chkOf i).val) s = refuse s .notFound := by
  simp only [bodyDiscard, u8, chkIdOf_number hfit, h]

theorem bodyDiscard_notHeld (h : (s.res (chkOf i)).lease.holder = none) :
    bodyDiscard p tag (u8 (chkOf i).val) s = refuse s .notHeld := by
  simp only [bodyDiscard, u8, chkIdOf_number hfit]
  cases hlease : (s.res (chkOf i)).lease with
  | free => rfl
  | watched ws => rfl
  | held q since => rw [hlease] at h; cases h
  | heldUnposted q since a => rw [hlease] at h; cases h

end Bodies

/-! ## What a posting leaves -/

/-- The test of a cancelled result as the obligation writes it. -/
theorem cancelledBy_eq (a : Accumulator) : (fun x : Posted => a.retest && decide (x.result.link = a.link)
    && decide (x.result.dir = a.dir) && !x.inFlight) = cancelledBy a := by
  funext x
  simp only [cancelledBy, sameDirection, Bool.and_assoc, eq_comm (a := a.link), eq_comm (a := a.dir)]

section Posting

variable {r : ResId} (h : (s.res r).lease = .heldUnposted p since a)

include h

theorem postHolding_res (q : ResId) : (s.postHolding r).res q =
    if q = r then { s.res r with lease := .held p since } else s.res q := by
  rw [(postHolding_arrived h).frame]
  refine (res_modRes ..).trans ?_
  split
  · next hq =>
    subst hq
    rfl
  · rfl

/-- The results in the ordinary buffers after a posting: those that stay and the posted one, in their order. -/
theorem postHolding_results : (s.postHolding r).post.ordinary.map (fun q => q.result) =
    (s.stayingFor a).map (fun q => q.result) ++ [a] := by
  obtain ⟨f, hf, -, hpost⟩ := (postHolding_arrived h).post
  rw [hpost]
  show ((s.stayingFor a ++ [s.postedOf a p]).map f).map (fun q => q.result) = _
  rw [map_marked hf, List.map_append]
  rfl

theorem postHolding_recall : (s.postHolding r).post.recallBuf.map (fun q => q.result) =
    s.post.recallBuf.map (fun q => q.result) := by
  obtain ⟨f, hf, -, hpost⟩ := (postHolding_arrived h).post
  rw [hpost]
  show (s.post.recallBuf.map f).map (fun q => q.result) = _
  rw [Option.map_map]
  exact Option.map_congr fun x _ => (hf x).fields.1

theorem postHolding_mem : ∃ q ∈ (s.postHolding r).post.ordinary, q.result = a ∧ q.port = p := by
  obtain ⟨f, hf, -, hpost⟩ := (postHolding_arrived h).post
  refine ⟨f (s.postedOf a p), ?_, (hf _).fields.1, (hf _).fields.2.1⟩
  rw [hpost]
  exact List.mem_map_of_mem (List.mem_append_right (s.stayingFor a) (List.mem_singleton_self _))

theorem postHolding_commit : (s.postHolding r).post.commit.isSome = true :=
  (postHolding_arrived h).commit (List.append_ne_nil_of_right_ne_nil _ (List.cons_ne_nil _ _))

/-- The answer of a READ_VERDICT that a posting's cancellations have waited for reads the hub after it. -/
theorem postHolding_reply (l : LinkId) (c : DirChoice) :
    (((s.setLease r (.held p since)).putResult a (s.postedBehind a p)).verdictReply l c) =
      (s.postHolding r).verdictReply l c := by
  have hframe := (postHolding_arrived h).frame
  have hresults := postHolding_results h
  have hrecall := postHolding_recall h
  generalize s.postHolding r = t at *
  refine verdictReply_congr ?_ ?_ ?_ ?_ l c
  · rw [hframe]
    rfl
  · rw [hframe]
    rfl
  · rw [hresults]
    exact List.map_append
  · exact hrecall.symm

end Posting

end Sys2Proof.Machine

open Sys2Proof Sys2Proof.Machine

/-- Settles O31. -/
theorem postMovesAndDiscardDropsTheHolding : Obligations.PostMovesAndDiscardDropsTheHolding := by
  unfold Obligations.PostMovesAndDiscardDropsTheHolding
  refine ⟨fun s p i tag filler cut hfit hadm => ⟨fun since a hlease hroom => ?_, fun since a hlease hfull => ?_,
    fun since hlease => ?_, fun hnot => ?_⟩, fun s p i tag filler cut hfit hadm => ⟨fun q since a hlease => ?_,
    fun q since hlease => ?_, fun hfree => ?_⟩⟩
  · have hexec := exec_accepted (cut := cut) hadm
      (bodyPost_posts (s := s.working .post p tag) p tag hfit hlease hroom)
    have hlease' : ((s.working .post p tag).res (chkOf i)).lease = .heldUnposted p since a := hlease
    have harrived := postHolding_arrived hlease'
    have hres := postHolding_res hlease'
    obtain ⟨x, hx, hresult, hport⟩ := postHolding_mem hlease'
    have hresults := postHolding_results hlease'
    have hreply := postHolding_reply hlease'
    have hcommit := postHolding_commit hlease'
    generalize (s.working .post p tag).postHolding (chkOf i) = t at *
    refine ⟨_, hexec, ?_, fun r hr => (hres r).trans (if_neg hr), ⟨x, hx, hresult, hport⟩, ?_, hcommit, answer_slot ..,
      (congrArg State.table harrived.frame :), (congrArg State.eng harrived.frame :),
      (congrArg (fun u => u.run.state) harrived.frame :)⟩
    · refine (congrArg Resource.lease (hres (chkOf i))).trans ?_
      rw [if_pos rfl]
    · rw [cancelledBy_eq]
      intro cancelled gone
      refine ⟨hresults, (congrArg (fun u => u.run.counters.postsSuperseded) harrived.frame :).trans ?_,
        fun q code g f hq hgone hslot => ?_⟩
      · show min 65535 (_ + (s.cancelledFor a).length) = _
        rw [State.cancelledFor, List.length_map]
        rfl
      · have hslot' : ((((s.working .post p tag).setLease (chkOf i) (.held p since)).putResult a
            ((s.working .post p tag).postedBehind a p)).port q).slot = .working code g (some f) := by
          refine Eq.trans ?_ hslot
          exact congrArg AgentPort.slot (working_port_other hq)
        have hafter : ((t.answerOk .post p tag (u8 1)).port q) = _ :=
          ((port_answer ..).trans (if_neg hq)).trans (harrived.port hgone q)
        rw [hafter]
        refine ⟨fun hall => ?_, fun hsome => ?_⟩
        · refine (congrArg AgentPort.slot (flushPort_empties (gone := gone) hslot' hall)).trans ?_
          rw [hreply]
          rfl
        · exact (congrArg AgentPort.slot (flushPort_shrinks (gone := gone) hslot' hsome) :)
  · exact exec_refused hadm (bodyPost_full (s := s.working .post p tag) p tag hfit hlease hfull)
  · exact exec_accepted hadm (bodyPost_nothing (s := s.working .post p tag) p tag hfit hlease)
  · exact exec_refused hadm (bodyPost_notHeld (s := s.working .post p tag) p tag hfit hnot)
  · exact exec_accepted hadm (bodyDiscard_drops (s := s.working .discard p tag) p tag hfit hlease)
  · exact exec_refused hadm (bodyDiscard_notFound (s := s.working .discard p tag) p tag hfit hlease)
  · exact exec_refused hadm (bodyDiscard_notHeld (s := s.working .discard p tag) p tag hfit hfree)

end

