-- ==== Sys2Proof/Proofs/Turns.lean ====
section
/-! SUPPORT. Sys2Proof/Proofs/Turns.lean: the end of a window in DONE (R83), the drop of its withdrawing aggressors (R79),
its entry into SETUP (R72), and what all turns of windows and semaphores leave alone. -/

namespace Sys2Proof.Machine

variable {s t u : State} {w v : WinId} {x y : Window} {c : EndCause} {ws ws' : List WinId}

/-! ## The end in DONE (R83, R86) -/

/-- The record of a window that ended DONE. -/
def Window.doneRecord (x : Window) (c : EndCause) : Window :=
  { x with state := .done, endCause := some c, armedAt := none, timerEnd := none, named := [] }

/-- What the end of the window `x` in `w` makes of the hub. -/
structure Ended (s : State) (w : WinId) (x : Window) (c : EndCause) (t : State) : Prop where
  frame : t = { s with
    run := { s.run with counters := { s.run.counters with windowsDone := min 65535 (s.run.counters.windowsDone + 1) } }
    dir := { s.dir with res := t.dir.res }
    eng := { s.eng with wins := t.eng.wins }
    ports := t.ports }
  window : t.win w = some (x.doneRecord c)
  others : ∀ v, v ≠ w → t.win v = s.win v
  resources : ∀ r, (t.res r).lease.holder = (s.res r).lease.holder
    ∧ (t.res r).lease.watchers = (s.res r).lease.watchers ∧ (t.res r).lease.since = (s.res r).lease.since
    ∧ (t.res r).recallState = (s.res r).recallState ∧ (t.res r).crossed = (s.res r).crossed
    ∧ (t.res r).naming = (if r ∈ x.named then none else (s.res r).naming)
  leases : ∀ r, (t.res r).lease = ((s.res r).lease.placeIf (s.placedOn x r .fwd)).placeIf (s.placedOn x r .rev)
  ports : ∀ q, t.port q = if q = x.owner
    then (s.port q).setSets ((s.port q).notices ||| Notice.windowEnd.one) (s.port q).enables else s.port q

theorem endDone_ended (h : s.win w = some x) (c : EndCause) :
    (s.endDone w c).2 = x.setsAt .done ∧ Ended s w x c (s.endDone w c).1 := by
  let u := s.modWin w (fun y => { y with state := .done, endCause := some c, armedAt := none, timerEnd := none })
  have hu : u.win w = some { x with state := .done, endCause := some c, armedAt := none, timerEnd := none } :=
    win_modWin_some h _
  have hwins : ∀ v, v ≠ w → u.win v = s.win v := fun v hv => (win_modWin ..).trans (if_neg hv)
  obtain ⟨res, hplace, hlease⟩ := placeResults_eq u x
  have hlease' : ∀ r, (Table.rd res r).lease =
      ((s.res r).lease.placeIf (s.placedOn x r .fwd)).placeIf (s.placedOn x r .rev) := fun r => by
    have heq := placeResults_lease u x r
    rw [hplace] at heq
    exact heq
  obtain ⟨res', hnames, hnaming⟩ := foldl_setNaming none x.named { u with dir := { u.dir with res := res } }
  have hres : ∀ r, Table.rd res' r = { Table.rd res r with naming := if r ∈ x.named then none else (Table.rd res r).naming } :=
    hnaming
  let z := ({ u with dir := { u.dir with res := res' } } : State).modWin w (fun y => { y with named := [] })
  have hend : s.endDone w c = ((z.raise x.owner .windowEnd).count
      (fun n => { n with windowsDone := satAdd max16 n.windowsDone 1 }), x.setsAt .done) := by
    simp only [State.endDone, h]
    show (((((u.placeResults x).unnameAll w x).raise x.owner .windowEnd).count _, _) : State × List SemId) = _
    rw [hplace]
    unfold State.unnameAll
    rw [hnames]
  rw [hend]
  refine ⟨rfl, rfl, ?_, fun v hv => ?_, fun r => ?_, fun r => ?_, fun q => ?_⟩
  · exact win_modWin_some (s := { u with dir := { u.dir with res := res' } }) hu _
  · exact ((win_modWin ..).trans (if_neg hv)).trans (hwins v hv)
  · obtain ⟨l, hl, hholder, hwatchers, hsince⟩ := hlease r
    show (Table.rd res' r).lease.holder = _ ∧ (Table.rd res' r).lease.watchers = _ ∧ (Table.rd res' r).lease.since = _
      ∧ (Table.rd res' r).recallState = _ ∧ (Table.rd res' r).crossed = _ ∧ (Table.rd res' r).naming = _
    rw [hres, hl]
    exact ⟨hholder, hwatchers, hsince, rfl, rfl, rfl⟩
  · show (Table.rd res' r).lease = _
    rw [hres]
    exact hlease' r
  · refine (port_modPort z x.owner q (fun x => x.setSets (x.notices ||| Notice.windowEnd.one) x.enables)).trans ?_
    split
    · next hq =>
      subst hq
      rfl
    · rfl

/-! ## The drop of withdrawing aggressors (R79) -/

/-- The link of an aggressor entry is WITHDRAWING. -/
def State.leaving (s : State) (a : Aggressor) : Bool := s.linkIs a.link .withdrawing

/-- The GENs of the aggressor entries that leave. -/
def State.leavingGens (s : State) (x : Window) : List ResId :=
  (x.aggressors.filter s.leaving).filterMap (fun a => (s.aggressorSlot a).map genOf)

theorem mem_leavingGens {r : ResId} : r ∈ s.leavingGens x ↔
    ∃ a ∈ x.aggressors, s.leaving a = true ∧ (s.aggressorSlot a).map genOf = some r := by
  simp only [State.leavingGens, List.mem_filterMap, List.mem_filter, and_assoc]

/-- The window's record without its withdrawing aggressors. -/
def State.unaggressed (s : State) (x : Window) : Window :=
  { x with
    aggressors := x.aggressors.filter (fun a => !s.leaving a)
    named := x.named.filter (fun r => !(s.leavingGens x).contains r) }

theorem dropAggressors_spec (h : s.win w = some x) : ∃ res,
    s.dropAggressors w = { s with
      dir := { s.dir with res := res }, eng := { s.eng with wins := Table.put s.eng.wins w (some (s.unaggressed x)) } }
    ∧ ∀ r, Table.rd res r = { s.res r with naming := if r ∈ s.leavingGens x then none else (s.res r).naming } := by
  obtain ⟨res, hnames, hnaming⟩ := foldl_setNaming none (s.leavingGens x) s
  refine ⟨res, ?_, hnaming⟩
  have haggressors : x.aggressors.filter (fun a => !(x.aggressors.filter s.leaving).contains a) =
      x.aggressors.filter (fun a => !s.leaving a) := List.filter_congr fun a ha => by
    cases hl : s.leaving a <;> simp [ha, hl]
  simp only [State.dropAggressors, h]
  show ((s.leavingGens x).foldl (fun t r => t.setNaming r none) s).modWin w _ = _
  rw [hnames, modWin_eq_setWin (s := { s with dir := { s.dir with res := res } }) h]
  unfold State.unaggressed
  rw [← haggressors]
  rfl

theorem dropAggressors_win (h : s.win w = some x) : (s.dropAggressors w).win w = some (s.unaggressed x) := by
  obtain ⟨res, hdrop, -⟩ := dropAggressors_spec h
  rw [hdrop]
  exact (Table.rd_put ..).trans (if_pos rfl)

/-! ## The entry into SETUP (R72) -/

/-- The hub in which the window has left for SETUP, its group not submitted. -/
def State.setupWindow (s : State) (w : WinId) (x : Window) : State :=
  s.setWin w (some { x with state := .setup, armedAt := none })

theorem enterSetup_eq (h : s.win w = some x) :
    s.enterSetup w = (s.setupWindow w x).submit w (x.named.filterMap (s.configure w x)) := by
  simp only [State.enterSetup, h]
  rw [modWin_eq_setWin h]
  rfl

theorem setSetup_win (s : State) (st : SetupLink) (v : WinId) : (s.setSetup st).win v = s.win v := rfl

theorem submit_win (s : State) (w v : WinId) (group : List Txn) : (s.submit w group).win v = s.win v := by
  rw [submit_frame]
  rfl

theorem setupWindow_win (s : State) (w : WinId) (x : Window) :
    (s.setupWindow w x).win w = some { x with state := .setup, armedAt := none } := (Table.rd_put ..).trans (if_pos rfl)

/-! ## Turns -/

/-- From `s` to `t` windows and semaphores have had their turns: of the windows, those of `ws` and ARMED ones alone have
changed, and none has become ARMED. -/
structure Turn (ws : List WinId) (s t : State) : Prop where
  frame : t = { s with
    run := { s.run with counters := t.run.counters }
    dir := { s.dir with res := t.dir.res }
    eng := t.eng
    sems := t.sems
    caps := t.caps
    setup := t.setup
    ports := t.ports }
  ports : t.portsGrow s
  leases : ∀ r, (t.res r).lease.holder = (s.res r).lease.holder ∧ (t.res r).lease.watchers = (s.res r).lease.watchers
    ∧ (t.res r).lease.since = (s.res r).lease.since
  recalls : ∀ r, (t.res r).recallState = (s.res r).recallState ∧ (t.res r).crossed = (s.res r).crossed
  others : ∀ v, v ∉ ws → (∀ x, s.win v = some x → x.state ≠ .armed) → t.win v = s.win v
  armed : ∀ v y, t.win v = some y → y.state = .armed → s.win v = some y

namespace Turn

theorem refl (ws : List WinId) (s : State) : Turn ws s s :=
  ⟨rfl, portsGrow_refl s, fun _ => ⟨rfl, rfl, rfl⟩, fun _ => ⟨rfl, rfl⟩, fun _ _ _ => rfl, fun _ _ h _ => h⟩

theorem trans (h : Turn ws s t) (h' : Turn ws t u) : Turn ws s u where
  frame := by rw [h'.frame, h.frame]
  ports := h.ports.trans h'.ports
  leases r := by
    obtain ⟨hholder, hwatchers, hsince⟩ := h.leases r
    obtain ⟨hholder', hwatchers', hsince'⟩ := h'.leases r
    exact ⟨hholder'.trans hholder, hwatchers'.trans hwatchers, hsince'.trans hsince⟩
  recalls r := by
    obtain ⟨hrecall, hcrossed⟩ := h.recalls r
    obtain ⟨hrecall', hcrossed'⟩ := h'.recalls r
    exact ⟨hrecall'.trans hrecall, hcrossed'.trans hcrossed⟩
  others v hv hnot := by
    have hsame := h.others v hv hnot
    exact (h'.others v hv fun x hx => hnot x (hsame.symm.trans hx)).trans hsame
  armed v y hy harmed := h.armed v y (h'.armed v y hy harmed) harmed

theorem mono (h : Turn ws s t) (hsub : ∀ v ∈ ws, v ∈ ws') : Turn ws' s t :=
  { h with others := fun v hv => h.others v fun hmem => hv (hsub v hmem) }

theorem now (h : Turn ws s t) : t.now = s.now := by rw [h.frame]
theorem map (h : Turn ws s t) : t.map = s.map := by rw [h.frame]
theorem rst (h : Turn ws s t) : t.rst = s.rst := by rw [h.frame]
theorem lnk (h : Turn ws s t) : t.lnk = s.lnk := by rw [h.frame]
theorem table (h : Turn ws s t) : t.table = s.table := by rw [h.frame]
theorem runState (h : Turn ws s t) : t.run.state = s.run.state := by rw [h.frame]

theorem latched (h : Turn ws s t) (i : SlotId) : t.latched i = s.latched i := by
  have hfaults : t.faults = s.faults := by rw [h.frame]
  rw [State.latched, State.fault, hfaults]
  rfl

end Turn

theorem Stopped.turn (h : Stopped s w x c t) : Turn [w] s t where
  frame := by rw [h.frame]
  ports := h.portsGrow
  leases := h.falls.leases
  recalls := h.falls.recalls
  others v hv _ := h.others v fun hvw => hv (List.mem_singleton.mpr hvw)
  armed v y hy harmed := by
    by_cases hv : v = w
    · subst hv
      obtain ⟨z, hz, hstate, -⟩ := h.window
      obtain rfl := Option.some.inj (hy.symm.trans hz)
      rw [hstate] at harmed
      cases harmed
    · rwa [h.others v hv] at hy

theorem stopWindow_turn (s : State) (w : WinId) (c : EndCause) : Turn [w] s (s.stopWindow w c) := by
  cases h : s.win w with
  | none =>
    rw [stopWindow_idle h]
    exact Turn.refl _ s
  | some x =>
    cases ha : x.state.active with
    | false =>
      rw [stopWindow_ended h ha]
      exact Turn.refl _ s
    | true => exact (stopWindow_spec c h ha).turn

theorem Ended.turn (h : Ended s w x c t) : Turn [w] s t where
  frame := by rw [h.frame]
  ports q := by
    rw [h.ports]
    split
    · exact ⟨_, _, rfl⟩
    · exact portsGrow_refl s q
  leases r := by
    obtain ⟨hholder, hwatchers, hsince, -⟩ := h.resources r
    exact ⟨hholder, hwatchers, hsince⟩
  recalls r := by
    obtain ⟨-, -, -, hrecall, hcrossed, -⟩ := h.resources r
    exact ⟨hrecall, hcrossed⟩
  others v hv _ := h.others v fun hvw => hv (List.mem_singleton.mpr hvw)
  armed v y hy harmed := by
    by_cases hv : v = w
    · subst hv
      obtain rfl := Option.some.inj (h.window.symm.trans hy)
      cases harmed
    · rwa [h.others v hv] at hy

theorem endDone_turn (s : State) (w : WinId) (c : EndCause) : Turn [w] s (s.endDone w c).1 := by
  cases h : s.win w with
  | none =>
    have hnone : s.endDone w c = (s, []) := by simp only [State.endDone, h]
    rw [hnone]
    exact Turn.refl _ s
  | some x => exact (endDone_ended h c).2.turn

/-- A change of the engine, the capture records and the setup link that touches the record of one window. -/
theorem turn_of_engine (hframe : t = { s with eng := t.eng, caps := t.caps, setup := t.setup })
    (hothers : ∀ v, v ≠ w → t.win v = s.win v) (hself : ∀ y, t.win w = some y → y.state ≠ .armed) : Turn [w] s t where
  frame := by rw [hframe]
  ports := portsGrow_of_ports (by rw [hframe])
  leases r := by
    rw [hframe]
    exact ⟨rfl, rfl, rfl⟩
  recalls r := by
    rw [hframe]
    exact ⟨rfl, rfl⟩
  others v hv _ := hothers v fun hvw => hv (List.mem_singleton.mpr hvw)
  armed v y hy harmed := by
    by_cases hv : v = w
    · subst hv
      exact absurd harmed (hself y hy)
    · rwa [hothers v hv] at hy

theorem setWin_turn (hx : x.state ≠ .armed) : Turn [w] s (s.setWin w (some x)) :=
  turn_of_engine rfl (fun _ hv => (Table.rd_put ..).trans (if_neg hv)) fun y hy => by
    obtain rfl := Option.some.inj (((Table.rd_put ..).trans (if_pos rfl)).symm.trans hy)
    exact hx

theorem submit_turn (s : State) (w : WinId) (group : List Txn) (ws : List WinId) : Turn ws s (s.submit w group) := by
  rw [submit_frame]
  exact ⟨rfl, portsGrow_refl s, fun _ => ⟨rfl, rfl, rfl⟩, fun _ => ⟨rfl, rfl⟩, fun _ _ _ => rfl, fun _ _ h _ => h⟩

theorem enterSetup_turn (h : s.win w = some x) : Turn [w] s (s.enterSetup w) := by
  rw [enterSetup_eq h]
  exact (setWin_turn (by nofun)).trans (submit_turn ..)

end Sys2Proof.Machine

end

