-- ==== Sys2Proof/Proofs/Starts.lean ====
section
/-! SUPPORT. Sys2Proof/Proofs/Starts.lean: the start of an ARMED window (R71), the hand-over of an armed list (R101), and
the sets taken one after another (R100, R107). -/

namespace Sys2Proof.Machine

variable {s t u : State} {w v : WinId} {x y : Window} {ws : List WinId} {k : SemId} {es : List ArmedEntry}

/-- No record of the window is ARMED. -/
def State.notArmed (s : State) (w : WinId) : Prop := ∀ y, s.win w = some y → y.state ≠ .armed

theorem Turn.notArmed (h : Turn ws s t) (hw : s.notArmed w) : t.notArmed w := fun y hy harmed =>
  hw y (h.armed w y hy harmed) harmed

theorem Turn.faults (h : Turn ws s t) : t.faults = s.faults := by rw [h.frame]

/-! ## The start of one window -/

theorem armedStart_stands (h : s.notArmed w) : s.armedStart w = (s, []) := by
  unfold State.armedStart
  cases hwin : s.win w with
  | none => rfl
  | some x => exact if_pos (h x hwin)

theorem latchesClear_congr (hfaults : t.faults = s.faults) (y : Window) : t.latchesClear y = s.latchesClear y := by
  unfold State.latchesClear State.latched State.fault
  rw [hfaults]

section Armed

variable (h : s.win w = some x) (harmed : x.state = .armed)

include h harmed

theorem armedStart_withdrawn (hlink : s.linkIs x.victim .withdrawing = true) :
    s.armedStart w = s.endDone w .linkWithdrawn := by
  simp only [State.armedStart, h, harmed, hlink]
  rfl

theorem armedStart_goes (hlink : s.linkIs x.victim .withdrawing = false) : s.armedStart w =
    if x.faultMode = .halt ∧ !s.latchesClear (s.unaggressed x) then ((s.dropAggressors w).stopWindow w .fault, [])
    else ((s.dropAggressors w).enterSetup w, []) := by
  obtain ⟨res, hdrop, -⟩ := dropAggressors_spec h
  have hclear : (s.dropAggressors w).latchesClear (s.unaggressed x) = s.latchesClear (s.unaggressed x) :=
    latchesClear_congr (by rw [hdrop]) _
  simp only [State.armedStart, h, harmed, hlink, dropAggressors_win h, hclear]
  rfl

end Armed

/-- The drop of a window's aggressors, whatever its own record becomes. -/
theorem Turn.afterDrop (h : s.win w = some x) (hturn : Turn [w] (s.dropAggressors w) t) (hself : t.notArmed w)
    : Turn [w] s t := by
  obtain ⟨res, hdrop, hres⟩ := dropAggressors_spec h
  have hwins : ∀ v, v ≠ w → (s.dropAggressors w).win v = s.win v := fun v hv => by
    rw [hdrop]
    exact (Table.rd_put ..).trans (if_neg hv)
  have hresource : ∀ r, (s.dropAggressors w).res r = Table.rd res r := fun r => by
    rw [hdrop]
    rfl
  refine ⟨?_, ?_, fun r => ?_, fun r => ?_, fun v hv hnot => ?_, fun v y hy harmed => ?_⟩
  · have hframe := hturn.frame
    rw [hdrop] at hframe
    rw [hframe]
  · refine State.portsGrow.trans (portsGrow_of_ports ?_) hturn.ports
    rw [hdrop]
  · have hleases := hturn.leases r
    rw [hresource, hres] at hleases
    exact hleases
  · have hrecalls := hturn.recalls r
    rw [hresource, hres] at hrecalls
    exact hrecalls
  · have hvw : v ≠ w := fun heq => hv (List.mem_singleton.mpr heq)
    exact (hturn.others v hv fun z hz => hnot z ((hwins v hvw).symm.trans hz)).trans (hwins v hvw)
  · by_cases hvw : v = w
    · subst hvw
      exact absurd harmed (hself y hy)
    · exact (hwins v hvw).symm.trans (hturn.armed v y hy harmed)

/-! ## Hand-overs -/

/-- From `s` to `t` windows of `ws` have been handed over. -/
structure Handed (ws : List WinId) (s t : State) : Prop where
  turn : Turn ws s t
  windows : ∀ v, v ∉ ws → t.win v = s.win v
  sems : ∀ k, (t.sem k).set = (s.sem k).set ∧ (t.sem k).overrun = (s.sem k).overrun
    ∧ ((∀ e ∈ (s.sem k).armed, e.win ∉ ws) → (t.sem k).armed = (s.sem k).armed)

theorem Handed.refl (ws : List WinId) (s : State) : Handed ws s s :=
  ⟨Turn.refl ws s, fun _ _ => rfl, fun _ => ⟨rfl, rfl, fun _ => rfl⟩⟩

theorem Handed.trans (h : Handed ws s t) (h' : Handed ws t u) : Handed ws s u := by
  refine ⟨h.turn.trans h'.turn, fun v hv => (h'.windows v hv).trans (h.windows v hv), fun k => ?_⟩
  obtain ⟨hset, hover, harmed⟩ := h.sems k
  obtain ⟨hset', hover', harmed'⟩ := h'.sems k
  refine ⟨hset'.trans hset, hover'.trans hover, fun hnot => ?_⟩
  have hsame := harmed hnot
  rw [harmed' (by rwa [hsame]), hsame]

theorem Handed.mono {ws' : List WinId} (h : Handed ws s t) (hsub : ∀ v ∈ ws, v ∈ ws') : Handed ws' s t :=
  ⟨h.turn.mono hsub, fun v hv => h.windows v fun hmem => hv (hsub v hmem), fun k => by
    obtain ⟨hset, hover, harmed⟩ := h.sems k
    exact ⟨hset, hover, fun hnot => harmed fun e he hmem => hnot e he (hsub _ hmem)⟩⟩

/-- What the start of a window makes of its record, where it was ARMED. -/
structure Started (s : State) (w : WinId) (x : Window) (t : State) : Prop where
  withdrawn : s.linkIs x.victim .withdrawing = true → t.win w = some (x.doneRecord .linkWithdrawn)
  faulted : s.linkIs x.victim .withdrawing = false → x.faultMode = .halt →
    s.latchesClear (s.unaggressed x) = false → ∃ y, t.win w = some y ∧ y.state = .stopped ∧ y.endCause = some .fault
      ∧ y.armedAt = none ∧ y.named = []
  setup : s.linkIs x.victim .withdrawing = false → ¬ (x.faultMode = .halt ∧ s.latchesClear (s.unaggressed x) = false) →
    t.win w = some { s.unaggressed x with state := .setup, armedAt := none }

theorem markCause_fault_armedAt (x : Window) : (x.markCause .fault).armedAt = x.armedAt := rfl

theorem keepLockLosses_armedAt (x : Window) (n : Nat) : (x.keepLockLosses n).armedAt = x.armedAt := by
  unfold Window.keepLockLosses
  split
  · cases x.dir <;> rfl
  · rfl

theorem stopRecord_armedAt (x : Window) (now losses : Nat) : (x.stopRecord .fault now losses).armedAt = none :=
  (keepLockLosses_armedAt ..)

/-- The start of an ARMED window: the hand-over, the record, and the setup link where nothing is submitted. -/
theorem armedStart_started (h : s.win w = some x) (harmed : x.state = .armed) :
    Handed [w] s (s.armedStart w).1 ∧ Started s w x (s.armedStart w).1 ∧ (s.armedStart w).1.notArmed w := by
  cases hlink : s.linkIs x.victim .withdrawing with
  | true =>
    obtain ⟨-, hended⟩ := endDone_ended h .linkWithdrawn
    rw [armedStart_withdrawn h harmed hlink]
    refine ⟨⟨hended.turn, fun v hv => hended.others v fun heq => hv (List.mem_singleton.mpr heq), fun k => ?_⟩,
      ⟨fun _ => hended.window, fun hno => ?_, fun hno => ?_⟩, fun y hy => ?_⟩
    · have hsem : ((s.endDone w .linkWithdrawn).1).sem k = s.sem k := by
        rw [hended.frame]
        rfl
      rw [hsem]
      exact ⟨rfl, rfl, fun _ => rfl⟩
    · rw [hlink] at hno
      cases hno
    · rw [hlink] at hno
      cases hno
    · obtain rfl := Option.some.inj (hended.window.symm.trans hy)
      nofun
  | false =>
    obtain ⟨res, hdrop, -⟩ := dropAggressors_spec h
    have hwin := dropAggressors_win h
    have hothers : ∀ v, v ∉ [w] → (s.dropAggressors w).win v = s.win v := fun v hv => by
      rw [hdrop]
      exact (Table.rd_put ..).trans (if_neg fun heq => hv (List.mem_singleton.mpr heq))
    have hsems : ∀ k, (s.dropAggressors w).sem k = s.sem k := fun k => by
      rw [hdrop]
      rfl
    rw [armedStart_goes h harmed hlink]
    by_cases hfault : x.faultMode = .halt ∧ s.latchesClear (s.unaggressed x) = false
    · obtain ⟨hhalt, hclear⟩ := hfault
      have hactive : (s.unaggressed x).state.active = true := by
        show x.state.active = true
        rw [harmed]
        rfl
      have hstop := stopWindow_spec .fault hwin hactive
      have hrecord := stopWindow_win (c := .fault) hwin hactive
      obtain ⟨y, hy, hstate, hcause, -, hnamed, -⟩ := hstop.window
      rw [if_pos ⟨hhalt, by rw [hclear]; rfl⟩]
      have hself : ((s.dropAggressors w).stopWindow w .fault).notArmed w := fun z hz => by
        obtain rfl := Option.some.inj (hy.symm.trans hz)
        rw [hstate]
        nofun
      refine ⟨⟨hstop.turn.afterDrop h hself, fun v hv => ?_, fun k => ?_⟩,
        ⟨fun hno => ?_, fun _ _ _ => ⟨y, hy, hstate, hcause, ?_, hnamed⟩, fun _ hno => absurd ⟨hhalt, hclear⟩ hno⟩, hself⟩
      · exact (hstop.others v fun heq => hv (List.mem_singleton.mpr heq)).trans (hothers v hv)
      · rw [hstop.sems, hsems]
        refine ⟨rfl, rfl, fun hnot => List.filter_eq_self.mpr fun e he => decide_eq_true fun heq => ?_⟩
        exact hnot e he (List.mem_singleton.mpr heq)
      · rw [hlink] at hno
        cases hno
      · obtain rfl := Option.some.inj (hrecord.symm.trans hy)
        exact stopRecord_armedAt ..
    · have hstays : ¬ (x.faultMode = .halt ∧ (!s.latchesClear (s.unaggressed x)) = true) := by
        rwa [Bool.not_eq_true']
      have henter := enterSetup_eq hwin
      have hrecord : ((s.dropAggressors w).enterSetup w).win w =
          some { s.unaggressed x with state := .setup, armedAt := none } := by
        rw [henter, submit_win]
        exact setupWindow_win ..
      rw [if_neg hstays]
      have hself : ((s.dropAggressors w).enterSetup w).notArmed w := fun z hz => by
        obtain rfl := Option.some.inj (hrecord.symm.trans hz)
        nofun
      refine ⟨⟨(enterSetup_turn hwin).afterDrop h hself, fun v hv => ?_, fun k => ?_⟩,
        ⟨fun hno => ?_, fun _ hhalt hclear => absurd ⟨hhalt, hclear⟩ hfault, fun _ _ => hrecord⟩, hself⟩
      · rw [henter, submit_win]
        exact ((Table.rd_put ..).trans (if_neg fun heq => hv (List.mem_singleton.mpr heq))).trans (hothers v hv)
      · have hsem : ((s.dropAggressors w).enterSetup w).sem k = s.sem k := by
          rw [henter, submit_frame]
          exact hsems k
        rw [hsem]
        exact ⟨rfl, rfl, fun _ => rfl⟩
      · rw [hlink] at hno
        cases hno

theorem armedStart_handed (s : State) (w : WinId) : Handed [w] s (s.armedStart w).1 ∧ (s.armedStart w).1.notArmed w := by
  by_cases h : s.notArmed w
  · rw [armedStart_stands h]
    exact ⟨Handed.refl _ s, h⟩
  · unfold State.notArmed at h
    push Not at h
    obtain ⟨x, hx, harmed⟩ := h
    obtain ⟨hhanded, -, hself⟩ := armedStart_started hx harmed
    exact ⟨hhanded, hself⟩

/-- The start of a window depends on the map and the faults alone. -/
theorem started_congr (hmap : u.map = s.map) (hfaults : u.faults = s.faults) (h : Started u w x t) : Started s w x t := by
  have hlinks : ∀ l st, u.linkIs l st = s.linkIs l st := fun l st => by
    unfold State.linkIs State.link
    rw [hmap]
  have hslots : ∀ a, u.aggressorSlot a = s.aggressorSlot a := fun a => by
    unfold State.aggressorSlot State.link
    rw [hmap]
  have hleaving : u.leaving = s.leaving := funext fun a => hlinks a.link _
  have hgens : u.leavingGens x = s.leavingGens x := by
    unfold State.leavingGens
    rw [hleaving]
    simp only [hslots]
  have hrecord : u.unaggressed x = s.unaggressed x := by
    unfold State.unaggressed
    rw [hleaving, hgens]
  have hclear := latchesClear_congr hfaults (s.unaggressed x)
  obtain ⟨hwithdrawn, hfaulted, hsetup⟩ := h
  rw [hlinks, hrecord, hclear] at hfaulted hsetup
  rw [hlinks] at hwithdrawn
  exact ⟨hwithdrawn, hfaulted, hsetup⟩

/-- What a later turn leaves of a started window's record. -/
theorem Started.of_win (h : Started s w x t) (hwin : u.win w = t.win w) : Started s w x u :=
  ⟨fun hl => hwin.trans (h.withdrawn hl), fun hl hh hc => by rw [hwin]; exact h.faulted hl hh hc,
    fun hl hn => hwin.trans (h.setup hl hn)⟩

theorem handOver_cons (s : State) (e : ArmedEntry) (rest : List ArmedEntry) : (s.handOver (e :: rest)).1 =
    ((s.armedStart e.win).1.handOver rest).1 := rfl

/-- A window that is not ARMED is as it was after a hand-over. -/
theorem handOver_stands (es : List ArmedEntry) (h : s.notArmed w) : (s.handOver es).1.win w = s.win w := by
  induction es generalizing s with
  | nil => rfl
  | cons e rest ih =>
    obtain ⟨hone, -⟩ := armedStart_handed s e.win
    rw [handOver_cons, ih (hone.turn.notArmed h)]
    by_cases hwe : w = e.win
    · subst hwe
      rw [armedStart_stands h]
    · exact hone.windows w fun hmem => hwe (List.mem_singleton.mp hmem)

/-- The hand-over of a list of entries. -/
theorem handOver_handed (s : State) (es : List ArmedEntry) : Handed (es.map (fun e => e.win)) s (s.handOver es).1
    ∧ (∀ w ∈ es.map (fun e => e.win), (s.handOver es).1.notArmed w)
    ∧ ∀ w ∈ es.map (fun e => e.win), ∀ x, s.win w = some x → x.state = .armed → Started s w x (s.handOver es).1 := by
  induction es generalizing s with
  | nil => exact ⟨Handed.refl _ s, nofun, nofun⟩
  | cons e rest ih =>
    obtain ⟨hone, hself⟩ := armedStart_handed s e.win
    obtain ⟨hrest, hcalm, hstarted⟩ := ih (s.armedStart e.win).1
    have hwhole : Handed ((e :: rest).map (fun e => e.win)) s ((s.armedStart e.win).1.handOver rest).1 := by
      refine (hone.mono fun v hv => ?_).trans (hrest.mono fun v hv => List.mem_cons_of_mem _ hv)
      obtain rfl := List.mem_singleton.mp hv
      exact List.mem_cons_self
    rw [handOver_cons]
    refine ⟨hwhole, fun w hw => ?_, fun w hw x hx harmed => ?_⟩
    · rcases List.mem_cons.mp hw with rfl | hw
      · exact hrest.turn.notArmed hself
      · exact hcalm w hw
    · by_cases hwe : w = e.win
      · subst hwe
        obtain ⟨-, hfirst, -⟩ := armedStart_started hx harmed
        exact hfirst.of_win (handOver_stands rest hself)
      · have hmem : w ∈ rest.map (fun e => e.win) := (List.mem_cons.mp hw).resolve_left hwe
        have hbefore : (s.armedStart e.win).1.win w = s.win w :=
          hone.windows w fun h => hwe (List.mem_singleton.mp h)
        exact started_congr hone.turn.map hone.turn.faults (hstarted w hmem x (hbefore.trans hx) harmed)

/-! ## Sets -/

theorem modSem_turn (s : State) (k : SemId) (f : Semaphore → Semaphore) (ws : List WinId) : Turn ws s (s.modSem k f) :=
  ⟨rfl, portsGrow_refl s, fun _ => ⟨rfl, rfl, rfl⟩, fun _ => ⟨rfl, rfl⟩, fun _ _ _ => rfl, fun _ _ h _ => h⟩

/-- The semaphore as the start of its armed list leaves it. -/
def Semaphore.listStarted (m : Semaphore) : Semaphore :=
  { m with
    armed := (chooseEntries true m.armed).2
    set := m.set && !(chooseEntries true m.armed).1.any (fun e => decide (e.take = .consume)) }

/-- The entries that a start of the armed list chooses. -/
def State.chosen (s : State) (k : SemId) : List ArmedEntry := (chooseEntries true (s.sem k).armed).1

/-- The hub in which the entries that stay are left in the list. -/
def State.listLeft (s : State) (k : SemId) : State := s.modSem k (fun _ => (s.sem k).listStarted)

theorem startList_eq (s : State) (k : SemId) : s.startList k =
    (((s.listLeft k).handOver (s.chosen k)).1, (s.chosen k).map (fun e => e.win),
      ((s.listLeft k).handOver (s.chosen k)).2) := by
  have hleft : s.listLeft k = s.modSem k (fun x => { x with
      armed := (chooseEntries true (s.sem k).armed).2
      set := x.set && !(chooseEntries true (s.sem k).armed).1.any (fun e => decide (e.take = .consume)) }) := rfl
  rw [hleft]
  rfl

theorem listLeft_sem (s : State) (k : SemId) : (s.listLeft k).sem k = (s.sem k).listStarted :=
  (sem_modSem ..).trans (if_pos rfl)

/-- The windows of sets that arise: ARMED ones alone have changed. -/
theorem startList_turn (s : State) (k : SemId) : Turn [] s (s.startList k).1 := by
  rw [startList_eq]
  obtain ⟨hhanded, -, -⟩ := handOver_handed (s.listLeft k) (s.chosen k)
  have hturn := (modSem_turn s k (fun _ => (s.sem k).listStarted) _).trans hhanded.turn
  exact { hturn with others := fun v _ hnot => handOver_stands (s := s.listLeft k) _ hnot }

theorem takeSet_turn (s : State) (k : SemId) : Turn [] s (s.takeSet k).1 :=
  (modSem_turn s k _ []).trans (startList_turn (s.setFlag k) k)

theorem takeSets_turn (n : Nat) (s : State) (ks : List SemId) : Turn [] s (State.takeSets n s ks) := by
  induction n generalizing s ks with
  | zero => exact Turn.refl _ s
  | succ n ih =>
    cases ks with
    | nil => exact Turn.refl _ s
    | cons k rest => exact (takeSet_turn s k).trans (ih ..)

theorem doSets_turn (s : State) (ks : List SemId) : Turn [] s (s.doSets ks) := takeSets_turn 9 s ks

theorem signal_turn (s : State) (w : WinId) (e : SignalEvent) : Turn [] s (s.signal w e) := by
  unfold State.signal
  split
  · exact doSets_turn ..
  · exact Turn.refl _ s

/-! ## The turn of a window in SETTLE or PAUSED -/

theorem checkedDwell_turn (s : State) (w : WinId) (x : Window) (i : SlotId) : Turn [w] s (s.checkedDwell w x i) :=
  turn_of_engine rfl (fun _ hv => (Table.rd_put ..).trans (if_neg hv)) fun y hy => by
    obtain rfl := Option.some.inj ((checkedDwell_win s w x i).symm.trans hy)
    nofun

theorem Turn.widen (h : Turn [] s t) (ws : List WinId) : Turn ws s t := h.mono nofun

theorem enterDwell_turn (s : State) (w : WinId) : Turn [w] s (s.enterDwell w) := by
  cases h : s.win w with
  | none =>
    have hnone : s.enterDwell w = s := by simp only [State.enterDwell, h]
    rw [hnone]
    exact Turn.refl _ s
  | some x =>
    cases hslot : s.receiveSlot x x.dir with
    | none =>
      have hnone : s.enterDwell w = s := by simp only [State.enterDwell, h, hslot]
      rw [hnone]
      exact Turn.refl _ s
    | some i =>
      by_cases hgoes : s.lnkUp i = true ∨ x.stopOnLockLoss = false
      · rw [enterDwell_goes_on h hslot hgoes]
        split
        · exact checkedDwell_turn ..
        · exact (checkedDwell_turn s w x i).trans ((doSets_turn ..).widen [w])
      · rw [not_or, Bool.not_eq_true, Bool.not_eq_false] at hgoes
        rw [enterDwell_stops h hslot hgoes.1 hgoes.2]
        exact (checkedDwell_turn s w x i).trans (stopWindow_turn ..)

/-- The hub in which a window has entered LEAD, its requests up. -/
def State.leadWindow (s : State) (w : WinId) (x : Window) : State :=
  ((s.driveSlots x).foldl (fun u i => u.setTxen i true) s).setWin w
    (some { x with state := .lead, timerEnd := some (s.now + x.timing.lead) })

theorem enterLead_eq (h : s.win w = some x) : s.enterLead w =
    if x.timing.lead = 0 then (s.leadWindow w x).enterDwell w else s.leadWindow w x := by
  obtain ⟨txen, hfold, -⟩ := foldl_setTxen_up (s.driveSlots x) s
  simp only [State.enterLead, h]
  rw [modWin_eq_setWin (x := x)]
  · rfl
  · rw [hfold]
    exact h

theorem leadWindow_spec (s : State) (w : WinId) (x : Window) : ∃ txen,
    s.leadWindow w x = { s with eng := { s.eng with
        txen := txen, wins := Table.put s.eng.wins w (some { x with
          state := .lead, timerEnd := some (s.now + x.timing.lead) }) } }
      ∧ ∀ i, Table.rd txen i = (decide (i ∈ s.driveSlots x) || Table.rd s.eng.txen i) := by
  obtain ⟨txen, hfold, htxen⟩ := foldl_setTxen_up (s.driveSlots x) s
  refine ⟨txen, ?_, htxen⟩
  unfold State.leadWindow
  rw [hfold]
  rfl

theorem leadWindow_turn (s : State) (w : WinId) (x : Window) : Turn [w] s (s.leadWindow w x) := by
  obtain ⟨txen, hlead, -⟩ := leadWindow_spec s w x
  rw [hlead]
  refine turn_of_engine rfl (fun _ hv => (Table.rd_put ..).trans (if_neg hv)) fun y hy => ?_
  obtain rfl := Option.some.inj (((Table.rd_put ..).trans (if_pos rfl)).symm.trans hy)
  nofun

theorem enterLead_turn (s : State) (w : WinId) : Turn [w] s (s.enterLead w) := by
  cases h : s.win w with
  | none =>
    have hnone : s.enterLead w = s := by simp only [State.enterLead, h]
    rw [hnone]
    exact Turn.refl _ s
  | some x =>
    rw [enterLead_eq h]
    split
    · exact (leadWindow_turn s w x).trans (enterDwell_turn ..)
    · exact leadWindow_turn s w x

theorem tryLead_turn (s : State) (w : WinId) : Turn [w] s (s.tryLead w) := by
  unfold State.tryLead
  split
  · split
    · exact enterLead_turn s w
    · exact Turn.refl _ s
  · exact Turn.refl _ s

/-- The hub in which a window has entered SETTLE. -/
def State.settleWindow (s : State) (w : WinId) (x : Window) : State :=
  s.setWin w (some { x with state := .settle, timerEnd := none })

theorem settleWindow_win (s : State) (w : WinId) (x : Window) :
    (s.settleWindow w x).win w = some { x with state := .settle, timerEnd := none } :=
  (Table.rd_put ..).trans (if_pos rfl)

theorem enterSettle_eq (h : s.win w = some x) : s.enterSettle w = (s.settleWindow w x).tryLead w := by
  unfold State.enterSettle
  rw [modWin_eq_setWin h]
  rfl

theorem enterSettle_turn (s : State) (w : WinId) : Turn [w] s (s.enterSettle w) := by
  cases h : s.win w with
  | none =>
    have hsame : s.modWin w (fun y => { y with state := .settle, timerEnd := none }) = s := by
      have hwins : Table.upd s.eng.wins w (Option.map fun y : Window => { y with state := .settle, timerEnd := none }) =
          s.eng.wins := Table.ext_rd fun v => by
        rw [Table.rd_upd]
        split
        · next hv =>
          subst hv
          have hnone : Table.rd s.eng.wins v = none := h
          rw [hnone]
          rfl
        · rfl
      unfold State.modWin
      rw [hwins]
    unfold State.enterSettle
    rw [hsame]
    exact tryLead_turn s w
  | some x =>
    rw [enterSettle_eq h]
    exact (setWin_turn (by nofun)).trans (tryLead_turn ..)

theorem tryResume_turn (s : State) (w : WinId) : Turn [w] s (s.tryResume w) := by
  unfold State.tryResume
  split
  · split
    · exact enterSettle_turn s w
    · exact Turn.refl _ s
  · exact Turn.refl _ s

end Sys2Proof.Machine

end

