-- ==== Sys2Proof/Proofs/ClearFaults.lean ====
section
/-! SUPPORT. Sys2Proof/Proofs/ClearFaults.lean: the request CLEAR_FAULT, and what the windows that wait on the slot make of
the cleared latch (R89, R134). -/

namespace Sys2Proof.Machine

variable {s t u : State} {w : WinId} {x : Window} {i : SlotId} {p : PortId}

/-! ## The request -/

theorem bodyClearFault_number (p : PortId) (tag : Byte) (s : State) (i : SlotId) :
    bodyClearFault p tag (u8 i.val) s =
      if s.isFitted i && (s.fault i).level then refuse s .faultActive
      else if s.latched i then accept (s.clearLatch i) (enFlag true)
      else accept s (enFlag false) := by
  simp only [bodyClearFault, u8, idxOf_byte (show 16 ≤ 256 by omega)]

/-! ## The turn of one window -/

/-- The turn of a window at the clearing of a slot's latch. -/
def State.clearedTurn (u : State) (i : SlotId) (w : WinId) : State :=
  match u.win w with
  | some x => if x.namesSlot i then (if x.state = .paused then u.tryResume w else u.tryLead w) else u
  | none => u

theorem latchCleared_eq (s : State) (i : SlotId) : s.latchCleared i = allWindows.foldl (fun t w => t.clearedTurn i w) s :=
  rfl

theorem clearedTurn_turn (u : State) (i : SlotId) (w : WinId) : Turn [w] u (u.clearedTurn i w) := by
  unfold State.clearedTurn
  split
  · split
    · split
      · exact tryResume_turn u w
      · exact tryLead_turn u w
    · exact Turn.refl _ u
  · exact Turn.refl _ u

theorem clearedTurn_unnamed (h : ∀ x, u.win w = some x → x.namesSlot i = false) : u.clearedTurn i w = u := by
  unfold State.clearedTurn
  split
  · next x hx => rw [if_neg (by simp [h x hx])]
  · rfl

section Waiting

variable (h : u.win w = some x) (hnames : x.namesSlot i = true)

include h hnames

theorem clearedTurn_paused (hstate : x.state = .paused) : u.clearedTurn i w = u.tryResume w := by
  simp only [State.clearedTurn, h, hnames, hstate, if_true]

theorem clearedTurn_settled (hstate : x.state ≠ .paused) : u.clearedTurn i w = u.tryLead w := by
  simp only [State.clearedTurn, h, hnames, if_true, if_neg hstate]

end Waiting

theorem tryLead_elsewhere (h : u.win w = some x) (hstate : x.state ≠ .settle) : u.tryLead w = u := by
  simp [State.tryLead, h, hstate]

theorem tryResume_resumes (h : u.win w = some x) (hstate : x.state = .paused) (hclear : u.latchesClear x = true) :
    u.tryResume w = (u.settleWindow w x).tryLead w := by
  have hresume : u.tryResume w = u.enterSettle w := by
    simp only [State.tryResume, h]
    exact if_pos ⟨hstate, hclear⟩
  rw [hresume, enterSettle_eq h]

/-- A window that does not wait on the slot. -/
theorem clearedTurn_elsewhere (h : u.win w = some x)
    (hnot : ¬ ((x.state = .paused ∨ x.state = .settle) ∧ x.namesSlot i = true)) : u.clearedTurn i w = u := by
  cases hnames : x.namesSlot i with
  | false =>
    refine clearedTurn_unnamed fun y hy => ?_
    obtain rfl := Option.some.inj (h.symm.trans hy)
    exact hnames
  | true =>
    have hstate : ¬ (x.state = .paused ∨ x.state = .settle) := fun hw => hnot ⟨hw, hnames⟩
    obtain ⟨hpaused, hsettle⟩ := not_or.mp hstate
    rw [clearedTurn_settled h hnames hpaused, tryLead_elsewhere h hsettle]

theorem mayDrive_of_latched (h : u.latchesClear x = false) : u.mayDrive x = false := by
  simp [State.mayDrive, h]

/-- A window with another latch set. -/
theorem clearedTurn_latched (h : u.win w = some x) (hclear : u.latchesClear x = false) : u.clearedTurn i w = u := by
  cases hnames : x.namesSlot i with
  | false => exact clearedTurn_elsewhere h fun hw => by (rw [hnames] at hw; exact Bool.false_ne_true hw.2)
  | true =>
    by_cases hpaused : x.state = .paused
    · rw [clearedTurn_paused h hnames hpaused, tryResume_blocked h hclear]
    · rw [clearedTurn_settled h hnames hpaused, tryLead_waits h (mayDrive_of_latched hclear)]

/-- A window whose dead time has not passed may not drive. -/
theorem mayDrive_of_dead {y : Window} (hfall : ∃ f, y.ownFall = some f ∧ u.now < f + y.timing.dead) :
    u.mayDrive y = false := by
  obtain ⟨f, hf, hlater⟩ := hfall
  refine Bool.eq_false_iff.mpr fun hmay => ?_
  have hpassed := (mayDrive_iff.mp hmay).1 f hf
  omega

/-! ## All windows -/

/-- The record of a window after the turns of all, by its own turn. -/
theorem latchCleared_window (h : s.win w = some x) (hx : x.state ≠ .armed) :
    ∃ u : State, u.win w = some x ∧ u.now = s.now ∧ u.faults = s.faults ∧ (s.latchCleared i).win w = (u.clearedTurn i w).win w := by
  have hfold : ∀ (ls : List WinId) (v : State), ls.Nodup → v.notArmed w →
      (w ∉ ls → (ls.foldl (fun t w => t.clearedTurn i w) v).win w = v.win w)
      ∧ (w ∈ ls → ∃ u : State, u.win w = v.win w ∧ u.now = v.now ∧ u.faults = v.faults
        ∧ (ls.foldl (fun t w => t.clearedTurn i w) v).win w = (u.clearedTurn i w).win w) := by
    intro ls
    induction ls with
    | nil => exact fun v _ _ => ⟨fun _ => rfl, fun hw => (List.not_mem_nil hw).elim⟩
    | cons a ls ih =>
      intro v hls hnot
      obtain ⟨ha, hrest⟩ := List.nodup_cons.mp hls
      have hturn := clearedTurn_turn v i a
      obtain ⟨hout, hin⟩ := ih (v.clearedTurn i a) hrest (hturn.notArmed hnot)
      have hother : w ≠ a → (v.clearedTurn i a).win w = v.win w := fun hwa =>
        hturn.others w (fun hmem => hwa (List.mem_singleton.mp hmem)) hnot
      rw [List.foldl_cons]
      refine ⟨fun hw => ?_, fun hw => ?_⟩
      · obtain ⟨hwa, hwls⟩ := not_or.mp fun h => hw (List.mem_cons.mpr h)
        rw [hout hwls, hother hwa]
      · by_cases hwa : w = a
        · subst hwa
          exact ⟨v, rfl, rfl, rfl, hout ha⟩
        · obtain ⟨u, hwin, hnow, hfaults, hend⟩ := hin ((List.mem_cons.mp hw).resolve_left hwa)
          exact ⟨u, hwin.trans (hother hwa), hnow.trans hturn.now, hfaults.trans hturn.faults, hend⟩
  have hnot : s.notArmed w := fun y hy => by
    obtain rfl := Option.some.inj (h.symm.trans hy)
    exact hx
  obtain ⟨u, hwin, hnow, hfaults, hend⟩ := (hfold allWindows s (List.nodup_finRange 8) hnot).2 (List.mem_finRange w)
  exact ⟨u, hwin.trans h, hnow, hfaults, (congrArg (fun v : State => v.win w) (latchCleared_eq s i)).trans hend⟩

/-- Where no other window names the slot, the turn of the one that does is all that happens. -/
theorem latchCleared_only (h : ∀ v y, v ≠ w → s.win v = some y → y.namesSlot i = false)
    (hafter : ∀ v, v ≠ w → (s.clearedTurn i w).win v = s.win v) : s.latchCleared i = s.clearedTurn i w := by
  have hidle : ∀ u : State, (∀ v, v ≠ w → u.win v = s.win v) → ∀ v, v ≠ w → u.clearedTurn i v = u := fun u hu v hv =>
    clearedTurn_unnamed fun y hy => h v y hv ((hu v hv).symm.trans hy)
  have hrest : ∀ (ls : List WinId) (u : State), (∀ v, v ≠ w → u.win v = s.win v) → w ∉ ls →
      ls.foldl (fun t w => t.clearedTurn i w) u = u := by
    intro ls
    induction ls with
    | nil => exact fun _ _ _ => rfl
    | cons a ls ih =>
      intro u hu hw
      obtain ⟨hwa, hwls⟩ := not_or.mp fun h => hw (List.mem_cons.mpr h)
      rw [List.foldl_cons, hidle u hu a (Ne.symm hwa)]
      exact ih u hu hwls
  have hfold : ∀ ls : List WinId, ls.Nodup → w ∈ ls →
      ls.foldl (fun t w => t.clearedTurn i w) s = s.clearedTurn i w := by
    intro ls
    induction ls with
    | nil => exact fun _ hw => (List.not_mem_nil hw).elim
    | cons a ls ih =>
      intro hls hw
      obtain ⟨ha, hls'⟩ := List.nodup_cons.mp hls
      rw [List.foldl_cons]
      by_cases hwa : w = a
      · subst hwa
        exact hrest ls _ hafter ha
      · rw [hidle s (fun _ _ => rfl) a (Ne.symm hwa)]
        exact ih hls' ((List.mem_cons.mp hw).resolve_left hwa)
  rw [latchCleared_eq]
  exact hfold allWindows (List.nodup_finRange 8) (List.mem_finRange w)

/-! ## The entry into LEAD -/

/-- A waiting window that may drive enters LEAD. -/
theorem clearedTurn_leads (h : u.win w = some x) (hnames : x.namesSlot i = true)
    (hstate : x.state = .paused ∨ x.state = .settle) (hmay : u.mayDrive x = true) (hlead : 0 < x.timing.lead) :
    (u.clearedTurn i w).win w = some { x with state := .lead, timerEnd := some (u.now + x.timing.lead) }
    ∧ (∀ j ∈ u.driveSlots x, Table.rd (u.clearedTurn i w).eng.txen j = true)
    ∧ ∀ v, v ≠ w → (u.clearedTurn i w).win v = u.win v := by
  rcases hstate with hstate | hstate
  · obtain ⟨hdead, hquiet, hclear⟩ := mayDrive_iff.mp hmay
    have hsettled := settleWindow_win u w x
    have hmay' : (u.settleWindow w x).mayDrive { x with state := .settle, timerEnd := none } = true :=
      mayDrive_iff.mpr ⟨hdead, hquiet, hclear⟩
    obtain ⟨txen, henter, htxen⟩ := enterLead_waits hsettled hlead
    rw [clearedTurn_paused h hnames hstate, tryResume_resumes h hstate (latchesClear_iff.mpr hclear),
      tryLead_enters hsettled rfl hmay', henter]
    refine ⟨(Table.rd_put ..).trans (if_pos rfl), fun j hj => ?_, fun v hv => ?_⟩
    · refine (htxen j).trans ?_
      have hmem : j ∈ (u.settleWindow w x).driveSlots { x with state := .settle, timerEnd := none } := hj
      rw [decide_eq_true hmem]
      rfl
    · exact ((Table.rd_put ..).trans (if_neg hv)).trans ((Table.rd_put ..).trans (if_neg hv))
  · obtain ⟨txen, henter, htxen⟩ := enterLead_waits h hlead
    rw [clearedTurn_settled h hnames (by rw [hstate]; nofun), tryLead_enters h hstate hmay, henter]
    refine ⟨(Table.rd_put ..).trans (if_pos rfl), fun j hj => ?_, fun v hv => (Table.rd_put ..).trans (if_neg hv)⟩
    refine (htxen j).trans ?_
    rw [decide_eq_true hj]
    rfl

/-! ## The hub in which the latch is clear -/

/-- The hub with the latch cleared, the Lease Directory having passed. -/
def State.latchOff (s : State) (i : SlotId) : State :=
  (s.modFault i (fun f => { f with latch := false, latchedAt := none })).grantPass

theorem latchOff_fields (s : State) (i : SlotId) : (s.latchOff i).eng = s.eng ∧ (s.latchOff i).now = s.now
    ∧ (s.latchOff i).map = s.map ∧ ∀ j, (s.latchOff i).latched j = (decide (j ≠ i) && s.latched j) := by
  have hpassed := grantPass_passed (s.modFault i (fun f => { f with latch := false, latchedAt := none }))
  refine ⟨(congrArg State.eng hpassed.frame :), (congrArg State.now hpassed.frame :),
    (congrArg State.map hpassed.frame :), fun j => ?_⟩
  refine (hpassed.latched j).trans ?_
  by_cases hj : j = i
  · subst hj
    have hsame := fault_modFault_same (s := s) (i := j) (fun f => { f with latch := false, latchedAt := none })
    rw [State.latched, hsame]
    simp
  · have hother : (s.modFault i (fun f => { f with latch := false, latchedAt := none })).fault j = s.fault j :=
      (fault_modFault ..).trans (if_neg hj)
    rw [State.latched, hother]
    simp [hj, State.latched]

theorem clearLatch_eq (s : State) (i : SlotId) : s.clearLatch i = (s.latchOff i).latchCleared i := rfl

theorem answerOk_eng (s : State) (p : PortId) (tag : Byte) (reply : List Byte) :
    (s.answerOk .clearFault p tag reply).eng = s.eng := rfl

/-- A window with another latch set keeps its record. -/
theorem latchCleared_blocked (h : s.win w = some x) (hx : x.state ≠ .armed)
    (hclear : s.latchesClear x = false) : (s.latchCleared i).win w = some x := by
  obtain ⟨v, hv, -, hfaults, hend⟩ := latchCleared_window (i := i) h hx
  rw [hend, clearedTurn_latched hv ((latchesClear_congr hfaults x).trans hclear), hv]

/-- A window whose dead time has not passed goes no further than SETTLE. -/
theorem latchCleared_dead (h : s.win w = some x) (hnames : x.namesSlot i = true) (hclear : s.latchesClear x = true)
    (hfall : ∃ f, x.ownFall = some f ∧ s.now < f + x.timing.dead) :
    (x.state = .paused → (s.latchCleared i).win w = some { x with state := .settle, timerEnd := none })
    ∧ (x.state = .settle → (s.latchCleared i).win w = some x) := by
  have hself : x.state ≠ .armed → ∃ v : State, v.win w = some x ∧ v.now = s.now ∧ v.faults = s.faults
      ∧ (s.latchCleared i).win w = (v.clearedTurn i w).win w := latchCleared_window h
  refine ⟨fun hstate => ?_, fun hstate => ?_⟩
  · obtain ⟨v, hv, hnow, hfaults, hend⟩ := hself (by rw [hstate]; nofun)
    have hsettled := settleWindow_win v w x
    have hdead : (v.settleWindow w x).mayDrive { x with state := .settle, timerEnd := none } = false :=
      mayDrive_of_dead (by rw [← hnow] at hfall; exact hfall)
    rw [hend, clearedTurn_paused hv hnames hstate,
      tryResume_resumes hv hstate ((latchesClear_congr hfaults x).trans hclear), tryLead_waits hsettled hdead, hsettled]
  · obtain ⟨v, hv, hnow, -, hend⟩ := hself (by rw [hstate]; nofun)
    have hdead : v.mayDrive x = false := mayDrive_of_dead (by rw [hnow]; exact hfall)
    rw [hend, clearedTurn_settled hv hnames (by rw [hstate]; nofun), tryLead_waits hv hdead, hv]

end Sys2Proof.Machine

open Sys2Proof Sys2Proof.Machine

/-- Settles O54. -/
theorem clearFaultClearsTheLatch : Obligations.ClearFaultClearsTheLatch := by
  unfold Obligations.ClearFaultClearsTheLatch
  intro s p i tag filler cut hadm
  have hbody := bodyClearFault_number p tag (s.working .clearFault p tag) i
  refine ⟨fun hfit hlevel => ?_, fun hquiet => ⟨fun hlatch => ?_, fun hclear => ?_⟩⟩
  · exact exec_refused hadm (hbody.trans (if_pos (by simp [hfit, hlevel])))
  · have hlow : ¬ ((s.working .clearFault p tag).isFitted i && ((s.working .clearFault p tag).fault i).level) = true := by
      rcases hquiet with h | h <;> simp [h]
    have hexec : exec (.clearFault p (frameRest .clearFault tag (u8 i.val) filler) cut) s =
        .next (((s.working .clearFault p tag).clearLatch i).answerOk .clearFault p tag (enFlag true)) :=
      exec_accepted hadm (hbody.trans ((if_neg hlow).trans (if_pos hlatch)))
    have hend : (((s.working .clearFault p tag).clearLatch i).answerOk .clearFault p tag (enFlag true)).eng =
        (((s.working .clearFault p tag).latchOff i).latchCleared i).eng := by rw [answerOk_eng, clearLatch_eq]
    refine ⟨hexec, _, hexec, fun w x hwin => ?_⟩
    generalize ((s.working .clearFault p tag).clearLatch i).answerOk .clearFault p tag (enFlag true) = t at hend
    clear hexec hlow hbody
    obtain ⟨heng, hnow, hmap, hlatched⟩ := latchOff_fields (s.working .clearFault p tag) i
    generalize (s.working .clearFault p tag).latchOff i = u at *
    have hwin' : ∀ v, u.win v = s.win v := fun v => congrArg (fun e : WindowEngine => Table.rd e.wins v) heng
    have htwin : t.win w = (u.latchCleared i).win w := congrArg (fun e : WindowEngine => Table.rd e.wins w) hend
    rw [htwin, hend]
    have hw : u.win w = some x := (hwin' w).trans hwin
    have hclear : u.latchesClear x = true ↔ ∀ r ∈ x.named, resSlot r ≠ i → s.latched (resSlot r) = false := by
      rw [latchesClear_iff]
      refine forall₂_congr fun r _ => ?_
      rw [hlatched]
      simp only [Bool.and_eq_false_iff, decide_eq_false_iff_not, ne_eq]
      exact ⟨fun h hne => h.resolve_left (fun h' => h' hne), fun h => (Decidable.em _).symm.imp id h⟩
    intro waiting othersClear
    have hstands : waiting → x.state ≠ .armed := fun hwait harmed => by
      rcases hwait.1 with h | h <;> exact nomatch h.symm.trans harmed
    refine ⟨fun hnot harmed => ?_, fun hwait hnot => ?_, fun hwait hothers hdead => ?_,
      fun hwait hothers honly hpassed hquiet hlead => ?_⟩
    · obtain ⟨v, hv, -, -, hend⟩ := latchCleared_window (i := i) hw harmed
      rw [hend, clearedTurn_elsewhere hv hnot, hv]
    · exact latchCleared_blocked hw (hstands hwait) (Bool.eq_false_iff.mpr fun h => hnot (hclear.mp h))
    · exact latchCleared_dead hw hwait.2 (hclear.mpr hothers) (by rw [hnow]; exact hdead)
    · have hmay : u.mayDrive x = true := by
        rw [mayDrive_iff, driveSlots_of_map hmap, hnow, heng, ← latchesClear_iff, hclear]
        refine ⟨hpassed, fun j hj f hf => ?_, hothers⟩
        have hentry : u.slotEntry j = s.slotEntry j := by (unfold State.slotEntry; rw [hmap]; rfl)
        rw [hentry]
        exact hquiet j hj f hf
      obtain ⟨hlead', htxen, hothers'⟩ := clearedTurn_leads hw hwait.2 hwait.1 hmay hlead
      rw [latchCleared_only (fun v y hv hy => honly v y hv ((hwin' v).symm.trans hy)) hothers']
      refine ⟨by rw [hlead', hnow]; rfl, fun j hj => htxen j ?_⟩
      rw [driveSlots_of_map hmap]
      exact hj
  · have hlow : ¬ ((s.working .clearFault p tag).isFitted i && ((s.working .clearFault p tag).fault i).level) = true := by
      rcases hquiet with h | h <;> simp [h]
    exact exec_accepted hadm (hbody.trans ((if_neg hlow).trans (if_neg (by simp [hclear]))))

end

