-- ==== Sys2Proof/Proofs/Closing.lean ====
section
/-! SUPPORT. Sys2Proof/Proofs/Closing.lean: withdrawals that complete one after the other (R166 to R168) and the end of a run:
the closing conditions and the entry to CLOSED (R27, R28). -/

namespace Sys2Proof.Machine

variable {s t u : State} {l : LinkId}

/-! ## Several withdrawals -/

/-- What the completion of some withdrawals makes of the hub. -/
structure Cleared (s t : State) : Prop where
  frame : t = { s with map := t.map, table := t.table, wd := t.wd, ports := t.ports,
                       run := { s.run with complete := t.run.complete } }
  ports : t.portsGrow s
  list : ∀ e ∈ t.wd.list, e ∈ s.wd.list
  slots : ∀ q, s.syncSlot q = .none → t.syncSlot q = .none
  withdrawn : ∀ l, s.linkIs l .withdrawn = true → t.linkIs l .withdrawn = true
  there : ∀ l, (s.link l).isSome = true → (t.link l).isSome = true

namespace Cleared

theorem refl (s : State) : Cleared s s :=
  ⟨rfl, portsGrow_refl s, fun _ => id, fun _ => id, fun _ => id, fun _ => id⟩

theorem trans (h : Cleared s t) (h' : Cleared t u) : Cleared s u where
  frame := by
    rw [h'.frame, h.frame]
  ports := h.ports.trans h'.ports
  list e he := h.list e (h'.list e he)
  slots q hq := h'.slots q (h.slots q hq)
  withdrawn l hl := h'.withdrawn l (h.withdrawn l hl)
  there l hl := h'.there l (h.there l hl)

end Cleared

theorem Completed.link_withdrawn (h : Completed s l t) (hl : (s.link l).isSome = true) : t.linkIs l .withdrawn = true := by
  obtain ⟨k, hk⟩ := Option.isSome_iff_exists.mp hl
  exact linkIs_iff.mpr ⟨_, h.withdrew.1 k hk, rfl⟩

theorem Completed.list (h : Completed s l t) : t.wd.list = s.wd.list.filter (fun e => decide (e.link ≠ l)) :=
  h.withdrew.2.2.1

theorem Completed.cleared (h : Completed s l t) : Cleared s t where
  frame := h.frame
  ports := h.ports
  list e he := by
    rw [h.list] at he
    exact List.mem_of_mem_filter he
  slots q hq := by
    obtain ⟨-, -, -, -, -, hslots⟩ := h.withdrew
    rw [(hslots q).2 (fun _ _ hw => by rw [hq] at hw; cases hw), hq]
  withdrawn m hm := by
    by_cases hml : m = l
    · subst hml
      exact h.link_withdrawn (isSome_of_linkIs hm)
    · obtain ⟨k, hk, hstate⟩ := linkIs_iff.mp hm
      exact linkIs_iff.mpr ⟨k, (h.withdrew.2.1 m hml).trans hk, hstate⟩
  there m hm := by
    by_cases hml : m = l
    · subst hml
      exact isSome_of_linkIs (h.link_withdrawn hm)
    · rw [h.withdrew.2.1 m hml]
      exact hm

theorem completed_of_either (s : State) (evaluate : Bool) (l : LinkId) : Completed s l (s.completeWithdraw evaluate l) := by
  cases evaluate with
  | true => exact (completeWithdraw_spec s l).1
  | false => exact (completeWithdraw_unevaluated_spec s l).1

/-- The withdrawals of the entries of a list that pass a test complete in turn. -/
def State.completeSome (s : State) (evaluate : Bool) (test : WithdrawEntry → Bool) (es : List WithdrawEntry) : State :=
  es.foldl (fun u e => if test e = true then u.completeWithdraw evaluate e.link else u) s

theorem completeSome_spec (s : State) (evaluate : Bool) (test : WithdrawEntry → Bool) (es : List WithdrawEntry) :
    Cleared s (s.completeSome evaluate test es)
    ∧ ∀ e ∈ es, test e = true → e ∉ (s.completeSome evaluate test es).wd.list
      ∧ ((s.link e.link).isSome = true → (s.completeSome evaluate test es).linkIs e.link .withdrawn = true) := by
  induction es generalizing s with
  | nil => exact ⟨Cleared.refl s, nofun⟩
  | cons a es ih =>
    have hstep : (s.completeSome evaluate test (a :: es)) =
        (if test a = true then s.completeWithdraw evaluate a.link else s).completeSome evaluate test es := List.foldl_cons ..
    rw [hstep]
    have hone : Cleared s (if test a = true then s.completeWithdraw evaluate a.link else s) := by
      split
      · exact (completed_of_either s evaluate a.link).cleared
      · exact Cleared.refl s
    obtain ⟨hrest, hdone⟩ := ih (if test a = true then s.completeWithdraw evaluate a.link else s)
    refine ⟨hone.trans hrest, fun e he htest => ?_⟩
    rcases List.mem_cons.mp he with rfl | he
    · have hcompleted := completed_of_either s evaluate e.link
      rw [if_pos htest] at hrest ⊢
      refine ⟨fun hmem => ?_, fun hl => hrest.withdrawn _ (hcompleted.link_withdrawn hl)⟩
      have hin := hrest.list e hmem
      rw [hcompleted.list] at hin
      simp at hin
    · obtain ⟨hgone, hlink⟩ := hdone e he htest
      exact ⟨hgone, fun hl => hlink (hone.there _ hl)⟩

/-- Some ports have left the interest sets. -/
def State.keepInterest (s : State) (keep : PortSet → PortSet) : State :=
  s.setWithdrawList (s.wd.list.map (fun e => { e with interest := keep e.interest }))

theorem removeInterest_eq (s : State) (keep : PortSet → PortSet) : s.removeInterest keep =
    (s.keepInterest keep).completeSome true (fun e => decide (e.interest = 0)) (s.keepInterest keep).wd.list := by
  unfold State.removeInterest State.completeSome
  simp only [decide_eq_true_eq]
  rfl

/-- What the removal of ports from the interest sets makes of the hub (R166 to R168). -/
theorem removeInterest_spec (s : State) (keep : PortSet → PortSet) :
    s.removeInterest keep = { s with
      map := (s.removeInterest keep).map, table := (s.removeInterest keep).table, wd := (s.removeInterest keep).wd,
      ports := (s.removeInterest keep).ports,
      run := { s.run with complete := (s.removeInterest keep).run.complete } }
    ∧ (s.removeInterest keep).portsGrow s
    ∧ (∀ q, s.syncSlot q = .none → (s.removeInterest keep).syncSlot q = .none)
    ∧ ∀ e ∈ (s.removeInterest keep).wd.list, (∃ x ∈ s.wd.list, e.interest = keep x.interest) ∧ e.interest ≠ 0 := by
  rw [removeInterest_eq]
  obtain ⟨hcleared, hgone⟩ := completeSome_spec (s.keepInterest keep) true (fun e => decide (e.interest = 0))
    (s.keepInterest keep).wd.list
  refine ⟨hcleared.frame, (portsGrow_of_ports rfl).trans hcleared.ports, fun q hq => hcleared.slots q hq, fun e he => ?_⟩
  have hmem := hcleared.list e he
  refine ⟨?_, fun hzero => (hgone e hmem (decide_eq_true hzero)).1 he⟩
  obtain ⟨x, hx, rfl⟩ := List.mem_map.mp hmem
  exact ⟨x, hx, rfl⟩

/-! ## The entry to CLOSED (R28) -/

theorem evalCoverage_frame (s : State) : s.evalCoverage = { s with
    run := { s.run with complete := s.evalCoverage.run.complete }, ports := s.evalCoverage.ports } := by
  have h := evalCoverage_eq s
  rw [h]

/-- What the entry to CLOSED makes of the hub. -/
structure EnteredClosed (s t : State) : Prop where
  frame : t = { s with map := t.map, table := t.table, wd := t.wd, ports := t.ports, run := t.run }
  run : t.run = { s.run with state := .closed, time := .stopped s.runTimeMs, complete := t.run.complete }
  ports : t.portsGrow s
  list : t.wd.list = []
  withdrawn : ∀ e ∈ s.wd.list, (s.link e.link).isSome = true → t.linkIs e.link .withdrawn = true
  evaluated : t.completeEvaluated
  noticed : ∀ q, t.noticed q .runState = true
  slots : ∀ q, s.syncSlot q = .none → t.syncSlot q = .none

/-- The hub as the run state has changed, the withdrawals still pending. -/
def State.stopRun (s : State) : State := (s.setRun { s.run with time := .stopped s.runTimeMs }).enterRunState .closed

theorem enterClosed_eq (s : State) :
    s.enterClosed = (s.stopRun.completeSome false (fun _ => true) s.stopRun.wd.list).evalCoverage := by
  unfold State.enterClosed State.completeSome
  simp only [if_true]
  rfl

theorem stopRun_eq (s : State) : s.stopRun =
    { s with ports := s.stopRun.ports, run := { s.run with state := .closed, time := .stopped s.runTimeMs } } := by
  unfold State.stopRun State.enterRunState
  rw [raiseAll_eq]
  rfl

theorem stopRun_noticed (s : State) (q : PortId) : s.stopRun.noticed q .runState = true :=
  (noticed_raiseAll ..).trans (by simp)

theorem enterClosed_entered (s : State) : EnteredClosed s s.enterClosed := by
  rw [enterClosed_eq]
  have hstop := stopRun_eq s
  have hports : s.stopRun.portsGrow s := raiseAll_portsGrow _ _
  have hnoticed := stopRun_noticed s
  obtain ⟨hcleared, hgone⟩ := completeSome_spec s.stopRun false (fun _ => true) s.stopRun.wd.list
  have hlist : s.stopRun.wd.list = s.wd.list := (congrArg (fun v : State => v.wd.list) hstop :)
  have hslots : s.stopRun.wd.sync = s.wd.sync := (congrArg (fun v : State => v.wd.sync) hstop :)
  have hlink : ∀ l, s.stopRun.link l = s.link l := link_of_map (congrArg State.map hstop :)
  generalize s.stopRun = v at *
  generalize v.completeSome false (fun _ => true) v.wd.list = u at *
  have heval := evalCoverage_frame u
  have hgrow := evalCoverage_portsGrow u
  refine ⟨?_, ?_, (hports.trans hcleared.ports).trans hgrow, ?_, fun e he hl => ?_, evalCoverage_evaluated u,
    fun q => hgrow.noticed (hcleared.ports.noticed (hnoticed q)), fun q hq => ?_⟩
  · rw [heval, hcleared.frame, hstop]
  · rw [heval, hcleared.frame, hstop]
  · have hwd : u.evalCoverage.wd = u.wd := (congrArg State.wd heval :)
    rw [hwd]
    exact List.eq_nil_iff_forall_not_mem.mpr fun e he => (hgone e (hcleared.list e he) rfl).1 he
  · have hmap : u.evalCoverage.map = u.map := (congrArg State.map heval :)
    unfold State.linkIs
    rw [link_of_map hmap]
    exact (hgone e (hlist ▸ he) rfl).2 ((hlink _).symm ▸ hl)
  · have hwd : u.evalCoverage.wd = u.wd := (congrArg State.wd heval :)
    unfold State.syncSlot
    rw [hwd]
    exact hcleared.slots q ((congrArg (fun x => Table.rd x q) hslots).trans hq)

/-! ## The closing conditions (R27) -/

theorem atRest_iff : s.atRest = true ↔ (∀ w x, s.win w = some x → x.state.phase = false)
    ∧ (∀ r, (s.res r).lease.holder = none) ∧ s.post.ordinary = [] ∧ s.post.recallBuf = none ∧ s.post.commit = none := by
  simp only [State.atRest, Bool.and_eq_true, List.all_eq_true, Option.isNone_iff_eq_none, List.isEmpty_iff, and_assoc]
  refine and_congr ⟨fun h w x hx => ?_, fun h w _ => ?_⟩
    (and_congr_left fun _ => ⟨fun h r => h r (List.mem_finRange r), fun h r _ => h r⟩)
  · have hw := h w (List.mem_finRange w)
    rw [hx] at hw
    exact (Bool.not_eq_true' _).mp hw
  · cases hx : s.win w with
    | none => rfl
    | some x => exact congrArg (fun b => !b) (h w x hx)

theorem checkClosing_stays (h : s.run.state = .closing → s.atRest = false) : s.checkClosing = s :=
  if_neg fun hc => by simp [h hc.1] at hc

theorem checkClosing_closes (hstate : s.run.state = .closing) (hrest : s.atRest = true) :
    EnteredClosed s s.checkClosing := by
  have hclose : s.checkClosing = s.enterClosed := if_pos ⟨hstate, hrest⟩
  rw [hclose]
  exact enterClosed_entered s

/-- What the check of the closing conditions leaves alone. -/
theorem checkClosing_frame (s : State) : s.checkClosing = { s with
    map := s.checkClosing.map, table := s.checkClosing.table, wd := s.checkClosing.wd, ports := s.checkClosing.ports,
    run := s.checkClosing.run }
    ∧ s.checkClosing.portsGrow s ∧ (∀ e ∈ s.checkClosing.wd.list, e ∈ s.wd.list)
    ∧ (∀ q, s.syncSlot q = .none → s.checkClosing.syncSlot q = .none) := by
  by_cases hc : s.run.state = .closing ∧ s.atRest = true
  · have h := checkClosing_closes hc.1 hc.2
    exact ⟨h.frame, h.ports, fun e he => by (rw [h.list] at he; cases he), h.slots⟩
  · rw [checkClosing_stays fun h => Bool.eq_false_iff.mpr fun h' => hc ⟨h, h'⟩]
    exact ⟨rfl, portsGrow_refl s, fun _ => id, fun _ => id⟩

end Sys2Proof.Machine

end

