-- ==== Sys2Proof/Proofs/RunEnds.lean ====
section
/-! SUPPORT. Sys2Proof/Proofs/RunEnds.lean: RUN_CLOSE and RUN_ABORT (R24, R25): the windows that they stop, the Lease Wait List
emptied, watches revoked and resources freed (R60, R61). -/

namespace Sys2Proof.Machine

variable {s t u : State} {c : EndCause} {test : Window → Bool}

/-! ## Windows stopped -/

/-- The turn of one window where the windows that satisfy a test are stopped. -/
def State.stopIf (c : EndCause) (test : Window → Bool) (u : State) (w : WinId) : State :=
  match u.win w with
  | some x => if test x then u.stopWindow w c else u
  | none => u

theorem stopWindows_eq (s : State) (c : EndCause) (test : Window → Bool) :
    s.stopWindows c test = allWindows.foldl (State.stopIf c test) s := rfl

section Turns

variable {w : WinId} {x : Window} (h : u.win w = some x)

include h

theorem stopIf_stops (htest : test x = true) : u.stopIf c test w = u.stopWindow w c := by
  simp only [State.stopIf, h, htest, if_true]

theorem stopIf_passes (htest : test x = false) : u.stopIf c test w = u := by
  simp only [State.stopIf, h, htest, Bool.false_eq_true, if_false]

end Turns

theorem stopIf_falls (u : State) (w : WinId) : Falls u (u.stopIf c test w)
    ∧ ∀ v, v ≠ w → (u.stopIf c test w).win v = u.win v := by
  cases h : u.win w with
  | none =>
    have hstay : u.stopIf c test w = u := by simp only [State.stopIf, h]
    rw [hstay]
    exact ⟨Falls.refl u, fun _ _ => rfl⟩
  | some x =>
    cases htest : test x with
    | true =>
      rw [stopIf_stops h htest]
      exact stopWindow_falls u w c
    | false =>
      rw [stopIf_passes h htest]
      exact ⟨Falls.refl u, fun _ _ => rfl⟩

/-- The windows that satisfy the test are STOPPED, the others stand. -/
theorem stopWindows_spec (s : State) (htest : ∀ x, test x = true → x.state.active = true) :
    Falls s (s.stopWindows c test)
    ∧ (∀ w, s.win w = none → (s.stopWindows c test).win w = none)
    ∧ ∀ w x, s.win w = some x →
      (test x = true → ∃ y, (s.stopWindows c test).win w = some y ∧ y.state = .stopped ∧ y.endCause = some c)
      ∧ (test x = false → (s.stopWindows c test).win w = some x) := by
  obtain ⟨hfalls, -, hturn⟩ := foldl_windows_falls (f := State.stopIf c test) allWindows (List.nodup_finRange 8) s
    (fun u _ w => stopIf_falls u w)
  rw [stopWindows_eq]
  refine ⟨hfalls, fun w hw => ?_, fun w x hx => ?_⟩
  · obtain ⟨u, -, hsame, -, hend⟩ := hturn w (List.mem_finRange w)
    have hnone := hsame.trans hw
    have hstay : u.stopIf c test w = u := by simp only [State.stopIf, hnone]
    rw [hend, hstay, hnone]
  · obtain ⟨u, -, hsame, -, hend⟩ := hturn w (List.mem_finRange w)
    have hu := hsame.trans hx
    rw [hend]
    refine ⟨fun ht => ?_, fun ht => ?_⟩
    · rw [stopIf_stops hu ht]
      obtain ⟨y, hy, hstate, hcause, -⟩ := (stopWindow_spec c hu (htest x ht)).window
      exact ⟨y, hy, hstate, hcause⟩
    · rw [stopIf_passes hu ht, hu]

/-! ## The Lease Wait List emptied -/

/-- The hub with WAIT_CANCELLED raised for the ports of a list that have an entry waiting. -/
def State.tellWaiting (s : State) (es : List WaitEntry) (ps : List PortId) : State :=
  ps.foldl (fun t p => if es.any (fun e => decide (e.port = p)) then t.raise p .waitCancelled else t) s

theorem tellWaiting_spec (es : List WaitEntry) (ps : List PortId) (s : State) :
    s.tellWaiting es ps = { s with ports := (s.tellWaiting es ps).ports } ∧ (s.tellWaiting es ps).portsGrow s
    ∧ ∀ e ∈ es, e.port ∈ ps → (s.tellWaiting es ps).noticed e.port .waitCancelled = true := by
  induction ps generalizing s with
  | nil => exact ⟨rfl, portsGrow_refl s, fun _ _ h => (List.not_mem_nil h).elim⟩
  | cons p ps ih =>
    obtain ⟨hframe, hports, htold⟩ := ih (if es.any (fun e => decide (e.port = p)) then s.raise p .waitCancelled else s)
    have hstep : s.tellWaiting es (p :: ps) =
        (if es.any (fun e => decide (e.port = p)) then s.raise p .waitCancelled else s).tellWaiting es ps :=
      List.foldl_cons ..
    have hone : (if es.any (fun e => decide (e.port = p)) then s.raise p .waitCancelled else s).portsGrow s := by
      split
      · exact raise_portsGrow s p _
      · exact portsGrow_refl s
    rw [hstep]
    refine ⟨?_, hone.trans hports, fun e he hp => ?_⟩
    · refine hframe.trans ?_
      split <;> rfl
    · rcases List.mem_cons.mp hp with rfl | hp
      · refine hports.noticed ?_
        rw [if_pos (List.any_eq_true.mpr ⟨e, he, decide_eq_true rfl⟩), noticed_raise]
        simp
      · exact htold e he hp

/-- What the emptying of the Lease Wait List makes of the hub (R60, R61). -/
theorem cancelWaits_spec (s : State) :
    s.cancelWaits = { s with dir := { s.dir with waits := [] }, ports := s.cancelWaits.ports }
    ∧ s.cancelWaits.portsGrow s ∧ ∀ e ∈ s.dir.waits, s.cancelWaits.noticed e.port .waitCancelled = true := by
  obtain ⟨hframe, hports, htold⟩ := tellWaiting_spec s.dir.waits allPorts s
  have heq : s.cancelWaits = (s.tellWaiting s.dir.waits allPorts).setWaits [] := rfl
  rw [heq]
  refine ⟨?_, hports, fun e he => htold e he (List.mem_finRange _)⟩
  generalize s.tellWaiting s.dir.waits allPorts = v at hframe
  rw [hframe]
  rfl

/-! ## Resources freed one after the other -/

/-- A resource that is no longer WATCHED. -/
def Resource.revoked (x : Resource) : Resource :=
  match x.lease with
  | .watched _ => { x with lease := .free }
  | .free => x
  | .held _ _ => x
  | .heldUnposted _ _ _ => x

/-- From `s` to `t` the resources of a list have changed as `g` says; the ports with a lease that `told` picks have
LEASE_LOST. -/
structure Changed (g : Resource → Resource) (told : Resource → PortId → Prop) (rs : List ResId) (s t : State) : Prop where
  frame : t = { s with
    run := { s.run with counters := { s.run.counters with resultsDiscarded := t.run.counters.resultsDiscarded } }
    dir := { s.dir with res := t.dir.res, expired := t.dir.expired }
    ports := t.ports }
  ports : t.portsGrow s
  res : ∀ r, t.res r = if r ∈ rs then g (s.res r) else s.res r
  told : ∀ r ∈ rs, ∀ q, told (s.res r) q → t.noticed q .leaseLost = true
  expired : ∀ r ∈ t.dir.expired, r ∈ s.dir.expired

theorem foldl_changed {g : Resource → Resource} {told : Resource → PortId → Prop} {f : State → ResId → State}
    (hf : ∀ u r, Changed g told [r] u (f u r)) (rs : List ResId) (hrs : rs.Nodup) (s : State) :
    Changed g told rs s (rs.foldl f s) := by
  induction rs generalizing s with
  | nil => exact ⟨rfl, portsGrow_refl s, fun _ => rfl, nofun, fun _ => id⟩
  | cons a rs ih =>
    obtain ⟨ha, hrest⟩ := List.nodup_cons.mp hrs
    have hone := hf s a
    have hmany := ih hrest (f s a)
    have hother : ∀ r, r ≠ a → (f s a).res r = s.res r := fun r hr =>
      (hone.res r).trans (if_neg fun h => hr (List.mem_singleton.mp h))
    rw [List.foldl_cons]
    refine ⟨?_, hone.ports.trans hmany.ports, fun r => ?_, fun r hr q hq => ?_, fun r hr => hone.expired r (hmany.expired r hr)⟩
    · rw [hmany.frame, hone.frame]
    · rw [hmany.res]
      by_cases hra : r = a
      · subst hra
        rw [if_neg ha, if_pos List.mem_cons_self, hone.res, if_pos List.mem_cons_self]
      · simp only [hother r hra, List.mem_cons, hra, false_or]
    · rcases List.mem_cons.mp hr with rfl | hr
      · exact hmany.ports.noticed (hone.told r List.mem_cons_self q hq)
      · have hra : r ≠ a := fun h => ha (h ▸ hr)
        exact hmany.told r hr q ((hother r hra).symm ▸ hq)

/-- A port watches the resource. -/
def Resource.watchedBy (x : Resource) (q : PortId) : Prop := PortSet.has x.lease.watchers q = true

/-- A port holds or watches the resource. -/
def Resource.leasedBy (x : Resource) (q : PortId) : Prop :=
  x.lease.holder = some q ∨ PortSet.has x.lease.watchers q = true

/-- The part of one resource in the revoking of watches. -/
def State.revokeWatch (t : State) (r : ResId) : State :=
  match (t.res r).lease with
  | .watched ws => (t.setLease r .free).raiseOn ws .leaseLost
  | .free => t
  | .held _ _ => t
  | .heldUnposted _ _ _ => t

theorem has_nobody (q : PortId) : PortSet.has 0 q = false := by
  simp [PortSet.has]

theorem revokeWatch_stands (hlease : (u.res r).revoked = u.res r) (hnone : (u.res r).lease.watchers = 0) :
    Changed Resource.revoked Resource.watchedBy [r] u u := by
  refine ⟨rfl, portsGrow_refl u, fun q => ?_, fun q hq p hp => ?_, fun _ => id⟩
  · split
    · next hq => rw [List.mem_singleton.mp hq, hlease]
    · rfl
  · rw [List.mem_singleton.mp hq, Resource.watchedBy, hnone, has_nobody] at hp
    cases hp

theorem revokeWatch_changed (u : State) (r : ResId) : Changed Resource.revoked Resource.watchedBy [r] u (u.revokeWatch r) := by
  unfold State.revokeWatch
  split
  · next ws hlease =>
    have hraise := raiseOn_eq (u.setLease r .free) ws .leaseLost
    refine ⟨?_, (portsGrow_of_ports (t := u.setLease r .free) rfl).trans (raiseOn_portsGrow _ _ _), fun q => ?_, fun q hq p hp => ?_, ?_⟩
    · rw [hraise]
      rfl
    · have hres : ((u.setLease r .free).raiseOn ws .leaseLost).res q = (u.setLease r .free).res q :=
        (congrArg (fun v : State => v.res q) hraise :)
      rw [hres]
      refine (res_modRes ..).trans ?_
      by_cases hq : q = r
      · subst hq
        simp only [if_true, List.mem_singleton, Resource.revoked, hlease]
      · rw [if_neg hq, if_neg fun h => hq (List.mem_singleton.mp h)]
    · rw [List.mem_singleton.mp hq, Resource.watchedBy, hlease] at hp
      rw [noticed_raiseOn, show PortSet.has ws p = true from hp]
      simp
    · intro q hq
      rw [hraise] at hq
      exact hq
  · next hlease => exact revokeWatch_stands (by simp only [Resource.revoked, hlease]) (by rw [hlease]; rfl)
  · next hlease => exact revokeWatch_stands (by simp only [Resource.revoked, hlease]) (by rw [hlease]; rfl)
  · next hlease => exact revokeWatch_stands (by simp only [Resource.revoked, hlease]) (by rw [hlease]; rfl)

theorem revokeWatches_changed (s : State) :
    Changed Resource.revoked Resource.watchedBy allResources s s.revokeWatches :=
  foldl_changed revokeWatch_changed allResources (List.nodup_finRange 32) s

theorem revoked_lease (x : Resource) : x.revoked.lease.watchers = 0 ∧ x.revoked.lease.holder = x.lease.holder
    ∧ x.revoked.lease.since = x.lease.since := by
  unfold Resource.revoked
  split <;> simp_all [Lease.watchers, Lease.holder, Lease.since]

/-! ## Resources freed at an abort (R61) -/

/-- A resource that is FREE, with no recall. -/
def Resource.freed (x : Resource) : Resource := { x with lease := .free, recallState := .none, crossed := false }

/-- From `s` to `t` ports have been told and a lost result counted. -/
def Told (s t : State) : Prop :=
  t = { s with
    run := { s.run with counters := { s.run.counters with resultsDiscarded := t.run.counters.resultsDiscarded } }
    ports := t.ports } ∧ t.portsGrow s

theorem Told.trans (h : Told s t) (h' : Told t u) : Told s u :=
  ⟨by rw [h'.1, h.1], h.2.trans h'.2⟩

theorem told_refl (s : State) : Told s s := ⟨rfl, portsGrow_refl s⟩

theorem told_raise (s : State) (p : PortId) (k : Notice) : Told s (s.raise p k) := ⟨rfl, raise_portsGrow s p k⟩

theorem told_raiseOn (s : State) (ps : PortSet) (k : Notice) : Told s (s.raiseOn ps k) :=
  ⟨by rw [raiseOn_eq], raiseOn_portsGrow s ps k⟩

theorem told_count (s : State) (f : RunCounters → Nat) :
    Told s (s.count (fun c => { c with resultsDiscarded := f c })) := ⟨rfl, portsGrow_of_ports rfl⟩

/-- The hub with LEASE_LOST on those that hold or watch a resource, its holding counted as discarded. -/
theorem abortRes_eq (u : State) (r : ResId) : ∃ v, u.abortRes r = v.freeRes r ∧ Told u v
    ∧ ∀ q, (u.res r).leasedBy q → v.noticed q .leaseLost = true := by
  unfold State.abortRes
  refine ⟨_, rfl, ?_, fun q hq => ?_⟩
  · have hcounted : ∀ holding : Option Accumulator, Told u (match holding with
        | some _ => u.count (fun c => { c with resultsDiscarded := satAdd max16 c.resultsDiscarded 1 })
        | none => u) := fun holding => by
      cases holding with
      | none => exact told_refl u
      | some a => exact told_count u _
    split
    · exact ((hcounted _).trans (told_raiseOn _ _ _)).trans (told_raise _ _ _)
    · exact (hcounted _).trans (told_raiseOn _ _ _)
  · rcases hq with hq | hq
    · simp only [hq, noticed_raise, decide_true, Bool.and_self, Bool.or_true]
    · split
      · rw [noticed_raise, noticed_raiseOn, hq]
        simp
      · rw [noticed_raiseOn, hq]
        simp

theorem abortRes_changed (u : State) (r : ResId) : Changed Resource.freed Resource.leasedBy [r] u (u.abortRes r)
    ∧ r ∉ (u.abortRes r).dir.expired := by
  obtain ⟨v, heq, ⟨hframe, hports⟩, hnotices⟩ := abortRes_eq u r
  rw [heq]
  refine ⟨⟨?_, hports, fun q => ?_, fun q hq p hp => ?_, fun e he => ?_⟩, fun hr => ?_⟩
  · rw [hframe]
    rfl
  · have hres : ∀ x, v.res x = u.res x := fun x => by
      rw [hframe]
      rfl
    refine (res_modRes ..).trans ?_
    simp only [hres, List.mem_singleton]
    split
    · next hq => rw [hq, Resource.freed]
    · rfl
  · rw [List.mem_singleton.mp hq] at hp
    exact hnotices p hp
  · rw [hframe] at he
    exact List.mem_of_mem_filter he
  · simp [State.freeRes, State.setExpired, State.modRes] at hr

theorem foldl_abortRes_expired (rs : List ResId) (s : State) : ∀ e ∈ (rs.foldl State.abortRes s).dir.expired,
    e ∈ s.dir.expired ∧ e ∉ rs := by
  induction rs generalizing s with
  | nil => exact fun e he => ⟨he, List.not_mem_nil⟩
  | cons a rs ih =>
    obtain ⟨hchanged, hgone⟩ := abortRes_changed s a
    intro e he
    obtain ⟨hmem, hrest⟩ := ih (s.abortRes a) e he
    refine ⟨hchanged.expired e hmem, fun hcons => ?_⟩
    rcases List.mem_cons.mp hcons with rfl | hcons
    · exact hgone hmem
    · exact hrest hcons

/-- What a RUN_ABORT makes of the directory (R61). -/
theorem abortLeases_spec (s : State) :
    s.abortLeases = { s with
      run := { s.run with counters := { s.run.counters with
        resultsDiscarded := s.abortLeases.run.counters.resultsDiscarded } }
      dir := s.abortLeases.dir
      ports := s.abortLeases.ports }
    ∧ s.abortLeases.portsGrow s
    ∧ (∀ r, (s.abortLeases.res r).lease = .free ∧ (s.abortLeases.res r).recallState = .none)
    ∧ s.abortLeases.dir.waits = [] ∧ s.abortLeases.dir.expired = []
    ∧ ∀ q r, s.holds q r = true ∨ s.watches q r = true → s.abortLeases.noticed q .leaseLost = true := by
  have hchanged : Changed Resource.freed Resource.leasedBy allResources s (allResources.foldl State.abortRes s) :=
    foldl_changed (fun u r => (abortRes_changed u r).1) allResources (List.nodup_finRange 32) s
  have hexpired := foldl_abortRes_expired allResources s
  unfold State.abortLeases
  generalize allResources.foldl State.abortRes s = v at *
  obtain ⟨hframe, hports, -⟩ := cancelWaits_spec v
  have hres : ∀ r, v.cancelWaits.res r = v.res r := fun r =>
    (congrArg (fun t : State => t.res r) hframe :)
  have hfreed : ∀ r, v.res r = (s.res r).freed := fun r => (hchanged.res r).trans (if_pos (List.mem_finRange r))
  refine ⟨?_, hchanged.ports.trans hports, fun r => ?_, (congrArg (fun t : State => t.dir.waits) hframe :), ?_,
    fun q r hq => hports.noticed (hchanged.told r (List.mem_finRange r) q ?_)⟩
  · rw [hframe, hchanged.frame]
  · rw [hres, hfreed]
    exact ⟨rfl, rfl⟩
  · refine (congrArg (fun t : State => t.dir.expired) hframe :).trans ?_
    exact List.eq_nil_iff_forall_not_mem.mpr fun e he => (hexpired e he).2 (List.mem_finRange e)
  · rcases hq with hq | hq
    · exact Or.inl (of_decide_eq_true hq)
    · exact Or.inr hq

/-! ## RUN_CLOSE (R24) -/

/-- The hub that closes, before its closing conditions are looked at. -/
def State.closingRun (s : State) : State :=
  (((s.enterRunState .closing).cancelWaits).revokeWatches).stopWindows .runClosed
    (fun x => decide (x.state = .opened) || decide (x.state = .armed))

theorem closeRun_eq (s : State) : s.closeRun = s.closingRun.checkClosing := rfl

theorem unstarted_active {x : Window} (h : (decide (x.state = .opened) || decide (x.state = .armed)) = true) :
    x.state.active = true := by
  rw [Bool.or_eq_true, decide_eq_true_eq, decide_eq_true_eq] at h
  rcases h with h | h <;> rw [h] <;> rfl

/-- What the closing of a run makes of the hub, but for the entry to CLOSED. -/
structure Closing (s t : State) : Prop where
  state : t.run.state = .closing
  run : t.run.number = s.run.number ∧ t.run.aborted = s.run.aborted ∧ t.run.time = s.run.time
    ∧ t.run.complete = s.run.complete
  keeps : t.now = s.now ∧ t.map = s.map ∧ t.post = s.post ∧ t.wd = s.wd
  waits : t.dir.waits = []
  leases : ∀ r, (t.res r).lease.watchers = 0 ∧ (t.res r).lease.holder = (s.res r).lease.holder
    ∧ (t.res r).lease.since = (s.res r).lease.since
  ports : t.portsGrow s
  noticed : (∀ q, t.noticed q .runState = true) ∧ (∀ e ∈ s.dir.waits, t.noticed e.port .waitCancelled = true)
    ∧ ∀ q r, s.watches q r = true → t.noticed q .leaseLost = true
  idle : ∀ w, s.win w = none → t.win w = none
  unstarted : ∀ w x, s.win w = some x → x.state = .opened ∨ x.state = .armed →
    ∃ y, t.win w = some y ∧ y.state = .stopped ∧ y.endCause = some .runClosed
  others : ∀ w x, s.win w = some x → x.state ≠ .opened → x.state ≠ .armed → t.win w = some x

theorem closingRun_closing (s : State) : Closing s s.closingRun := by
  have henter : s.enterRunState .closing = { s with
      run := { s.run with state := .closing }
      ports := (s.enterRunState .closing).ports } := by
    unfold State.enterRunState
    rw [raiseAll_eq]
    rfl
  have hgrow : (s.enterRunState .closing).portsGrow s := raiseAll_portsGrow _ _
  have hrun : ∀ q, (s.enterRunState .closing).noticed q .runState = true := fun q =>
    (noticed_raiseAll ..).trans (by simp)
  unfold State.closingRun
  generalize s.enterRunState .closing = a at *
  obtain ⟨hcancel, hgrow', hwaits⟩ := cancelWaits_spec a
  generalize a.cancelWaits = b at *
  have hrevoke := revokeWatches_changed b
  generalize b.revokeWatches = d at *
  obtain ⟨hfalls, hidle, hwins⟩ := stopWindows_spec (c := .runClosed) d (fun x h => unstarted_active h)
  generalize d.stopWindows .runClosed _ = t at *
  have hbres : ∀ r, b.res r = s.res r := fun r => by
    rw [hcancel, henter]
    rfl
  have hdwin : ∀ w, d.win w = s.win w := fun w => by
    rw [hrevoke.frame, hcancel, henter]
    rfl
  have hdrun : d.run.state = .closing ∧ d.run.number = s.run.number ∧ d.run.aborted = s.run.aborted
      ∧ d.run.time = s.run.time ∧ d.run.complete = s.run.complete := by
    rw [hrevoke.frame, hcancel, henter]
    exact ⟨rfl, rfl, rfl, rfl, rfl⟩
  have hdkeeps : d.now = s.now ∧ d.map = s.map ∧ d.post = s.post ∧ d.wd = s.wd ∧ d.dir.waits = [] := by
    rw [hrevoke.frame, hcancel, henter]
    exact ⟨rfl, rfl, rfl, rfl, rfl⟩
  have hawaits : a.dir.waits = s.dir.waits := by rw [henter]
  obtain ⟨hstate, hnumber, haborted, htime, hcomplete⟩ := hdrun
  obtain ⟨hnow, hmap, hpost, hwd, hdwaits⟩ := hdkeeps
  refine ⟨hfalls.runState.trans hstate, ⟨hfalls.runNumber.trans hnumber, hfalls.runAborted.trans haborted,
    hfalls.runTime.trans htime, hfalls.runComplete.trans hcomplete⟩, ⟨hfalls.now.trans hnow, hfalls.map.trans hmap,
    hfalls.post.trans hpost, hfalls.wd.trans hwd⟩, hfalls.waits.trans hdwaits, fun r => ?_,
    ((hgrow.trans hgrow').trans hrevoke.ports).trans hfalls.ports, ⟨fun q => ?_, fun e he => ?_, fun q r hq => ?_⟩,
    fun w hw => hidle w ((hdwin w).trans hw), fun w x hx hstate => ?_, fun w x hx hopen harmed => ?_⟩
  · obtain ⟨hholder, hwatchers, hsince⟩ := hfalls.leases r
    obtain ⟨hwatchers', hholder', hsince'⟩ := revoked_lease (s.res r)
    have hd : d.res r = (s.res r).revoked := by
      rw [← hbres]
      exact (hrevoke.res r).trans (if_pos (List.mem_finRange r))
    rw [hholder, hwatchers, hsince, hd]
    exact ⟨hwatchers', hholder', hsince'⟩
  · exact hfalls.ports.noticed (hrevoke.ports.noticed (hgrow'.noticed (hrun q)))
  · exact hfalls.ports.noticed (hrevoke.ports.noticed (hwaits e (hawaits ▸ he)))
  · exact hfalls.ports.noticed (hrevoke.told r (List.mem_finRange r) q (by rw [hbres]; exact hq))
  · exact (hwins w x ((hdwin w).trans hx)).1 (by simpa using hstate)
  · exact (hwins w x ((hdwin w).trans hx)).2 (by simp [hopen, harmed])

/-- The closing conditions look no different once the run closes. -/
theorem Closing.atRest_iff (h : Closing s t) : t.atRest = true ↔ s.atRest = true := by
  obtain ⟨-, -, hpost, -⟩ := h.keeps
  rw [Machine.atRest_iff, Machine.atRest_iff, hpost]
  refine and_congr ⟨fun hrest w x hx => ?_, fun hrest w y hy => ?_⟩
    (and_congr_left fun _ => forall_congr' fun r => by rw [(h.leases r).2.1])
  · by_cases hopen : x.state = .opened
    · rw [hopen]
      rfl
    · by_cases harmed : x.state = .armed
      · rw [harmed]
        rfl
      · exact hrest w x (h.others w x hx hopen harmed)
  · cases hx : s.win w with
    | none => cases (h.idle w hx).symm.trans hy
    | some x =>
      by_cases hunstarted : x.state = .opened ∨ x.state = .armed
      · obtain ⟨z, hz, hstate, -⟩ := h.unstarted w x hx hunstarted
        obtain rfl := Option.some.inj (hy.symm.trans hz)
        rw [hstate]
        rfl
      · obtain ⟨hopen, harmed⟩ := not_or.mp hunstarted
        obtain rfl := Option.some.inj (hy.symm.trans (h.others w x hx hopen harmed))
        exact hrest w y hx

theorem runTimeMs_congr (hrun : t.run.time = s.run.time) (hnow : t.now = s.now) : t.runTimeMs = s.runTimeMs := by
  unfold State.runTimeMs State.nowMs
  rw [hrun, hnow]

/-! ## RUN_ABORT (R25) -/

/-- The hub that aborts, before its closing conditions are looked at. -/
def State.abortingRun (s : State) : State :=
  let t := if s.run.state = .running then s.enterRunState .closing else s
  let t := t.setRun { t.run with aborted := true }
  let t := (t.stopWindows .aborted (fun x => x.state.active)).abortLeases
  t.removeInterest (fun _ => 0)

theorem abortRun_eq (s : State) : s.abortRun = s.abortingRun.checkClosing := rfl

/-- What a RUN_ABORT makes of the hub, but for the entry to CLOSED. -/
structure Aborting (s t : State) : Prop where
  state : t.run.state = .closing
  aborted : t.run.aborted = true
  post : t.post = s.post
  leases : ∀ r, (t.res r).lease = .free ∧ (t.res r).recallState = .none
  lists : t.dir.waits = [] ∧ t.dir.expired = [] ∧ t.wd.list = []
  idle : ∀ w, s.win w = none → t.win w = none
  active : ∀ w x, s.win w = some x → x.state.active = true →
    ∃ y, t.win w = some y ∧ y.state = .stopped ∧ y.endCause = some .aborted
  others : ∀ w x, s.win w = some x → x.state.active = false → t.win w = some x
  ports : t.portsGrow s
  noticed : ∀ q r, s.holds q r = true ∨ s.watches q r = true → t.noticed q .leaseLost = true

/-- The hub marked as aborted. -/
def State.markAborted (s : State) : State :=
  let t := if s.run.state = .running then s.enterRunState .closing else s
  t.setRun { t.run with aborted := true }

theorem markAborted_spec (hstate : s.run.state = .running ∨ s.run.state = .closing) :
    s.markAborted = { s with run := s.markAborted.run, ports := s.markAborted.ports } ∧ s.markAborted.portsGrow s
    ∧ s.markAborted.run.state = .closing ∧ s.markAborted.run.aborted = true := by
  unfold State.markAborted
  by_cases hrunning : s.run.state = .running
  · simp only [if_pos hrunning]
    have hraise := raiseAll_eq (s.setRun { s.run with state := .closing }) .runState
    refine ⟨?_, (portsGrow_of_ports rfl).trans ((raiseAll_portsGrow (s.setRun { s.run with state := .closing }) .runState).trans
      (portsGrow_of_ports rfl)), ?_, rfl⟩
    · unfold State.enterRunState
      rw [hraise]
      rfl
    · unfold State.enterRunState
      rw [hraise]
      rfl
  · simp only [if_neg hrunning]
    exact ⟨rfl, portsGrow_of_ports rfl, hstate.resolve_left hrunning, rfl⟩

theorem abortingRun_aborting (hstate : s.run.state = .running ∨ s.run.state = .closing) : Aborting s s.abortingRun := by
  have heq : s.abortingRun = ((s.markAborted.stopWindows .aborted (fun x => x.state.active)).abortLeases).removeInterest
      (fun _ => 0) := rfl
  rw [heq]
  obtain ⟨hmark, hgrow, hclosing, haborted⟩ := markAborted_spec hstate
  generalize s.markAborted = a at *
  obtain ⟨hfalls, hidle, hwins⟩ := stopWindows_spec (c := .aborted) (test := fun x => x.state.active) a (fun _ h => h)
  generalize a.stopWindows .aborted _ = b at *
  obtain ⟨hleases, hgrow', hfree, hwaits, hexpired, htold⟩ := abortLeases_spec b
  generalize b.abortLeases = d at *
  obtain ⟨hremove, hgrow'', -, hlist⟩ := removeInterest_spec d (fun _ => 0)
  generalize d.removeInterest (fun _ => 0) = t at *
  have hdir : t.dir = d.dir := (congrArg State.dir hremove :)
  have hres : ∀ r, t.res r = d.res r := fun r => congrArg (fun x : LeaseDirectory => Table.rd x.res r) hdir
  have hwin : ∀ w, t.win w = b.win w := fun w => by
    rw [hremove, hleases]
    rfl
  have hawin : ∀ w, a.win w = s.win w := fun w => by
    rw [hmark]
    rfl
  have hares : ∀ r, a.res r = s.res r := fun r => by
    rw [hmark]
    rfl
  have hrun : t.run.state = b.run.state ∧ t.run.aborted = b.run.aborted ∧ t.post = b.post := by
    rw [hremove, hleases]
    exact ⟨rfl, rfl, rfl⟩
  have hpost : a.post = s.post := by rw [hmark]
  obtain ⟨hrstate, hraborted, hrpost⟩ := hrun
  refine ⟨hrstate.trans (hfalls.runState.trans hclosing), hraborted.trans (hfalls.runAborted.trans haborted),
    hrpost.trans (hfalls.post.trans hpost), fun r => by rw [hres]; exact hfree r, ⟨by rw [hdir, hwaits],
    by rw [hdir, hexpired], ?_⟩, fun w hw => ?_, fun w x hx hactive => ?_, fun w x hx hactive => ?_,
    ((hgrow.trans hfalls.ports).trans hgrow').trans hgrow'', fun q r hq => hgrow''.noticed (htold q r ?_)⟩
  · refine List.eq_nil_iff_forall_not_mem.mpr fun e he => ?_
    obtain ⟨⟨x, -, hzero⟩, hnot⟩ := hlist e he
    exact hnot hzero
  · rw [hwin]
    exact hidle w ((hawin w).trans hw)
  · rw [hwin]
    exact (hwins w x ((hawin w).trans hx)).1 hactive
  · rw [hwin]
    exact (hwins w x ((hawin w).trans hx)).2 hactive
  · obtain ⟨hholder, hwatchers, -⟩ := hfalls.leases r
    unfold State.holds State.watches at hq ⊢
    rw [hholder, hwatchers, hares]
    exact hq

theorem Aborting.atRest_iff (h : Aborting s t) :
    t.atRest = true ↔ t.post.ordinary = [] ∧ t.post.recallBuf = none ∧ t.post.commit = none := by
  rw [Machine.atRest_iff]
  refine ⟨fun ⟨_, _, hpost⟩ => hpost, fun hpost => ⟨fun w y hy => ?_, fun r => ?_, hpost⟩⟩
  · cases hx : s.win w with
    | none => cases (h.idle w hx).symm.trans hy
    | some x =>
      cases hactive : x.state.active with
      | true =>
        obtain ⟨z, hz, hstate, -⟩ := h.active w x hx hactive
        obtain rfl := Option.some.inj (hy.symm.trans hz)
        rw [hstate]
        rfl
      | false =>
        obtain rfl := Option.some.inj (hy.symm.trans (h.others w x hx hactive))
        refine Bool.eq_false_iff.mpr fun hphase => ?_
        rw [active_of_phase hphase] at hactive
        cases hactive
  · rw [(h.leases r).1]
    rfl

end Sys2Proof.Machine

open Sys2Proof Sys2Proof.Machine

/-- Settles O16. -/
theorem runCloseEndsWaitsWatchesAndUnstartedWindows : Obligations.RunCloseEndsWaitsWatchesAndUnstartedWindows := by
  unfold Obligations.RunCloseEndsWaitsWatchesAndUnstartedWindows
  intro s p tag filler cut hadm
  have hclosing := closingRun_closing (s.working .runClose p tag)
  have hrest := hclosing.atRest_iff.trans Machine.atRest_iff
  have hbody : bodyRunClose p tag [] (s.working .runClose p tag) = accept (s.working .runClose p tag).closeRun
      (u8 (s.working .runClose p tag).closeRun.run.state.num) := rfl
  have hexec := exec_accepted (cut := cut) hadm hbody
  rw [closeRun_eq] at hexec
  generalize (s.working .runClose p tag).closingRun = u at *
  obtain ⟨hframe, hports, -⟩ := checkClosing_frame u
  obtain ⟨hnumber, haborted, htime, hcomplete⟩ := hclosing.run
  obtain ⟨hnow, hmap, hpost, hwd⟩ := hclosing.keeps
  obtain ⟨hrun, hwaits, hwatch⟩ := hclosing.noticed
  intro atRest
  have hopen : ¬ atRest → u.checkClosing = u := fun hnot =>
    checkClosing_stays fun _ => Bool.eq_false_iff.mpr fun h => hnot (hrest.mp h)
  have hclosed : atRest → EnteredClosed u u.checkClosing := fun h => checkClosing_closes hclosing.state (hrest.mpr h)
  have hstays : u.checkClosing.run.number = u.run.number ∧ u.checkClosing.run.aborted = u.run.aborted := by
    by_cases h : atRest
    · rw [(hclosed h).run]
      exact ⟨rfl, rfl⟩
    · rw [hopen h]
      exact ⟨rfl, rfl⟩
  have hdir : u.checkClosing.dir = u.dir := (congrArg State.dir hframe :)
  have hwin : ∀ w, u.checkClosing.win w = u.win w := fun w => (congrArg (fun t : State => t.win w) hframe :)
  generalize u.checkClosing = t at *
  refine ⟨_, hexec, fun hnot => ?_, fun h => ?_, ?_, ?_, ?_, fun r => ?_, fun w x hx hstate => ?_, fun w x hx hstate harmed => ?_,
    fun q => ?_, fun e he => ?_, fun q r hq => ?_, answer_slot ..⟩
  · rw [hopen hnot] at *
    exact ⟨hclosing.state, htime, hcomplete, hwd⟩
  · have hent := hclosed h
    have htimeMs : u.runTimeMs = s.runTimeMs := runTimeMs_congr htime hnow
    refine ⟨(congrArg RunRecord.state hent.run :), ((congrArg RunRecord.time hent.run :)).trans (congrArg _ htimeMs), hent.list,
      fun e he hl => hent.withdrawn e (by rw [hwd]; exact he) ?_, hent.evaluated⟩
    rw [link_of_map hmap]
    exact hl
  · exact hstays.1.trans hnumber
  · exact hstays.2.trans haborted
  · exact (congrArg LeaseDirectory.waits hdir).trans hclosing.waits
  · have hres : t.res r = u.res r := congrArg (fun x : LeaseDirectory => Table.rd x.res r) hdir
    have hleases := hclosing.leases r
    rw [← hres] at hleases
    exact hleases
  · obtain ⟨y, hy, hend⟩ := hclosing.unstarted w x hx hstate
    exact ⟨y, (hwin w).trans hy, hend⟩
  · exact (hwin w).trans (hclosing.others w x hx hstate harmed)
  · rw [State.answerOk, noticed_answer]
    exact hports.noticed (hrun q)
  · rw [State.answerOk, noticed_answer]
    exact hports.noticed (hwaits e he)
  · rw [State.answerOk, noticed_answer]
    exact hports.noticed (hwatch q r hq)

/-- Settles O17. -/
theorem runAbortFreesEverything : Obligations.RunAbortFreesEverything := by
  unfold Obligations.RunAbortFreesEverything
  intro s p tag filler cut hadm
  have hstate : s.run.state = .running ∨ s.run.state = .closing := by
    have hadmits := hadm
    simp only [State.admitted, Bool.and_eq_true] at hadmits
    simpa [Req.runStates] using hadmits.1.2
  have haborting := abortingRun_aborting (s := s.working .runAbort p tag) hstate
  have hrest := haborting.atRest_iff
  have hbody : bodyRunAbort p tag [] (s.working .runAbort p tag) = accept (s.working .runAbort p tag).abortRun
      (u8 (s.working .runAbort p tag).abortRun.run.state.num) := rfl
  have hexec := exec_accepted (cut := cut) hadm hbody
  rw [abortRun_eq] at hexec
  generalize (s.working .runAbort p tag).abortingRun = u at *
  obtain ⟨hframe, hports, hlist, -⟩ := checkClosing_frame u
  obtain ⟨hwaits, hexpired, hnone⟩ := haborting.lists
  have hdir : u.checkClosing.dir = u.dir := (congrArg State.dir hframe :)
  have hwin : ∀ w, u.checkClosing.win w = u.win w := fun w => (congrArg (fun t : State => t.win w) hframe :)
  have hpost : u.checkClosing.post = u.post := (congrArg State.post hframe :)
  have hend : u.checkClosing.run.aborted = true ∧ u.checkClosing.run.state =
      (if u.post.ordinary = [] ∧ u.post.recallBuf = none ∧ u.post.commit = none then .closed else .closing) := by
    by_cases h : u.atRest = true
    · rw [(checkClosing_closes haborting.state h).run, if_pos (hrest.mp h)]
      exact ⟨haborting.aborted, rfl⟩
    · rw [checkClosing_stays fun _ => Bool.eq_false_iff.mpr h, if_neg (fun hp => h (hrest.mpr hp))]
      exact ⟨haborting.aborted, haborting.state⟩
  generalize u.checkClosing = t at *
  refine ⟨_, hexec, hend.1, ?_, fun r => ?_, (congrArg LeaseDirectory.waits hdir).trans hwaits,
    (congrArg LeaseDirectory.expired hdir).trans hexpired, ?_, fun w x hx hactive => ?_, fun w x hx hactive => ?_,
    fun q r hq => ?_, answer_slot ..⟩
  · exact hend.2.trans (by rw [← hpost]; rfl)
  · have hres : t.res r = u.res r := congrArg (fun x : LeaseDirectory => Table.rd x.res r) hdir
    have hleases := haborting.leases r
    rw [← hres] at hleases
    exact hleases
  · refine List.eq_nil_iff_forall_not_mem.mpr fun e he => ?_
    have hmem := hlist e he
    rw [hnone] at hmem
    cases hmem
  · obtain ⟨y, hy, hend⟩ := haborting.active w x hx hactive
    exact ⟨y, (hwin w).trans hy, hend⟩
  · exact (hwin w).trans (haborting.others w x hx hactive)
  · rw [State.answerOk, noticed_answer]
    exact hports.noticed (haborting.noticed q r hq)

end

