-- ==== Sys2Proof/Proofs/Leaves.lean ====
section
/-! SUPPORT. Sys2Proof/Proofs/Leaves.lean: DETACH and EVICT (R188, R189): what each block of the hub lets go of a port
(R95, R59, R167). -/

namespace Sys2Proof.Machine

variable {s t u : State} {p q : PortId} {r : ResId} {w : WinId}

/-! ## Ports that keep their sets -/

/-- From `s` to `t` the ports have gained notices at most, whatever has become of their response slots. -/
def State.portsKeep (t s : State) : Prop :=
  ∀ q, (t.port q).role = (s.port q).role ∧ (t.port q).enables = (s.port q).enables
    ∧ ∃ ks, (t.port q).notices = (s.port q).notices ||| ks

theorem portsKeep_refl (s : State) : s.portsKeep s := fun _ => ⟨rfl, rfl, 0, by simp⟩

theorem State.portsGrow.keep (h : t.portsGrow s) : t.portsKeep s := fun q => by
  obtain ⟨ks, a, hq⟩ := h q
  rw [hq]
  exact ⟨rfl, rfl, ks, rfl⟩

theorem portsKeep_of_sets (h : ∀ q, ∃ slot, t.port q = { s.port q with slot := slot }) : t.portsKeep s := fun q => by
  obtain ⟨slot, hq⟩ := h q
  rw [hq]
  exact ⟨rfl, rfl, 0, by simp⟩

theorem State.portsKeep.trans (h : t.portsKeep s) (h' : u.portsKeep t) : u.portsKeep s := fun q => by
  obtain ⟨hrole, henables, ks, hks⟩ := h q
  obtain ⟨hrole', henables', ks', hks'⟩ := h' q
  exact ⟨hrole'.trans hrole, henables'.trans henables, ks ||| ks', by rw [hks', hks, BitVec.or_assoc]⟩

theorem State.portsKeep.noticed {k : Notice} (h : t.portsKeep s) (hq : s.noticed q k = true) : t.noticed q k = true := by
  obtain ⟨-, -, ks, hks⟩ := h q
  unfold State.noticed at hq ⊢
  rw [hks, BitVec.getLsbD_or, hq]
  rfl

/-! ## The Window Engine's part (R95) -/

theorem mem_windowsOf {test : Window → Bool} :
    w ∈ s.windowsOf p test ↔ ∃ x, s.win w = some x ∧ x.owner = p ∧ test x = true := by
  unfold State.windowsOf
  rw [List.mem_filter]
  cases s.win w <;> simp [allWindows, List.mem_finRange]

theorem foldl_stopWindow_falls (c : EndCause) (ws : List WinId) (s : State) :
    Falls s (ws.foldl (fun u w => u.stopWindow w c) s) := by
  induction ws generalizing s with
  | nil => exact Falls.refl s
  | cons a ws ih => exact (stopWindow_falls s a c).1.trans (ih _)

theorem foldl_setWin_spec (ws : List WinId) (s : State) :
    ws.foldl (fun u w => u.setWin w none) s =
      { s with eng := { s.eng with wins := (ws.foldl (fun u w => u.setWin w none) s).eng.wins } }
    ∧ ∀ w, (ws.foldl (fun u w => u.setWin w none) s).win w = if w ∈ ws then none else s.win w := by
  induction ws generalizing s with
  | nil => exact ⟨rfl, fun _ => rfl⟩
  | cons a ws ih =>
    obtain ⟨hframe, hwins⟩ := ih (s.setWin a none)
    rw [List.foldl_cons]
    refine ⟨hframe, fun w => (hwins w).trans ?_⟩
    have hone : (s.setWin a none).win w = if w = a then none else s.win w := win_setWin s a w none
    rw [hone]
    by_cases hwa : w = a <;> simp [hwa]

theorem leaveWindows_spec (s : State) (p : PortId) : (s.leaveWindows p).portsGrow s
    ∧ ∀ w x, (s.leaveWindows p).win w = some x → x.owner ≠ p := by
  unfold State.leaveWindows
  have hfalls := foldl_stopWindow_falls .evicted (s.windowsOf p (fun x => x.state.active)) s
  generalize (s.windowsOf p (fun x => x.state.active)).foldl (fun u w => u.stopWindow w .evicted) s = t at *
  obtain ⟨hframe, hwins⟩ := foldl_setWin_spec (t.windowsOf p (fun _ => true)) t
  dsimp only
  generalize (t.windowsOf p (fun _ => true)).foldl (fun u w => u.setWin w none) t = v at *
  refine ⟨hfalls.ports.trans (portsGrow_of_ports (by rw [hframe])), fun w x hx howner => ?_⟩
  rw [hwins] at hx
  split at hx
  · cases hx
  · next hnot => exact hnot (mem_windowsOf.mpr ⟨x, hx, howner, rfl⟩)

/-! ## The Lease Directory's part (R59) -/

theorem leaveWaits_spec (s : State) (p : PortId) (evict : Bool) :
    s.leaveWaits p evict = { s with
      dir := { s.dir with waits := s.dir.waits.filter (fun e => decide (e.port ≠ p)) }
      ports := (s.leaveWaits p evict).ports }
    ∧ (s.leaveWaits p evict).portsGrow s := by
  unfold State.leaveWaits
  dsimp only
  split
  · exact ⟨rfl, (portsGrow_of_ports rfl).trans (raise_portsGrow _ p _)⟩
  · exact ⟨rfl, portsGrow_of_ports rfl⟩

/-- A resource without a watcher. -/
def Resource.unwatchedBy (p : PortId) (x : Resource) : Resource :=
  match x.lease with
  | .watched ws => { x with lease := if PortSet.drop ws p = 0 then .free else .watched (PortSet.drop ws p) }
  | .free => x
  | .held _ _ => x
  | .heldUnposted _ _ _ => x

theorem unwatchedBy_watchers (p : PortId) (x : Resource) :
    (x.unwatchedBy p).lease.watchers = PortSet.drop x.lease.watchers p
    ∧ (x.unwatchedBy p).lease.holder = x.lease.holder := by
  have hnobody : PortSet.drop 0 p = 0 := portSet_ext fun q => by rw [has_drop, has_nobody]; rfl
  unfold Resource.unwatchedBy
  split
  · next ws hlease =>
    rw [hlease]
    dsimp only
    split
    · next hnone => exact ⟨hnone.symm, rfl⟩
    · exact ⟨rfl, rfl⟩
  · next hlease => rw [hlease]; exact ⟨hnobody.symm, rfl⟩
  · next hlease => rw [hlease]; exact ⟨hnobody.symm, rfl⟩
  · next hlease => rw [hlease]; exact ⟨hnobody.symm, rfl⟩

theorem leaveWatch_changed (p : PortId) (u : State) (r : ResId) :
    Changed (Resource.unwatchedBy p) (fun _ _ => False) [r] u (u.leaveWatch p r) := by
  have hstands : ((u.res r).unwatchedBy p = u.res r) → Changed (Resource.unwatchedBy p) (fun _ _ => False) [r] u u := by
    intro hsame
    refine ⟨rfl, portsGrow_refl u, fun q => ?_, fun _ _ _ h => h.elim, fun _ => id⟩
    split
    · next hq => rw [List.mem_singleton.mp hq, hsame]
    · rfl
  unfold State.leaveWatch
  split
  · next ws hlease =>
    refine ⟨rfl, portsGrow_of_ports rfl, fun q => (res_modRes ..).trans ?_, fun _ _ _ h => h.elim, fun _ => id⟩
    simp only [List.mem_singleton]
    split
    · next hq => simp only [hq, Resource.unwatchedBy, hlease]
    · rfl
  · next hlease => exact hstands (by simp only [Resource.unwatchedBy, hlease])
  · next hlease => exact hstands (by simp only [Resource.unwatchedBy, hlease])
  · next hlease => exact hstands (by simp only [Resource.unwatchedBy, hlease])

theorem res_freeRes (s : State) (r q : ResId) : (s.freeRes r).res q = if q = r then (s.res r).freed else s.res q :=
  res_modRes ..

/-- What a port's leaving of some resources makes of the hub: those it holds are FREE. -/
structure LeftRes (p : PortId) (rs : List ResId) (s t : State) : Prop where
  eng : t.eng = s.eng
  waits : t.dir.waits = s.dir.waits
  ports : t.portsKeep s
  res : ∀ r, t.res r = if r ∈ rs ∧ s.holds p r = true then (s.res r).freed else s.res r

theorem leaveRes_left (p : PortId) (u : State) (r : ResId) : LeftRes p [r] u (u.leaveRes p r) := by
  have hfreed : ∀ v : State, u.holds p r = true → v.eng = u.eng → v.dir.waits = u.dir.waits → v.portsKeep u →
      (v.res r).freed = (u.res r).freed → (∀ q, q ≠ r → v.res q = u.res q) → LeftRes p [r] u (v.freeRes r) := by
    intro v hheld heng hwaits hports hself hothers
    refine ⟨heng, hwaits, hports, fun q => (res_freeRes ..).trans ?_⟩
    by_cases hq : q = r
    · subst hq
      rw [if_pos rfl, if_pos ⟨List.mem_singleton_self _, hheld⟩, hself]
    · rw [if_neg hq, if_neg fun h => hq (List.mem_singleton.mp h.1), hothers q hq]
  unfold State.leaveRes
  cases hheld : u.holds p r with
  | false =>
    rw [if_neg Bool.false_ne_true]
    refine ⟨rfl, rfl, portsKeep_refl u, fun q => (if_neg fun hq => ?_).symm⟩
    rw [List.mem_singleton.mp hq.1, hheld] at hq
    cases hq.2
  | true =>
    rw [if_pos rfl]
    split
    · have hone := hfreed u hheld rfl rfl (portsKeep_refl u) rfl fun _ _ => rfl
      exact ⟨hone.eng, hone.waits, hone.ports, hone.res⟩
    · cases hlease : (u.res r).lease with
      | heldUnposted h since a =>
        have harrived := postHolding_arrived hlease
        have hres := postHolding_res hlease
        refine hfreed _ hheld (congrArg State.eng harrived.frame :) (congrArg (fun v => v.dir.waits) harrived.frame :)
          (portsKeep_of_sets harrived.sets) ?_ fun q hq => (hres q).trans (if_neg hq)
        rw [hres, if_pos rfl]
        rfl
      | _ =>
        rw [postHolding_none (by rw [hlease]; rfl)]
        exact hfreed u hheld rfl rfl (portsKeep_refl u) rfl fun _ _ => rfl

theorem foldl_leaveRes_left (p : PortId) (rs : List ResId) (s : State) :
    LeftRes p rs s (rs.foldl (fun u r => u.leaveRes p r) s) := by
  induction rs generalizing s with
  | nil => exact ⟨rfl, rfl, portsKeep_refl s, fun _ => rfl⟩
  | cons a rs ih =>
    have hone := leaveRes_left p s a
    have hmany := ih (s.leaveRes p a)
    rw [List.foldl_cons]
    refine ⟨hmany.eng.trans hone.eng, hmany.waits.trans hone.waits, hone.ports.trans hmany.ports, fun r => ?_⟩
    rw [hmany.res]
    by_cases hra : r = a
    · subst hra
      by_cases hheld : s.holds p r = true
      · have hself : (s.leaveRes p r).res r = (s.res r).freed :=
          (hone.res r).trans (if_pos ⟨List.mem_singleton_self _, hheld⟩)
        refine Eq.trans ?_ (if_pos ⟨List.mem_cons_self, hheld⟩).symm
        rw [hself]
        exact ite_self _
      · have hself : (s.leaveRes p r).res r = s.res r := (hone.res r).trans (if_neg fun h => hheld h.2)
        unfold State.holds at hheld ⊢
        rw [hself, if_neg fun h => hheld h.2, if_neg fun h => hheld h.2]
    · have hself : (s.leaveRes p a).res r = s.res r :=
        (hone.res r).trans (if_neg fun h => hra (List.mem_singleton.mp h.1))
      unfold State.holds
      simp only [hself, List.mem_cons, hra, false_or]

/-- A port with nothing in the Lease Directory. -/
def State.leaseless (s : State) (p : PortId) : Prop := ∀ r, s.holds p r = false ∧ s.watches p r = false

theorem leaseless_of_lease (h : s.leaseless p) (hlease : ∀ r, (t.res r).lease = (s.res r).lease) : t.leaseless p :=
  fun r => by
    obtain ⟨hholds, hwatches⟩ := h r
    unfold State.holds State.watches at *
    rw [hlease]
    exact ⟨hholds, hwatches⟩

theorem grantEntry_leaseless {e : WaitEntry} (h : s.leaseless p) (he : e.port ≠ p) : (s.grantEntry e).leaseless p := by
  obtain ⟨v, hgranted, heq⟩ := grantEntry_granted s e
  have hv : v.leaseless p := fun r => by
    obtain ⟨hholds, hwatches⟩ := h r
    by_cases hr : r ∈ e.resources
    · have hres := hgranted.named r hr
      unfold State.holds State.watches at *
      rw [hres]
      cases e.mode with
      | hold => exact ⟨decide_eq_false fun hp => he (Option.some.inj hp), has_nobody p⟩
      | watch =>
        refine ⟨rfl, (has_add ..).trans ?_⟩
        rw [hwatches, decide_eq_false (Ne.symm he)]
        rfl
    · have hres := hgranted.others r hr
      unfold State.holds State.watches at *
      rw [hres]
      exact ⟨hholds, hwatches⟩
  rw [heq]
  exact leaseless_of_lease hv fun _ => rfl

theorem grantFrom_leaseless (kept es : List WaitEntry) (h : s.leaseless p) (hes : ∀ e ∈ es, e.port ≠ p) :
    (s.grantFrom kept es).leaseless p := by
  induction es generalizing s kept with
  | nil => exact leaseless_of_lease h fun _ => rfl
  | cons e rest ih =>
    have hrest := fun f hf => hes f (List.mem_cons_of_mem e hf)
    cases hgrant : s.entryGrantable kept e with
    | true =>
      rw [grantFrom_grants rest hgrant]
      exact ih _ (grantEntry_leaseless h (hes e List.mem_cons_self)) hrest
    | false =>
      rw [grantFrom_keeps rest hgrant]
      exact ih _ (leaseless_of_lease h (recallCheck_spec s e).lease) hrest

/-- What the leaving of a port makes of the Lease Directory. -/
theorem leaveLeases_spec (s : State) (p : PortId) (evict : Bool) :
    (s.leaveLeases p evict).eng = s.eng ∧ (s.leaveLeases p evict).portsKeep s
    ∧ (s.leaveLeases p evict).leaseless p ∧ ∀ e ∈ (s.leaveLeases p evict).dir.waits, e.port ≠ p := by
  unfold State.leaveLeases
  obtain ⟨hwaits, hgrow⟩ := leaveWaits_spec s p evict
  generalize s.leaveWaits p evict = a at *
  have hwatch : Changed (Resource.unwatchedBy p) (fun _ _ => False) allResources a
      (allResources.foldl (fun u r => u.leaveWatch p r) a) :=
    foldl_changed (leaveWatch_changed p) allResources (List.nodup_finRange 32) a
  dsimp only
  generalize allResources.foldl (fun u r => u.leaveWatch p r) a = b at *
  have hleft := foldl_leaveRes_left p allResources b
  generalize allResources.foldl (fun u r => u.leaveRes p r) b = d at *
  have hpassed := grantPass_passed d
  have hstayers := grantPass_waits d
  have hfiltered : d.dir.waits = s.dir.waits.filter (fun e => decide (e.port ≠ p)) := by
    rw [hleft.waits, hwatch.frame, hwaits]
  have hports : ∀ e ∈ d.dir.waits, e.port ≠ p := fun e he => by
    rw [hfiltered] at he
    exact of_decide_eq_true (List.mem_filter.mp he).2
  have hunwatched : ∀ r, b.watches p r = false := fun r => by
    have hres : b.res r = (a.res r).unwatchedBy p := (hwatch.res r).trans (if_pos (List.mem_finRange r))
    unfold State.watches
    rw [hres, (unwatchedBy_watchers p _).1, has_drop]
    simp
  have hnone : d.leaseless p := fun r => by
    unfold State.holds State.watches
    rw [hleft.res]
    split
    · exact ⟨rfl, has_nobody p⟩
    · next hnot => exact ⟨Bool.eq_false_iff.mpr fun h => hnot ⟨List.mem_finRange r, h⟩, hunwatched r⟩
  refine ⟨?_, ((hgrow.trans hwatch.ports).keep.trans hleft.ports).trans hpassed.ports.keep,
    grantFrom_leaseless [] d.dir.waits hnone hports, fun e he => ?_⟩
  · rw [hpassed.frame]
    refine hleft.eng.trans ?_
    rw [hwatch.frame, hwaits]
  · rw [hstayers] at he
    exact hports e ((stayers_sublist _ _ (length_stays d)).subset he)

/-! ## Everything -/

/-- What the leaving of a port makes of the hub. -/
structure PortLeft (p : PortId) (s t : State) : Prop where
  leases : t.leaseless p
  windows : ∀ w x, t.win w = some x → x.owner ≠ p
  waits : ∀ e ∈ t.dir.waits, e.port ≠ p
  sync : t.syncSlot p = .none
  interest : ∀ e ∈ t.wd.list, PortSet.has e.interest p = false
  ports : t.portsKeep s

theorem leavePort_left (s : State) (p : PortId) (evict : Bool) : PortLeft p s (s.leavePort p evict) := by
  unfold State.leavePort
  obtain ⟨hgrow, hwindows⟩ := leaveWindows_spec s p
  generalize s.leaveWindows p = a at *
  obtain ⟨heng, hkeep, hleases, hwaits⟩ := leaveLeases_spec a p evict
  generalize a.leaveLeases p evict = b at *
  unfold State.leaveWithdraws
  obtain ⟨hremove, hgrow', hsync, hinterest⟩ := removeInterest_spec (b.setSync p .none) (fun ps => PortSet.drop ps p)
  have hslot : (b.setSync p .none).syncSlot p = .none := (setSync_slot b p .none p).trans (if_pos rfl)
  have hports : (b.setSync p .none).portsGrow b := portsGrow_of_ports rfl
  have hdir' : (b.setSync p .none).dir = b.dir ∧ (b.setSync p .none).eng = b.eng := ⟨rfl, rfl⟩
  generalize b.setSync p .none = d at *
  generalize d.removeInterest (fun ps => PortSet.drop ps p) = v at *
  obtain ⟨hclose, hgrow'', hlist, hsync'⟩ := checkClosing_frame v
  generalize v.checkClosing = t at *
  have hdir : t.dir = b.dir := by
    rw [hclose, hremove]
    exact hdir'.1
  have hteng : t.eng = a.eng := by
    rw [hclose, hremove]
    exact hdir'.2.trans heng
  refine ⟨leaseless_of_lease hleases fun r => congrArg (fun x : LeaseDirectory => (Table.rd x.res r).lease) hdir,
    fun w x hx => hwindows w x ?_, fun e he => hwaits e ?_, hsync' p (hsync p hslot), fun e he => ?_,
    (hgrow.keep.trans hkeep).trans ((hports.trans hgrow').trans hgrow'').keep⟩
  · exact (congrArg (fun e : WindowEngine => Table.rd e.wins w) hteng).symm.trans hx
  · rw [← hdir]
    exact he
  · obtain ⟨⟨x, -, hx⟩, -⟩ := hinterest e (hlist e he)
    rw [hx, has_drop]
    simp

theorem bodyEvict_number (p : PortId) (tag : Byte) (s : State) (h : q ≠ p) : bodyEvict p tag (u8 q.val) s =
    accept ((s.leavePort q true).raise q .evicted) (enLeaveCounts (s.leaveCounts q true)) := by
  simp only [bodyEvict, u8, idxOf_byte (show 4 ≤ 256 by omega), if_neg h]

end Sys2Proof.Machine

open Sys2Proof Sys2Proof.Machine

/-- Settles O14. -/
theorem detachAndEvictLeaveNothingHeld : Obligations.DetachAndEvictLeaveNothingHeld := by
  unfold Obligations.DetachAndEvictLeaveNothingHeld
  refine ⟨fun s p tag filler cut hadm => ?_, fun s p q tag filler cut hq hadm => ?_⟩
  · have hleft := leavePort_left (s.working .detach p tag) p false
    have hbody : bodyDetach p tag [] (s.working .detach p tag) =
        accept (((s.working .detach p tag).leavePort p false).modPort p (fun x => x.setSets 0 x.enables))
          (enLeaveCounts ((s.working .detach p tag).leaveCounts p false)) := rfl
    have hexec := exec_accepted (cut := cut) hadm hbody
    obtain ⟨hrole, henables, -⟩ := hleft.ports p
    obtain ⟨-, henables', hrole', -⟩ := port_working_fields (s := s) (tag := tag) (p := p) .detach p
    generalize (s.working .detach p tag).leavePort p false = t at *
    have hport : ∀ x, ((t.modPort p (fun x => x.setSets 0 x.enables)).answerOk .detach p tag x).port p =
        { (t.port p).setSets 0 (t.port p).enables with
          slot := .answered (responseFrame (.ok x) Req.detach.code tag) } := fun x => by
      refine (port_answer ..).trans ?_
      rw [if_pos rfl, port_modPort_same]
    refine ⟨_, _, hexec, hleft.leases, hleft.windows, hleft.waits, hleft.sync, hleft.interest, ?_, ?_, ?_, ?_,
      answer_slot ..⟩
    · rw [hport]
      rfl
    · rw [hport]
      simp [AgentPort.setSets]
    · rw [hport]
      exact hrole.trans hrole'
    · rw [hport]
      exact henables.trans henables'
  · have hleft := leavePort_left (s.working .evict p tag) q true
    have hexec := exec_accepted (cut := cut) hadm (bodyEvict_number p tag (s.working .evict p tag) hq)
    have hgrow := raise_portsGrow ((s.working .evict p tag).leavePort q true) q .evicted
    have hkeep := hleft.ports.trans hgrow.keep
    have hevicted := noticed_raise ((s.working .evict p tag).leavePort q true) q q .evicted .evicted
    obtain ⟨hrole, henables, -⟩ := hkeep q
    obtain ⟨-, henables', hrole', -⟩ := port_working_fields (s := s) (tag := tag) (p := p) .evict q
    generalize (s.working .evict p tag).leavePort q true = t at *
    obtain ⟨-, henables'', hrole'', -⟩ := port_answer_sets (p := p) (tag := tag) (t.raise q .evicted) Req.evict.code
      (.ok (enLeaveCounts ((s.working .evict p tag).leaveCounts q true))) q
    refine ⟨_, _, hexec, hleft.leases, hleft.windows, hleft.waits, hleft.sync, hleft.interest, ?_, fun k hk => ?_,
      hrole''.trans (hrole.trans hrole'), henables''.trans (henables.trans henables'), answer_slot ..⟩
    · rw [State.answerOk, noticed_answer, hevicted]
      simp
    · rw [State.answerOk, noticed_answer]
      exact hkeep.noticed (by rw [noticed_working]; exact hk)

end

