-- ==== Sys2Proof/Proofs/Postings.lean ====
section
/-! SUPPORT. Sys2Proof/Proofs/Postings.lean: the holdings of several resources posted one after the other (R50, R139,
R140). -/

namespace Sys2Proof.Machine

variable {s t u : State} {p : PortId} {r : ResId} {a b : Accumulator} {as : List Accumulator} {since : Nat}

/-- An arriving result leaves an older one alone, whatever the engine does with it. -/
def Accumulator.spares (a b : Accumulator) : Prop := a.retest = false ∨ a.link ≠ b.link ∨ a.dir ≠ b.dir

theorem not_spares_iff : ¬ a.spares b ↔ a.retest = true ∧ a.link = b.link ∧ a.dir = b.dir := by
  simp [Accumulator.spares]

theorem spares_iff {x : Posted} : cancelledBy a x = false ↔ x.inFlight = true ∨ a.spares x.result := by
  have hcancelled : cancelledBy a x = true ↔ ¬ a.spares x.result ∧ x.inFlight = false := by
    rw [cancelledBy_iff, not_spares_iff, eq_comm (a := x.result.link), eq_comm (a := x.result.dir), and_assoc, and_assoc]
  rw [← Bool.not_eq_true, hcancelled, not_and_or, Classical.not_not, Bool.not_eq_false, or_comm]

/-- The results and marks of the ordinary buffers once a result has arrived at a busy engine. -/
def arriveBusy (qs : List (Accumulator × Bool)) (a : Accumulator) : List (Accumulator × Bool) :=
  qs.filter (fun q => !(a.retest && decide (q.1.link = a.link) && decide (q.1.dir = a.dir) && !q.2)) ++ [(a, false)]

/-- A posted result as another hub has it: marked in flight since at most. -/
def Posted.lasts (x y : Posted) : Prop :=
  y.serial = x.serial ∧ y.result = x.result ∧ y.port = x.port ∧ (x.inFlight = true → y.inFlight = true)

theorem Posted.lasts.trans {x y z : Posted} (h : x.lasts y) (h' : y.lasts z) : x.lasts z := by
  obtain ⟨hserial, hresult, hport, hflight⟩ := h
  obtain ⟨hserial', hresult', hport', hflight'⟩ := h'
  exact ⟨hserial'.trans hserial, hresult'.trans hresult, hport'.trans hport, fun hx => hflight' (hflight hx)⟩

theorem Posted.marked.lasts {x y : Posted} (h : x.marked y) : x.lasts y := by
  rcases h with rfl | rfl
  · exact ⟨rfl, rfl, rfl, id⟩
  · exact ⟨rfl, rfl, rfl, fun _ => rfl⟩

/-- From `s` to `t` results of a port have arrived in the ordinary buffers, one after the other; what has become of the
resources is left open. -/
structure PostedInTurn (p : PortId) (as : List Accumulator) (s t : State) : Prop where
  frame : t = { s with
    run := { s.run with counters := { s.run.counters with postsSuperseded := t.run.counters.postsSuperseded } }
    dir := { s.dir with res := t.dir.res, expired := t.dir.expired }
    post := t.post
    ports := t.ports
    freeIndex := t.freeIndex }
  sets : ∀ q, ∃ slot, t.port q = { s.port q with slot := slot }
  mem : ∀ a rest, a :: rest <:+ as →
    (∃ q ∈ t.post.ordinary, q.result = a ∧ q.port = p) ∨ ∃ b ∈ rest, ¬ b.spares a
  plain : (∀ a ∈ as, a.retest = false) →
    t.post.ordinary.map (fun q => q.result) = s.post.ordinary.map (fun q => q.result) ++ as
  kept : ∀ x ∈ s.post.ordinary, x.inFlight = true ∨ (∀ a ∈ as, a.spares x.result) → ∃ y ∈ t.post.ordinary, x.lasts y
  busy : s.post.commit ≠ none → t.post.commit ≠ none ∧ t.post.ordinary.map (fun q => (q.result, q.inFlight)) =
    as.foldl arriveBusy (s.post.ordinary.map (fun q => (q.result, q.inFlight)))
  fewer : t.post.ordinary.length ≤ s.post.ordinary.length + as.length
  counted : as ≠ [] → t.run.counters.postsSuperseded = min 65535 (s.run.counters.postsSuperseded
    + (s.post.ordinary.length + as.length - t.post.ordinary.length))
  recalled : t.post.recallBuf.map (fun q => q.result) = s.post.recallBuf.map (fun q => q.result)
  nothing : as = [] → t.post = s.post ∧ t.ports = s.ports ∧ t.run = s.run ∧ t.freeIndex = s.freeIndex

/-- A change of the resources posts nothing. -/
theorem postedInTurn_nothing (p : PortId)
    (h : t = { s with dir := { s.dir with res := t.dir.res, expired := t.dir.expired } }) : PostedInTurn p [] s t := by
  have hpost : t.post = s.post := by rw [h]
  have hports : ∀ q, t.port q = s.port q := fun q => by
    rw [h]
    rfl
  refine ⟨by rw [h], fun q => ⟨_, hports q⟩, fun a rest hs => ?_, fun _ => ?_, fun x hx _ => ?_, fun hc => ?_, ?_,
    fun hne => absurd rfl hne, by rw [hpost], fun _ => ⟨hpost, by rw [h], by rw [h], by rw [h]⟩⟩
  · exact absurd (List.suffix_nil.mp hs) (List.cons_ne_nil a rest)
  · rw [hpost, List.append_nil]
  · exact ⟨x, hpost ▸ hx, rfl, rfl, rfl, id⟩
  · rw [hpost]
    exact ⟨hc, rfl⟩
  · rw [hpost]
    exact Nat.le_add_right _ _

/-- The posting of one holding. -/
theorem postHolding_inTurn (h : (s.res r).lease = .heldUnposted p since a) : PostedInTurn p [a] s (s.postHolding r) := by
  have harrived := postHolding_arrived h
  have hmem := postHolding_mem h
  have hresults := postHolding_results h
  have hrecall := postHolding_recall h
  have hcommit := postHolding_commit h
  have hcount := length_stayingFor s a
  obtain ⟨f, hf, hbusy, hpost⟩ := harrived.post
  generalize s.postHolding r = t at *
  have hordinary : t.post.ordinary = (s.stayingFor a ++ [s.postedOf a p]).map f := by
    rw [hpost]
    rfl
  have hlength : t.post.ordinary.length = (s.stayingFor a).length + 1 := by
    rw [hordinary, List.length_map, List.length_append, List.length_singleton]
  have hsuperseded : t.run.counters.postsSuperseded =
      min 65535 (s.run.counters.postsSuperseded + (s.cancelledFor a).length) :=
    (congrArg (fun v : State => v.run.counters.postsSuperseded) harrived.frame :)
  refine ⟨?_, harrived.sets, fun b rest hs => ?_, fun hplain => ?_, fun x hx hspared => ?_, fun hc => ⟨?_, ?_⟩, ?_,
    fun _ => ?_, hrecall, nofun⟩
  · rw [harrived.frame]
    rfl
  · have hb : b = a := by
      rcases List.suffix_cons_iff.mp hs with heq | hnil
      · exact (List.cons.inj heq).1
      · exact absurd (List.suffix_nil.mp hnil) (List.cons_ne_nil b rest)
    rw [hb]
    exact Or.inl hmem
  · rw [hresults, stayingFor_of_plain (hplain a (List.mem_singleton_self a))]
  · have hstays : cancelledBy a x = false :=
      spares_iff.mpr (hspared.imp id fun hall => hall a (List.mem_singleton_self a))
    have hin : x ∈ s.stayingFor a := List.mem_filter.mpr ⟨hx, by rw [hstays]; rfl⟩
    refine ⟨f x, ?_, (hf x).lasts⟩
    rw [hordinary]
    exact List.mem_map_of_mem (List.mem_append_left _ hin)
  · exact Option.isSome_iff_ne_none.mp hcommit
  · have hid : f = id := hbusy hc
    rw [hordinary, hid, List.map_id, List.map_append, List.foldl_cons, List.foldl_nil]
    unfold arriveBusy State.stayingFor
    rw [List.filter_map]
    refine congrArg (· ++ _) (congrArg _ (List.filter_congr fun x _ => ?_))
    rw [← cancelledBy_eq]
    rfl
  · rw [hlength, List.length_singleton]
    omega
  · rw [hsuperseded, hlength, List.length_singleton]
    congr 2
    omega

theorem PostedInTurn.after (h : PostedInTurn p [] s t) (h' : PostedInTurn p as t u) : PostedInTurn p as s u := by
  obtain ⟨hpost, hports, hrun, hfree⟩ := h.nothing rfl
  refine ⟨?_, fun q => ?_, h'.mem, fun hplain => ?_, fun x hx hspared => h'.kept x (hpost ▸ hx) hspared, fun hc => ?_, ?_,
    fun hne => ?_, ?_, fun hnil => ?_⟩
  · rw [h'.frame, h.frame]
  · obtain ⟨slot, hq⟩ := h'.sets q
    have hport : t.port q = s.port q := congrArg (Table.rd · q) hports
    exact ⟨slot, hport ▸ hq⟩
  · rw [h'.plain hplain, hpost]
  · rw [← hpost] at hc ⊢
    exact h'.busy hc
  · rw [← hpost]
    exact h'.fewer
  · rw [h'.counted hne, hpost, hrun]
  · rw [h'.recalled, hpost]
  · obtain ⟨hpost', hports', hrun', hfree'⟩ := h'.nothing hnil
    exact ⟨hpost'.trans hpost, hports'.trans hports, hrun'.trans hrun, hfree'.trans hfree⟩

theorem PostedInTurn.cons (h : PostedInTurn p [a] s t) (h' : PostedInTurn p as t u) : PostedInTurn p (a :: as) s u := by
  have hcount := h.counted (List.cons_ne_nil a [])
  have hfewer := h.fewer
  have hfewer' := h'.fewer
  rw [List.length_singleton] at hcount hfewer
  refine ⟨?_, fun q => ?_, fun b rest hs => ?_, fun hplain => ?_, fun x hx hspared => ?_, fun hc => ?_, ?_, fun _ => ?_, ?_, nofun⟩
  · rw [h'.frame, h.frame]
  · obtain ⟨slot, hq⟩ := h.sets q
    obtain ⟨slot', hq'⟩ := h'.sets q
    exact ⟨slot', by rw [hq', hq]⟩
  · rcases List.suffix_cons_iff.mp hs with heq | hs
    · obtain ⟨rfl, rfl⟩ := List.cons.inj heq
      rcases h.mem b [] List.suffix_rfl with ⟨x, hx, hresult, hport⟩ | ⟨_, hmem, -⟩
      · by_cases hspared : ∀ c ∈ rest, c.spares b
        · obtain ⟨y, hy, -, hresult', hport', -⟩ := h'.kept x hx (Or.inr (by rw [hresult]; exact hspared))
          exact Or.inl ⟨y, hy, hresult'.trans hresult, hport'.trans hport⟩
        · refine Or.inr ?_
          simpa using hspared
      · cases hmem
    · exact h'.mem b rest hs
  · rw [h'.plain fun b hb => hplain b (List.mem_cons_of_mem a hb),
      h.plain fun b hb => hplain b (by rw [List.mem_singleton.mp hb]; exact List.mem_cons_self)]
    exact List.append_cons .. |>.symm
  · obtain ⟨y, hy, hlasts⟩ := h.kept x hx (hspared.imp id fun hall b hb =>
      hall b (by rw [List.mem_singleton.mp hb]; exact List.mem_cons_self))
    have ⟨_, hresult, _, hflight⟩ := hlasts
    obtain ⟨z, hz, hlasts'⟩ := h'.kept y hy (hspared.imp hflight fun hall b hb => by
      rw [hresult]
      exact hall b (List.mem_cons_of_mem a hb))
    exact ⟨z, hz, hlasts.trans hlasts'⟩
  · obtain ⟨hc', hmarks⟩ := h.busy hc
    obtain ⟨hc'', hmarks'⟩ := h'.busy hc'
    exact ⟨hc'', by rw [hmarks', hmarks]; rfl⟩
  · rw [List.length_cons]
    omega
  · cases as with
    | nil =>
      obtain ⟨hpost, -, hrun, -⟩ := h'.nothing rfl
      rw [hrun, hpost, hcount]
      rfl
    | cons c cs =>
      rw [h'.counted (List.cons_ne_nil c cs), hcount]
      simp only [List.length_cons] at hfewer' ⊢
      omega
  · rw [h'.recalled, h.recalled]

/-! ## The holdings in number order -/

theorem mem_inNumberOrder {rs : List ResId} : r ∈ inNumberOrder rs ↔ r ∈ rs := by
  simp [inNumberOrder, allResources, List.mem_finRange]

theorem inNumberOrder_sorted (rs : List ResId) : (inNumberOrder rs).Pairwise (· < ·) :=
  (List.pairwise_lt_finRange 32).filter _

/-- A member of the picked values of a sorted list, with what is picked behind it. -/
theorem suffix_of_picked {f : ResId → Option Accumulator} {ns : List ResId} (hns : ns.Pairwise (· < ·)) (hr : r ∈ ns)
    (ha : f r = some a) : ∃ rest, a :: rest <:+ ns.filterMap f ∧ ∀ b ∈ rest, ∃ r' ∈ ns, r < r' ∧ f r' = some b := by
  induction ns with
  | nil => cases hr
  | cons n ns ih =>
    obtain ⟨hbehind, hns⟩ := List.pairwise_cons.mp hns
    rcases List.mem_cons.mp hr with rfl | hr
    · refine ⟨ns.filterMap f, ?_, fun b hb => ?_⟩
      · rw [List.filterMap_cons_some ha]
      · obtain ⟨r', hr', hb⟩ := List.mem_filterMap.mp hb
        exact ⟨r', List.mem_cons_of_mem r hr', hbehind r' hr', hb⟩
    · obtain ⟨rest, hsuffix, hrest⟩ := ih hns hr
      refine ⟨rest, ?_, fun b hb => ?_⟩
      · rw [List.filterMap_cons]
        split
        · exact hsuffix
        · exact hsuffix.trans (List.suffix_cons ..)
      · obtain ⟨r', hr', hlt⟩ := hrest b hb
        exact ⟨r', List.mem_cons_of_mem n hr', hlt⟩

end Sys2Proof.Machine

end

