-- ==== Sys2Proof/Proofs/Releases.lean ====
section
/-! SUPPORT. Sys2Proof/Proofs/Releases.lean: the request RELEASE (R48, R49). -/

namespace Sys2Proof.Machine

variable {s t u : State} {p : PortId} {r : ResId} {rs : List ResId} {tag : Byte}

/-! ## Resources taken in turn, their holdings posted -/

/-- A holding of the resource would be posted by the port. -/
def Resource.postsFor (p : PortId) (x : Resource) : Prop := ∀ q since a, x.lease = .heldUnposted q since a → q = p

theorem postsFor_of_holder {x : Resource} (h : x.lease.holder = some p) : x.postsFor p := fun q since a hlease => by
  rw [hlease] at h
  exact Option.some.inj h

theorem foldl_postedInTurn {f : State → ResId → State} {g : Resource → Resource}
    (hf : ∀ u r, (u.res r).postsFor p → PostedInTurn p (u.res r).lease.holding.toList u (f u r)
      ∧ ∀ q, (f u r).res q = if q = r then g (u.res r) else u.res q)
    (rs : List ResId) (hrs : rs.Nodup) (s : State) (hown : ∀ r ∈ rs, (s.res r).postsFor p) :
    PostedInTurn p (rs.filterMap (fun r => (s.res r).lease.holding)) s (rs.foldl f s)
    ∧ ∀ r, (rs.foldl f s).res r = if r ∈ rs then g (s.res r) else s.res r := by
  induction rs generalizing s with
  | nil => exact ⟨postedInTurn_nothing p rfl, fun _ => rfl⟩
  | cons a rs ih =>
    obtain ⟨ha, hrest⟩ := List.nodup_cons.mp hrs
    obtain ⟨hone, hres⟩ := hf s a (hown a List.mem_cons_self)
    have hother : ∀ r ∈ rs, (f s a).res r = s.res r := fun r hr => (hres r).trans (if_neg (ne_of_mem_of_not_mem hr ha))
    obtain ⟨hmany, hres'⟩ := ih hrest (f s a) fun r hr => by
      rw [hother r hr]
      exact hown r (List.mem_cons_of_mem a hr)
    have hholdings : rs.filterMap (fun r => ((f s a).res r).lease.holding) =
        rs.filterMap (fun r => (s.res r).lease.holding) :=
      List.filterMap_congr fun r hr => by rw [hother r hr]
    rw [hholdings] at hmany
    rw [List.foldl_cons]
    refine ⟨?_, fun r => (hres' r).trans ?_⟩
    · cases hholding : (s.res a).lease.holding with
      | none =>
        rw [hholding] at hone
        rw [List.filterMap_cons, hholding]
        exact hone.after hmany
      | some b =>
        rw [hholding] at hone
        rw [List.filterMap_cons, hholding]
        exact hone.cons hmany
    · by_cases hra : r = a
      · subst hra
        rw [if_neg ha, if_pos List.mem_cons_self, hres, if_pos rfl]
      · rw [hres, if_neg hra]
        simp only [List.mem_cons, hra, false_or]

theorem filterMap_eq_nil_of_filter (rs : List ResId) (s : State)
    (h : (rs.filter (fun r => (s.res r).lease.holding.isSome)).length = 0) :
    (inNumberOrder rs).filterMap (fun r => (s.res r).lease.holding) = [] := by
  rw [List.filterMap_eq_nil_iff]
  intro r hr
  have hnone := List.filter_eq_nil_iff.mp (List.length_eq_zero_iff.mp h) r (mem_inNumberOrder.mp hr)
  simpa using hnone

theorem nodup_inNumberOrder (rs : List ResId) : (inNumberOrder rs).Nodup := (List.nodup_finRange 32).filter _

/-! ## One resource released -/

/-- A resource that a port has released. -/
def Resource.releasedBy (p : PortId) (x : Resource) : Resource :=
  if x.lease.holder.isSome then x.freed else x.unwatchedBy p

theorem freeRes_inTurn (s : State) (r : ResId) : PostedInTurn p [] s (s.freeRes r) := postedInTurn_nothing p rfl

theorem releaseOne_spec (u : State) (r : ResId) (hown : (u.res r).postsFor p) :
    PostedInTurn p (u.res r).lease.holding.toList u (u.releaseOne p r)
    ∧ ∀ q, (u.releaseOne p r).res q = if q = r then (u.res r).releasedBy p else u.res q := by
  unfold State.releaseOne
  cases hlease : (u.res r).lease with
  | heldUnposted h since a =>
    obtain rfl := hown h since a hlease
    have hres := postHolding_res hlease
    refine ⟨(postHolding_inTurn hlease).cons (freeRes_inTurn _ r), fun q => (res_freeRes ..).trans ?_⟩
    simp only [Resource.releasedBy, hlease]
    by_cases hq : q = r
    · rw [if_pos hq, if_pos hq, hres, if_pos rfl]
      rfl
    · rw [if_neg hq, if_neg hq, hres, if_neg hq]
  | held h since =>
    refine ⟨freeRes_inTurn u r, fun q => (res_freeRes ..).trans ?_⟩
    simp only [Resource.releasedBy, hlease]
    rfl
  | watched ws =>
    refine ⟨postedInTurn_nothing p rfl, fun q => (res_modRes ..).trans ?_⟩
    simp only [Resource.releasedBy, Resource.unwatchedBy, hlease]
    rfl
  | free =>
    refine ⟨postedInTurn_nothing p rfl, fun q => ?_⟩
    simp only [Resource.releasedBy, Resource.unwatchedBy, hlease]
    split
    · next hq =>
      rw [hq]
      rfl
    · rfl

theorem releasedBy_held {x : Resource} (h : x.lease.holder = some p) : x.releasedBy p = x.freed := by
  rw [Resource.releasedBy, h]
  rfl

theorem releasedBy_watched {x : Resource} (h : x.lease.holder = none) : x.releasedBy p = x.unwatchedBy p := by
  rw [Resource.releasedBy, h]
  rfl

theorem releasedBy_watchers (p : PortId) (x : Resource) :
    (x.releasedBy p).lease.watchers = PortSet.drop x.lease.watchers p ∧ (x.releasedBy p).lease.holder = none := by
  cases hlease : x.lease.holder with
  | none =>
    rw [releasedBy_watched hlease, ← hlease]
    exact unwatchedBy_watchers p x
  | some q =>
    have hnobody : x.lease.watchers = 0 := by
      cases h : x.lease with
      | watched ws =>
        rw [h] at hlease
        cases hlease
      | _ => rfl
    have hdropped : PortSet.drop 0 p = 0 := portSet_ext fun q => by rw [has_drop, has_nobody]; rfl
    rw [Resource.releasedBy, hlease, hnobody, hdropped]
    exact ⟨rfl, rfl⟩

/-- The releases of a request, in number order. -/
def State.releaseAll (s : State) (p : PortId) (rs : List ResId) : State :=
  (inNumberOrder rs).foldl (fun u r => u.releaseOne p r) s

theorem releaseAll_spec (s : State) (hmine : ∀ r ∈ rs, s.holds p r = true ∨ s.watches p r = true) :
    PostedInTurn p ((inNumberOrder rs).filterMap (fun r => (s.res r).lease.holding)) s (s.releaseAll p rs)
    ∧ ∀ r, (s.releaseAll p rs).res r = if r ∈ rs then (s.res r).releasedBy p else s.res r := by
  have hown : ∀ r ∈ inNumberOrder rs, (s.res r).postsFor p := fun r hr => by
    rcases hmine r (mem_inNumberOrder.mp hr) with hheld | hwatched
    · exact postsFor_of_holder (of_decide_eq_true hheld)
    · intro q since a hlease
      unfold State.watches at hwatched
      rw [hlease] at hwatched
      cases (has_nobody p).symm.trans hwatched
  obtain ⟨hturn, hres⟩ := foldl_postedInTurn (f := fun u r => u.releaseOne p r) (g := Resource.releasedBy p)
    releaseOne_spec (inNumberOrder rs) (nodup_inNumberOrder rs) s hown
  simp only [mem_inNumberOrder] at hres
  exact ⟨hturn, hres⟩

/-! ## The request, by its conditions in their order -/

section Bodies

variable (p tag) (hgood : s.resourcesGood rs)

include hgood

theorem bodyRelease_bytes : bodyRelease p tag (enResources rs) s =
    if rs.any (fun r => !s.holds p r && !s.watches p r) then refuse s .notHeld
    else if rs.any (fun r => (s.res r).naming.isSome) then refuse s .busy
    else if s.freeBuffers < s.unposted rs then refuse s .postFull
    else accept (s.releaseAll p rs).grantPass.checkClosing (u8 (s.unposted rs)) := by
  have hlist : s.resListOf (BitVec.ofNat 8 rs.length) (enSeq (fun r : ResId => u8 r.val) rs) = some rs :=
    resListOf_eq_some_iff.mpr ⟨hgood, rfl⟩
  show bodyRelease p tag (BitVec.ofNat 8 rs.length :: enSeq (fun r : ResId => u8 r.val) rs) s = _
  simp only [bodyRelease, hlist]
  rfl

theorem bodyRelease_notHeld (hmine : ¬ ∀ r ∈ rs, s.holds p r = true ∨ s.watches p r = true) :
    bodyRelease p tag (enResources rs) s = refuse s .notHeld := by
  rw [bodyRelease_bytes p tag hgood]
  refine if_pos ?_
  push Not at hmine
  obtain ⟨r, hr, hholds, hwatches⟩ := hmine
  exact List.any_eq_true.mpr ⟨r, hr, by simp [hholds, hwatches]⟩

variable (hmine : ∀ r ∈ rs, s.holds p r = true ∨ s.watches p r = true)

include hmine

theorem bodyRelease_mine : bodyRelease p tag (enResources rs) s =
    if rs.any (fun r => (s.res r).naming.isSome) then refuse s .busy
    else if s.freeBuffers < s.unposted rs then refuse s .postFull
    else accept (s.releaseAll p rs).grantPass.checkClosing (u8 (s.unposted rs)) := by
  rw [bodyRelease_bytes p tag hgood]
  refine if_neg fun hany => ?_
  obtain ⟨r, hr, hnot⟩ := List.any_eq_true.mp hany
  rcases hmine r hr with h | h <;> simp [h] at hnot

theorem bodyRelease_busy (hnamed : ¬ ∀ r ∈ rs, (s.res r).naming = none) :
    bodyRelease p tag (enResources rs) s = refuse s .busy := by
  rw [bodyRelease_mine p tag hgood hmine]
  refine if_pos ?_
  push Not at hnamed
  obtain ⟨r, hr, hnaming⟩ := hnamed
  exact List.any_eq_true.mpr ⟨r, hr, Option.isSome_iff_ne_none.mpr hnaming⟩

theorem bodyRelease_unnamed (hunnamed : ∀ r ∈ rs, (s.res r).naming = none) : bodyRelease p tag (enResources rs) s =
    if s.freeBuffers < s.unposted rs then refuse s .postFull
    else accept (s.releaseAll p rs).grantPass.checkClosing (u8 (s.unposted rs)) := by
  rw [bodyRelease_mine p tag hgood hmine]
  refine if_neg fun hany => ?_
  obtain ⟨r, hr, hsome⟩ := List.any_eq_true.mp hany
  rw [hunnamed r hr] at hsome
  cases hsome

end Bodies

end Sys2Proof.Machine

open Sys2Proof Sys2Proof.Machine

/-- Settles O30. -/
theorem releaseFreesWhatIsNamed : Obligations.ReleaseFreesWhatIsNamed := by
  unfold Obligations.ReleaseFreesWhatIsNamed
  intro s p tag rs filler cut answers mine unnamed unposted holdings hlow hhigh hnodup hfit hadm
  have hgood : (s.working .release p tag).resourcesGood rs := ⟨hlow, hhigh, hnodup, hfit⟩
  have hall : mine → unnamed → unposted ≤ 4 - s.post.ordinary.length → answers
      (((s.working .release p tag).releaseAll p rs).grantPass.checkClosing.answerOk .release p tag (u8 unposted)) :=
    fun hmine hunnamed hroom => exec_accepted hadm ((bodyRelease_unnamed p tag hgood hmine hunnamed).trans
      (if_neg (Nat.not_lt.mpr hroom)))
  refine ⟨fun hnot => exec_refused hadm (bodyRelease_notHeld p tag hgood hnot),
    fun hmine hnamed => exec_refused hadm (bodyRelease_busy p tag hgood hmine hnamed),
    fun hmine hunnamed hfull => exec_refused hadm ((bodyRelease_unnamed p tag hgood hmine hunnamed).trans (if_pos hfull)),
    hall, fun hmine hunnamed hroom hwaits hrunning => ?_, fun hmine hunnamed hnone hwaits hclosing => ?_⟩
  · have hexec := hall hmine hunnamed hroom
    obtain ⟨hturn, hres⟩ := releaseAll_spec (s := s.working .release p tag) hmine
    generalize (s.working .release p tag).releaseAll p rs = u at *
    have hpass : u.grantPass = u := grantPass_of_empty ((congrArg (fun v => v.dir.waits) hturn.frame :).trans hwaits)
    have hstate : u.run.state = .running := (congrArg (fun v => v.run.state) hturn.frame :).trans hrunning
    have hopen : u.checkClosing = u := checkClosing_stays fun h => by
      rw [hstate] at h
      cases h
    rw [hpass, hopen] at hexec
    have hportKept : holdings = [] → ∀ q, q ≠ p →
        (u.answerOk .release p tag (u8 unposted)).port q = s.port q := fun hnil q hq => by
      obtain ⟨-, hports, -⟩ := hturn.nothing hnil
      refine ((port_answer ..).trans (if_neg hq)).trans ?_
      exact (congrArg (Table.rd · q) hports).trans (working_port_other hq)
    have hnotices : ∀ q, ((u.answerOk .release p tag (u8 unposted)).port q).notices = (s.port q).notices := fun q => by
      obtain ⟨slot, hq⟩ := hturn.sets q
      refine (port_answer_sets ..).1.trans ((congrArg AgentPort.notices hq).trans ?_)
      exact (port_working_fields .release q).1
    refine ⟨_, hexec, fun r hr hheld => ?_, fun r hr hwatched => ?_, fun r hr => (hres r).trans (if_neg hr),
      fun r hr a ha => ?_, hturn.plain, fun x hx hspared => ?_, hturn.counted, answer_slot .., hnotices, ?_, ?_,
      fun hzero => ?_⟩
    · have hfreed : u.res r = (s.res r).freed :=
        ((hres r).trans (if_pos hr)).trans (releasedBy_held (of_decide_eq_true hheld))
      exact ⟨(congrArg Resource.lease hfreed :), (congrArg Resource.recallState hfreed :)⟩
    · have hreleased : u.res r = (s.res r).releasedBy p := (hres r).trans (if_pos hr)
      obtain ⟨hwatchers, -⟩ := releasedBy_watchers p (s.res r)
      have hdropped : (u.res r).lease.watchers = PortSet.drop (s.res r).lease.watchers p := by rw [hreleased, hwatchers]
      refine ⟨?_, hdropped⟩
      refine (congrArg (fun ws => PortSet.has ws p) hdropped).trans ((has_drop ..).trans ?_)
      simp
    · obtain ⟨rest, hsuffix, hrest⟩ := suffix_of_picked (f := fun r => (s.res r).lease.holding)
        (inNumberOrder_sorted rs) (mem_inNumberOrder.mpr hr) ha
      refine (hturn.mem a rest hsuffix).imp id fun ⟨b, hb, hnot⟩ => ?_
      obtain ⟨r', hr', hlt, hholding⟩ := hrest b hb
      obtain ⟨hretest, hlink, hdir⟩ := not_spares_iff.mp hnot
      exact ⟨r', mem_inNumberOrder.mp hr', hlt, b, hholding, hretest, hlink, hdir⟩
    · obtain ⟨y, hy, hserial, hresult, hport, -⟩ := hturn.kept x hx hspared
      exact ⟨y, hy, hserial, hresult, hport⟩
    · have hframe := hturn.frame
      generalize hv : u.answerOk .release p tag (u8 unposted) = v
      have hans : v = { u with ports := v.ports } := by
        rw [← hv]
        rfl
      rw [hans, hframe]
      rfl
    · exact (congrArg State.run hturn.frame :)
    · obtain ⟨hpost, -, hrun, hfree⟩ := hturn.nothing (filterMap_eq_nil_of_filter rs s hzero)
      refine ⟨hportKept (filterMap_eq_nil_of_filter rs s hzero), ?_⟩
      have hframe := hturn.frame
      generalize hv : u.answerOk .release p tag (u8 unposted) = v
      have hans : v = { u with ports := v.ports } := by
        rw [← hv]
        rfl
      rw [hans, hframe, hpost, hrun, hfree]
      rfl
  · have hexec := hall hmine hunnamed (by rw [hnone]; exact Nat.zero_le _)
    obtain ⟨hturn, hres⟩ := releaseAll_spec (s := s.working .release p tag) hmine
    generalize (s.working .release p tag).releaseAll p rs = u at *
    have hpass : u.grantPass = u := grantPass_of_empty ((congrArg (fun v => v.dir.waits) hturn.frame :).trans hwaits)
    have hstate : u.run.state = .closing := (congrArg (fun v => v.run.state) hturn.frame :).trans hclosing
    rw [hpass] at hexec
    intro atRest
    have hrest : u.atRest = true ↔ atRest := by
      obtain ⟨hpost, -, -, -⟩ := hturn.nothing (filterMap_eq_nil_of_filter rs s hnone)
      have hwin : ∀ w, u.win w = s.win w := fun w => (congrArg (fun v : State => v.win w) hturn.frame :)
      have hpost' : u.post = s.post := hpost
      have hholders : (∀ r, (u.res r).lease.holder = none) ↔ ∀ q, q ∉ rs → (s.res q).lease.holder = none := by
        refine forall_congr' fun q => ?_
        rw [hres]
        by_cases hq : q ∈ rs
        · rw [if_pos hq]
          exact ⟨fun _ hnot => absurd hq hnot, fun _ => (releasedBy_watchers p _).2⟩
        · rw [if_neg hq]
          exact ⟨fun h _ => h, fun h => h hq⟩
      rw [atRest_iff, hholders, hpost']
      simp only [hwin]
      exact and_left_comm
    have hclosed : atRest → EnteredClosed u u.checkClosing := fun h => checkClosing_closes hstate (hrest.mpr h)
    have hopen : ¬ atRest → u.checkClosing = u := fun h =>
      checkClosing_stays fun _ => Bool.eq_false_iff.mpr fun h' => h (hrest.mp h')
    have hdir : u.checkClosing.dir = u.dir := (congrArg State.dir (checkClosing_frame u).1 :)
    generalize u.checkClosing = t at *
    refine ⟨_, hexec, fun r hr hheld => ?_, fun h => ?_, fun h => ?_⟩
    · have hfreed : u.res r = (s.res r).freed :=
        ((hres r).trans (if_pos hr)).trans (releasedBy_held (of_decide_eq_true hheld))
      have hsame : t.res r = u.res r := congrArg (fun x : LeaseDirectory => Table.rd x.res r) hdir
      exact (congrArg Resource.lease (hsame.trans hfreed) :)
    · have hent := hclosed h
      refine ⟨(congrArg RunRecord.state hent.run :), hent.list, fun q => ?_⟩
      rw [State.answerOk, noticed_answer]
      exact hent.noticed q
    · rw [hopen h]
      exact hstate

end

