-- ==== Sys2Proof/Proofs/OpenWindows.lean ====
section
/-! SUPPORT. Sys2Proof/Proofs/OpenWindows.lean: the request OPEN_WINDOW (R67 to R69). -/

namespace Sys2Proof.Machine

variable {s t u : State} {p : PortId} {r : ResId} {o : OpenParams} {k : Link} {w : WinId} {tag : Byte} {rs : List ResId}

/-! ## The window opened -/

/-- A resource whose holding has been posted. -/
def Resource.posted (x : Resource) : Resource :=
  match x.lease with
  | .heldUnposted p since _ => { x with lease := .held p since }
  | .held _ _ => x
  | .free => x
  | .watched _ => x

theorem posted_lease (x : Resource) : x.posted.lease.holder = x.lease.holder ∧ x.posted.lease.holding = none
    ∧ x.posted.lease.since = x.lease.since := by
  unfold Resource.posted
  cases hlease : x.lease with
  | heldUnposted p since a => exact ⟨rfl, rfl, rfl⟩
  | _ => exact ⟨by rw [hlease], by rw [hlease]; rfl, by rw [hlease]⟩

theorem postHolding_spec (u : State) (r : ResId) (hown : (u.res r).postsFor p) :
    PostedInTurn p (u.res r).lease.holding.toList u (u.postHolding r)
    ∧ ∀ q, (u.postHolding r).res q = if q = r then (u.res r).posted else u.res q := by
  cases hlease : (u.res r).lease with
  | heldUnposted h since a =>
    obtain rfl := hown h since a hlease
    refine ⟨postHolding_inTurn hlease, fun q => (postHolding_res hlease q).trans ?_⟩
    simp only [Resource.posted, hlease]
  | _ =>
    rw [postHolding_none (by rw [hlease]; rfl)]
    refine ⟨postedInTurn_nothing p rfl, fun q => ?_⟩
    simp only [Resource.posted, hlease]
    split
    · next hq => rw [hq]
    · rfl

/-- What the opening of a window makes of the hub. -/
structure Opened (s : State) (p : PortId) (w : WinId) (x : Window) (named : List ResId) (t : State) : Prop where
  turn : ∃ u, PostedInTurn p (named.filterMap (fun r => (s.res r).lease.holding)) s u
    ∧ t = { u with dir := { u.dir with res := t.dir.res }, eng := { u.eng with wins := t.eng.wins } }
  win : ∀ v, t.win v = if v = w then some x else s.win v
  res : ∀ r, t.res r = if r ∈ named then { (s.res r).posted with naming := some w } else s.res r

theorem openWindow_opened (hnamed : rs.Nodup) (hholds : ∀ r ∈ rs, s.holds p r = true) :
    Opened s p w (openedWindow p k o rs) rs (s.openWindow p w k o rs) := by
  obtain ⟨hturn, hres⟩ := foldl_postedInTurn (f := fun u r => u.postHolding r) (g := Resource.posted)
    postHolding_spec rs hnamed s fun r hr => postsFor_of_holder (of_decide_eq_true (hholds r hr))
  unfold State.openWindow
  generalize rs.foldl (fun u r => u.postHolding r) s = u at *
  dsimp only
  have hwin : ∀ v, (u.setWin w (some (openedWindow p k o rs))).win v =
      if v = w then some (openedWindow p k o rs) else s.win v := fun v => by
    rw [win_setWin]
    have huwin : u.win v = s.win v := (congrArg (fun t : State => t.win v) hturn.frame :)
    rw [huwin]
  obtain ⟨res, hnames, hnaming⟩ := foldl_setNaming (some w) rs (u.setWin w (some (openedWindow p k o rs)))
  rw [hnames]
  refine ⟨⟨u, hturn, rfl⟩, hwin, fun r => (hnaming r).trans ?_⟩
  have hures : (u.setWin w (some (openedWindow p k o rs))).res r = if r ∈ rs then (s.res r).posted else s.res r := hres r
  rw [hures]
  by_cases hr : r ∈ rs
  · simp only [if_pos hr]
  · simp only [if_neg hr]

/-! ## The conditions in their order (R67, R69) -/

/-- The resources that the window names. -/
def State.namedBy (s : State) (k : Link) (o : OpenParams) : List ResId := inNumberOrder (s.gensOf k o ++ chksOf k o)

/-- The number of holdings that the opening posts. -/
def State.namedUnposted (s : State) (rs : List ResId) : Nat :=
  (rs.filter (fun r => (s.res r).lease.holding.isSome)).length

section Fits

variable (p tag) (hrange : o.inRange = true) (hlink : s.link o.victim = some k) (hfit : s.openParamsFit k o = true)

include hrange hlink hfit

theorem bodyOpenWindow_refuses {st : Status} (hrefusal : s.openRefusal p o (s.namedBy k o) = some st) :
    bodyOpenWindow p tag (enOpenParams o) s = refuse s st := by
  simp only [bodyOpenWindow, getOpenParams_enOpenParams hrange, hlink, hfit, Bool.not_true, Bool.false_eq_true, if_false]
  have hst : s.openRefusal p o (inNumberOrder (s.gensOf k o ++ chksOf k o)) = some st := hrefusal
  rw [hst]

theorem bodyOpenWindow_opens (hrefusal : s.openRefusal p o (s.namedBy k o) = none)
    (hidle : allWindows.find? (fun w => (s.win w).isNone) = some w) :
    bodyOpenWindow p tag (enOpenParams o) s = accept (s.openWindow p w k o (s.namedBy k o))
      (u8 w.val ++ u8 (s.namedUnposted (s.namedBy k o))) := by
  simp only [bodyOpenWindow, getOpenParams_enOpenParams hrange, hlink, hfit, Bool.not_true, Bool.false_eq_true, if_false]
  have hst : s.openRefusal p o (inNumberOrder (s.gensOf k o ++ chksOf k o)) = none := hrefusal
  rw [hst, hidle]
  rfl

end Fits

/-- The links of the window are FITTED. -/
def State.linksFit (s : State) (o : OpenParams) : Prop :=
  s.linkIs o.victim .fitted = true ∧ ∀ a ∈ o.aggressors, s.linkIs a.link .fitted = true

theorem openRefusal_withdrawn (h : ¬ s.linksFit o) : s.openRefusal p o rs = some .withdrawn := by
  refine if_pos ?_
  rw [Bool.or_eq_true, List.any_eq_true]
  by_cases hvictim : s.linkIs o.victim .fitted = true
  · refine Or.inr ?_
    have hall : ¬ ∀ a ∈ o.aggressors, s.linkIs a.link .fitted = true := fun hall => h ⟨hvictim, hall⟩
    push Not at hall
    obtain ⟨a, ha, hnot⟩ := hall
    exact ⟨a, ha, by simpa using hnot⟩
  · exact Or.inl (by simpa using hvictim)

/-- The refusals of R69 once the links are FITTED. -/
theorem openRefusal_fitted (h : s.linksFit o) : s.openRefusal p o rs =
    if rs.any (fun r => !s.holds p r) then some .notHeld
    else if rs.any (fun r => decide ((s.res r).recallState ≠ .none)) then some .recalling
    else if rs.any (fun r => (s.res r).naming.isSome) then some .busy
    else if !allWindows.any (fun w => (s.win w).isNone) then some .noWindow
    else if s.freeBuffers < s.namedUnposted rs then some .postFull
    else none := by
  refine if_neg fun hany => ?_
  obtain ⟨hvictim, hall⟩ := h
  rw [Bool.or_eq_true, List.any_eq_true, hvictim] at hany
  rcases hany with hnot | ⟨a, ha, hnot⟩
  · cases hnot
  · rw [hall a ha] at hnot
    cases hnot

theorem any_iff_not_all {f : ResId → Bool} {P : ResId → Prop} (h : ∀ r, f r = true ↔ ¬ P r) (rs : List ResId) :
    rs.any f = true ↔ ¬ ∀ r ∈ rs, P r := by
  rw [List.any_eq_true]
  push Not
  exact exists_congr fun r => and_congr_right fun _ => h r

theorem any_notHeld (s : State) (p : PortId) (rs : List ResId) :
    rs.any (fun r => !s.holds p r) = true ↔ ¬ ∀ r ∈ rs, s.holds p r = true :=
  any_iff_not_all (fun r => by simp) rs

theorem any_recalling (s : State) (rs : List ResId) :
    rs.any (fun r => decide ((s.res r).recallState ≠ .none)) = true ↔ ¬ ∀ r ∈ rs, (s.res r).recallState = .none :=
  any_iff_not_all (fun r => by simp) rs

theorem any_named (s : State) (rs : List ResId) :
    rs.any (fun r => (s.res r).naming.isSome) = true ↔ ¬ ∀ r ∈ rs, (s.res r).naming = none :=
  any_iff_not_all (fun _ => Option.isSome_iff_ne_none) rs

theorem any_idle (s : State) : allWindows.any (fun w => (s.win w).isNone) = true ↔ ∃ w, s.win w = none := by
  rw [List.any_eq_true]
  exact exists_congr fun w => ⟨fun h => Option.isNone_iff_eq_none.mp h.2,
    fun h => ⟨List.mem_finRange w, Option.isNone_iff_eq_none.mpr h⟩⟩

section Conditions

variable (hlinks : s.linksFit o) (hheld : ∀ r ∈ rs, s.holds p r = true)

include hlinks hheld

theorem openRefusal_held : s.openRefusal p o rs =
    if rs.any (fun r => decide ((s.res r).recallState ≠ .none)) then some .recalling
    else if rs.any (fun r => (s.res r).naming.isSome) then some .busy
    else if !allWindows.any (fun w => (s.win w).isNone) then some .noWindow
    else if s.freeBuffers < s.namedUnposted rs then some .postFull
    else none := by
  rw [openRefusal_fitted hlinks]
  exact if_neg fun h => (any_notHeld s p rs).mp h hheld

variable (hcalm : ∀ r ∈ rs, (s.res r).recallState = .none)

include hcalm

theorem openRefusal_calm : s.openRefusal p o rs =
    if rs.any (fun r => (s.res r).naming.isSome) then some .busy
    else if !allWindows.any (fun w => (s.win w).isNone) then some .noWindow
    else if s.freeBuffers < s.namedUnposted rs then some .postFull
    else none := by
  rw [openRefusal_held hlinks hheld]
  exact if_neg fun h => (any_recalling s rs).mp h hcalm

variable (hunnamed : ∀ r ∈ rs, (s.res r).naming = none)

include hunnamed

theorem openRefusal_unnamed : s.openRefusal p o rs =
    if !allWindows.any (fun w => (s.win w).isNone) then some .noWindow
    else if s.freeBuffers < s.namedUnposted rs then some .postFull
    else none := by
  rw [openRefusal_calm hlinks hheld hcalm]
  exact if_neg fun h => (any_named s rs).mp h hunnamed

theorem openRefusal_idle (hidle : ∃ w, s.win w = none) : s.openRefusal p o rs =
    if s.freeBuffers < s.namedUnposted rs then some .postFull else none := by
  rw [openRefusal_unnamed hlinks hheld hcalm hunnamed, (any_idle s).mpr hidle]
  rfl

end Conditions

theorem lowest_idle (h : s.win w = none) (hlow : ∀ v, v < w → s.win v ≠ none) :
    allWindows.find? (fun w => (s.win w).isNone) = some w := by
  cases hfind : allWindows.find? (fun w => (s.win w).isNone) with
  | none =>
    have hnot := List.find?_eq_none.mp hfind w (List.mem_finRange w)
    simp [h] at hnot
  | some v =>
    obtain ⟨hv, before, behind, hsplit, hbefore⟩ := List.find?_eq_some_iff_append.mp hfind
    have hidle : s.win v = none := Option.isNone_iff_eq_none.mp hv
    have hmem : w ∈ before ++ v :: behind := hsplit ▸ List.mem_finRange w
    have hsorted : (before ++ v :: behind).Pairwise (· < ·) := hsplit ▸ List.pairwise_lt_finRange 8
    rcases List.mem_append.mp hmem with hw | hw
    · have hnot := hbefore w hw
      simp [h] at hnot
    · rcases List.mem_cons.mp hw with rfl | hw
      · rfl
      · have hlt := (List.pairwise_cons.mp (List.pairwise_append.mp hsorted).2.1).1 w hw
        exact absurd hidle (hlow v hlt)

end Sys2Proof.Machine

open Sys2Proof Sys2Proof.Machine

/-- Settles O36. -/
theorem openWindowFillsTheLowestIdleWindow : Obligations.OpenWindowFillsTheLowestIdleWindow := by
  unfold Obligations.OpenWindowFillsTheLowestIdleWindow
  refine ⟨?_, ?_, fun s p tag params filler cut hadm hbad => exec_badParam hadm hbad nofun⟩
  · intro s p o k w tag filler cut named holdings unposted hrange hadm hlink hfit hfitted haggressors hheld hroom hidle hlow
    have hholds : ∀ r ∈ named, (s.working .openWindow p tag).holds p r = true := fun r hr => (hheld r hr).1
    have hlinks : (s.working .openWindow p tag).linksFit o :=
      ⟨linkIs_iff.mpr ⟨k, hlink, hfitted⟩, haggressors⟩
    have hrefusal : (s.working .openWindow p tag).openRefusal p o named = none := by
      have hstep := openRefusal_idle (p := p) (rs := named) hlinks hholds (fun r hr => (hheld r hr).2.1)
        (fun r hr => (hheld r hr).2.2) ⟨w, hidle⟩
      exact hstep.trans (if_neg (Nat.not_lt.mpr hroom))
    have hexec := exec_accepted (cut := cut) hadm (bodyOpenWindow_opens (s := s.working .openWindow p tag) p tag hrange hlink
      hfit hrefusal (lowest_idle hidle hlow))
    have hopened : Opened (s.working .openWindow p tag) p w (openedWindow p k o named) named _ :=
      openWindow_opened (p := p) (k := k) (o := o) (w := w) (nodup_inNumberOrder _) hholds
    have hsame : (s.working .openWindow p tag).namedBy k o = named := rfl
    rw [hsame] at hexec
    generalize (s.working .openWindow p tag).openWindow p w k o named = t at *
    obtain ⟨u, hturn, hframe⟩ := hopened.turn
    have hpost : t.post = u.post := (congrArg State.post hframe :)
    have hres := hopened.res
    have hnames : ∀ r ∈ named, t.res r = { (s.res r).posted with naming := some w } := fun r hr => (hres r).trans (if_pos hr)
    refine ⟨_, hexec, (hopened.win w).trans (if_pos rfl), fun v hv => (hopened.win v).trans (if_neg hv), fun r hr => ?_,
      fun r hr => (hres r).trans (if_neg hr), fun r hr a ha => ?_, fun hplain => ?_, fun hnil => ?_, fun x hx hspared => ?_,
      fun hbusy => ?_, fun hne => ?_, ?_, answer_slot .., ?_, ?_, ?_, ?_, ?_⟩
    · obtain ⟨hholder, hholding, hsince⟩ := posted_lease (s.res r)
      have hr' := hnames r hr
      have hlease : (t.res r).lease = (s.res r).posted.lease := (congrArg Resource.lease hr' :)
      exact ⟨(congrArg Resource.naming hr' :), (congrArg Lease.holder hlease).trans
        (hholder.trans (of_decide_eq_true (hholds r hr))), (congrArg Lease.holding hlease).trans hholding,
        (congrArg Lease.since hlease).trans hsince⟩
    · obtain ⟨rest, hsuffix, hrest⟩ := suffix_of_picked (f := fun r => (s.res r).lease.holding)
        (inNumberOrder_sorted _) hr ha
      refine (hturn.mem a rest hsuffix).imp (fun ⟨q, hq, hend⟩ => ⟨q, hpost ▸ hq, hend⟩) fun ⟨b, hb, hnot⟩ => ?_
      obtain ⟨r', hr', hlt, hholding⟩ := hrest b hb
      obtain ⟨hretest, hlink, hdir⟩ := not_spares_iff.mp hnot
      exact ⟨r', hr', hlt, b, hholding, hretest, hlink, hdir⟩
    · exact (congrArg (fun x : PostQueue => x.ordinary.map (fun q => q.result)) hpost).trans (hturn.plain hplain)
    · exact hpost.trans (hturn.nothing hnil).1
    · obtain ⟨y, hy, hserial, hresult, hport, -⟩ := hturn.kept x hx hspared
      exact ⟨y, hpost ▸ hy, hserial, hresult, hport⟩
    · exact (congrArg (fun x : PostQueue => x.ordinary.map (fun q => (q.result, q.inFlight))) hpost).trans (hturn.busy hbusy).2
    · have hcount := hturn.counted hne
      rw [← hpost] at hcount
      exact (congrArg (fun v : State => v.run.counters.postsSuperseded) hframe :).trans hcount
    · exact (congrArg (fun x : PostQueue => x.recallBuf.map (fun q => q.result)) hpost).trans hturn.recalled
    · exact (congrArg State.map hframe :).trans (congrArg State.map hturn.frame :)
    · exact (congrArg State.table hframe :).trans (congrArg State.table hturn.frame :)
    · exact (congrArg State.setup hframe :).trans (congrArg State.setup hturn.frame :)
    · exact (congrArg State.sems hframe :).trans (congrArg State.sems hturn.frame :)
    · exact (congrArg (fun v => v.run.state) hframe :).trans (congrArg (fun v => v.run.state) hturn.frame :)
  · intro s p o k tag filler cut named answers linksOk held calm unnamed someIdle hrange hadm hlink hfit
    have hlinks : (s.working .openWindow p tag).linksFit o ↔ linksOk := by
      refine and_congr_left fun _ => linkIs_iff.trans ⟨fun ⟨k', hk, hstate⟩ => ?_, fun hstate => ⟨k, hlink, hstate⟩⟩
      obtain rfl := Option.some.inj (hlink.symm.trans hk)
      exact hstate
    have hanswers : ∀ st, (s.working .openWindow p tag).openRefusal p o named = some st → answers st := fun st hst =>
      exec_refused hadm (bodyOpenWindow_refuses (s := s.working .openWindow p tag) p tag hrange hlink hfit hst)
    refine ⟨fun hnot => hanswers _ (openRefusal_withdrawn fun h => hnot (hlinks.mp h)), fun hok hnot => hanswers _ ?_,
      fun hok hheld hnot => hanswers _ ?_, fun hok hheld hcalm hnot => hanswers _ ?_,
      fun hok hheld hcalm hunnamed hnot => hanswers _ ?_, fun hok hheld hcalm hunnamed hidle hfull => hanswers _ ?_⟩
    · exact (openRefusal_fitted (hlinks.mpr hok)).trans (if_pos ((any_notHeld _ p named).mpr hnot))
    · exact (openRefusal_held (hlinks.mpr hok) hheld).trans (if_pos ((any_recalling _ named).mpr hnot))
    · exact (openRefusal_calm (hlinks.mpr hok) hheld hcalm).trans (if_pos ((any_named _ named).mpr hnot))
    · refine (openRefusal_unnamed (hlinks.mpr hok) hheld hcalm hunnamed).trans (if_pos ?_)
      rw [Bool.not_eq_true', Bool.eq_false_iff]
      exact fun h => hnot ((any_idle _).mp h)
    · exact (openRefusal_idle (hlinks.mpr hok) hheld hcalm hunnamed hidle).trans (if_pos hfull)

end

