-- ==== Sys2Proof/Proofs/Recalls.lean ====
section
/-! SUPPORT. Sys2Proof/Proofs/Recalls.lean: forced releases and the deadline of a recall (R55, R56). -/

namespace Sys2Proof.Machine

variable {s t u : State} {p q : PortId} {r : ResId} {a : Accumulator} {since : Nat} {w : WinId} {x : Window} {d : Dir}

/-! ## The holding of a resource that is taken -/

/-- The buffers with a result in the recall buffer. -/
def State.recalledBehind (s : State) (a : Accumulator) (p : PortId) (older : List Posted) : PostQueue :=
  { s.post with ordinary := older, recallBuf := some (s.postedOf a.recalled p), nextSerial := s.post.nextSerial + 1 }

/-- The holding of a resource, if it has one, sent to the recall buffer (R56 step 2). -/
def State.takeHolding (t : State) (r : ResId) : State :=
  match (t.res r).lease with
  | .heldUnposted q since a => (t.setLease r (.held q since)).arriveRecall a q
  | .held _ _ => t
  | .free => t
  | .watched _ => t

theorem takeHolding_none (h : (t.res r).lease.holding = none) : t.takeHolding r = t := by
  unfold State.takeHolding
  split
  · next hlease =>
    rw [hlease] at h
    cases h
  · rfl
  · rfl
  · rfl

theorem takeHolding_arrived (h : (t.res r).lease = .heldUnposted q since a) :
    Arrived (t.setLease r (.held q since)) a (t.recalledBehind a q) (t.takeHolding r) := by
  have htake : t.takeHolding r = (t.setLease r (.held q since)).arriveRecall a q := by
    unfold State.takeHolding
    rw [h]
  rw [htake]
  exact arrive_arrived ..

theorem takeHolding_recall (h : (t.res r).lease = .heldUnposted q since a) :
    ∃ z, (t.takeHolding r).post.recallBuf = some z ∧ z.port = q ∧ z.result = a.recalled := by
  obtain ⟨f, hf, -, hpost⟩ := (takeHolding_arrived h).post
  exact ⟨f (t.postedOf a.recalled q), by rw [hpost]; rfl, (hf _).fields.2.1, (hf _).fields.1⟩

theorem takeHolding_res (h : (t.res r).lease = .heldUnposted q since a) (j : ResId) :
    (t.takeHolding r).res j = if j = r then { t.res r with lease := .held q since } else t.res j := by
  rw [(takeHolding_arrived h).frame]
  refine (res_modRes ..).trans ?_
  split
  · rfl
  · rfl

/-- What the taking of a holding leaves alone. -/
theorem takeHolding_frame (t : State) (r : ResId) : t.takeHolding r = { t with
    run := { t.run with counters := { t.run.counters with
      postsSuperseded := (t.takeHolding r).run.counters.postsSuperseded } }
    dir := { t.dir with res := (t.takeHolding r).dir.res }
    post := (t.takeHolding r).post
    ports := (t.takeHolding r).ports
    freeIndex := (t.takeHolding r).freeIndex }
    ∧ (∀ j, j ≠ r → (t.takeHolding r).res j = t.res j) ∧ (t.takeHolding r).portsKeep t
    ∧ ((t.takeHolding r).res r).freed = (t.res r).freed := by
  cases hlease : (t.res r).lease with
  | heldUnposted q since a =>
    have harrived := takeHolding_arrived hlease
    have hres := takeHolding_res hlease
    refine ⟨?_, fun j hj => (hres j).trans (if_neg hj), portsKeep_of_sets harrived.sets, ?_⟩
    · rw [harrived.frame]
      rfl
    · rw [hres, if_pos rfl]
      rfl
  | _ =>
    rw [takeHolding_none (by rw [hlease]; rfl)]
    exact ⟨rfl, fun _ _ => rfl, portsKeep_refl t, rfl⟩

/-! ## Forced releases -/

theorem forcedRelease_held (h : (s.res r).lease.holder = some p) :
    s.forcedRelease r = ((((s.stopNaming r).takeHolding r).freeRes r).raise p .leaseLost).grantPass := by
  simp only [State.forcedRelease, h] <;> rfl

theorem stopNaming_unnamed (h : (s.res r).naming = none) : s.stopNaming r = s := by
  simp only [State.stopNaming, h]

theorem stopNaming_named (h : (s.res r).naming = some w) : s.stopNaming r = s.stopWindow w .recalled := by
  simp only [State.stopNaming, h]

/-- A forced release, up to the grant pass. -/
structure Forced (r : ResId) (p : PortId) (v t : State) : Prop where
  frame : t = { v with
    run := { v.run with counters := { v.run.counters with postsSuperseded := t.run.counters.postsSuperseded } }
    dir := { v.dir with res := t.dir.res, expired := v.dir.expired.filter (fun q => decide (q ≠ r)) }
    post := t.post
    ports := t.ports
    freeIndex := t.freeIndex }
  freed : t.res r = (v.res r).freed
  others : ∀ j, j ≠ r → t.res j = v.res j
  ports : t.portsKeep v
  lost : t.noticed p .leaseLost = true
  posts : ∀ q since a, (v.res r).lease = .heldUnposted q since a →
    ∃ z, t.post.recallBuf = some z ∧ z.port = q ∧ z.result = a.recalled
  quiet : (v.res r).lease.holding = none → t = (v.freeRes r).raise p .leaseLost

/-- The release of a resource whose window, if one names it, has been stopped. -/
theorem release_forced (v : State) (r : ResId) (p : PortId) :
    Forced r p v (((v.takeHolding r).freeRes r).raise p .leaseLost) := by
  obtain ⟨hframe, hothers, hports, hfreed⟩ := takeHolding_frame v r
  have hrecall := fun q since a => takeHolding_recall (t := v) (r := r) (q := q) (since := since) (a := a)
  have hnone := takeHolding_none (t := v) (r := r)
  generalize v.takeHolding r = u at *
  have hres : ∀ j, ((u.freeRes r).raise p .leaseLost).res j = if j = r then (u.res r).freed else u.res j :=
    fun j => res_freeRes u r j
  have hgrow : ((u.freeRes r).raise p .leaseLost).portsGrow u :=
    (portsGrow_of_ports (t := u.freeRes r) rfl).trans (raise_portsGrow _ p _)
  refine ⟨?_, (hres r).trans ((if_pos rfl).trans hfreed), fun j hj => ((hres j).trans (if_neg hj)).trans (hothers j hj),
    hports.trans hgrow.keep, ?_, fun q since a hlease => hrecall q since a hlease, fun h => by rw [hnone h]⟩
  · have hstep : (u.freeRes r).raise p .leaseLost = { u with
      dir := { u.dir with
        res := ((u.freeRes r).raise p .leaseLost).dir.res
        expired := u.dir.expired.filter (fun q => decide (q ≠ r)) }
      ports := ((u.freeRes r).raise p .leaseLost).ports } := rfl
    generalize (u.freeRes r).raise p .leaseLost = z at *
    rw [hstep, hframe]
  · rw [noticed_raise]
    simp

/-- The forced release of a resource that no window names, with no entry waiting. -/
theorem forcedRelease_unnamed (hholder : (s.res r).lease.holder = some p) (hnaming : (s.res r).naming = none)
    (hwaits : s.dir.waits = []) : Forced r p s (s.forcedRelease r) := by
  have hforced := release_forced s r p
  rw [forcedRelease_held hholder, stopNaming_unnamed hnaming]
  have hpass : ((((s.takeHolding r).freeRes r).raise p .leaseLost).grantPass) =
      ((s.takeHolding r).freeRes r).raise p .leaseLost :=
    grantPass_of_empty ((congrArg (fun v => v.dir.waits) hforced.frame :).trans hwaits)
  rw [hpass]
  exact hforced

/-! ## The deadline of a recall -/

theorem recallReached_releases {deadline : Nat} (h : (s.res r).recallState = .recalling deadline)
    (hmay : isGen r = true ∨ s.post.recallBuf = none) :
    s.recallReached r = ((s.advanceTo (deadline * 1000)).forcedRelease r).checkClosing := by
  have hmay' : isGen r = true ∨ (s.advanceTo (deadline * 1000)).post.recallBuf.isNone = true :=
    hmay.imp id fun h => by (show s.post.recallBuf.isNone = true); rw [h]; rfl
  simp only [State.recallReached, h]
  exact if_pos hmay'

theorem recallReached_waits {deadline : Nat} (h : (s.res r).recallState = .recalling deadline) (hgen : isGen r = false)
    (hbusy : s.post.recallBuf ≠ none) : s.recallReached r = ((s.advanceTo (deadline * 1000)).modRes r (fun x =>
      { x with recallState := .expiredWaiting })).setExpired (s.dir.expired ++ [r]) := by
  have hnot : ¬ (isGen r = true ∨ (s.advanceTo (deadline * 1000)).post.recallBuf.isNone = true) := by
    rintro (hg | hnone)
    · rw [hgen] at hg
      cases hg
    · exact hbusy (Option.isNone_iff_eq_none.mp hnone)
  simp only [State.recallReached, h]
  exact if_neg hnot

theorem recallReached_none (h : ∀ deadline, (s.res r).recallState ≠ .recalling deadline) : s.recallReached r = s := by
  unfold State.recallReached
  split
  · next deadline hstate => exact absurd hstate (h deadline)
  · rfl
  · rfl

theorem exec_recallDeadline (h : s.rst = false) : exec (.recallDeadline r) s = .next (s.recallReached r) := by
  show Host.Outcome.next (s.live (fun t => t.recallReached r)) = _
  rw [live_out_of_reset h]

/-! ## The result that the stop of a window places (R83, R84) -/

theorem modAcc_fields (x : Window) (d : Dir) (f : Accumulator → Accumulator) :
    (x.modAcc d f).victim = x.victim ∧ ∀ c, x.acc c = none → (x.modAcc d f).acc c = none := by
  cases d with
  | fwd =>
    refine ⟨rfl, fun c hc => ?_⟩
    cases c with
    | fwd => exact congrArg (Option.map f) hc
    | rev => exact hc
  | rev =>
    refine ⟨rfl, fun c hc => ?_⟩
    cases c with
    | fwd => exact hc
    | rev => exact congrArg (Option.map f) hc

theorem stopRecord_fields (x : Window) (now losses : Nat) : (x.stopRecord .recalled now losses).victim = x.victim
    ∧ ∀ c, x.acc c = none → (x.stopRecord .recalled now losses).acc c = none := by
  have hkept : ∀ y : Window, (y.keepLockLosses losses).victim = y.victim
      ∧ ∀ c, y.acc c = none → (y.keepLockLosses losses).acc c = none := fun y => by
    unfold Window.keepLockLosses
    split
    · exact modAcc_fields ..
    · exact ⟨rfl, fun _ => id⟩
  obtain ⟨hvictim, hnone⟩ := hkept ((x.dropped now).halted .recalled now)
  have hmark := fun d => modAcc_fields (d := d) (f := fun a => { a with flags := { a.flags with recalled := true } })
  have hself : ∀ c, x.acc c = none → ((x.dropped now).halted .recalled now).acc c = none := fun c hc => by
    cases c <;> exact hc
  exact ⟨((hmark .rev _).1.trans (hmark .fwd _).1).trans hvictim,
    fun c hc => (hmark .rev _).2 c ((hmark .fwd _).2 c (hnone c (hself c hc)))⟩

/-- A result with a completed repeat is placed on the CHK where the window receives it. -/
theorem placedOn_received {y : Window} {i : SlotId} (hslot : s.receiveSlot y d = some i) (hacc : y.acc d = some a)
    (hrepeats : 1 ≤ a.repeats) : s.placedOn y (chkOf i) d = some a := by
  simp [State.placedOn, hslot, hacc, Accumulator.placed, hrepeats]

theorem placedOn_elsewhere {y : Window} {i : SlotId} (h : y.acc d = none ∨ s.receiveSlot y d ≠ some i) :
    s.placedOn y (chkOf i) d = none := by
  unfold State.placedOn
  split
  · next b j hacc hslot =>
    refine if_neg fun ⟨_, hr⟩ => ?_
    rcases h with hnone | hne
    · rw [hnone] at hacc
      cases hacc
    · refine hne (hslot.trans (congrArg some ?_))
      have hres := congrArg resSlot hr
      rwa [resSlot_chkOf, resSlot_chkOf] at hres
  · rfl

/-- The lease of a CHK on which the stop of a window with cause RECALLED places the result of one direction alone. -/
theorem stopWindow_places {y : Window} {i : SlotId} (h : s.win w = some x) (ha : x.state.active = true)
    (hy : (s.stopWindow w .recalled).win w = some y) (hlease : (s.res (chkOf i)).lease = .held p since)
    (hslot : s.receiveSlot x d = some i) (hacc : y.acc d = some a) (hrepeats : 1 ≤ a.repeats)
    (hother : ∀ c, c ≠ d → x.acc c = none ∨ s.receiveSlot x c ≠ some i) :
    ((s.stopWindow w .recalled).res (chkOf i)).lease = .heldUnposted p since a := by
  have hplaced := stopWindow_lease (c := .recalled) h ha nofun (chkOf i)
  have hrecord : y = { x.stopRecord .recalled s.now (s.lossesOf x) with named := [] } :=
    Option.some.inj (hy.symm.trans (stopWindow_win h ha))
  obtain ⟨hvictim, hnone⟩ := stopRecord_fields x s.now (s.lossesOf x)
  have hacc' : (x.stopRecord .recalled s.now (s.lossesOf x)).acc d = some a := by
    rw [hrecord] at hacc
    cases d <;> exact hacc
  generalize x.stopRecord .recalled s.now (s.lossesOf x) = z at *
  have hsame : ∀ c, s.receiveSlot z c = s.receiveSlot x c := fun c => by
    unfold State.receiveSlot
    rw [hvictim]
  have hhere := placedOn_received ((hsame d).trans hslot) hacc' hrepeats
  have hthere : ∀ c, c ≠ d → s.placedOn z (chkOf i) c = none := fun c hc =>
    placedOn_elsewhere ((hother c hc).imp (hnone c) fun hne => by rw [hsame]; exact hne)
  rw [hplaced, hlease]
  cases d with
  | fwd => rw [hhere, hthere .rev nofun]; rfl
  | rev => rw [hhere, hthere .fwd nofun]; rfl

end Sys2Proof.Machine

open Sys2Proof Sys2Proof.Machine

/-- Settles O34. -/
theorem recallDeadlineForcesRelease : Obligations.RecallDeadlineForcesRelease := by
  unfold Obligations.RecallDeadlineForcesRelease
  intro s r hrst
  refine ⟨fun p since d hlease hstate hnaming hwaits hrunning hmay => ?_,
    fun p since a d hlease hstate hnaming hwaits hrunning hgen hempty => ?_,
    fun w x p d hholder hstate hnaming hwin hactive hmay => ?_,
    fun p since d hlease hstate hnaming hwaits hclosing hmay => ?_,
    fun d hstate hgen hbusy => (exec_recallDeadline hrst).trans (congrArg _ (recallReached_waits hstate hgen hbusy)),
    fun hnot => (exec_recallDeadline hrst).trans (congrArg _ (recallReached_none hnot))⟩
  · have hexec := (exec_recallDeadline (r := r) hrst).trans (congrArg _ (recallReached_releases hstate hmay))
    have hholder : ((s.advanceTo (d * 1000)).res r).lease.holder = some p := (congrArg Lease.holder hlease).trans rfl
    have hforced := forcedRelease_unnamed (s := s.advanceTo (d * 1000)) hholder hnaming hwaits
    have hquiet := hforced.quiet ((congrArg Lease.holding hlease).trans rfl)
    have hopen : ((s.advanceTo (d * 1000)).forcedRelease r).checkClosing = (s.advanceTo (d * 1000)).forcedRelease r :=
      checkClosing_stays fun h => by
        have hstays := (congrArg (fun v => v.run.state) hforced.frame :).trans hrunning
        rw [h] at hstays
        cases hstays
    rw [hopen, hquiet] at hexec
    rw [hquiet] at hforced
    refine ⟨_, hexec, (congrArg Resource.lease hforced.freed :), (congrArg Resource.recallState hforced.freed :),
      hforced.others, ?_, fun q hq => (port_modPort ..).trans (if_neg hq), rfl⟩
    exact congrArg AgentPort.notices (port_modPort_same _)
  · have hexec := (exec_recallDeadline (r := r) hrst).trans (congrArg _ (recallReached_releases hstate (Or.inr hempty)))
    have hholder : ((s.advanceTo (d * 1000)).res r).lease.holder = some p := (congrArg Lease.holder hlease).trans rfl
    have hforced := forcedRelease_unnamed (s := s.advanceTo (d * 1000)) hholder hnaming hwaits
    obtain ⟨z, hz, hport, hresult⟩ := hforced.posts p since a hlease
    have hopen : ((s.advanceTo (d * 1000)).forcedRelease r).checkClosing = (s.advanceTo (d * 1000)).forcedRelease r :=
      checkClosing_stays fun h => by
        have hstays := (congrArg (fun v => v.run.state) hforced.frame :).trans hrunning
        rw [h] at hstays
        cases hstays
    rw [hopen] at hexec
    exact ⟨_, z, hexec, (congrArg Resource.lease hforced.freed :), (congrArg Resource.recallState hforced.freed :),
      hforced.others, hz, hresult, hport, hforced.lost⟩
  · have hexec := (exec_recallDeadline (r := r) hrst).trans (congrArg _ (recallReached_releases hstate hmay))
    have hholder' : ((s.advanceTo (d * 1000)).res r).lease.holder = some p := hholder
    rw [forcedRelease_held hholder', stopNaming_named (s := s.advanceTo (d * 1000)) hnaming] at hexec
    have hstop := stopWindow_spec (s := s.advanceTo (d * 1000)) .recalled hwin hactive
    have hplaces := fun (y : Window) (i : SlotId) (c : Dir) (a : Accumulator) (since : Nat) =>
      stopWindow_places (s := s.advanceTo (d * 1000)) (p := p) (since := since) (a := a) (d := c) (i := i) (y := y) hwin hactive
    obtain ⟨y, hy, hend, hcause, -⟩ := hstop.window
    generalize (s.advanceTo (d * 1000)).stopWindow w .recalled = v at *
    have hforced := release_forced v r p
    generalize ((v.takeHolding r).freeRes r).raise p .leaseLost = b at *
    have hpassed := grantPass_passed b
    generalize b.grantPass = e at *
    obtain ⟨hclose, hgrow, -⟩ := checkClosing_frame e
    generalize e.checkClosing = t at *
    have hpost : t.post = b.post := (congrArg State.post hclose :).trans (congrArg State.post hpassed.frame :)
    refine ⟨t, y, hexec, hgrow.noticed (hpassed.ports.noticed hforced.lost), ?_, hend, hcause, ?_⟩
    · rw [hclose, hpassed.frame, hforced.frame]
      exact hy
    · intro b' i a since hgen hlease hslot hr hacc hrepeats hothers
      subst hr
      obtain ⟨z, hz, hport, hresult⟩ := hforced.posts p since a (hplaces y i b' a since hy hlease hslot hacc hrepeats hothers)
      exact ⟨z, (congrArg PostQueue.recallBuf hpost).trans hz, hport, hresult⟩
  · have hexec := (exec_recallDeadline (r := r) hrst).trans (congrArg _ (recallReached_releases hstate hmay))
    have hholder : ((s.advanceTo (d * 1000)).res r).lease.holder = some p := (congrArg Lease.holder hlease).trans rfl
    have hforced := forcedRelease_unnamed (s := s.advanceTo (d * 1000)) hholder hnaming hwaits
    have hquiet := hforced.quiet ((congrArg Lease.holding hlease).trans rfl)
    rw [hquiet] at hexec hforced
    have hpost : ((((s.advanceTo (d * 1000)).freeRes r).raise p .leaseLost)).post = s.post := rfl
    generalize ((s.advanceTo (d * 1000)).freeRes r).raise p .leaseLost = u at *
    have hstays : u.run.state = .closing := (congrArg (fun v => v.run.state) hforced.frame :).trans hclosing
    intro atRest
    have hrest : u.atRest = true ↔ atRest := by
      have hwin : ∀ w, u.win w = s.win w := fun w => (congrArg (fun v : State => v.win w) hforced.frame :)
      have hholders : (∀ q, (u.res q).lease.holder = none) ↔ ∀ q, q ≠ r → (s.res q).lease.holder = none := by
        refine forall_congr' fun q => ?_
        by_cases hq : q = r
        · rw [hq, hforced.freed]
          exact ⟨fun _ hne => absurd rfl hne, fun _ => rfl⟩
        · rw [hforced.others q hq]
          exact ⟨fun h _ => h, fun h => h hq⟩
      rw [atRest_iff, hholders, hpost]
      simp only [hwin]
      exact and_left_comm
    have hclosed : atRest → EnteredClosed u u.checkClosing := fun h => checkClosing_closes hstays (hrest.mpr h)
    have hopen : ¬ atRest → u.checkClosing = u := fun h =>
      checkClosing_stays fun _ => Bool.eq_false_iff.mpr fun h' => h (hrest.mp h')
    obtain ⟨hframe, hgrow, -⟩ := checkClosing_frame u
    have hres : (u.checkClosing.res r) = u.res r := (congrArg (fun v : State => v.res r) hframe :)
    generalize u.checkClosing = t at *
    refine ⟨t, hexec, (congrArg Resource.lease (hres.trans hforced.freed) :), hgrow.noticed hforced.lost, fun h => ?_,
      fun h => ?_⟩
    · have hent := hclosed h
      exact ⟨(congrArg RunRecord.state hent.run :), hent.list, hent.noticed⟩
    · rw [hopen h]
      exact hstays

end

