-- ==== Sys2Proof/Proofs/Commits.lean ====
section
/-! SUPPORT. Sys2Proof/Proofs/Commits.lean: the completion of a commit (R142 to R144): the merge or the drop, the buffer, the
flushes, and the expired order (R55). -/

namespace Sys2Proof.Machine

variable {s t u : State} {q : Posted} {fromRecall : Bool} {k : Link} {v : VerdictRecord} {l : LinkId} {d : Dir} {r : ResId}
  {p : PortId}

/-! ## The result in flight and its buffer -/

theorem inFlight_recall (h : s.inFlight = some (q, true)) : s.post.recallBuf = some q := by
  unfold State.inFlight at h
  split at h
  · next x hx =>
    split at h
    · obtain ⟨rfl, -⟩ := Prod.mk.inj (Option.some.inj h)
      exact hx
    · obtain ⟨y, -, hy⟩ := Option.map_eq_some_iff.mp h
      cases (Prod.mk.inj hy).2
  · obtain ⟨y, -, hy⟩ := Option.map_eq_some_iff.mp h
    cases (Prod.mk.inj hy).2

theorem inFlight_ordinary (h : s.inFlight = some (q, false)) : q ∈ s.post.ordinary := by
  have hfind : (s.post.ordinary.find? (fun x => x.inFlight)).map (fun x => (x, false)) = some (q, false) →
      q ∈ s.post.ordinary := fun hmap => by
    obtain ⟨y, hy, heq⟩ := Option.map_eq_some_iff.mp hmap
    obtain ⟨rfl, -⟩ := Prod.mk.inj heq
    exact List.mem_of_find?_eq_some hy
  unfold State.inFlight at h
  split at h
  · split at h
    · cases (Prod.mk.inj (Option.some.inj h)).2
    · exact hfind h
  · exact hfind h

/-- The results posted once the one in flight has left its buffer: all but it. -/
theorem freeBuffer_posted (h : s.inFlight = some (q, fromRecall)) (hnodup : (s.posted.map (fun x => x.serial)).Nodup) :
    (s.freeBuffer q fromRecall).posted = s.posted.filter (fun x => decide (x.serial ≠ q.serial)) := by
  cases fromRecall with
  | true =>
    have hrecall := inFlight_recall h
    have hposted : s.posted = q :: s.post.ordinary := by rw [State.posted, hrecall]; rfl
    rw [hposted, List.map_cons, List.nodup_cons] at hnodup
    have hstay : s.post.ordinary.filter (fun x => decide (x.serial ≠ q.serial)) = s.post.ordinary :=
      List.filter_eq_self.mpr fun x hx => decide_eq_true fun heq =>
        hnodup.1 (heq ▸ List.mem_map_of_mem (f := fun x : Posted => x.serial) hx)
    rw [hposted, List.filter_cons, if_neg (by simp), hstay]
    rfl
  | false =>
    have hmem := inFlight_ordinary h
    have hrecall : s.post.recallBuf.toList.filter (fun x => decide (x.serial ≠ q.serial)) = s.post.recallBuf.toList := by
      refine List.filter_eq_self.mpr fun x hx => decide_eq_true fun heq => ?_
      rw [State.posted, List.map_append, List.nodup_append] at hnodup
      exact hnodup.2.2 _ (List.mem_map_of_mem hx) _ (List.mem_map_of_mem hmem) heq
    have hposted : s.posted = s.post.recallBuf.toList ++ s.post.ordinary := rfl
    rw [hposted, List.filter_append, hrecall]
    rfl

theorem freeBuffer_empty (s : State) (q : Posted) (fromRecall : Bool) : ((s.freeBuffer q fromRecall).post.ordinary = []
    ∧ (s.freeBuffer q fromRecall).post.recallBuf = none ∧ (s.freeBuffer q fromRecall).post.commit = none) ↔
      (s.freeBuffer q fromRecall).posted = [] := by
  have hcommit : (s.freeBuffer q fromRecall).post.commit = none := rfl
  unfold State.posted
  rw [List.append_eq_nil_iff, Option.toList_eq_nil_iff, hcommit]
  exact ⟨fun h => ⟨h.2.1, h.1⟩, fun h => ⟨h.2, h.1, rfl⟩⟩

theorem map_serial_filter (n : Nat) (ls : List Posted) : (ls.filter (fun x => decide (x.serial ≠ n))).map (fun x => x.serial) =
    (ls.map (fun x => x.serial)).filter (fun m => decide (m ≠ n)) := by
  rw [List.filter_map]
  rfl

theorem posted_marked {f : Posted → Posted} (hf : ∀ x : Posted, x.marked (f x))
    (hpost : t.post.ordinary = s.post.ordinary.map f) (hrecall : t.post.recallBuf = s.post.recallBuf.map f) :
    t.posted.map (fun x => x.serial) = s.posted.map (fun x => x.serial) := by
  have hserial : ∀ ls : List Posted, (ls.map f).map (fun x => x.serial) = ls.map (fun x => x.serial) := fun ls => by
    rw [List.map_map]
    exact List.map_congr_left fun x _ => (hf x).fields.2.2.1
  have hlist : (s.post.recallBuf.map f).toList = s.post.recallBuf.toList.map f := Option.toList_map ..
  unfold State.posted
  rw [hpost, hrecall, hlist, List.map_append, List.map_append, hserial, hserial]

/-! ## The merge (R143, R144) -/

/-- The record as the merge of a result leaves it, regraded. -/
def State.mergedRecord (s : State) (k : Link) (v : VerdictRecord) (q : Posted) : VerdictRecord :=
  { v.merge q with verdict := s.grade k (v.merge q) }

theorem merge_plain (v : VerdictRecord) (h : q.result.retest = false) :
    v.merge q = { v.add q.result with lastPort := some q.port } := by
  simp [VerdictRecord.merge, h]

theorem merge_retest (v : VerdictRecord) (h : q.result.retest = true) :
    v.merge q = { v.replace q.result with lastPort := some q.port } := by
  simp [VerdictRecord.merge, h]

theorem mergedRecord_fields (s : State) (k : Link) (v : VerdictRecord) (q : Posted) :
    (s.mergedRecord k v q).lastPort = some q.port
    ∧ (s.mergedRecord k v q).verdict = s.grade k (s.mergedRecord k v q) :=
  ⟨rfl, (grade_verdict s k (v.merge q) (s.grade k (v.merge q))).symm⟩

theorem mergedRecord_plain (s : State) (k : Link) (v : VerdictRecord) (h : q.result.retest = false) :
    (s.mergedRecord k v q).lanes = List.zipWith (fun a b => min 4294967295 (a + b)) v.lanes q.result.lanes
    ∧ (s.mergedRecord k v q).pulses = min 4294967295 (v.pulses + q.result.pulses)
    ∧ (s.mergedRecord k v q).dwell = min 4294967295 (v.dwell + q.result.dwell)
    ∧ (s.mergedRecord k v q).merged = min 255 (v.merged + 1)
    ∧ (s.mergedRecord k v q).lockLosses = min 65535 (v.lockLosses + q.result.lockLosses)
    ∧ (s.mergedRecord k v q).flags = v.flags.union q.result.flags
    ∧ (∀ e, v.firstError = some e → (s.mergedRecord k v q).firstError = some e)
    ∧ (v.firstError = none → (s.mergedRecord k v q).firstError = q.result.firstError.map (fun f =>
      { merge := min 255 (v.merged + 1), repeatNo := f.repeatNo, time := f.time })) := by
  unfold State.mergedRecord
  rw [merge_plain v h]
  refine ⟨rfl, rfl, rfl, rfl, rfl, rfl, fun e he => ?_, fun hnone => ?_⟩
  · simp only [VerdictRecord.add, he]
  · simp only [VerdictRecord.add, hnone]
    cases q.result.firstError <;> rfl

theorem mergedRecord_retest (s : State) (k : Link) (v : VerdictRecord) (h : q.result.retest = true) :
    (s.mergedRecord k v q).lanes = q.result.lanes ∧ (s.mergedRecord k v q).pulses = q.result.pulses
    ∧ (s.mergedRecord k v q).dwell = q.result.dwell ∧ (s.mergedRecord k v q).merged = 1
    ∧ (s.mergedRecord k v q).lockLosses = q.result.lockLosses ∧ (s.mergedRecord k v q).flags = q.result.flags
    ∧ (s.mergedRecord k v q).firstError = q.result.firstError.map (fun f =>
      { merge := 1, repeatNo := f.repeatNo, time := f.time }) := by
  unfold State.mergedRecord
  rw [merge_retest v h]
  exact ⟨rfl, rfl, rfl, rfl, rfl, rfl, rfl⟩

theorem regrade_table (s : State) (l : LinkId) (d : Dir) : ∃ tb, s.regrade l d = s.setTable tb := by
  unfold State.regrade
  split
  · cases d <;> exact ⟨_, rfl⟩
  · exact ⟨s.table, rfl⟩

theorem mergePosted_table (h : s.linkIs q.result.link .withdrawn = false) :
    ∃ tb, s.mergePosted q = s.setTable tb := by
  have hmerge : s.mergePosted q = (s.modRecord q.result.link q.result.dir (fun v => v.merge q)).regrade q.result.link
      q.result.dir := if_neg (by rw [h]; exact Bool.false_ne_true)
  obtain ⟨tb, htable⟩ := regrade_table (s.modRecord q.result.link q.result.dir (fun v => v.merge q)) q.result.link q.result.dir
  rw [hmerge, htable]
  cases q.result.dir <;> exact ⟨tb, rfl⟩

theorem mergePosted_record (hk : s.link q.result.link = some k) (hstate : k.state ≠ .withdrawn)
    (hv : s.record q.result.link q.result.dir = some v) (l : LinkId) (d : Dir) : (s.mergePosted q).record l d =
      if l = q.result.link ∧ d = q.result.dir then some (s.mergedRecord k v q) else s.record l d := by
  have hnot : ¬ s.linkIs q.result.link .withdrawn = true := fun h => by
    obtain ⟨k', hk', hstate'⟩ := linkIs_iff.mp h
    rw [hk] at hk'
    exact hstate (Option.some.inj hk' ▸ hstate')
  have hmerge : s.mergePosted q = (s.modRecord q.result.link q.result.dir (fun v => v.merge q)).regrade q.result.link
      q.result.dir := if_neg hnot
  have hmap : (s.modRecord q.result.link q.result.dir (fun v => v.merge q)).map = s.map := by
    cases q.result.dir <;> rfl
  have hlink := (link_of_map hmap q.result.link).trans hk
  rw [hmerge, regrade_of_link hlink]
  by_cases h : l = q.result.link ∧ d = q.result.dir
  · obtain ⟨rfl, rfl⟩ := h
    rw [if_pos ⟨rfl, rfl⟩, record_modRecord_same, record_modRecord_same, hv]
    exact congrArg some (congrArg (fun x => { v.merge q with verdict := x }) (grade_of_map hmap k _))
  · have hother : l ≠ q.result.link ∨ d ≠ q.result.dir := Decidable.not_and_iff_or_not.mp h
    rw [if_neg h, record_modRecord_other hother, record_modRecord_other hother]

/-! ## What a commit makes of the hub before its flushes -/

/-- The result merged or dropped, its buffer free, the coverage followed (R142 steps 1 to 4). -/
def State.judged (s : State) (q : Posted) (fromRecall : Bool) : State :=
  if s.linkIs q.result.link .withdrawn then (s.mergePosted q).freeBuffer q fromRecall
  else ((s.mergePosted q).freeBuffer q fromRecall).recount.evalCoverage

theorem judged_dropped (h : s.linkIs q.result.link .withdrawn = true) : s.judged q fromRecall = { s with
    run := { s.run with counters := { s.run.counters with
      postsDropped := min 65535 (s.run.counters.postsDropped + 1) } }
    post := (s.freeBuffer q fromRecall).post } := by
  have hmerge : s.mergePosted q = s.count (fun c => { c with postsDropped := satAdd max16 c.postsDropped 1 }) := if_pos h
  rw [State.judged, if_pos h, hmerge]
  rfl

/-- A merge, with the coverage count and its flag. -/
structure Judged (s : State) (q : Posted) (fromRecall : Bool) (t : State) : Prop where
  frame : t = { s with
    run := { s.run with complete := t.run.complete }
    post := (s.freeBuffer q fromRecall).post
    table := t.table
    ports := t.ports }
  ports : t.portsGrow s
  records : ∀ l d, t.record l d = (s.mergePosted q).record l d
  coverage : t.table.coverage = t.gradedCount
  evaluated : t.completeEvaluated
  noticed : ∀ p, t.noticed p .runState = (s.noticed p .runState || (!s.run.complete && t.run.complete))

theorem judged_merged (h : s.linkIs q.result.link .withdrawn = false) : Judged s q fromRecall (s.judged q fromRecall) := by
  obtain ⟨tb, htable⟩ := mergePosted_table h
  rw [State.judged, if_neg (by rw [h]; exact Bool.false_ne_true), htable]
  have hframe := evalCoverage_frame (((s.setTable tb).freeBuffer q fromRecall).recount)
  have hgrow := evalCoverage_portsGrow (((s.setTable tb).freeBuffer q fromRecall).recount)
  have heval := evalCoverage_evaluated (((s.setTable tb).freeBuffer q fromRecall).recount)
  have hnoticed := noticed_evalCoverage (((s.setTable tb).freeBuffer q fromRecall).recount) .runState
  have hcount : (((s.setTable tb).freeBuffer q fromRecall).recount).table.coverage =
      ((s.setTable tb).freeBuffer q fromRecall).gradedCount := rfl
  have hrecord : ∀ l d, (((s.setTable tb).freeBuffer q fromRecall).recount).record l d = (s.setTable tb).record l d := by
    intro l d
    cases d <;> rfl
  have hgraded : ((s.setTable tb).freeBuffer q fromRecall).recount.gradedCount =
      ((s.setTable tb).freeBuffer q fromRecall).gradedCount :=
    gradedCount_congr (fun _ => rfl) fun m d => by cases d <;> rfl
  have hsteps : ((s.setTable tb).freeBuffer q fromRecall).recount = { s with
      post := (s.freeBuffer q fromRecall).post
      table := ((s.setTable tb).freeBuffer q fromRecall).recount.table } := rfl
  generalize ((s.setTable tb).freeBuffer q fromRecall).recount = a at *
  generalize ((s.setTable tb).freeBuffer q fromRecall).gradedCount = n at *
  have htab : a.evalCoverage.table = a.table := (congrArg State.table hframe :)
  have hmap : a.evalCoverage.map = a.map := (congrArg State.map hframe :)
  have hgraded' : a.evalCoverage.gradedCount = a.gradedCount :=
    gradedCount_congr (link_of_map hmap) (record_of_table htab)
  refine ⟨?_, (portsGrow_of_ports (by rw [hsteps])).trans hgrow, fun l d => by rw [htable, record_of_table htab, hrecord], ?_,
    heval, fun p => (hnoticed p).trans ?_⟩
  · rw [hframe, hsteps]
  · rw [htab, hgraded', hcount, hgraded]
  · have hself : a.noticed p .runState = s.noticed p .runState := noticed_of_same (by rw [hsteps]; rfl)
    have hcomplete : a.run.complete = s.run.complete := by rw [hsteps]
    rw [hself, hcomplete]
    rfl

/-- What a commit makes of the hub up to its flushes, whichever it does. -/
structure Flushed (s : State) (q : Posted) (fromRecall : Bool) (a t : State) : Prop where
  judged : a = { s with
    run := { s.run with
      counters := { s.run.counters with postsDropped := a.run.counters.postsDropped }, complete := a.run.complete }
    post := (s.freeBuffer q fromRecall).post
    table := a.table
    ports := a.ports }
  grows : a.portsGrow s
  flushed : t = { a with ports := t.ports }
  port : ∀ p, t.port p = (a.flushPort [q.serial] p).port p

theorem commit_flushed (s : State) (q : Posted) (fromRecall : Bool) :
    Flushed s q fromRecall (s.judged q fromRecall) ((s.judged q fromRecall).flushGone [q.serial]) := by
  obtain ⟨hframe, hports⟩ := flushGone_spec (s.judged q fromRecall) [q.serial]
  cases h : s.linkIs q.result.link .withdrawn with
  | true =>
    have hdropped := judged_dropped (fromRecall := fromRecall) h
    refine ⟨?_, portsGrow_of_ports (by rw [hdropped]), hframe, hports⟩
    rw [hdropped]
  | false =>
    have hmerged := judged_merged (fromRecall := fromRecall) h
    generalize s.judged q fromRecall = a at *
    refine ⟨?_, hmerged.ports, hframe, hports⟩
    rw [hmerged.frame]

theorem completeCommit_eq {clock : CommitClock} (hcommit : s.post.commit = some clock)
    (hflight : s.inFlight = some (q, fromRecall)) : s.completeCommit =
      (if fromRecall then ((s.judged q fromRecall).flushGone [q.serial]).takeExpired
        else (s.judged q fromRecall).flushGone [q.serial]).checkClosing.takeCommit := by
  simp only [State.completeCommit, hcommit, hflight] <;> rfl

theorem exec_commitComplete (h : s.rst = false) : exec .commitComplete s = .next s.completeCommit := by
  show Host.Outcome.next (s.live State.completeCommit) = _
  rw [live_out_of_reset h]

/-! ## The expired order (R55) -/

/-- The turn of one CHK of the expired order. -/
def State.expireOne (t : State) (r : ResId) : State :=
  if t.post.recallBuf.isNone ∧ t.dir.expired.contains r then t.forcedRelease r else t

theorem takeExpired_eq (s : State) : s.takeExpired = s.dir.expired.foldl State.expireOne s := rfl

theorem foldl_expireOne_full {z : Posted} (h : t.post.recallBuf = some z) (rs : List ResId) :
    rs.foldl State.expireOne t = t := by
  induction rs with
  | nil => rfl
  | cons r rs ih =>
    have hstay : t.expireOne r = t := if_neg fun hc => by rw [h] at hc; cases hc.1
    rw [List.foldl_cons, hstay, ih]

/-- From `s` to `t` the CHKs of a list, of which none had a holding, have been released. -/
structure Emptied (rs more : List ResId) (s t : State) : Prop where
  frame : t = { s with dir := { s.dir with res := t.dir.res, expired := more }, ports := t.ports }
  ports : t.portsKeep s
  freed : ∀ r ∈ rs, t.res r = (s.res r).freed ∧ ∀ p, s.holds p r = true → t.noticed p .leaseLost = true
  others : ∀ r, r ∉ rs → t.res r = s.res r

/-- The turn of a CHK that comes first in the expired order, the recall buffer being empty. -/
theorem expireOne_first {more : List ResId} (hempty : s.post.recallBuf = none) (hwaits : s.dir.waits = [])
    (hexpired : s.dir.expired = r :: more) (hnodup : (r :: more).Nodup) (hnaming : (s.res r).naming = none)
    (hholder : (s.res r).lease.holder = some p) :
    Forced r p s (s.expireOne r) ∧ (s.expireOne r).dir.expired = more := by
  have htakes : s.expireOne r = s.forcedRelease r := if_pos ⟨by rw [hempty]; rfl, by rw [hexpired]; simp⟩
  have hforced := forcedRelease_unnamed hholder hnaming hwaits
  rw [htakes]
  refine ⟨hforced, ((congrArg (fun v => v.dir.expired) hforced.frame :)).trans ?_⟩
  rw [hexpired, List.filter_cons, if_neg (by simp)]
  exact List.filter_eq_self.mpr fun x hx => decide_eq_true (ne_of_mem_of_not_mem hx (List.nodup_cons.mp hnodup).1)

theorem foldl_expireOne_empties (rs more : List ResId) (s : State) (hempty : s.post.recallBuf = none)
    (hwaits : s.dir.waits = []) (hexpired : s.dir.expired = rs ++ more) (hnodup : (rs ++ more).Nodup)
    (hheld : ∀ r ∈ rs, (s.res r).naming = none ∧ ∃ p since, (s.res r).lease = .held p since) :
    Emptied rs more s (rs.foldl State.expireOne s) := by
  induction rs generalizing s with
  | nil =>
    have hmore : s.dir.expired = more := hexpired
    refine ⟨?_, portsKeep_refl s, nofun, fun _ _ => rfl⟩
    rw [← hmore]
    rfl
  | cons r rs ih =>
    obtain ⟨hnaming, p, since, hlease⟩ := hheld r List.mem_cons_self
    obtain ⟨hforced, hrest⟩ := expireOne_first (p := p) hempty hwaits hexpired hnodup hnaming (by rw [hlease]; rfl)
    have hquiet := hforced.quiet (by rw [hlease]; rfl)
    obtain ⟨hr, hnodup'⟩ := List.nodup_cons.mp hnodup
    have hrs : r ∉ rs := fun h => hr (List.mem_append_left more h)
    have hframe : s.expireOne r = { s with
        dir := { s.dir with res := (s.expireOne r).dir.res, expired := (s.expireOne r).dir.expired }
        ports := (s.expireOne r).ports } := by
      rw [hquiet]
      rfl
    rw [List.foldl_cons]
    generalize s.expireOne r = t at *
    have hpost : t.post = s.post := by rw [hframe]
    have hemptied := ih t (by rw [hpost]; exact hempty) ((congrArg (fun v => v.dir.waits) hframe :).trans hwaits) hrest hnodup'
      fun x hx => by
        rw [hforced.others x (ne_of_mem_of_not_mem hx hrs)]
        exact hheld x (List.mem_cons_of_mem r hx)
    refine ⟨?_, hforced.ports.trans hemptied.ports, fun x hx => ?_, fun x hx => ?_⟩
    · rw [hemptied.frame, hframe]
    · rcases List.mem_cons.mp hx with rfl | hx
      · refine ⟨(hemptied.others x hrs).trans hforced.freed, fun p' hp' => ?_⟩
        have hpp : p = p' := by
          have hholds := of_decide_eq_true hp'
          rw [hlease] at hholds
          exact Option.some.inj hholds
        rw [← hpp]
        exact hemptied.ports.noticed hforced.lost
      · obtain ⟨hfreed, hlost⟩ := hemptied.freed x hx
        have hself := hforced.others x (ne_of_mem_of_not_mem hx hrs)
        refine ⟨by rw [hfreed, hself], fun p' hp' => hlost p' ?_⟩
        unfold State.holds at hp' ⊢
        rw [hself]
        exact hp'
    · obtain ⟨hxr, hxrs⟩ := not_or.mp fun h => hx (List.mem_cons.mpr h)
      exact (hemptied.others x hxrs).trans (hforced.others x hxr)

theorem linkIs_eq_false {st : LinkState} (hk : s.link l = some k) (hstate : k.state ≠ st) : s.linkIs l st = false := by
  refine Bool.eq_false_iff.mpr fun h => ?_
  obtain ⟨k', hk', hstate'⟩ := linkIs_iff.mp h
  rw [hk] at hk'
  exact hstate (Option.some.inj hk' ▸ hstate')

theorem completeEvaluated_congr (hmap : t.map = s.map) (htable : t.table = s.table)
    (hcomplete : t.run.complete = s.run.complete) (h : s.completeEvaluated) : t.completeEvaluated := by
  have htargets : t.targetLinks = s.targetLinks := by
    unfold State.targetLinks State.linkCount State.linkIs
    simp only [link_of_map hmap]
  unfold State.completeEvaluated
  rw [hcomplete, htargets, htable]
  exact h

/-! ## The three kinds of commits -/

/-- A commit that takes nothing from the expired order. -/
theorem completeCommit_unexpired {clock : CommitClock} (hexpired : s.dir.expired = [])
    (hcommit : s.post.commit = some clock) (hflight : s.inFlight = some (q, fromRecall)) :
    s.completeCommit = ((s.judged q fromRecall).flushGone [q.serial]).checkClosing.takeCommit := by
  have hflushed := commit_flushed s q fromRecall
  rw [completeCommit_eq hcommit hflight]
  generalize s.judged q fromRecall = a at *
  generalize a.flushGone [q.serial] = b at *
  have hnone : b.dir.expired = [] := by
    rw [hflushed.flushed, hflushed.judged]
    exact hexpired
  have hidle : b.takeExpired = b := by rw [takeExpired_eq, hnone]; rfl
  rw [hidle, ite_self]

theorem Flushed.dir {a b : State} (h : Flushed s q fromRecall a b) : b.dir = s.dir := by
  rw [h.flushed, h.judged]

theorem Flushed.runState {a b : State} (h : Flushed s q fromRecall a b) :
    b.run.state = s.run.state ∧ b.run.time = s.run.time := by
  rw [h.flushed, h.judged]
  exact ⟨rfl, rfl⟩

theorem checkClosing_running (h : s.run.state = .running) : s.checkClosing = s :=
  checkClosing_stays fun hc => by (rw [h] at hc; cases hc)

/-- The taking of a next result leaves all but the post queue. -/
structure Taken (s t : State) : Prop where
  frame : t = { s with post := t.post, freeIndex := t.freeIndex }
  posted : t.posted.map (fun x => x.serial) = s.posted.map (fun x => x.serial)
  reply : ∀ l c, t.verdictReply l c = s.verdictReply l c
  recallBuf : ∃ f : Posted → Posted, (∀ x : Posted, x.marked (f x)) ∧ t.post.recallBuf = s.post.recallBuf.map f

theorem takeCommit_taken (s : State) : Taken s s.takeCommit := by
  obtain ⟨f, hf, -, htake⟩ := takeCommit_marks s
  generalize s.takeCommit = t at *
  have hpost : t.post.ordinary = s.post.ordinary.map f := by rw [htake]
  have hrecall : t.post.recallBuf = s.post.recallBuf.map f := by rw [htake]
  refine ⟨by rw [htake], posted_marked hf hpost hrecall, verdictReply_congr (by rw [htake]) (by rw [htake]) ?_ ?_, f, hf, hrecall⟩
  · rw [hpost, map_marked hf]
  · rw [hrecall, Option.map_map]
    exact Option.map_congr fun x _ => (hf x).fields.1

end Sys2Proof.Machine

open Sys2Proof Sys2Proof.Machine

/-- Settles O56. -/
theorem commitMergesOrDrops : Obligations.CommitMergesOrDrops := by
  unfold Obligations.CommitMergesOrDrops
  refine ⟨?_, ?_, ?_⟩
  · intro s q fromRecall clock k v hrst hrunning hexpired hcommit hflight hnodup hk hv
    have hexec := (exec_commitComplete hrst).trans
      (congrArg _ (completeCommit_unexpired hexpired hcommit hflight))
    have hflushed := commit_flushed s q fromRecall
    rw [checkClosing_running (hflushed.runState.1.trans hrunning)] at hexec
    have htaken := takeCommit_taken ((s.judged q fromRecall).flushGone [q.serial])
    have hposted := freeBuffer_posted hflight hnodup
    have hdropped := judged_dropped (s := s) (q := q) (fromRecall := fromRecall)
    have hmerged := judged_merged (s := s) (q := q) (fromRecall := fromRecall)
    generalize s.judged q fromRecall = a at *
    generalize a.flushGone [q.serial] = b at *
    generalize b.takeCommit = t at *
    have hserials : t.posted.map (fun x => x.serial) =
        (s.posted.map (fun x => x.serial)).filter (fun n => decide (n ≠ q.serial)) := by
      have hb : b.posted = (s.freeBuffer q fromRecall).posted := by
        rw [hflushed.flushed, hflushed.judged]
        rfl
      rw [htaken.posted, hb, hposted, map_serial_filter]
    have hkeeps : t.dir = s.dir ∧ t.eng = s.eng ∧ t.map = s.map ∧ t.wd = s.wd := by
      rw [htaken.frame, hflushed.flushed, hflushed.judged]
      exact ⟨rfl, rfl, rfl, rfl⟩
    have hta : t.table = a.table ∧ t.run = a.run := by
      rw [htaken.frame, hflushed.flushed]
      exact ⟨rfl, rfl⟩
    have hnotices : ∀ p, (t.port p).notices = (a.port p).notices := fun p => by
      obtain ⟨slot, hp⟩ := flushPort_sets a [q.serial] p
      have hbp := (hflushed.port p).trans hp
      have htp : t.port p = b.port p := (congrArg (fun v : State => v.port p) htaken.frame :)
      rw [htp, hbp]
    obtain ⟨htable, hrun⟩ := hta
    refine ⟨fun hstate => ?_, fun hstate => ?_, t, hexec, fun p => ⟨fun code g f hslot => ?_, fun hslot => ?_⟩⟩
    · have hjudged := hmerged (linkIs_eq_false hk hstate)
      have hrecord : ∀ l d, t.record l d = (s.mergePosted q).record l d := fun l d =>
        (record_of_table htable l d).trans (hjudged.records l d)
      have hfields := mergePosted_record hk hstate hv
      obtain ⟨hport, hverdict⟩ := mergedRecord_fields s k v q
      obtain ⟨hdir, heng, hmap, hwd⟩ := hkeeps
      have hamap : t.map = a.map := hmap.trans (congrArg State.map hflushed.judged :).symm
      refine ⟨t, s.mergedRecord k v q, hexec, (hrecord ..).trans ((hfields ..).trans (if_pos ⟨rfl, rfl⟩)), hport, hverdict,
        mergedRecord_plain s k v, mergedRecord_retest s k v, fun l d hne => (hrecord l d).trans ((hfields l d).trans
          (if_neg (Decidable.not_and_iff_or_not.mpr hne))), ?_, ?_, fun p => ?_, hserials, hdir, heng, hmap, hwd⟩
      · rw [htable, hjudged.coverage, gradedCount_congr (link_of_map hamap) (record_of_table htable)]
      · exact completeEvaluated_congr hamap htable (by rw [hrun]) hjudged.evaluated
      · rw [noticed_of_same (hnotices p), hjudged.noticed, hrun]
    · have ha := hdropped (linkIs_iff.mpr ⟨k, hk, hstate⟩)
      refine ⟨t, hexec, htable.trans (congrArg State.table ha :), ?_, fun p => (hnotices p).trans ?_, ?_, hserials, hkeeps⟩
      · rw [hrun, ha]
      · rw [ha]
        rfl
      · rw [hrun, ha]
    · have hport : t.port p = (a.flushPort [q.serial] p).port p :=
        ((congrArg (fun v : State => v.port p) htaken.frame :)).trans (hflushed.port p)
      have hslot' : (a.port p).slot = .working code g (some f) := (hflushed.grows.slot p).trans hslot
      have hreply : a.verdictReply f.link f.dirs = t.verdictReply f.link f.dirs := by
        rw [htaken.reply, hflushed.flushed]
        exact verdictReply_congr rfl rfl rfl rfl _ _
      rw [hport]
      refine ⟨fun hall => ?_, fun ⟨n, hn, hne⟩ => ?_⟩
      · rw [flushPort_empties hslot' fun n hn => List.mem_singleton.mpr (hall n hn), hreply]
      · rw [flushPort_shrinks hslot' ⟨n, hn, fun h => hne (List.mem_singleton.mp h)⟩]
        simp only [List.mem_singleton]
    · have hport : t.port p = (a.flushPort [q.serial] p).port p :=
        ((congrArg (fun v : State => v.port p) htaken.frame :)).trans (hflushed.port p)
      rw [hport, flushPort_stands fun code g f h => hslot code g f ((hflushed.grows.slot p).symm.trans h)]
      exact hflushed.grows.slot p
  · intro s q clock empty hrst hrunning hwaits hcommit hflight hheld
    have hexec := (exec_commitComplete hrst).trans (congrArg _ (completeCommit_eq hcommit hflight))
    have hflushed := commit_flushed s q true
    rw [if_pos rfl] at hexec
    generalize s.judged q true = a at *
    generalize a.flushGone [q.serial] = b at *
    have hdir := hflushed.dir
    have hres : ∀ r, b.res r = s.res r := fun r => congrArg (fun x : LeaseDirectory => Table.rd x.res r) hdir
    have hempty : b.post.recallBuf = none := by
      rw [hflushed.flushed, hflushed.judged]
      rfl
    have hheld' : ∀ r ∈ empty, (b.res r).naming = none ∧ ∃ p since, (b.res r).lease = .held p since := fun r hr => by
      rw [hres]
      exact hheld r hr
    have hholds : ∀ p r, s.holds p r = true → b.holds p r = true := fun p r h => by
      unfold State.holds at h ⊢
      rw [hres]
      exact h
    have hrun := hflushed.runState.1.trans hrunning
    refine ⟨fun hnodup hexpired => ?_, fun r more p since a' hnodup hexpired hnaming hlease => ?_⟩
    · have hemptied := foldl_expireOne_empties empty [] b hempty (by rw [hdir]; exact hwaits)
        (by rw [hdir, hexpired, List.append_nil]) (by rw [List.append_nil]; exact hnodup) hheld'
      rw [takeExpired_eq, hdir, hexpired] at hexec
      generalize empty.foldl State.expireOne b = c at *
      have hpost : c.post = b.post := by rw [hemptied.frame]
      rw [checkClosing_running (by rw [hemptied.frame]; exact hrun)] at hexec
      have htaken := takeCommit_taken c
      generalize c.takeCommit = t at *
      have htdir : t.dir = c.dir := (congrArg State.dir htaken.frame :)
      have htres : ∀ r, t.res r = c.res r := fun r => congrArg (fun x : LeaseDirectory => Table.rd x.res r) htdir
      obtain ⟨f, -, hrecall⟩ := htaken.recallBuf
      refine ⟨t, hexec, ?_, ?_, fun r hr => (htres r).trans ((hemptied.others r hr).trans (hres r)), fun r hr => ?_⟩
      · rw [htdir, hemptied.frame]
      · rw [hrecall, hpost, hempty]
        rfl
      · obtain ⟨hfreed, hlost⟩ := hemptied.freed r hr
        rw [htres, hfreed]
        refine ⟨rfl, rfl, fun p hp => ?_⟩
        rw [noticed_of_same (t := t) (s := c) (by rw [htaken.frame]; rfl)]
        exact hlost p (hholds p r hp)
    · obtain ⟨-, hnodup', hdisjoint⟩ := List.nodup_append.mp hnodup
      have hrempty : r ∉ empty := fun hr => hdisjoint r hr r List.mem_cons_self rfl
      have hemptied := foldl_expireOne_empties empty (r :: more) b hempty (by rw [hdir]; exact hwaits)
        (by rw [hdir, hexpired]) hnodup hheld'
      rw [takeExpired_eq, hdir, hexpired, List.foldl_append, List.foldl_cons] at hexec
      generalize empty.foldl State.expireOne b = c at *
      have hcr : c.res r = s.res r := (hemptied.others r hrempty).trans (hres r)
      have hclease : (c.res r).lease = .heldUnposted p since a' := by rw [hcr, hlease]
      obtain ⟨hforced, hrest⟩ := expireOne_first (s := c) (r := r) (p := p) (more := more)
        (by rw [hemptied.frame]; exact hempty) (by rw [hemptied.frame]; exact (congrArg LeaseDirectory.waits hdir).trans hwaits)
        (by rw [hemptied.frame]) hnodup' (by rw [hcr]; exact hnaming) (by rw [hclease]; rfl)
      obtain ⟨z, hz, hzport, hzresult⟩ := hforced.posts p since a' hclease
      generalize c.expireOne r = e at *
      rw [foldl_expireOne_full hz] at hexec
      have hestate : e.run.state = .running := by
        rw [hforced.frame, hemptied.frame]
        exact hrun
      rw [checkClosing_running hestate] at hexec
      have htaken := takeCommit_taken e
      generalize e.takeCommit = t at *
      have htdir : t.dir = e.dir := (congrArg State.dir htaken.frame :)
      have htres : ∀ r, t.res r = e.res r := fun r => congrArg (fun x : LeaseDirectory => Table.rd x.res r) htdir
      obtain ⟨f, hf, hrecall⟩ := htaken.recallBuf
      obtain ⟨hfresult, hfport, -⟩ := (hf z).fields
      have hnoticed : ∀ y, t.noticed y .leaseLost = e.noticed y .leaseLost := fun y =>
        noticed_of_same (by rw [htaken.frame]; rfl)
      refine ⟨t, f z, hexec, (congrArg LeaseDirectory.expired htdir).trans hrest, by rw [hrecall, hz]; rfl,
        hfport.trans hzport, hfresult.trans hzresult, fun x hx hxr => ?_, fun x hx => ?_⟩
      · exact (htres x).trans ((hforced.others x hxr).trans ((hemptied.others x hx).trans (hres x)))
      · rw [htres]
        by_cases hxr : x = r
        · subst hxr
          rw [hforced.freed]
          refine ⟨rfl, rfl, fun y hy => ?_⟩
          have hyp : y = p := by
            have hholder := of_decide_eq_true hy
            rw [hlease] at hholder
            exact (Option.some.inj hholder).symm
          rw [hnoticed, hyp]
          exact hforced.lost
        · obtain ⟨hfreed, hlost⟩ := hemptied.freed x (hx.resolve_right hxr)
          rw [hforced.others x hxr, hfreed]
          exact ⟨rfl, rfl, fun y hy => by rw [hnoticed]; exact hforced.ports.noticed (hlost y (hholds y x hy))⟩
  · intro s q fromRecall clock hrst hclosing hexpired hcommit hflight hnodup atRest
    have hexec := (exec_commitComplete hrst).trans
      (congrArg _ (completeCommit_unexpired hexpired hcommit hflight))
    have hflushed := commit_flushed s q fromRecall
    have hposted := freeBuffer_posted hflight hnodup
    have hmerged := judged_merged (s := s) (q := q) (fromRecall := fromRecall)
    generalize s.judged q fromRecall = a at *
    generalize a.flushGone [q.serial] = b at *
    obtain ⟨hstate, htime⟩ := hflushed.runState
    have hbclosing := hstate.trans hclosing
    have hkeeps : b.eng = s.eng ∧ b.map = s.map ∧ b.wd = s.wd ∧ b.now = s.now
        ∧ b.post = (s.freeBuffer q fromRecall).post := by
      rw [hflushed.flushed, hflushed.judged]
      exact ⟨rfl, rfl, rfl, rfl, rfl⟩
    obtain ⟨heng, hmap, hwd, hnow, hpost⟩ := hkeeps
    have hrest : b.atRest = true ↔ atRest := by
      have hwin : ∀ w, b.win w = s.win w := fun w => congrArg (fun e : WindowEngine => Table.rd e.wins w) heng
      have hres : ∀ r, b.res r = s.res r := fun r => congrArg (fun x : LeaseDirectory => Table.rd x.res r) hflushed.dir
      rw [atRest_iff, hpost, freeBuffer_empty, hposted]
      simp only [hwin, hres, List.filter_eq_nil_iff, decide_eq_true_eq, ne_eq, Classical.not_not]
      rfl
    have hclosed : atRest → EnteredClosed b b.checkClosing := fun h => checkClosing_closes hbclosing (hrest.mpr h)
    have hopen : ¬ atRest → b.checkClosing = b := fun h =>
      checkClosing_stays fun _ => Bool.eq_false_iff.mpr fun h' => h (hrest.mp h')
    generalize b.checkClosing = c at *
    have htaken := takeCommit_taken c
    generalize c.takeCommit = t at *
    have htc : t.run = c.run ∧ t.wd = c.wd ∧ t.map = c.map ∧ t.table = c.table := by
      rw [htaken.frame]
      exact ⟨rfl, rfl, rfl, rfl⟩
    obtain ⟨htrun, htwd, htmap, httable⟩ := htc
    have hnoticed : ∀ p, t.noticed p .runState = c.noticed p .runState := fun p =>
      noticed_of_same (by rw [htaken.frame]; rfl)
    have hlasts : c.completeEvaluated → t.completeEvaluated :=
      completeEvaluated_congr htmap httable (congrArg RunRecord.complete htrun)
    refine ⟨t, hexec, fun h => ?_, fun h => ?_, fun h => ?_⟩
    · by_cases hat : atRest
      · have hent := hclosed hat
        exact ⟨hlasts hent.evaluated, fun _ _ p => (hnoticed p).trans (hent.noticed p)⟩
      · have hjudged := hmerged (h.resolve_left hat)
        have hba : b.table = a.table ∧ b.map = a.map ∧ b.run = a.run := by
          rw [hflushed.flushed]
          exact ⟨rfl, rfl, rfl⟩
        obtain ⟨hbtable, hbmap, hbrun⟩ := hba
        rw [hopen hat] at hlasts hnoticed htrun
        refine ⟨hlasts (completeEvaluated_congr hbmap hbtable (congrArg RunRecord.complete hbrun) hjudged.evaluated),
          fun hclear hset p => ?_⟩
        obtain ⟨slot, hp⟩ := flushPort_sets a [q.serial] p
        have hbp : b.noticed p .runState = a.noticed p .runState :=
          noticed_of_same (by rw [hflushed.port p, hp])
        rw [htrun, hbrun] at hset
        rw [hnoticed, hbp, hjudged.noticed, hclear, hset]
        simp
    · rw [htrun, htwd, hopen h]
      exact ⟨hbclosing, htime, hwd⟩
    · have hent := hclosed h
      refine ⟨(congrArg RunRecord.state (htrun.trans hent.run) :), ?_, htwd ▸ hent.list, fun e he hl => ?_, fun p => ?_⟩
      · rw [htrun, hent.run]
        exact congrArg _ (runTimeMs_congr htime hnow)
      · have hgone := hent.withdrawn e (by rw [hwd]; exact he) (by rw [link_of_map hmap]; exact hl)
        unfold State.linkIs at hgone ⊢
        rw [link_of_map htmap]
        exact hgone
      · rw [hnoticed]
        exact hent.noticed p

end

