-- ==== Sys2Proof/Proofs/GoodReplies.lean ====
section
/-! SUPPORT. Sys2Proof/Proofs/GoodReplies.lean: an exchange that ends with a good reply (R72, R123), the repeat result
added (R77, R81), and what a window does at its repeat boundary (R78, R79, R83). -/

namespace Sys2Proof.Machine

variable {s t : State} {w : WinId} {x y : Window} {k : Link} {r : RepeatResult} {q : Txn} {rest : List Txn}
  {word : BitVec 16} {reply : List Byte} {c : EndCause} {d : Dir} {a : Accumulator}

/-! ## The good reply -/

/-- The transactions that wait and the next exchange leave all but the setup link. -/
theorem admitWaiting_kick_frame (s : State) : s.admitWaiting.kick = s.setSetup s.admitWaiting.kick.setup := by
  rw [kick_frame]
  rfl

theorem exec_goodReply (hrst : s.rst = false) (hqueue : s.setup.queue = q :: rest) (hflight : q.inFlight = true)
    (hdiscard : q.discard = false) (hexchange : s.setup.exchange = .receiving word)
    (hlen : reply.length = q.kind.replyLength) (hgood : judgeReply q reply = .ok) :
    exec (.setupExchangeEnd reply) s =
      .next ((s.withoutTxn s.setup rest).hear q .ok reply).admitWaiting.kick := by
  rw [exec_setupExchangeEnd hrst, exchangeEnd_ends hexchange hqueue hflight hlen, hgood]
  simp [State.completeTxn, hdiscard, State.withoutTxn]

/-- The two bytes 00 00 are a good reply to a transaction that is no HARVEST. -/
theorem judgeReply_zeros (hkind : q.kind ≠ .harvest) : judgeReply q [0x00#8, 0x00#8] = .ok := by
  have hcrc : crc8 [0x00#8] = 0x00#8 := by decide
  simp [judgeReply, hkind, hcrc]

section Setup

variable (h : s.win q.win = some x) (hstate : x.state = .setup)

include h hstate

theorem hear_outstanding (hmore : ∃ u ∈ s.setup.queue, u.win = q.win ∧ u.discard = false) : s.hear q .ok reply = s := by
  obtain ⟨u, hu, hwin, hdiscard⟩ := hmore
  have hout : s.hasOutstanding q.win = true := List.any_eq_true.mpr ⟨u, hu, by simp [hwin, hdiscard]⟩
  simp [State.hear, h, hstate, hout]

/-- The last of a window's group has completed: the window waits in SETTLE. -/
theorem hear_settles (hlast : ∀ u ∈ s.setup.queue, u.win = q.win → u.discard = true) (hmay : s.mayDrive x = false) :
    s.hear q .ok reply = s.settleWindow q.win x := by
  have hout : s.hasOutstanding q.win = false := List.any_eq_false.mpr fun u hu hboth => by
    obtain ⟨hwin, hdiscard⟩ := Bool.and_eq_true_iff.mp hboth
    simp [hlast u hu (of_decide_eq_true hwin)] at hdiscard
  have hwaits : (s.settleWindow q.win x).mayDrive { x with state := .settle, timerEnd := none } = false := hmay
  simp only [State.hear, h, hstate, hout]
  refine Eq.trans ?_ ((enterSettle_eq h).trans (tryLead_waits (settleWindow_win s q.win x) hwaits))
  simp

end Setup

theorem hear_harvest (h : s.win q.win = some x) (hstate : x.state = .harvest) (hlink : s.link x.victim = some k) :
    s.hear q .ok reply = s.harvested q.win x (repeatResult k x (s.cap (k.receiveEnd x.dir).slot) reply) := by
  simp [State.hear, h, hstate, hlink]

/-! ## The records -/

theorem modAcc_eq (x : Window) (d : Dir) (f : Accumulator → Accumulator) :
    x.modAcc d f = { x with accFwd := (x.modAcc d f).accFwd, accRev := (x.modAcc d f).accRev } := by
  cases d <;> rfl

theorem acc_modAcc (x : Window) (d b : Dir) (f : Accumulator → Accumulator) :
    (x.modAcc d f).acc b = if b = d then (x.acc b).map f else x.acc b := by
  cases d <;> cases b <;> rfl

/-- The record of a window whose direction `x.dir` has the repeat result added (R77). -/
def Window.harvestRecord (x : Window) (r : RepeatResult) : Window :=
  { x.modAcc x.dir (fun a => a.add r (min max16 (x.repeatsDone + 1)) x.aggressedMark) with
    dwelt := false
    dwellLeft := x.timing.dwell }

/-- The record after step 1 of the repeat boundary: the repeat counted, a pending retime applied (R79). -/
def Window.atBoundary (x : Window) (r : RepeatResult) : Window :=
  { x.harvestRecord r with
    repeatsDone := min 65535 (x.repeatsDone + 1)
    timing := x.retime.getD x.timing
    retime := none
    dwellLeft := (x.retime.getD x.timing).dwell }

/-- The record with the accumulators of another. -/
def Window.withAccs (x y : Window) : Window := { x with accFwd := y.accFwd, accRev := y.accRev }

theorem harvestRecord_eq (x : Window) (r : RepeatResult) : x.harvestRecord r =
    { x.withAccs (x.harvestRecord r) with dwelt := false, dwellLeft := x.timing.dwell } := by
  unfold Window.harvestRecord
  rw [modAcc_eq]
  rfl

theorem atBoundary_eq (x : Window) (r : RepeatResult) : x.atBoundary r =
    { x.withAccs (x.harvestRecord r) with
      dwelt := false
      repeatsDone := min 65535 (x.repeatsDone + 1)
      timing := x.retime.getD x.timing
      retime := none
      dwellLeft := (x.retime.getD x.timing).dwell } := by
  unfold Window.atBoundary
  rw [harvestRecord_eq]
  rfl

theorem applyRetime_eq (x : Window) : x.applyRetime =
    { x with
      timing := x.retime.getD x.timing
      retime := none
      dwellLeft := (x.retime.map Timing.dwell).getD x.dwellLeft } := by
  unfold Window.applyRetime
  cases x with
  | mk => split <;> simp_all

theorem counted_applyRetime (x : Window) (r : RepeatResult) :
    Window.applyRetime { x.harvestRecord r with repeatsDone := satAdd max16 (x.harvestRecord r).repeatsDone 1 } =
      x.atBoundary r := by
  rw [applyRetime_eq, atBoundary_eq, harvestRecord_eq]
  cases hretime : x.retime <;> simp [Window.withAccs, hretime, satAdd, max16]

/-- What the addition of a result to the direction in progress makes of the accumulators. -/
theorem harvestRecord_acc (x : Window) (r : RepeatResult) (b : Dir) : (x.harvestRecord r).acc b =
    if b = x.dir then (x.acc b).map (fun a => a.add r (min 65535 (x.repeatsDone + 1)) x.aggressedMark) else x.acc b := by
  refine Eq.trans ?_ (acc_modAcc x x.dir b _)
  cases b <;> rfl

theorem atBoundary_acc (x : Window) (r : RepeatResult) (b : Dir) : (x.atBoundary r).acc b = (x.harvestRecord r).acc b := by
  cases b <;> rfl

/-! ## The second direction of a pair, and the repeat boundary -/

/-- The hub after step 2 of the repeat boundary: the withdrawing aggressors dropped (R79). -/
def State.atBoundary (s : State) (w : WinId) (x : Window) (r : RepeatResult) : State :=
  (s.setWin w (some (x.atBoundary r))).dropAggressors w

/-- The record after step 2 of the repeat boundary. -/
def State.boundaryWindow (s : State) (x : Window) (r : RepeatResult) : Window := s.unaggressed (x.atBoundary r)

theorem atBoundary_win (s : State) (w : WinId) (x : Window) (r : RepeatResult) : (s.atBoundary w x r).win w = some (s.boundaryWindow x r) :=
  dropAggressors_win (s := s.setWin w (some (x.atBoundary r))) ((win_setWin ..).trans (if_pos rfl))

/-- The hub after step 2 differs from the hub before in the window's record and the naming of the GENs that left. -/
theorem atBoundary_spec (s : State) (w : WinId) (x : Window) (r : RepeatResult) : ∃ res wins,
    s.atBoundary w x r = { s with dir := { s.dir with res := res }, eng := { s.eng with wins := wins } }
    ∧ ∀ i, Table.rd res i = { s.res i with naming := if i ∈ s.leavingGens (x.atBoundary r) then none else (s.res i).naming } := by
  have hthere : (s.setWin w (some (x.atBoundary r))).win w = some (x.atBoundary r) := (win_setWin ..).trans (if_pos rfl)
  obtain ⟨res, hdrop, hres⟩ := dropAggressors_spec hthere
  exact ⟨res, _, hdrop, hres⟩

theorem atBoundary_cause (s : State) (w : WinId) (x y : Window) (r : RepeatResult) :
    (s.atBoundary w x r).boundaryCause y = s.boundaryCause y := by
  obtain ⟨res, wins, hdrop, -⟩ := atBoundary_spec s w x r
  rw [hdrop]
  rfl

section Harvested

variable (h : s.win w = some x)

include h

theorem harvested_eq (r : RepeatResult) : s.harvested w x r =
    if x.mode = .paired ∧ x.dir = .fwd then
      (s.setWin w (some { x.harvestRecord r with dir := .rev })).enterSettle w
    else (s.setWin w (some (x.harvestRecord r))).boundary w := by
  have hone : s.harvested w x r = if x.mode = .paired ∧ x.dir = .fwd then
      ((s.modWin w (fun _ => x.harvestRecord r)).modWin w (fun y => { y with dir := .rev })).enterSettle w
    else (s.modWin w (fun _ => x.harvestRecord r)).boundary w := by
    have hadd : s.modWin w (fun y =>
        { y.modAcc x.dir (fun a => a.add r (min max16 (x.repeatsDone + 1)) x.aggressedMark) with
          dwelt := false, dwellLeft := y.timing.dwell }) = s.modWin w (fun _ => x.harvestRecord r) := by
      rw [modWin_eq_setWin h, modWin_eq_setWin h]
      rfl
    rw [← hadd]
    rfl
  rw [hone, modWin_modWin h, modWin_eq_setWin h, modWin_eq_setWin h]

theorem counted_eq (r : RepeatResult) : (s.setWin w (some (x.harvestRecord r))).modWin w
      (fun y => { y with repeatsDone := satAdd max16 y.repeatsDone 1 }.applyRetime) =
    s.setWin w (some (x.atBoundary r)) := by
  rw [← modWin_eq_setWin h (fun _ => x.harvestRecord r), modWin_modWin h, modWin_eq_setWin h, counted_applyRetime]

theorem boundary_ends (r : RepeatResult) (hcause : s.boundaryCause (s.boundaryWindow x r) = some c) :
    (s.setWin w (some (x.harvestRecord r))).boundary w = (s.atBoundary w x r).finish w c := by
  have hwin : ((s.setWin w (some (x.atBoundary r))).dropAggressors w).win w = _ := atBoundary_win s w x r
  have hhere : ((s.setWin w (some (x.atBoundary r))).dropAggressors w).boundaryCause (s.boundaryWindow x r) = some c :=
    (atBoundary_cause ..).trans hcause
  simp only [State.boundary, counted_eq h r, hwin, hhere, State.atBoundary]

theorem boundary_goes_on (r : RepeatResult) (hcause : s.boundaryCause (s.boundaryWindow x r) = none) :
    (s.setWin w (some (x.harvestRecord r))).boundary w = ((s.atBoundary w x r).setWin w
      (some { s.boundaryWindow x r with dir := (s.boundaryWindow x r).mode.first })).enterSettle w := by
  have hwin : ((s.setWin w (some (x.atBoundary r))).dropAggressors w).win w = _ := atBoundary_win s w x r
  have hhere : ((s.setWin w (some (x.atBoundary r))).dropAggressors w).boundaryCause (s.boundaryWindow x r) = none :=
    (atBoundary_cause ..).trans hcause
  simp only [State.boundary, counted_eq h r, hwin, hhere, State.atBoundary, modWin_eq_setWin hwin]

end Harvested

/-- A window that waits in SETTLE. -/
theorem enterSettle_waits (hfall : ∃ f, y.ownFall = some f ∧ s.now < f + y.timing.dead) :
    (s.setWin w (some y)).enterSettle w = (s.setWin w (some y)).settleWindow w y := by
  have hthere : (s.setWin w (some y)).win w = some y := (win_setWin ..).trans (if_pos rfl)
  have hwaits : ((s.setWin w (some y)).settleWindow w y).mayDrive { y with state := .settle, timerEnd := none } = false :=
    mayDrive_of_dead hfall
  rw [enterSettle_eq hthere, tryLead_waits (settleWindow_win ..) hwaits]

/-- What a window in HARVEST and its link look like before the result is added. -/
structure Harvesting (s : State) (q : Txn) (rest : List Txn) (word : BitVec 16) (x : Window) (k : Link)
    (reply : List Byte) : Prop where
  rst : s.rst = false
  queue : s.setup.queue = q :: rest
  flight : q.inFlight = true
  kept : q.discard = false
  kind : q.kind = .harvest
  exchange : s.setup.exchange = .receiving word
  window : s.win q.win = some x
  state : x.state = .harvest
  link : s.link x.victim = some k
  length : reply.length = 18
  good : judgeReply q reply = .ok

theorem Harvesting.exec (h : Harvesting s q rest word x k reply) : exec (.setupExchangeEnd reply) s =
    .next ((s.withoutTxn s.setup rest).harvested q.win x
      (repeatResult k x (s.cap (k.receiveEnd x.dir).slot) reply)).admitWaiting.kick := by
  rw [exec_goodReply h.rst h.queue h.flight h.kept h.exchange (by rw [h.length, h.kind]; rfl) h.good,
    hear_harvest (s := s.withoutTxn s.setup rest) h.window h.state h.link]
  rfl

/-- The hub in which the window waits in SETTLE, the transactions that waited admitted. -/
theorem settled_fields (v : State) (w : WinId) (y : Window) :
    (v.settleWindow w y).admitWaiting.kick.win w = some { y with state := .settle, timerEnd := none }
    ∧ (v.settleWindow w y).admitWaiting.kick.caps = v.caps ∧ (v.settleWindow w y).admitWaiting.kick.dir = v.dir := by
  refine ⟨(admitWaiting_kick_win ..).trans (settleWindow_win ..), ?_, ?_⟩
  · rw [admitWaiting_kick_frame]
    rfl
  · rw [admitWaiting_kick_frame]
    rfl

/-! ## What the repeat boundary makes of the window -/

theorem leavingGens_atBoundary (s : State) (x : Window) (r : RepeatResult) :
    s.leavingGens (x.atBoundary r) = s.leavingGens x := by
  unfold State.leavingGens
  rw [atBoundary_eq]
  rfl

theorem boundaryWindow_eq (s : State) (x : Window) (r : RepeatResult) : s.boundaryWindow x r =
    { x.withAccs (x.harvestRecord r) with
      aggressors := x.aggressors.filter (fun a => !s.leaving a)
      named := x.named.filter (fun i => !(s.leavingGens x).contains i)
      dwelt := false
      repeatsDone := min 65535 (x.repeatsDone + 1)
      timing := x.retime.getD x.timing
      retime := none
      dwellLeft := (x.retime.getD x.timing).dwell } := by
  unfold State.boundaryWindow State.unaggressed
  rw [leavingGens_atBoundary, atBoundary_eq]
  rfl

/-- The GEN of an aggressor that left is named no more. -/
theorem boundaryWindow_unnamed {e : Aggressor} {i : SlotId} (he : e ∈ x.aggressors) (hl : s.leaving e = true)
    (hslot : s.aggressorSlot e = some i) (r : RepeatResult) :
    genOf i ∈ s.leavingGens x ∧ genOf i ∉ (s.boundaryWindow x r).named := by
  have hgen : genOf i ∈ s.leavingGens x := mem_leavingGens.mpr ⟨e, he, hl, by rw [hslot]; rfl⟩
  refine ⟨hgen, fun hmem => ?_⟩
  rw [boundaryWindow_eq] at hmem
  have hkept := (List.mem_filter.mp hmem).2
  rw [List.contains_iff_mem.mpr hgen] at hkept
  cases hkept

theorem boundaryCause_eq (s : State) (x : Window) (r : RepeatResult) : s.boundaryCause (s.boundaryWindow x r) =
    if x.repeats ≠ 0 ∧ min 65535 (x.repeatsDone + 1) = x.repeats then some .complete
    else if x.boundaryStop = true then some .boundaryStop
    else if x.repeats = 0 ∧ s.run.state = .closing then some .runClosing
    else if s.linkIs x.victim .withdrawing = true then some .linkWithdrawn
    else none := by
  rw [boundaryWindow_eq]
  rfl

theorem finish_eq (h : s.win w = some x) (c : EndCause) :
    s.finish w c = (s.endDone w c).1.doSets (x.setsAt .done) := by
  rw [← (endDone_ended h c).1]
  rfl

/-- What a window that ends at its repeat boundary leaves. -/
structure BoundaryEnd (s : State) (w : WinId) (x : Window) (r : RepeatResult) (c : EndCause) (t : State) : Prop where
  window : t.win w = some ((s.boundaryWindow x r).doneRecord c)
  noticed : t.noticed x.owner .windowEnd = true
  signalled : ∀ m, x.setsAt .done = [m] → (s.sem m).armed = [] →
    (t.sem m).set = true ∧ (t.sem m).overrun = ((s.sem m).overrun || (s.sem m).set)
  sems : x.setsAt .done = [] → t.sems = s.sems
  counted : x.setsAt .done = [] → t.run.counters.windowsDone = min 65535 (s.run.counters.windowsDone + 1)
  named : x.setsAt .done = [] → ∀ m ∈ x.named, (t.res m).naming = none
  leases : x.setsAt .done = [] → ∀ i, (t.res i).lease =
    ((s.res i).lease.placeIf (s.placedOn (s.boundaryWindow x r) i .fwd)).placeIf
      (s.placedOn (s.boundaryWindow x r) i .rev)

theorem finish_boundaryEnd (s : State) (w : WinId) (x : Window) (r : RepeatResult) (c : EndCause) :
    BoundaryEnd s w x r c ((s.atBoundary w x r).finish w c) := by
  have hwin := atBoundary_win s w x r
  obtain ⟨res, wins, hdrop, hres⟩ := atBoundary_spec s w x r
  have hsets : (s.boundaryWindow x r).setsAt .done = x.setsAt .done := by
    rw [boundaryWindow_eq]
    rfl
  have howner : (s.boundaryWindow x r).owner = x.owner := by
    rw [boundaryWindow_eq]
    rfl
  have hended := (endDone_ended hwin c).2
  have hsems : ((s.atBoundary w x r).endDone w c).1.sems = s.sems := by
    rw [hended.frame, hdrop]
  have hcounted : ((s.atBoundary w x r).endDone w c).1.run.counters.windowsDone =
      min 65535 (s.run.counters.windowsDone + 1) := by
    rw [hended.frame, hdrop]
  have hleases : ∀ i, (((s.atBoundary w x r).endDone w c).1.res i).lease =
      ((s.res i).lease.placeIf (s.placedOn (s.boundaryWindow x r) i .fwd)).placeIf
        (s.placedOn (s.boundaryWindow x r) i .rev) := fun i => by
    have hbefore : ((s.atBoundary w x r).res i).lease = (s.res i).lease := by
      rw [hdrop]
      exact (congrArg Resource.lease (hres i) :)
    have hmap : (s.atBoundary w x r).map = s.map := by rw [hdrop]
    rw [hended.leases i, hbefore, placedOn_congr hmap, placedOn_congr hmap]
  have hnamed : ∀ m ∈ x.named, (((s.atBoundary w x r).endDone w c).1.res m).naming = none := fun m hm => by
    obtain ⟨-, -, -, -, -, hnaming⟩ := hended.resources m
    rw [hnaming, boundaryWindow_eq]
    by_cases hgone : m ∈ s.leavingGens x
    · have hcleared : ((s.atBoundary w x r).res m).naming = none := by
        rw [hdrop]
        refine (congrArg Resource.naming (hres m)).trans (if_pos ?_)
        rwa [leavingGens_atBoundary]
      rw [hcleared, ite_self]
    · exact if_pos (List.mem_filter.mpr ⟨hm, by simp [hgone]⟩)
  have hnotice : ((s.atBoundary w x r).endDone w c).1.noticed x.owner .windowEnd = true := by
    have hport := hended.ports x.owner
    rw [if_pos howner.symm] at hport
    rw [noticed_of_added (congrArg AgentPort.notices hport)]
    simp
  have hdone : ((s.atBoundary w x r).endDone w c).1.win w = some ((s.boundaryWindow x r).doneRecord c) := hended.window
  rw [finish_eq hwin, hsets]
  generalize ((s.atBoundary w x r).endDone w c).1 = v at *
  have hturn := doSets_turn v (x.setsAt .done)
  have hsame : x.setsAt .done = [] → v.doSets (x.setsAt .done) = v := fun hnone => by
    rw [hnone, doSets_nil]
  refine ⟨?_, hturn.ports.noticed hnotice, fun m hm harmed => ?_, fun hnone => ?_, fun hnone => ?_, fun hnone => ?_,
    fun hnone => ?_⟩
  · refine (hturn.others w nofun fun z hz => ?_).trans hdone
    obtain rfl := Option.some.inj (hdone.symm.trans hz)
    nofun
  · have hsem : v.sem m = s.sem m := congrArg (fun l => Table.rd l m) hsems
    rw [hm, doSets_unarmed (by rw [hsem]; exact harmed), setFlag_sem, hsem]
    exact ⟨rfl, rfl⟩
  · rw [hsame hnone, hsems]
  · rw [hsame hnone, hcounted]
  · rw [hsame hnone]
    exact hnamed
  · rw [hsame hnone]
    exact hleases

theorem BoundaryEnd.kicked (h : BoundaryEnd s w x r c t) : BoundaryEnd s w x r c t.admitWaiting.kick := by
  rw [admitWaiting_kick_frame]
  exact ⟨h.window, h.noticed, h.signalled, h.sems, h.counted, h.named, h.leases⟩

/-- The result of one direction alone is placed on the CHK at which the window receives it. -/
theorem placed_alone {i : SlotId} {p : PortId} {since : Nat} (hslot : s.receiveSlot y d = some i)
    (hacc : y.acc d = some a) (hplaced : a.placed = true)
    (hother : ∀ b, b ≠ d → y.acc b = none ∨ s.receiveSlot y b ≠ some i) :
    ((Lease.held p since).placeIf (s.placedOn y (chkOf i) .fwd)).placeIf (s.placedOn y (chkOf i) .rev) =
      .heldUnposted p since a := by
  have hhere : s.placedOn y (chkOf i) d = some a := by
    simp [State.placedOn, hslot, hacc, hplaced]
  have hthere : ∀ b, b ≠ d → s.placedOn y (chkOf i) b = none := fun b hb => placedOn_elsewhere (hother b hb)
  cases d with
  | fwd => rw [hhere, hthere .rev nofun]; rfl
  | rev => rw [hhere, hthere .fwd nofun]; rfl

/-- Where the window tests the two directions of its victim on two slots, or one direction alone, each result is placed. -/
theorem BoundaryEnd.placed {p : PortId} {since : Nat} (h : BoundaryEnd s w x r c t) (hquiet : x.setsAt .done = [])
    (hlink : s.link x.victim = some k) (hslots : x.mode = .paired → k.endA.slot ≠ k.endB.slot)
    (hdirs : ∀ b, b ∉ x.mode.dirs → x.acc b = none) (hacc : (x.harvestRecord r).acc d = some a)
    (hplaced : a.placed = true) (hlease : (s.res (chkOf (k.receiveEnd d).slot)).lease = .held p since) :
    (t.res (chkOf (k.receiveEnd d).slot)).lease = .heldUnposted p since a := by
  have hslot : ∀ b, s.receiveSlot (s.boundaryWindow x r) b = some (k.receiveEnd b).slot := fun b => by
    rw [boundaryWindow_eq]
    exact congrArg (Option.map fun k => (k.receiveEnd b).slot) hlink
  have hwinAcc : ∀ b, (s.boundaryWindow x r).acc b = (x.harvestRecord r).acc b := fun b => by
    rw [boundaryWindow_eq]
    cases b <;> rfl
  have hnone : ∀ b, b ∉ x.mode.dirs → (x.harvestRecord r).acc b = none := fun b hb => by
    rw [harvestRecord_acc, hdirs b hb]
    split <;> rfl
  have htested : d ∈ x.mode.dirs := by
    by_contra hd
    rw [hnone d hd] at hacc
    cases hacc
  rw [h.leases hquiet, hlease]
  refine placed_alone (hslot d) ((hwinAcc d).trans hacc) hplaced fun b hb => ?_
  rw [hwinAcc, hslot]
  cases hmode : x.mode with
  | paired =>
    refine Or.inr fun heq => hslots hmode ?_
    cases d <;> cases b
    · exact absurd rfl hb
    · exact Option.some.inj heq
    · exact (Option.some.inj heq).symm
    · exact absurd rfl hb
  | fwd =>
    rw [hmode] at htested hnone
    obtain rfl := List.mem_singleton.mp htested
    exact Or.inl (hnone b fun hmem => hb (List.mem_singleton.mp hmem))
  | rev =>
    rw [hmode] at htested hnone
    obtain rfl := List.mem_singleton.mp htested
    exact Or.inl (hnone b fun hmem => hb (List.mem_singleton.mp hmem))

/-! ## The good reply to a HARVEST -/

/-- The result added as the obligations state it. -/
theorem harvestRecord_added {y : Window} (h : ∀ b, y.acc b = (x.harvestRecord r).acc b) :
    y.acc x.dir = (x.acc x.dir).map (fun a => a.add r (min 65535 (x.repeatsDone + 1)) x.aggressedMark)
      ∧ ∀ b, b ≠ x.dir → y.acc b = x.acc b :=
  ⟨(h _).trans ((harvestRecord_acc ..).trans (if_pos rfl)),
    fun b hb => (h b).trans ((harvestRecord_acc ..).trans (if_neg hb))⟩

theorem last_direction (hlast : x.mode ≠ .paired ∨ x.dir = .rev) : ¬ (x.mode = .paired ∧ x.dir = .fwd) :=
  fun ⟨hpaired, hdir⟩ => by
    rcases hlast with hmode | hrev
    · exact hmode hpaired
    · rw [hrev] at hdir
      cases hdir

namespace Harvesting

variable (h : Harvesting s q rest word x k reply)

include h

/-- After the forward direction of a pair the window waits in SETTLE for the reverse one. -/
theorem second (hpaired : x.mode = .paired) (hdir : x.dir = .fwd)
    (hfall : ∃ f, x.ownFall = some f ∧ s.now < f + x.timing.dead) :
    ∃ t, Machine.exec (.setupExchangeEnd reply) s = .next t ∧ t.caps = s.caps ∧ t.win q.win =
      some { x.harvestRecord (repeatResult k x (s.cap (k.receiveEnd x.dir).slot) reply) with
        dir := .rev
        state := .settle
        timerEnd := none } := by
  have hexec := h.exec
  rw [harvested_eq (s := s.withoutTxn s.setup rest) h.window, if_pos ⟨hpaired, hdir⟩, enterSettle_waits] at hexec
  · obtain ⟨hwin, hcaps, -⟩ := settled_fields (State.setWin (s.withoutTxn s.setup rest) q.win (some
      { x.harvestRecord (repeatResult k x (s.cap (k.receiveEnd x.dir).slot) reply) with dir := .rev })) q.win
      { x.harvestRecord (repeatResult k x (s.cap (k.receiveEnd x.dir).slot) reply) with dir := .rev }
    exact ⟨_, hexec, hcaps, hwin⟩
  · rw [harvestRecord_eq]
    exact hfall

variable (hlast : x.mode ≠ .paired ∨ x.dir = .rev)

include hlast

/-- A window that does not end at its repeat boundary waits in SETTLE for its next repeat. -/
theorem goes_on
    (hcause : s.boundaryCause (s.boundaryWindow x (repeatResult k x (s.cap (k.receiveEnd x.dir).slot) reply)) = none)
    (hfall : ∃ f, x.ownFall = some f ∧ s.now < f + (x.retime.getD x.timing).dead) :
    ∃ t, Machine.exec (.setupExchangeEnd reply) s = .next t ∧ t.caps = s.caps
      ∧ (∀ i ∈ s.leavingGens x, (t.res i).naming = none)
      ∧ t.win q.win = some { s.boundaryWindow x (repeatResult k x (s.cap (k.receiveEnd x.dir).slot) reply) with
        dir := x.mode.first
        state := .settle
        timerEnd := none } := by
  have hexec := h.exec
  rw [harvested_eq (s := s.withoutTxn s.setup rest) h.window, if_neg (last_direction hlast)] at hexec
  generalize repeatResult k x (s.cap (k.receiveEnd x.dir).slot) reply = r at *
  have hmode : (s.boundaryWindow x r).mode = x.mode := by
    rw [boundaryWindow_eq]
    rfl
  obtain ⟨res, wins, hdrop, hres⟩ := atBoundary_spec (s.withoutTxn s.setup rest) q.win x r
  have hgoes := boundary_goes_on (s := s.withoutTxn s.setup rest) h.window r hcause
  have hrecord : (s.withoutTxn s.setup rest).boundaryWindow x r = s.boundaryWindow x r := rfl
  rw [hrecord, hmode, enterSettle_waits] at hgoes
  · rw [hgoes] at hexec
    obtain ⟨hwin, hcaps, hdir⟩ := settled_fields (State.setWin ((s.withoutTxn s.setup rest).atBoundary q.win x r) q.win
      (some { s.boundaryWindow x r with dir := x.mode.first })) q.win { s.boundaryWindow x r with dir := x.mode.first }
    refine ⟨_, hexec, hcaps.trans ?_, fun i hi => ?_, hwin⟩
    · have hsame : ((s.withoutTxn s.setup rest).atBoundary q.win x r).caps = s.caps := by
        rw [hdrop]
        rfl
      exact hsame
    · refine (congrArg (fun l => (Table.rd l.res i).naming) hdir).trans ?_
      have hcleared : (((s.withoutTxn s.setup rest).atBoundary q.win x r).res i).naming = none := by
        rw [hdrop]
        refine (congrArg Resource.naming (hres i) :).trans (if_pos ?_)
        rw [leavingGens_atBoundary]
        exact hi
      exact hcleared
  · have hnow : ((s.withoutTxn s.setup rest).atBoundary q.win x r).now = s.now := by
      rw [hdrop]
      rfl
    rw [hnow, boundaryWindow_eq]
    exact hfall

/-- A window that ends at its repeat boundary. -/
theorem ends
    (hcause : s.boundaryCause (s.boundaryWindow x (repeatResult k x (s.cap (k.receiveEnd x.dir).slot) reply)) = some c) :
    ∃ t, Machine.exec (.setupExchangeEnd reply) s = .next t
      ∧ BoundaryEnd s q.win x (repeatResult k x (s.cap (k.receiveEnd x.dir).slot) reply) c t := by
  have hexec := h.exec
  rw [harvested_eq (s := s.withoutTxn s.setup rest) h.window, if_neg (last_direction hlast),
    boundary_ends (s := s.withoutTxn s.setup rest) h.window _ hcause] at hexec
  obtain ⟨hwin, hnotice, hsignal, hsems, hcount, hnamed, hleases⟩ :=
    (finish_boundaryEnd (s.withoutTxn s.setup rest) q.win x
      (repeatResult k x (s.cap (k.receiveEnd x.dir).slot) reply) c).kicked
  exact ⟨_, hexec, hwin, hnotice, hsignal, hsems, hcount, hnamed, hleases⟩

end Harvesting

/-- A result added makes a repeat, so the accumulator is placed. -/
theorem add_placed (a : Accumulator) (r : RepeatResult) (n : Nat) (m : Bool) : (a.add r n m).placed = true := by
  have hone : 1 ≤ satAdd max8 a.repeats 1 := by
    unfold satAdd max8
    omega
  simp [Accumulator.placed, Accumulator.add, hone]

end Sys2Proof.Machine

open Sys2Proof Sys2Proof.Machine

/-- Settles O49. -/
theorem goodRepliesCarryOn : Obligations.GoodRepliesCarryOn := by
  unfold Obligations.GoodRepliesCarryOn
  refine ⟨fun s q rest word x hrst hqueue hflight hkept hkind hexchange hwin hstate => ?_, ?_, ?_⟩
  · have hexec := exec_goodReply (reply := [0x00#8, 0x00#8]) hrst hqueue hflight hkept hexchange
      (by rw [replyLength_eq, if_neg hkind]; rfl) (judgeReply_zeros hkind)
    refine ⟨fun hmore => ?_, fun hnone hmay => ?_⟩
    · rw [hear_outstanding (s := s.withoutTxn s.setup rest) hwin hstate hmore] at hexec
      exact hexec
    · rw [hear_settles (s := s.withoutTxn s.setup rest) hwin hstate hnone hmay] at hexec
      exact hexec
  · intro s q rest word x k reply u r hrst hqueue hflight hkept hkind hexchange hwin hstate hlink hlen hgood
    have h : Harvesting s q rest word x k reply :=
      ⟨hrst, hqueue, hflight, hkept, hkind, hexchange, hwin, hstate, hlink, hlen, hgood⟩
    refine ⟨h.exec, fun hmode hrev hrepeats hdone hdir hsignal hretime => ?_⟩
    have hquiet : x.setsAt .done = [] := by simp only [Window.setsAt, hsignal]
    have hlast : x.mode ≠ .paired ∨ x.dir = .rev := Or.inl (by rw [hmode]; nofun)
    have hcause : s.boundaryCause (s.boundaryWindow x r) = some .complete := by
      rw [boundaryCause_eq, hrepeats, hdone]
      rfl
    obtain ⟨t, hexec, hend⟩ := h.ends hlast hcause
    have hacc : ∀ b, ((s.boundaryWindow x r).doneRecord .complete).acc b = (x.harvestRecord r).acc b := fun b => by
      rw [boundaryWindow_eq]
      cases b <;> rfl
    obtain ⟨hadded, -⟩ := harvestRecord_added hacc
    rw [hdir, hdone] at hadded
    refine ⟨t, _, hexec, hend.window, rfl, rfl, ?_, hadded, hend.noticed, hend.counted hquiet,
      fun a p since ha hlease => ?_⟩
    · rw [boundaryWindow_eq]
      show min 65535 (x.repeatsDone + 1) = 1
      rw [hdone]
      rfl
    · have hplaced : a.placed = true := by
        obtain ⟨a', -, rfl⟩ := Option.map_eq_some_iff.mp (hadded.symm.trans ha)
        exact add_placed ..
      refine hend.placed (d := .fwd) hquiet hlink (fun hpaired => ?_) (fun b hb => ?_) ((hacc .fwd).symm.trans ha) hplaced hlease
      · rw [hmode] at hpaired
        cases hpaired
      · rw [hmode] at hb
        cases b with
        | fwd => exact absurd (List.mem_singleton.mpr rfl) hb
        | rev => exact hrev
  · intro s q rest word x k reply r n timing leaving addedTo cause hrst hqueue hflight hkept hkind hexchange hwin hstate
      hlink hlen hgood
    have h : Harvesting s q rest word x k reply :=
      ⟨hrst, hqueue, hflight, hkept, hkind, hexchange, hwin, hstate, hlink, hlen, hgood⟩
    refine ⟨fun hpaired hdir hfall => ?_, fun hlast => ⟨fun hcause hfall => ?_, fun c hcause => ?_⟩⟩
    · obtain ⟨t, hexec, hcaps, hwin'⟩ := h.second hpaired hdir hfall
      rw [harvestRecord_eq] at hwin'
      exact ⟨t, _, hexec, hwin', rfl, rfl, rfl, rfl, rfl, harvestRecord_added (r := r) (fun b => by cases b <;> rfl), hcaps⟩
    · obtain ⟨t, hexec, hcaps, hnaming, hwin'⟩ := h.goes_on hlast ((boundaryCause_eq ..).trans hcause) hfall
      refine ⟨t, _, hexec, hwin', rfl, rfl, ?_⟩
      have hgone := fun (e : Aggressor) (i : SlotId) (he : e ∈ x.aggressors) (hl : s.leaving e = true) =>
        boundaryWindow_unnamed (i := i) he hl (r := r)
      rw [boundaryWindow_eq] at hgone ⊢
      refine ⟨rfl, rfl, rfl, rfl, rfl, harvestRecord_added (r := r) (fun b => by cases b <;> rfl), hcaps, rfl,
        fun e he hl i hi => ?_⟩
      obtain ⟨hgen, hnot⟩ := hgone e i he hl hi
      exact ⟨hnot, hnaming _ hgen⟩
    · obtain ⟨t, hexec, hend⟩ := h.ends hlast ((boundaryCause_eq ..).trans hcause)
      have hacc : ∀ b, ((s.boundaryWindow x r).doneRecord c).acc b = (x.harvestRecord r).acc b := fun b => by
        rw [boundaryWindow_eq]
        cases b <;> rfl
      refine ⟨t, _, hexec, hend.window, rfl, rfl, ?_, ?_, ?_, rfl, harvestRecord_added (r := r) hacc, hend.noticed,
        hend.signalled, fun hquiet => ⟨hend.sems hquiet, hend.counted hquiet, hend.named hquiet,
          fun hslots hdirs d a p since ha hplaced hlease => ?_⟩⟩
      · rw [boundaryWindow_eq]
        rfl
      · rw [boundaryWindow_eq]
        rfl
      · rw [boundaryWindow_eq]
        rfl
      · have hplaced' : a.placed = true := by
          simpa [Accumulator.placed] using hplaced
        exact hend.placed hquiet hlink hslots hdirs ((hacc d).symm.trans ha) hplaced' hlease

end

