-- ==== Sys2Proof/Proofs/WindowStarts.lean ====
section
/-! SUPPORT. Sys2Proof/Proofs/WindowStarts.lean: START (R70, R102), the CONFIGURE transaction of a named resource (R72) and
the request word of a transaction (R200). -/

namespace Sys2Proof.Machine

variable {s t : State} {w : WinId} {x : Window} {k : Link} {p : PortId} {tag : Byte} {group : List Txn} {d : Dir}

/-! ## The checks of START -/

theorem bodyStart_idle (p : PortId) (tag : Byte) (h : s.win w = none) :
    bodyStart p tag (u8 w.val) s = refuse s .notFound := withWindow_idle h _

/-- START of a window that is there, by the checks of R70 in their order. -/
theorem bodyStart_there (p : PortId) (tag : Byte) (h : s.win w = some x) : bodyStart p tag (u8 w.val) s =
    if x.owner ≠ p then refuse s .notPermitted
    else if x.state ≠ .opened then refuse s .wrongState
    else if !s.linkIs x.victim .fitted || x.aggressors.any (fun a => !s.linkIs a.link .fitted) then refuse s .withdrawn
    else if !s.latchesClear x then refuse s .slotFault
    else accept (s.startWindow w x) [] := withWindow_there h _

/-- The links that a window names are FITTED. -/
def State.linksFitted (s : State) (x : Window) : Prop :=
  s.linkIs x.victim .fitted = true ∧ ∀ a ∈ x.aggressors, s.linkIs a.link .fitted = true

theorem linksFitted_iff :
    s.linksFitted x ↔ (!s.linkIs x.victim .fitted || x.aggressors.any (fun a => !s.linkIs a.link .fitted)) = false := by
  simp [State.linksFitted]

section Checks

variable (h : s.win w = some x)

include h

theorem bodyStart_notPermitted (howner : x.owner ≠ p) : bodyStart p tag (u8 w.val) s = refuse s .notPermitted :=
  (bodyStart_there p tag h).trans (if_pos howner)

variable (howner : x.owner = p)

include howner

theorem bodyStart_wrongState (hstate : x.state ≠ .opened) : bodyStart p tag (u8 w.val) s = refuse s .wrongState := by
  rw [bodyStart_there p tag h, if_neg (not_not.mpr howner), if_pos hstate]

variable (hstate : x.state = .opened)

include hstate

theorem bodyStart_withdrawn (hlinks : ¬ s.linksFitted x) : bodyStart p tag (u8 w.val) s = refuse s .withdrawn := by
  rw [linksFitted_iff, Bool.not_eq_false] at hlinks
  rw [bodyStart_there p tag h, if_neg (not_not.mpr howner), if_neg (not_not.mpr hstate), if_pos hlinks]

variable (hlinks : s.linksFitted x)

include hlinks

theorem bodyStart_slotFault (hclear : s.latchesClear x = false) :
    bodyStart p tag (u8 w.val) s = refuse s .slotFault := by
  rw [bodyStart_there p tag h, if_neg (not_not.mpr howner), if_neg (not_not.mpr hstate),
    if_neg (Bool.eq_false_iff.mp (linksFitted_iff.mp hlinks)), if_pos (by rw [hclear]; rfl)]

theorem bodyStart_starts (hclear : s.latchesClear x = true) :
    bodyStart p tag (u8 w.val) s = accept (s.startWindow w x) [] := by
  rw [bodyStart_there p tag h, if_neg (not_not.mpr howner), if_neg (not_not.mpr hstate),
    if_neg (Bool.eq_false_iff.mp (linksFitted_iff.mp hlinks)), if_neg (by rw [hclear]; nofun)]

end Checks

/-- Parameters of START that are not the byte of a window number. -/
theorem not_decodes_start {ps : List Byte} (h : ps.length ≠ 1 ∨ ∃ b, ps = [b] ∧ 7 < b.toNat) :
    ¬ s.decodes p .start ps := by
  rintro ⟨w, rfl⟩
  rcases h with hlen | ⟨b, hb, hbig⟩
  · exact hlen rfl
  · obtain rfl : BitVec.ofNat 8 w.val = b := List.head_eq_of_cons_eq hb
    have hw := w.isLt
    rw [toNat_byte (by omega)] at hbig
    omega

/-! ## The start -/

theorem startWindow_immediate (h : s.win w = some x) (hsource : x.source = .immediate) : s.startWindow w x =
    (s.setupWindow w x).submit w (x.named.filterMap (s.configure w x)) := by
  simp only [State.startWindow, hsource]
  exact enterSetup_eq h

/-- The hub in which the window is ARMED at the end of the armed list of a semaphore. -/
def State.armedOn (s : State) (w : WinId) (x : Window) (k : SemId) (take : TakeMode) : State :=
  (s.setWin w (some { x with state := .armed, armedAt := some s.now })).modSem k
    (fun m => { m with armed := m.armed ++ [{ win := w, take := take }] })

theorem armedOn_win (s : State) (w : WinId) (x : Window) (k : SemId) (take : TakeMode) :
    (s.armedOn w x k take).win w = some { x with state := .armed, armedAt := some s.now } :=
  (win_setWin ..).trans (if_pos rfl)

theorem armedOn_sem (s : State) (w : WinId) (x : Window) (k : SemId) (take : TakeMode) : (s.armedOn w x k take).sem k =
    { s.sem k with armed := (s.sem k).armed ++ [{ win := w, take := take }] } :=
  (sem_modSem ..).trans (if_pos rfl)

variable {m : SemId} {take : TakeMode}

theorem startWindow_semaphore (h : s.win w = some x) (hsource : x.source = .semaphore m take) : s.startWindow w x =
    if (s.sem m).set then ((s.armedOn w x m take).startList m).1.doSets ((s.armedOn w x m take).startList m).2.2
    else s.armedOn w x m take := by
  have hset : ((s.armedOn w x m take).sem m).set = (s.sem m).set := by rw [armedOn_sem]
  have harm : (s.modWin w (fun y => { y with state := .armed, armedAt := some s.now })).modSem m
      (fun m => { m with armed := m.armed ++ [{ win := w, take := take }] }) = s.armedOn w x m take := by
    rw [modWin_eq_setWin h]
    rfl
  simp only [State.startWindow, hsource, harm, hset]

/-- A window that has been started has left ARMED and is not OPEN. -/
theorem Started.left (h : Started s w x t) : ∃ y, t.win w = some y ∧ y.state ≠ .armed ∧ y.state ≠ .opened := by
  cases hlink : s.linkIs x.victim .withdrawing with
  | true => exact ⟨_, h.withdrawn hlink, nofun, nofun⟩
  | false =>
    by_cases hfault : x.faultMode = .halt ∧ s.latchesClear (s.unaggressed x) = false
    · obtain ⟨y, hy, hstate, -⟩ := h.faulted hlink hfault.1 hfault.2
      refine ⟨y, hy, ?_, ?_⟩ <;> rw [hstate] <;> nofun
    · exact ⟨_, h.setup hlink hfault, nofun, nofun⟩

/-- On a set semaphore with nothing armed the window leaves ARMED in the same event. -/
theorem startWindow_set (h : s.win w = some x) (hsource : x.source = .semaphore m take) (hset : (s.sem m).set = true)
    (hempty : (s.sem m).armed = []) :
    ∃ y, (s.startWindow w x).win w = some y ∧ y.state ≠ .armed ∧ y.state ≠ .opened := by
  have hchosen : (s.armedOn w x m take).chosen m = [{ win := w, take := take }] := by
    unfold State.chosen
    rw [armedOn_sem, hempty]
    cases take <;> rfl
  obtain ⟨-, -, hstarted⟩ := handOver_handed ((s.armedOn w x m take).listLeft m) ((s.armedOn w x m take).chosen m)
  rw [hchosen] at hstarted
  obtain ⟨y, hy, harmed, hopened⟩ :=
    (hstarted w (List.mem_singleton_self w) _ (armedOn_win s w x m take) rfl).left
  rw [startWindow_semaphore h hsource, if_pos hset, startList_eq, hchosen]
  refine ⟨y, ((doSets_turn ..).others w nofun fun z hz => ?_).trans hy, harmed, hopened⟩
  obtain rfl := Option.some.inj (hy.symm.trans hz)
  exact harmed

/-! ## What a group finds on the link -/

/-- A group behind a transaction in flight. -/
theorem submit_behind {u : Txn} (horder : s.setup.order = []) (hroom : s.setup.queue.length + group.length ≤ 16)
    (hhead : s.setup.queue.head? = some u) (hflight : u.inFlight = true) :
    s.submit w group = s.setSetup { s.setup with queue := s.setup.queue ++ group } := by
  obtain ⟨rest, hqueue⟩ := List.head?_eq_some_iff.mp hhead
  rw [submit_admitted horder hroom]
  exact kick_flying (rest := rest ++ group) (by rw [hqueue]; rfl) hflight

/-- A group that finds the queue empty has its first transaction in flight. -/
theorem submit_first {u : Txn} {more : List Txn} (horder : s.setup.order = [])
    (hroom : s.setup.queue.length + group.length ≤ 16) (hqueue : s.setup.queue = []) (hgroup : group = u :: more)
    (hflight : u.inFlight = false) : s.submit w group = s.setSetup { s.setup with
      queue := { u with inFlight := true } :: more
      exchange := .awaiting u.word (s.now + 2 + s.map.replyTimeout) } := by
  rw [submit_admitted horder hroom, hqueue, hgroup]
  exact kick_starts (s := s.setSetup { s.setup with queue := u :: more }) (rest := more) rfl hflight

/-- Every transaction of a window's group is QUEUED. -/
theorem group_queued {u : Txn} (h : u ∈ x.named.filterMap (s.configure w x)) : u.inFlight = false := by
  obtain ⟨r, -, hr⟩ := List.mem_filterMap.mp h
  exact configure_flies hr

/-! ## The CONFIGURE transactions (R72) -/

theorem find?_unique {α : Type} {f : α → Bool} {a : α} {l : List α} (hmem : a ∈ l) (ha : f a = true)
    (hone : ∀ b ∈ l, b ≠ a → f b = false) : l.find? f = some a := by
  cases hfind : l.find? f with
  | none => exact absurd ha (List.find?_eq_none.mp hfind a hmem)
  | some b =>
    by_contra hne
    have hba : b ≠ a := fun heq => hne (congrArg some heq)
    have hno := hone b (List.mem_of_find?_eq_some hfind) hba
    rw [List.find?_some hfind] at hno
    cases hno

/-- A CONFIGURE transaction of a window at one end of a link. -/
def configureTxn (w : WinId) (x : Window) (kind : TxnKind) (e : EndPoint) (lanes : Nat) : Txn :=
  { kind := kind, slot := e.slot, port := e.port, lanes := lanes, pattern := x.pattern, win := w, inFlight := false,
    discard := false }

theorem receiveEnd_of_ne {c : Dir} (k : Link) (h : c ≠ d) : k.receiveEnd c = k.driveEnd d := by
  cases c <;> cases d
  · exact absurd rfl h
  · rfl
  · rfl
  · exact absurd rfl h

section Configure

variable (h : s.link x.victim = some k)

include h

/-- The GEN of a direction drives from its own end. -/
theorem configure_gen (hd : d ∈ x.mode.dirs)
    (hone : ∀ c ∈ x.mode.dirs, c ≠ d → (k.driveEnd c).slot ≠ (k.driveEnd d).slot) :
    s.configure w x (genOf (k.driveEnd d).slot) = some (configureTxn w x .configureGen (k.driveEnd d) k.lanes) := by
  have hfind : x.mode.dirs.find? (fun c => decide ((k.driveEnd c).slot = (k.driveEnd d).slot)) = some d :=
    find?_unique hd (decide_eq_true rfl) fun c hc hne => decide_eq_false (hone c hc hne)
  simp [State.configure, h, hfind, configureTxn]

theorem configure_chk (hd : d ∈ x.mode.dirs)
    (hone : ∀ c ∈ x.mode.dirs, c ≠ d → (k.receiveEnd c).slot ≠ (k.receiveEnd d).slot) :
    s.configure w x (chkOf (k.receiveEnd d).slot) = some (configureTxn w x .configureChk (k.receiveEnd d) k.lanes) := by
  have hfind : x.mode.dirs.find? (fun c => decide ((k.receiveEnd c).slot = (k.receiveEnd d).slot)) = some d :=
    find?_unique hd (decide_eq_true rfl) fun c hc hne => decide_eq_false (hone c hc hne)
  simp [State.configure, h, hfind, configureTxn, isGen_chkOf]

/-- The GEN of an aggressor drives from its end of its own link. -/
theorem configure_aggressor {a : Aggressor} {m : Link} (ha : a ∈ x.aggressors) (hm : s.link a.link = some m)
    (hvictim : ∀ c ∈ x.mode.dirs, (k.driveEnd c).slot ≠ (m.endPoint a.drive).slot)
    (hone : ∀ c ∈ x.aggressors, c ≠ a → s.aggressorSlot c ≠ some (m.endPoint a.drive).slot) :
    s.configure w x (genOf (m.endPoint a.drive).slot) =
      some (configureTxn w x .configureGen (m.endPoint a.drive) m.lanes) := by
  have hslot : s.aggressorSlot a = some (m.endPoint a.drive).slot := congrArg (Option.map _) hm
  have hnone : x.mode.dirs.find? (fun c => decide ((k.driveEnd c).slot = (m.endPoint a.drive).slot)) = none :=
    List.find?_eq_none.mpr fun c hc => by simp [hvictim c hc]
  have hfind : x.aggressors.find? (fun c => decide (s.aggressorSlot c = some (m.endPoint a.drive).slot)) = some a :=
    find?_unique ha (decide_eq_true hslot) fun c hc hne => decide_eq_false (hone c hc hne)
  simp [State.configure, h, hnone, hfind, hm, configureTxn]

end Configure

/-! ## The request word (R200) -/

theorem toNat_append_add {m n : Nat} (a : BitVec m) (b : BitVec n) : (a ++ b).toNat = a.toNat * 2 ^ n + b.toNat := by
  rw [BitVec.toNat_append, ← Nat.shiftLeft_add_eq_or_of_lt b.isLt, Nat.shiftLeft_eq]

theorem op_toNat (kind : TxnKind) : kind.op.toNat = match kind with
    | .configureGen => 1
    | .configureChk => 2
    | .harvest => 3 := by
  cases kind <;> rfl

theorem word_toNat (u : Txn) (hlow : 1 ≤ u.lanes) (hlanes : u.lanes ≤ 4) (hpattern : u.pattern ≤ 15) :
    u.word.toNat = (u.kind.op.toNat * 4 + (u.lanes - 1)) * 4096 + u.port.val * 256 + u.pattern * 16
      + ((u.kind.op.toNat * 4 + (u.lanes - 1)) ^^^ u.port.val ^^^ u.pattern) := by
  have hport := u.port.isLt
  have h0 : (u.kind.op ++ BitVec.ofNat 2 (u.lanes - 1)).toNat = u.kind.op.toNat * 4 + (u.lanes - 1) := by
    rw [toNat_append_add, BitVec.toNat_ofNat, Nat.mod_eq_of_lt (by omega)]
    rfl
  have h1 : (BitVec.ofNat 4 u.port.val).toNat = u.port.val := by
    rw [BitVec.toNat_ofNat, Nat.mod_eq_of_lt (by omega)]
  have h2 : (BitVec.ofNat 4 u.pattern).toNat = u.pattern := by
    rw [BitVec.toNat_ofNat, Nat.mod_eq_of_lt (by omega)]
  unfold Txn.word
  dsimp only
  rw [toNat_append_add, toNat_append_add, toNat_append_add, BitVec.toNat_xor, BitVec.toNat_xor, h0, h1, h2]
  omega

end Sys2Proof.Machine

open Sys2Proof Sys2Proof.Machine

/-- Settles O37. -/
theorem startSetsUpOrArms : Obligations.StartSetsUpOrArms := by
  unfold Obligations.StartSetsUpOrArms
  refine ⟨fun s p w x tag filler cut => ?_, fun s p tag params filler cut hadm hbad =>
    exec_badParam hadm (not_decodes_start hbad) nofun, fun s w x k hlink => ?_, fun u hlow hlanes hpattern => ?_⟩
  · intro group runsStart linksOk latchesOk hadm
    refine ⟨fun hidle => exec_refused hadm (bodyStart_idle p tag hidle), fun hwin => ⟨fun howner => ?_,
      fun howner hstate => ?_, fun howner hstate hlinks => ?_, fun howner hstate hlinks hlatches => ?_,
      fun howner hstate hlinks hlatches => ?_⟩⟩
    · exact exec_refused hadm (bodyStart_notPermitted (s := s.working .start p tag) (tag := tag) hwin howner)
    · exact exec_refused hadm (bodyStart_wrongState (s := s.working .start p tag) (tag := tag) hwin howner hstate)
    · exact exec_refused hadm (bodyStart_withdrawn (s := s.working .start p tag) (tag := tag) hwin howner hstate hlinks)
    · have hclear : s.latchesClear x = false := Bool.eq_false_iff.mpr fun h => hlatches (latchesClear_iff.mp h)
      exact exec_refused hadm
        (bodyStart_slotFault (s := s.working .start p tag) (tag := tag) hwin howner hstate hlinks hclear)
    · have hexec := exec_accepted (cut := cut) hadm (bodyStart_starts (s := s.working .start p tag) (tag := tag) hwin howner
        hstate hlinks (latchesClear_iff.mpr hlatches))
      refine ⟨fun hsource => ?_, fun m take hsource hset => ?_, fun m take hsource hset hempty => ?_⟩
      · rw [startWindow_immediate (s := s.working .start p tag) hwin hsource] at hexec
        have hframe := submit_frame ((s.working .start p tag).setupWindow w x) w group
        refine ⟨_, hexec, (submit_win ..).trans (setupWindow_win ..), fun v hv => ?_, fun horder hroom => ⟨?_, ?_, ?_⟩,
          fun hwaits => ?_, ?_, answer_slot ..⟩
        · exact (submit_win ..).trans ((win_setWin ..).trans (if_neg hv))
        · have hlast := congrArg (fun u => u.setup.order)
            (submit_admitted (s := (s.working .start p tag).setupWindow w x) (w := w) horder hroom)
          exact hlast.trans ((kick_order _).trans horder)
        · intro u hhead hflight
          have hsame := congrArg State.setup
            (submit_behind (s := (s.working .start p tag).setupWindow w x) (w := w) horder hroom hhead hflight)
          exact ⟨(congrArg SetupLink.queue hsame :), (congrArg SetupLink.exchange hsame :)⟩
        · intro u more hqueue hgroup
          have hflight : u.inFlight = false := group_queued (s := s) (w := w) (x := x) (by
            show u ∈ group
            rw [hgroup]
            exact List.mem_cons_self)
          have hsame := congrArg State.setup (submit_first (s := (s.working .start p tag).setupWindow w x) (w := w)
            horder hroom hqueue hgroup hflight)
          exact ⟨(congrArg SetupLink.queue hsame :), (congrArg SetupLink.exchange hsame :)⟩
        · have hlast := congrArg (fun u => u.setup.order)
            (submit_waits (s := (s.working .start p tag).setupWindow w x) (w := w) hwaits)
          exact hlast.trans (kick_order _)
        · have hrest : ∀ v : State, v = ((s.working .start p tag).setupWindow w x).setSetup v.setup →
              v.answerOk .start p tag [] = { s with
                eng := (v.answerOk .start p tag []).eng
                setup := (v.answerOk .start p tag []).setup
                ports := (v.answerOk .start p tag []).ports } := fun v hv => by
            rw [hv]
            rfl
          exact hrest _ hframe
      · have hclear : ¬ ((s.working .start p tag).sem m).set = true := Bool.eq_false_iff.mp hset
        rw [startWindow_semaphore (s := s.working .start p tag) hwin hsource, if_neg hclear] at hexec
        exact hexec
      · obtain ⟨y, hy, harmed, hopened⟩ := startWindow_set (s := s.working .start p tag) hwin hsource hset hempty
        exact ⟨_, y, hexec, hy, harmed, hopened, answer_slot ..⟩
  · intro txn
    refine ⟨fun d hd hone => ⟨configure_gen hlink hd hone, configure_chk hlink hd fun c hc hne => ?_⟩,
      fun a ha m hm hvictim hone => configure_aggressor hlink ha hm hvictim hone⟩
    rw [receiveEnd_of_ne k hne, receiveEnd_of_ne k hne.symm]
    exact (hone c hc hne).symm
  · intro op n0
    have hop : u.kind.op.toNat = op := op_toNat u.kind
    have hn0 : n0 = u.kind.op.toNat * 4 + (u.lanes - 1) := by
      rw [hop]
    rw [hn0]
    exact word_toNat u hlow hlanes hpattern

end

