-- ==== Sys2Proof/Proofs/SemaphoreSets.lean ====
section
/-! SUPPORT. Sys2Proof/Proofs/SemaphoreSets.lean: the entries that a start chooses (R101), the setup link that a window
which does not enter SETUP leaves alone (R118, R124), and SEM_SET (R104). -/

namespace Sys2Proof.Machine

variable {s t : State} {w v : WinId} {x : Window} {ws : List WinId} {k : SemId} {es : List ArmedEntry} {group : List Txn}

/-! ## The entries chosen (R101) -/

/-- The entry is CONSUME. -/
def ArmedEntry.consumes (e : ArmedEntry) : Bool := decide (e.take = .consume)

/-- The entry is LEAVE. -/
def ArmedEntry.leaves (e : ArmedEntry) : Bool := decide (e.take = .leave)

theorem consumes_of_not_leave {e : ArmedEntry} (h : e.take ≠ .leave) : e.consumes = true ∧ e.leaves = false := by
  cases htake : e.take with
  | leave => exact absurd htake h
  | consume => simp [ArmedEntry.consumes, ArmedEntry.leaves, htake]

theorem leaves_of_leave {e : ArmedEntry} (h : e.take = .leave) : e.consumes = false ∧ e.leaves = true := by
  simp [ArmedEntry.consumes, ArmedEntry.leaves, h]

theorem chooseEntries_leave {e : ArmedEntry} (free : Bool) (rest : List ArmedEntry) (h : e.take = .leave) :
    chooseEntries free (e :: rest) = (e :: (chooseEntries free rest).1, (chooseEntries free rest).2) := by
  simp [chooseEntries, h]

theorem chooseEntries_first {e : ArmedEntry} (rest : List ArmedEntry) (h : e.take ≠ .leave) :
    chooseEntries true (e :: rest) = (e :: (chooseEntries false rest).1, (chooseEntries false rest).2) := by
  simp [chooseEntries, h]

theorem chooseEntries_later {e : ArmedEntry} (rest : List ArmedEntry) (h : e.take ≠ .leave) :
    chooseEntries false (e :: rest) = ((chooseEntries false rest).1, e :: (chooseEntries false rest).2) := by
  simp [chooseEntries, h]

/-- How many CONSUME entries a start may still choose. -/
def consumable (free : Bool) : Nat := if free then 1 else 0

/-- A start splits the list in order: every LEAVE entry and as many CONSUME entries as it may are chosen. -/
theorem chooseEntries_spec (free : Bool) (es : List ArmedEntry) :
    (chooseEntries free es).1.Sublist es ∧ (chooseEntries free es).2.Sublist es
      ∧ (chooseEntries free es).1.filter ArmedEntry.leaves = es.filter ArmedEntry.leaves
      ∧ (chooseEntries free es).1.filter ArmedEntry.consumes = (es.filter ArmedEntry.consumes).take (consumable free)
      ∧ (chooseEntries free es).2 = (es.filter ArmedEntry.consumes).drop (consumable free) := by
  induction es generalizing free with
  | nil => exact ⟨List.Sublist.refl _, List.Sublist.refl _, rfl, by simp [chooseEntries], by simp [chooseEntries]⟩
  | cons e rest ih =>
    by_cases he : e.take = .leave
    · obtain ⟨hchosen, hkept, hleave, hconsume, hrest⟩ := ih free
      obtain ⟨hc, hl⟩ := leaves_of_leave he
      rw [chooseEntries_leave free rest he]
      refine ⟨hchosen.cons_cons e, hkept.cons e, ?_, ?_, ?_⟩
      · rw [List.filter_cons_of_pos hl, List.filter_cons_of_pos hl, hleave]
      · simpa [List.filter_cons, hc] using hconsume
      · simpa [List.filter_cons, hc] using hrest
    · obtain ⟨hchosen, hkept, hleave, hconsume, hrest⟩ := ih false
      obtain ⟨hc, hl⟩ := consumes_of_not_leave he
      cases free with
      | true =>
        rw [chooseEntries_first rest he]
        refine ⟨hchosen.cons_cons e, hkept.cons e, ?_, ?_, ?_⟩
        · simpa [List.filter_cons, hl] using hleave
        · simpa [List.filter_cons, hc, consumable] using hconsume
        · simpa [List.filter_cons, hc, consumable] using hrest
      | false =>
        rw [chooseEntries_later rest he]
        refine ⟨hchosen.cons e, hkept.cons_cons e, ?_, ?_, ?_⟩
        · simpa [List.filter_cons, hl] using hleave
        · simpa [List.filter_cons, hc, consumable] using hconsume
        · simpa [List.filter_cons, hc, consumable] using hrest

/-- A CONSUME entry is chosen exactly where the list has one. -/
theorem chosen_consumes (es : List ArmedEntry) :
    (!(chooseEntries true es).1.any ArmedEntry.consumes) = decide (∀ e ∈ es, e.take = .leave) := by
  obtain ⟨hsub, -, -, hconsume, -⟩ := chooseEntries_spec true es
  rw [Bool.eq_iff_iff, Bool.not_eq_true', decide_eq_true_iff, List.any_eq_false]
  constructor
  · intro hnone e he
    by_contra hne
    have hfilter : (chooseEntries true es).1.filter ArmedEntry.consumes = [] := List.filter_eq_nil_iff.mpr hnone
    have hempty : es.filter ArmedEntry.consumes = [] := by
      rw [hfilter] at hconsume
      cases hlist : es.filter ArmedEntry.consumes with
      | nil => rfl
      | cons a l =>
        rw [hlist] at hconsume
        cases hconsume
    exact List.filter_eq_nil_iff.mp hempty e he (consumes_of_not_leave hne).1
  · intro hall e he hc
    rw [(leaves_of_leave (hall e (hsub.subset he))).1] at hc
    cases hc

/-! ## The setup link without a window -/

/-- No transaction of the window is in the Setup Queue or waits for it. -/
def State.setupWithout (s : State) (w : WinId) : Prop :=
  (∀ q ∈ s.setup.queue, q.win ≠ w) ∧ ∀ g ∈ s.setup.order, g.win ≠ w ∧ ∀ q ∈ g.group, q.win ≠ w

theorem setupWithout_congr (hsetup : t.setup = s.setup) (h : s.setupWithout w) : t.setupWithout w := by
  unfold State.setupWithout
  rwa [hsetup]

theorem kick_without (h : s.setupWithout w) : s.kick.setupWithout w := by
  obtain ⟨hqueue, horder⟩ := h
  refine ⟨fun q hq => ?_, by rwa [kick_order]⟩
  obtain ⟨u, hu, rfl | rfl⟩ := mem_kick hq
  · exact hqueue _ hu
  · exact hqueue u hu

theorem admitWaiting_without (h : s.setupWithout w) : s.admitWaiting.setupWithout w := by
  obtain ⟨hqueue, horder⟩ := h
  obtain ⟨hadmitted, hwaiting⟩ := admitGroups_mem s.setup.order s.setup.queue
  refine ⟨fun q hq => ?_, fun g hg => horder g (hwaiting g hg)⟩
  rcases hadmitted q hq with hin | ⟨g, hg, hin⟩
  · exact hqueue q hin
  · exact (horder g hg).2 q hin

theorem dropOutstanding_without (h : s.setupWithout w) : (s.dropOutstanding v).setupWithout w := by
  obtain ⟨hqueue, horder⟩ := h
  refine kick_without (admitWaiting_without ⟨fun q hq => ?_, fun g hg => horder g (List.mem_filter.mp hg).1⟩)
  obtain ⟨u, hu, hstopped⟩ := List.mem_filterMap.mp hq
  unfold Txn.stopped at hstopped
  split at hstopped
  · split at hstopped
    · obtain rfl := Option.some.inj hstopped
      exact hqueue u hu
    · cases hstopped
  · obtain rfl := Option.some.inj hstopped
    exact hqueue _ hu

theorem submit_without (hv : v ≠ w) (hgroup : ∀ q ∈ group, q.win ≠ w) (h : s.setupWithout w) :
    (s.submit v group).setupWithout w := by
  obtain ⟨hqueue, horder⟩ := h
  refine kick_without ?_
  split
  · exact ⟨fun q hq => (List.mem_append.mp hq).elim (hqueue q) (hgroup q), horder⟩
  · refine ⟨hqueue, fun g hg => ?_⟩
    rcases List.mem_append.mp hg with hg | hg
    · exact horder g hg
    · obtain rfl := List.mem_singleton.mp hg
      exact ⟨hv, hgroup⟩

theorem stopWindow_without (c : EndCause) (h : s.setupWithout w) : (s.stopWindow v c).setupWithout w := by
  cases hwin : s.win v with
  | none => rwa [stopWindow_idle hwin]
  | some x =>
    cases hactive : x.state.active with
    | false => rwa [stopWindow_ended hwin hactive]
    | true => exact setupWithout_congr (stopWindow_setup hwin hactive) (dropOutstanding_without h)

theorem configure_win {r : ResId} {q : Txn} (h : s.configure v x r = some q) : q.win = v := by
  unfold State.configure at h
  dsimp only at h
  split at h
  · cases h
  · split at h
    · split at h
      · cases h
        rfl
      · split at h
        · obtain ⟨m, -, rfl⟩ := Option.map_eq_some_iff.mp h
          rfl
        · cases h
    · split at h
      · cases h
        rfl
      · cases h

theorem enterSetup_without (hv : v ≠ w) (h : s.setupWithout w) : (s.enterSetup v).setupWithout w := by
  cases hwin : s.win v with
  | none =>
    have hnone : s.enterSetup v = s := by simp only [State.enterSetup, hwin]
    rwa [hnone]
  | some x =>
    rw [enterSetup_eq hwin]
    refine submit_without hv (fun q hq => ?_) (setupWithout_congr (s := s) rfl h)
    obtain ⟨r, -, hr⟩ := List.mem_filterMap.mp hq
    rw [configure_win hr]
    exact hv

/-! ## A window whose start does not submit -/

/-- The start of the window, where it is ARMED, does not take it to SETUP. -/
def State.barred (s : State) (w : WinId) : Prop := ∀ x, s.win w = some x → x.state = .armed →
  s.linkIs x.victim .withdrawing = false → x.faultMode = .halt ∧ s.latchesClear (s.unaggressed x) = false

theorem unaggressed_congr (hmap : t.map = s.map) (x : Window) : t.unaggressed x = s.unaggressed x := by
  unfold State.unaggressed State.leavingGens State.leaving State.aggressorSlot State.linkIs State.link
  rw [hmap]

theorem linkIs_congr (hmap : t.map = s.map) (l : LinkId) (st : LinkState) : t.linkIs l st = s.linkIs l st := by
  unfold State.linkIs State.link
  rw [hmap]

theorem Turn.barred (h : Turn ws s t) (hw : s.barred w) : t.barred w := fun x hx harmed hlink => by
  rw [linkIs_congr h.map] at hlink
  rw [unaggressed_congr h.map, latchesClear_congr h.faults]
  exact hw x (h.armed w x hx harmed) harmed hlink

theorem endDone_without (c : EndCause) (h : s.setupWithout w) : (s.endDone v c).1.setupWithout w := by
  cases hwin : s.win v with
  | none =>
    have hnone : s.endDone v c = (s, []) := by simp only [State.endDone, hwin]
    rwa [hnone]
  | some x =>
    refine setupWithout_congr ?_ h
    rw [(endDone_ended hwin c).2.frame]

theorem armedStart_without (hw : s.barred w) (h : s.setupWithout w) : (s.armedStart v).1.setupWithout w := by
  by_cases hnot : s.notArmed v
  · rwa [armedStart_stands hnot]
  · unfold State.notArmed at hnot
    push Not at hnot
    obtain ⟨x, hx, harmed⟩ := hnot
    cases hlink : s.linkIs x.victim .withdrawing with
    | true =>
      rw [armedStart_withdrawn hx harmed hlink]
      exact endDone_without _ h
    | false =>
      obtain ⟨res, hdrop, -⟩ := dropAggressors_spec hx
      have hleft : (s.dropAggressors v).setupWithout w := setupWithout_congr (by rw [hdrop]) h
      rw [armedStart_goes hx harmed hlink]
      split
      · exact stopWindow_without _ hleft
      · next hgoes =>
        refine enterSetup_without (fun hvw => hgoes ?_) hleft
        subst hvw
        obtain ⟨hhalt, hclear⟩ := hw x hx harmed hlink
        exact ⟨hhalt, by rw [hclear]; rfl⟩

theorem handOver_without (es : List ArmedEntry) (hw : s.barred w) (h : s.setupWithout w) :
    (s.handOver es).1.setupWithout w := by
  induction es generalizing s with
  | nil => exact h
  | cons e rest ih =>
    rw [handOver_cons]
    exact ih ((armedStart_handed s e.win).1.turn.barred hw) (armedStart_without hw h)

theorem startList_without (k : SemId) (hw : s.barred w) (h : s.setupWithout w) :
    (s.startList k).1.setupWithout w := by
  rw [startList_eq]
  exact handOver_without (s := s.listLeft k) _ hw h

theorem takeSet_without (k : SemId) (hw : s.barred w) (h : s.setupWithout w) : (s.takeSet k).1.setupWithout w :=
  startList_without (s := s.setFlag k) k hw h

theorem takeSets_without (n : Nat) (ks : List SemId) (hw : s.barred w) (h : s.setupWithout w) :
    (State.takeSets n s ks).setupWithout w := by
  induction n generalizing s ks with
  | zero => exact h
  | succ n ih =>
    cases ks with
    | nil => exact h
    | cons k rest => exact ih _ ((takeSet_turn s k).barred hw) (takeSet_without k hw h)

theorem doSets_without (ks : List SemId) (hw : s.barred w) (h : s.setupWithout w) : (s.doSets ks).setupWithout w :=
  takeSets_without 9 ks hw h

/-! ## A set taken (R100, R101) -/

theorem takeSet_eq (s : State) (k : SemId) : s.takeSet k = (s.setFlag k).startList k := rfl

theorem setFlag_chosen (s : State) (k : SemId) : (s.setFlag k).chosen k = (chooseEntries true (s.sem k).armed).1 := by
  unfold State.chosen
  rw [setFlag_sem]

theorem takeSet_windows (s : State) (k : SemId) :
    (s.takeSet k).2.1 = (chooseEntries true (s.sem k).armed).1.map (fun e => e.win) := by
  rw [takeSet_eq, startList_eq, setFlag_chosen]

/-- The semaphore after a set: its flags, and the entries that stay in its list. -/
theorem takeSet_sem (s : State) (k : SemId) :
    ((s.takeSet k).1.sem k).set = decide (∀ e ∈ (s.sem k).armed, e.take = .leave)
    ∧ ((s.takeSet k).1.sem k).overrun = ((s.sem k).overrun || (s.sem k).set)
    ∧ ((∀ e ∈ (chooseEntries true (s.sem k).armed).2, e.win ∉ (s.takeSet k).2.1) →
      ((s.takeSet k).1.sem k).armed = (chooseEntries true (s.sem k).armed).2) := by
  obtain ⟨hhanded, -, -⟩ := handOver_handed ((s.setFlag k).listLeft k) ((s.setFlag k).chosen k)
  obtain ⟨hset, hover, harmed⟩ := hhanded.sems k
  have hflags : ((s.setFlag k).listLeft k).sem k = { s.sem k with
      armed := (chooseEntries true (s.sem k).armed).2
      set := !(chooseEntries true (s.sem k).armed).1.any ArmedEntry.consumes
      overrun := (s.sem k).overrun || (s.sem k).set } := by
    rw [listLeft_sem, setFlag_sem]
    unfold Semaphore.listStarted
    rw [Bool.true_and]
    rfl
  rw [takeSet_windows, takeSet_eq, startList_eq]
  rw [hflags] at hset hover harmed
  rw [setFlag_chosen] at hset hover harmed ⊢
  exact ⟨hset.trans (chosen_consumes _), hover, harmed⟩

/-- Every chosen window has been started. -/
theorem takeSet_starts (hw : w ∈ (s.takeSet k).2.1) : (s.takeSet k).1.notArmed w
    ∧ ∀ x, s.win w = some x → x.state = .armed → Started s w x (s.takeSet k).1 := by
  obtain ⟨-, hcalm, hstarted⟩ := handOver_handed ((s.setFlag k).listLeft k) ((s.setFlag k).chosen k)
  rw [takeSet_eq, startList_eq] at hw ⊢
  refine ⟨hcalm w hw, fun x hx harmed => ?_⟩
  exact started_congr (u := (s.setFlag k).listLeft k) rfl rfl (hstarted w hw x hx harmed)

/-- The sets that arise leave a started window as its start has left it. -/
theorem doSets_started (ks : List SemId) (hcalm : t.notArmed w) (h : Started s w x t) : Started s w x (t.doSets ks) :=
  h.of_win ((doSets_turn t ks).others w nofun hcalm)

theorem bodySemSet_sets (p : PortId) (tag : Byte) (s : State) (k : SemId) : bodySemSet p tag (u8 k.val) s =
    accept ((s.takeSet k).1.doSets (s.takeSet k).2.2)
      (enFlag (s.sem k).set ++ enList (fun w : WinId => u8 w.val) (s.takeSet k).2.1
        ++ enFlag (((s.takeSet k).1.doSets (s.takeSet k).2.2).sem k).set
        ++ enFlag (((s.takeSet k).1.doSets (s.takeSet k).2.2).sem k).overrun) := by
  simp only [bodySemSet, u8, idxOf_byte (show 8 ≤ 256 by omega)]
  rfl

/-- With nothing armed a set raises the flags alone. -/
theorem bodySemSet_unarmed (p : PortId) (tag : Byte) (h : (s.sem k).armed = []) : bodySemSet p tag (u8 k.val) s =
    accept (s.setFlag k) (enFlag (s.sem k).set ++ u8 0 ++ enFlag true ++ enFlag ((s.sem k).overrun || (s.sem k).set)) := by
  rw [bodySemSet_sets, takeSet_unarmed h, doSets_nil, setFlag_sem]
  rfl

/-- The resources that the window still names once its withdrawing aggressors have left. -/
theorem leavingGens_contains (s : State) (x : Window) (r : ResId) : (s.leavingGens x).contains r =
    x.aggressors.any (fun a => s.leaving a && decide ((s.aggressorSlot a).map genOf = some r)) := by
  rw [Bool.eq_iff_iff, List.contains_iff_mem, mem_leavingGens, List.any_eq_true]
  simp only [Bool.and_eq_true, decide_eq_true_iff]

theorem latchesClear_eq_false : s.latchesClear x = false ↔ ∃ r ∈ x.named, s.latched (resSlot r) = true := by
  simp [State.latchesClear]

end Sys2Proof.Machine

open Sys2Proof Sys2Proof.Machine

/-- Settles O45. -/
theorem semSetSetsAndChooses : Obligations.SemSetSetsAndChooses := by
  unfold Obligations.SemSetSetsAndChooses
  refine ⟨fun s p k tag filler cut hadm hempty => ?_, ?_, fun es => chooseEntries_spec true es⟩
  · exact exec_accepted hadm (bodySemSet_unarmed (s := s.working .semSet p tag) p tag hempty)
  · intro s p k tag filler cut set after hadm
    obtain ⟨hset, hover, harmed⟩ := takeSet_sem (s.working .semSet p tag) k
    have hturn : Turn [] set.1 after := doSets_turn _ _
    refine ⟨takeSet_windows _ k, exec_accepted hadm (bodySemSet_sets p tag (s.working .semSet p tag) k), hset, hover,
      harmed, fun w hw => hturn.notArmed (takeSet_starts hw).1, ?_⟩
    intro w hw x hwin hstate leaving lost left faulted
    obtain ⟨hcalm, hstarts⟩ := takeSet_starts hw
    have hstarted : Started s w x after :=
      started_congr (u := s.working .semSet p tag) rfl rfl (doSets_started _ hcalm (hstarts x hwin hstate))
    have hnamed : (s.unaggressed x).named = left :=
      List.filter_congr fun r _ => congrArg Bool.not (leavingGens_contains s x r)
    have hfaulted : faulted ↔ x.faultMode = .halt ∧ s.latchesClear (s.unaggressed x) = false := by
      rw [latchesClear_eq_false, hnamed]
    refine ⟨hstarted.withdrawn, fun hlink hfault => ⟨?_, fun hqueue horder => ?_⟩, fun hlink hgoes => ?_⟩
    · obtain ⟨hhalt, hclear⟩ := hfaulted.mp hfault
      exact hstarted.faulted hlink hhalt hclear
    · have hbarred : (s.working .semSet p tag).barred w := fun y hy _ _ => by
        obtain rfl := Option.some.inj (hwin.symm.trans hy)
        exact hfaulted.mp hfault
      have hwithout : (s.working .semSet p tag).setupWithout w := ⟨hqueue, horder⟩
      obtain ⟨hafter, hwaiting⟩ := doSets_without set.2.2 ((takeSet_turn _ k).barred hbarred)
        (takeSet_without k hbarred hwithout)
      exact ⟨hafter, fun g hg => (hwaiting g hg).1⟩
    · have hrecord := hstarted.setup hlink fun h => hgoes (hfaulted.mpr h)
      rw [← hnamed]
      exact hrecord

end
